-- ==== Sys2Proof/Word.lean ====
section
/-! DEFINITION. The word types of the SV8 (00_scope R11: a byte is 8 bits, a word 32, a doubleword 64) and the keys that number
dies, cores, quads and harts over the pod. -/

namespace Sys2Proof

/-- A doubleword: a scalar register, an address, a doubleword of a table. -/
abbrev Word := BitVec 64

/-- A byte of memory. -/
abbrev Byte := BitVec 8

/-- A vector register, 05_registers R80. -/
abbrev VecReg := BitVec 1024

/-- A die of the pod: 4 × package + die (02_machine R16, R17). -/
abbrev DieKey := Nat

/-- A core of the pod: 1,536 × package + LCORE (02_machine R19). -/
abbrev CoreKey := Nat

/-- A quad of the pod: 96 × die key + logical quad (02_machine R19). -/
abbrev QuadKey := Nat

/-- The harts of the package, 02_machine R20. A bound or migratory thread is a context of a core; which of the two it is, is state. -/
inductive HartId where
  | ctx (core : CoreKey) (slot : Nat)
  | handler (die : DieKey) (n : Nat)
  | loader (core : CoreKey)
  | storer (core : CoreKey)
  | tsc (die : DieKey) (n : Nat)
  | gather (die : DieKey)
  | expander (quad : QuadKey)
  deriving DecidableEq, Repr

/-- The engines a core commands through a two-entry command queue, 14_queues R233. -/
inductive Engine where
  | ssu | loader | storer | operandQueue | gather
  deriving DecidableEq, Repr

end Sys2Proof
end

