-- ==== Sys2Proof/Config.lean ====
section
/-! DEFINITION. What an implementation fixes and the spec leaves open, as constants without a body (free values), and the fixed sizes
of the part. -/

namespace Sys2Proof.Config

/-- A value the spec leaves open, a fresh one for each count of the state's counter of free values (log entry 3). Nothing says what
it is, so a claim holds whatever it is. -/
opaque freeWord : Nat → Word

/-- Lines the model's L1 holds: 64 KiB of 64-byte lines (10_memories R164). -/
def l1Lines : Nat := 1024

/-- Entries of a core's write-through buffer (20_order_agent_core R330). -/
def writeBufferSize : Nat := 32

/-- Cores, quads and handler contexts of a die (02_machine R17, R19). -/
def coresPerDie : Nat := 384
def quadsPerDie : Nat := 96
def handlersPerDie : Nat := 16

/-- The allocatable contexts of a core (05_registers R86). -/
def allocatable : Nat := 60

/-- Restarts of an idempotent region before POISON (11_memory_instructions R193, R194). -/
def maxRestarts : Nat := 3

end Sys2Proof.Config
end

