-- ==== Sys2Proof/Syntax.lean ====
section
/-! DEFINITION. The operations of the SV8: one constructor of `Instr` for each row of the table of operations and events.

An instruction's operands are the FIELDS OF ITS SLOT (`Slot`, 03_instruction_lines R43) and an event's are what the outside world and
the other agents chose (`EventArg`); the switch marker (bit 95) belongs to the slot (R41). The constructors carry none of them: the
machine holds the slot it executes in its instruction register and the arguments of the event that happens beside it
(Machine/State.lean, `ir` and `ev`), because the compiled form of a Lean inductive cannot have more than 244 constructors that carry
data and this table has 391 rows. An operation with its operands is the pair of a constructor and a `Slot`. -/

namespace Sys2Proof

/-- The fields of a slot beside the marker and the opcode, 03_instruction_lines R43. -/
structure Slot where
  d : BitVec 5 := 0
  a : BitVec 5 := 0
  b : BitVec 5 := 0
  c : BitVec 5 := 0
  ty : BitVec 5 := 0
  path : BitVec 4 := 0
  rm : BitVec 3 := 0
  misc : BitVec 6 := 0
  imm : BitVec 48 := 0
  deriving DecidableEq, Repr

/-- What a host's launch packet carries (16_dispatch R270), with the owner domain of its fabric header. `reserved` is the
reserved bits of the payload, gathered: 0 when every one of them is zero. -/
structure LaunchPacket where
  owner : BitVec 12 := 0
  kind : BitVec 8 := 1
  migratory : Bool := false
  sharedImage : Bool := false
  reserved : Word := 0
  identity : BitVec 32 := 0
  descriptor : Word := 0
  image : Word := 0
  coreCount : BitVec 16 := 0
  firstCore : BitVec 16 := 0
  seed : Word := 0
  record : Word := 0
  mailbox : Word := 0
  deriving DecidableEq, Repr

/-- The part of the configuration image that the model reads for one die (29_fabric_system R382): whether its signature passes, the
enabled quads and arrays, the column repairs of each array, the cache-line repairs, the logical order, and INCARN at power-on. -/
structure ConfigImage where
  signed : Bool := true
  quads : BitVec 104 := 0
  arrays : BitVec 104 := 0
  columns : List (Nat × Nat) := []
  lines : List Nat := []
  order : List Nat := []
  incarn : BitVec 16 := 0
  deriving DecidableEq, Repr

/-- What an event's step is told: where it happens and what the outside world or the other agent chose (95_what_each_step_holds).
Each event's constructor says which of these it reads. -/
structure EventArg where
  hart : HartId := .ctx 0 0
  writer : Option HartId := none
  site : Nat := 0
  n : Nat := 0
  k : Nat := 0
  m : Nat := 0
  value : Word := 0
  wide : BitVec 512 := 0
  again : BitVec 512 := 0
  flag : Bool := false
  engine : Engine := .ssu
  shift : Int := 0
  packet : LaunchPacket := {}
  image : ConfigImage := {}
  deriving DecidableEq, Repr

/-- The operations and events of the SV8, one constructor per row of the table. -/
inductive Instr where
  /-- R93. Register form: writes Wrap(A + B, w) into d. -/
  | add
  /-- R93. Register form: writes Wrap(A − B, w) into d. -/
  | sub
  /-- R93. Register form: writes Wrap(A × B, w) into d. -/
  | mul
  /-- R93. Register form: writes the high w bits of the exact product A × B. -/
  | mulh
  /-- R94. Register form: divides A by B, truncating, with fixed results for B = 0 and for overflow. -/
  | div
  /-- R94. Register form: writes the remainder A − B × Q, which has the sign of A. -/
  | rem
  /-- R93. Register form: bitwise AND of A and B. -/
  | and
  /-- R93. Register form: bitwise OR of A and B. -/
  | or
  /-- R93. Register form: bitwise XOR of A and B. -/
  | xor
  /-- R93. Register form: A AND NOT B. -/
  | andn
  /-- R95. Register form: shifts A left by B mod w, filling with zeros. -/
  | shl
  /-- R95. Register form: shifts A right by B mod w, filling with zeros. -/
  | shr
  /-- R95. Register form: shifts A right by B mod w, filling with copies of the sign bit. -/
  | sar
  /-- R95. Register form: rotates the w bits of A left by B mod w. -/
  | rol
  /-- R93. Register form: the smaller of A and B, in the type's signedness. -/
  | min
  /-- R93. Register form: the larger of A and B, in the type's signedness. -/
  | max
  /-- R93. Register form: saturating A + B. -/
  | addsat
  /-- R93. Register form: saturating A − B. -/
  | subsat
  /-- R93. Register form: writes 1 if A < B, else 0. -/
  | slt
  /-- R93. Register form: writes 1 if A = B, else 0. -/
  | seq
  /-- R97. Register form: writes B if A ≠ 0, else C. -/
  | sel
  /-- R97. Register form: writes Wrap(A × B + C, w). -/
  | madd
  /-- R98. Register form: extracts a bit field of A whose position and length come from register b. -/
  | bext
  /-- R98. Register form: inserts the low bits of A into a bit field of d. -/
  | bins
  /-- R93. Register form: copies A into d. -/
  | mov
  /-- R96. Counts the leading zeros of A. -/
  | clz
  /-- R96. Counts the trailing zeros of A. -/
  | ctz
  /-- R96. Counts the ones in A. -/
  | popc
  /-- R93. Writes A with its bytes in reverse order. -/
  | bswap
  /-- R93. Writes Wrap(|A|, w). -/
  | abs
  /-- R93. Immediate form of add. -/
  | addImm
  /-- R93. Immediate form of sub. -/
  | subImm
  /-- R93. Immediate form of mul. -/
  | mulImm
  /-- R93. Immediate form of mulh. -/
  | mulhImm
  /-- R94. Immediate form of div. -/
  | divImm
  /-- R94. Immediate form of rem. -/
  | remImm
  /-- R93. Immediate form of and. -/
  | andImm
  /-- R93. Immediate form of or. -/
  | orImm
  /-- R93. Immediate form of xor. -/
  | xorImm
  /-- R93. Immediate form of andn. -/
  | andnImm
  /-- R95. Immediate form of shl. -/
  | shlImm
  /-- R95. Immediate form of shr. -/
  | shrImm
  /-- R95. Immediate form of sar. -/
  | sarImm
  /-- R95. Immediate form of rol. -/
  | rolImm
  /-- R93. Immediate form of min. -/
  | minImm
  /-- R93. Immediate form of max. -/
  | maxImm
  /-- R93. Immediate form of addsat. -/
  | addsatImm
  /-- R93. Immediate form of subsat. -/
  | subsatImm
  /-- R93. Immediate form of slt. -/
  | sltImm
  /-- R93. Immediate form of seq. -/
  | seqImm
  /-- R97. Selects between two 24-bit immediates by whether A ≠ 0. -/
  | selImm
  /-- R97. Writes Wrap(A × m + k, w) with two 24-bit immediates. -/
  | maddImm
  /-- R98. Extracts a bit field whose position and length come from the immediate. -/
  | bextImm
  /-- R98. Inserts a bit field whose position and length come from the immediate. -/
  | binsImm
  /-- R93. Writes the immediate B into d. -/
  | movImm
  /-- R100. Floating add with one rounding. -/
  | fadd
  /-- R100. Floating subtract with one rounding. -/
  | fsub
  /-- R100. Floating multiply with one rounding. -/
  | fmul
  /-- R100. Floating divide with one rounding. -/
  | fdiv
  /-- R100. Floating square root with one rounding. -/
  | fsqrt
  /-- R100. Fused A × B + C with a single rounding. -/
  | fma
  /-- R101. The smaller of A and B, with the NaN rules of fmin. -/
  | fmin
  /-- R101. The larger of A and B, with the NaN rules of fmax. -/
  | fmax
  /-- R101. Clears the sign bit of A. -/
  | fabs
  /-- R101. Inverts the sign bit of A. -/
  | fneg
  /-- R101. Writes A with the sign of B. -/
  | fsgnj
  /-- R102. Writes 1 when A = B in floating comparison. -/
  | fcmpeq
  /-- R102. Writes 1 when A < B in floating comparison. -/
  | fcmplt
  /-- R102. Writes 1 when A ≤ B in floating comparison. -/
  | fcmple
  /-- R102. Writes a one-hot class mask of A. -/
  | fclass
  /-- R103. Converts between floating formats, with optional saturation into E4M3. -/
  | fcvt
  /-- R103. Converts a floating value to an integer, saturating. -/
  | fcvti
  /-- R103. Converts an integer to a floating format. -/
  | icvtf
  /-- R104. Branches to the displacement target when A = B. -/
  | beq
  /-- R104. Branches when A ≠ B. -/
  | bne
  /-- R104. Branches when A < B in the type's signedness. -/
  | blt
  /-- R104. Branches when A ≥ B in the type's signedness. -/
  | bge
  /-- R105. Transfers to the displacement target. -/
  | jmp
  /-- R105. Transfers to the PC held in register a, checked at fetch. -/
  | jmpr
  /-- R106. Waits for outstanding results, slides the window up by n and writes the frame pair, then transfers. -/
  | call
  /-- R106. As call, to the PC held in register a. -/
  | callr
  /-- R83. Checks the frame base and return PC, slides the window back and returns. -/
  | ret
  /-- R108. Sets a loop counter from an immediate count, with its start, end and reload bounds. -/
  | loopImm
  /-- R108. Sets a loop counter from the count in register a. -/
  | loopReg
  /-- R111. Holds the thread at its PC until the quad's sibling threads arrive at the same align. -/
  | align
  /-- R112. Has no effect. -/
  | nop
  /-- R156. Enters the trap routine with cause TRAP and the operand n. -/
  | trap
  /-- R157. Returns from a trap: slides the window back, restores the mode and resumes at XPC. -/
  | xret
  /-- R192. Opens an idempotent region with RPC at its successor. -/
  | region
  /-- R192. Waits for outstanding results and closes the idempotent region. -/
  | regend
  /-- R112. Stops a companion or firmware hart until its next start event. -/
  | halt
  /-- R178. Loads a scalar from base plus offset. -/
  | ld
  /-- R178. Stores a scalar to base plus offset. -/
  | st
  /-- R178. Loads a scalar from base plus scaled index plus offset. -/
  | ldx
  /-- R178. Stores a scalar to base plus scaled index plus offset. -/
  | stx
  /-- R183. Waits for a scratchpad lock bit, takes it and loads in the same cycle. -/
  | ldlk
  /-- R183. Stores to scratchpad and clears the held lock bit in the same cycle. -/
  | stul
  /-- R185. An atomic read-modify-write at the home, within the package. -/
  | amo
  /-- R186. A token-protected atomic read-modify-write, which may be retried across the pod. -/
  | amor
  /-- R185. Atomic compare-and-swap at the home, within the package. -/
  | cas
  /-- R186. Token-protected compare-and-swap that may be retried. -/
  | casr
  /-- R189. An acquire, release or both, at a scope. -/
  | fence
  /-- R191. Waits until every earlier access has its status, then returns SFC and clears it. -/
  | drainst
  /-- R180. A prefetch hint, which never faults. -/
  | pf
  /-- R179. A load bound to an acquire fence of its scope. -/
  | ldacq
  /-- R179. A release fence of its scope followed by a store. -/
  | strel
  /-- R158. Reads a system register. -/
  | sysr
  /-- R158. Writes a system register at the end of its issue cycle. -/
  | sysw
  /-- R296. Writes a TLB entry and retries the merged misses, or parks them with the fault bit. -/
  | tlbw
  /-- R297. Removes TLB entries package-wide and waits until the accesses that used them are done. -/
  | tlbinv
  /-- R298. Retries the parked accesses of the die or the package in parking order. -/
  | replay
  /-- R189. Invalidates every line of the core's L1. -/
  | l1inv
  /-- R324. Reads an event counter's count. -/
  | ecrd
  /-- R324. Configures an event counter and zeroes its count. -/
  | ecset
  /-- R324. Zeroes an event counter's count and OV. -/
  | ecclr
  /-- R163. Requests pre-emption of a named context and returns a status. -/
  | ctxsave
  /-- R163. Makes a pre-empted context Ready or Waiting and returns a status. -/
  | ctxload
  /-- R299. Waits for and pops the oldest TLB-miss message. -/
  | wfm
  /-- R249. Allocates a future cell and a context and starts a child thread. -/
  | spawn
  /-- R252. Releases and sends an element task to its home dispatcher. -/
  | post
  /-- R250. Drains, joins children, releases, fills the parent's future and ends the thread. -/
  | done
  /-- R253. A switch point that puts the thread behind its peers of equal priority. -/
  | yield
  /-- R251. Reads a full future and acquires, or makes the thread Waiting. -/
  | fget
  /-- R251. Releases and fills a future cell named by its handle. -/
  | fput
  /-- R251. Allocates an empty future cell owned by the thread. -/
  | fputNew
  /-- R251. Reports whether a future cell is full. -/
  | fpoll
  /-- R254. Releases and arrives at a scoped barrier instance, then waits. -/
  | bar
  /-- R258. Sends an active message to a route tag. -/
  | amsg
  /-- R258. Allocates a reply cell and sends an active message that carries its handle. -/
  | amsgr
  /-- R260. Ends a handler, releasing and sending its reply when one is due. -/
  | hret
  /-- R257. Sends m bytes from memory as one message to a ring. -/
  | enq
  /-- R256. Sends n register words as one message to a ring. -/
  | send
  /-- R256. Waits for a landed message, copies it into registers and frees it. -/
  | recv
  /-- R262. Moves the thread's held speculative packets into the send queue. -/
  | commit
  /-- R262. Drops the thread's held speculative packets. -/
  | abort
  /-- R265. Releases and queues a start of the loader or the storer. -/
  | kick
  /-- R266. Waits for a full mailbox, reads it, clears it and acquires. -/
  | mbwait
  /-- R261. Sets a TAGEN bit, or adds a local pending message. -/
  | tagset
  /-- R261. Clears a TAGEN bit, or removes locally added pending messages. -/
  | tagclr
  /-- R267. Allocates a cell, releases and queues a gather command. -/
  | gath
  /-- R267. Allocates a cell, releases and queues a scatter command. -/
  | scat
  /-- R221. Releases, registers a new revision and starts a child in it. -/
  | fork
  /-- R225. Waits for the child, merges its revision into the parent and acquires. -/
  | join
  /-- R229. Stops a child if Live and discards its revision without merging. -/
  | rdrop
  /-- R230. Returns revision state, tarn use, quota or REVID. -/
  | rquery
  /-- R264. Sets a ring's capacity and base and resets its counters. -/
  | rnginit
  /-- R264. Appends a one-slot headerless message to a ring. -/
  | rngput
  /-- R264. Pops one word from a ring. -/
  | rngget
  /-- R264. Reads a doubleword of the head message without freeing it. -/
  | rngpeek
  /-- R264. Stores the head message to memory, then frees it. -/
  | rngadv
  /-- R264. Frees the head message of a ring. -/
  | rngfree
  /-- R264. Reads m bytes from memory and appends them as one message. -/
  | rngfill
  /-- R269. The gather engine sends one fabric request and gets a request tag. -/
  | freq
  /-- R269. The gather engine takes the next fabric reply. -/
  | fresp
  /-- R121. Vector form: element-wise add. -/
  | vadd
  /-- R121. Vector form: element-wise subtract. -/
  | vsub
  /-- R121. Vector form: element-wise multiply. -/
  | vmul
  /-- R121. Vector form: element-wise high product. -/
  | vmulh
  /-- R121. Vector form: element-wise divide. -/
  | vdiv
  /-- R121. Vector form: element-wise fused multiply-add. -/
  | vfma
  /-- R121. Vector form: element-wise minimum. -/
  | vmin
  /-- R121. Vector form: element-wise maximum. -/
  | vmax
  /-- R121. Vector form: element-wise saturating add. -/
  | vaddsat
  /-- R121. Vector form: element-wise saturating subtract. -/
  | vsubsat
  /-- R121. Vector form: element-wise AND. -/
  | vand
  /-- R121. Vector form: element-wise OR. -/
  | vor
  /-- R121. Vector form: element-wise XOR. -/
  | vxor
  /-- R121. Vector form: element-wise AND NOT. -/
  | vandn
  /-- R121. Vector form: element-wise shift left. -/
  | vshl
  /-- R121. Vector form: element-wise logical shift right. -/
  | vshr
  /-- R121. Vector form: element-wise arithmetic shift right. -/
  | vsar
  /-- R123. Vector form: writes a mask of equal elements. -/
  | vcmpeq
  /-- R123. Vector form: writes a mask of less-than elements. -/
  | vcmplt
  /-- R123. Vector form: writes a mask of less-or-equal elements. -/
  | vcmple
  /-- R124. Vector form: selects A where the mask is active, else B. -/
  | vsel
  /-- R121. Element-wise square root. -/
  | vsqrt
  /-- R121. Element-wise absolute value. -/
  | vabs
  /-- R121. Element-wise negation. -/
  | vneg
  /-- R126. Converts elements between types, narrowing or widening by part. -/
  | vcvt
  /-- R121. Element-wise floating class mask. -/
  | vclass
  /-- R121. Element-wise population count. -/
  | vpopc
  /-- R121. Element-wise count of leading zeros. -/
  | vclz
  /-- R120. Broadcast form of vadd, with scalar B. -/
  | vaddBcast
  /-- R120. Broadcast form of vsub. -/
  | vsubBcast
  /-- R120. Broadcast form of vmul. -/
  | vmulBcast
  /-- R120. Broadcast form of vmulh. -/
  | vmulhBcast
  /-- R120. Broadcast form of vdiv. -/
  | vdivBcast
  /-- R120. Broadcast form of vfma. -/
  | vfmaBcast
  /-- R120. Broadcast form of vmin. -/
  | vminBcast
  /-- R120. Broadcast form of vmax. -/
  | vmaxBcast
  /-- R120. Broadcast form of vaddsat. -/
  | vaddsatBcast
  /-- R120. Broadcast form of vsubsat. -/
  | vsubsatBcast
  /-- R120. Broadcast form of vand. -/
  | vandBcast
  /-- R120. Broadcast form of vor. -/
  | vorBcast
  /-- R120. Broadcast form of vxor. -/
  | vxorBcast
  /-- R120. Broadcast form of vandn. -/
  | vandnBcast
  /-- R120. Broadcast form of vshl. -/
  | vshlBcast
  /-- R120. Broadcast form of vshr. -/
  | vshrBcast
  /-- R120. Broadcast form of vsar. -/
  | vsarBcast
  /-- R120. Broadcast form of vcmpeq. -/
  | vcmpeqBcast
  /-- R120. Broadcast form of vcmplt. -/
  | vcmpltBcast
  /-- R120. Broadcast form of vcmple. -/
  | vcmpleBcast
  /-- R120. Broadcast form of vsel. -/
  | vselBcast
  /-- R120. Immediate form of vadd. -/
  | vaddImm
  /-- R120. Immediate form of vsub. -/
  | vsubImm
  /-- R120. Immediate form of vmul. -/
  | vmulImm
  /-- R120. Immediate form of vmulh. -/
  | vmulhImm
  /-- R120. Immediate form of vdiv. -/
  | vdivImm
  /-- R120. Immediate form of vfma. -/
  | vfmaImm
  /-- R120. Immediate form of vmin. -/
  | vminImm
  /-- R120. Immediate form of vmax. -/
  | vmaxImm
  /-- R120. Immediate form of vaddsat. -/
  | vaddsatImm
  /-- R120. Immediate form of vsubsat. -/
  | vsubsatImm
  /-- R120. Immediate form of vand. -/
  | vandImm
  /-- R120. Immediate form of vor. -/
  | vorImm
  /-- R120. Immediate form of vxor. -/
  | vxorImm
  /-- R120. Immediate form of vandn. -/
  | vandnImm
  /-- R120. Immediate form of vshl. -/
  | vshlImm
  /-- R120. Immediate form of vshr. -/
  | vshrImm
  /-- R120. Immediate form of vsar. -/
  | vsarImm
  /-- R120. Immediate form of vcmpeq. -/
  | vcmpeqImm
  /-- R120. Immediate form of vcmplt. -/
  | vcmpltImm
  /-- R120. Immediate form of vcmple. -/
  | vcmpleImm
  /-- R120. Immediate form of vsel. -/
  | vselImm
  /-- R182. Loads the active elements of a vector register from contiguous memory. -/
  | vld
  /-- R182. Stores the active elements of a vector register to contiguous memory. -/
  | vst
  /-- R182. Strided vector load. -/
  | vlds
  /-- R182. Strided vector store. -/
  | vsts
  /-- R182. Indexed vector load. -/
  | vldx
  /-- R182. Indexed vector store. -/
  | vstx
  /-- R127. Permutes the elements of a by the indices in b. -/
  | vperm
  /-- R127. Broadcasts a scalar, or one element of a, to every active element. -/
  | vbcast
  /-- R127. Slides elements by a signed immediate, filling with zeros. -/
  | vslide
  /-- R127. Extracts one element into a scalar register. -/
  | vext
  /-- R127. Inserts a scalar into one element. -/
  | vins
  /-- R129. Sums the active elements with an initial value by a fixed pairwise tree. -/
  | vredsum
  /-- R129. Minimum reduction by the fixed tree. -/
  | vredmin
  /-- R129. Maximum reduction by the fixed tree. -/
  | vredmax
  /-- R129. Bitwise AND reduction. -/
  | vredand
  /-- R129. Bitwise OR reduction. -/
  | vredor
  /-- R129. Bitwise XOR reduction. -/
  | vredxor
  /-- R130. Inclusive prefix sum over the active elements in ascending order. -/
  | vscan
  /-- R131. Decodes CB8 indices through the quad's shell table. -/
  | vcbdec
  /-- R132. Keeps each weight with a probability set by τ, drawing once per active element. -/
  | prune
  /-- R128. Packs the active elements to the low elements and zeroes the rest. -/
  | vcompress
  /-- R128. Spreads the low elements into the active positions. -/
  | vexpand
  /-- R127. Copies the active elements of a to d. -/
  | vmv
  /-- R133. AND of two mask registers. -/
  | kand
  /-- R133. OR of two mask registers. -/
  | kor
  /-- R133. XOR of two mask registers. -/
  | kxor
  /-- R133. NOT of a mask register. -/
  | knot
  /-- R133. Copies a mask register. -/
  | kmov
  /-- R133. Counts the ones of a mask into a scalar. -/
  | kpop
  /-- R133. Writes the index of a mask's lowest set bit, or 32 when it is empty. -/
  | kfirst
  /-- R133. Sets a mask from a scalar or an immediate. -/
  | kset
  /-- R133. Reads a mask into a scalar. -/
  | kget
  /-- R142. Generates a stream from a class generator and an immediate probability. -/
  | qgen
  /-- R143. Bitwise AND of two uncorrelated streams. -/
  | qand
  /-- R143. Bitwise XNOR of two uncorrelated streams. -/
  | qxnor
  /-- R143. AND of two fully correlated streams. -/
  | qmin
  /-- R143. OR of two fully correlated streams. -/
  | qmax
  /-- R143. Selects bits from a or b by a select stream. -/
  | qmux
  /-- R144. Regenerates a stream's value under a new class and length. -/
  | qregen
  /-- R145. Counts the ones of a stream into a scalar. -/
  | qcount
  /-- R145. Adds a stream's count of ones to a scalar. -/
  | qsum
  /-- R145. Converts a stream to a binary value in units of 2⁻¹⁶. -/
  | qtob
  /-- R142. Generates a stream whose probability comes from a scalar register. -/
  | btoq
  /-- R142. Generates a stream whose probability comes from a vector lane. -/
  | vbtoq
  /-- R143. Inverts a stream. -/
  | qnot
  /-- R143. Copies a stream. -/
  | qmov
  /-- R146. Loads a stream image when the SSU executes the command. -/
  | qld
  /-- R146. Stores a stream image when the SSU executes the command. -/
  | qst
  /-- R147. Sets a class generator's mode and zeroes its counter. -/
  | qcfg
  /-- R147. Reseeds a class generator from the thread generator. -/
  | qseed
  /-- R198. Arrives at the quad's wired barrier and waits for all four cores. -/
  | gang
  /-- R200. Gang-issued matrix multiply-accumulate of M rows into the core's slice. -/
  | mmac
  /-- R202. Gang-issued block-diagonal 16 × 16 multiply-accumulate. -/
  | mbmac
  /-- R203. Zeroes the rows of a tile of the core's slice. -/
  | mclr
  /-- R204. Scales the tile's entries in place into binary64. -/
  | mscacc
  /-- R203. Reads one raw accumulator entry of the core's slice. -/
  | rdacc
  /-- R203. Writes one accumulator entry of the core's slice. -/
  | wracc
  /-- R203. Loads a tile of the slice from memory through the load pipes. -/
  | ldacc
  /-- R203. Stores a tile of the slice to memory through the load pipes. -/
  | stacc
  /-- R206. Loads the slice's stationary B operand. -/
  | oqld
  /-- R206. Sets QSHARE for later gang operations. -/
  | oqcfg
  /-- R207. Reads the slice's RP and RESTART in the core's order. -/
  | mrow
  /-- R205. Loads shell-table entries, all written at completion. -/
  | cbload
  /-- R211. Gang-issued tensor contraction expanded by the contraction expander. -/
  | contract
  /-- R207. Waits for the thread's matrix commands, then returns and clears MSTAT. -/
  | mwait
  /-- R41. An outstanding result returns and is written to its register, possibly making a parked thread eligible. Event; of its arguments it reads hart, n (the i). -/
  | resultWriteback
  /-- R162. A pending pre-emption takes effect at a switch point or after 64 cycles and writes the image. Event; of its arguments it reads hart. -/
  | preEmption
  /-- R54. A fetched line arrives at the quad fetch port and is parity checked, with one refetch before PIPEERR. Event; of its arguments it reads hart; wide and again (the bits the two deliveries of the line arrive with flipped). -/
  | instructionLineFill
  /-- R85. The context engine refills a missing frame and the stalled thread may go on. Event; of its arguments it reads hart, n (the frame), flag (bad). -/
  | frameRefill
  /-- R88. A gated context-cache bank wakes 40 cycles after a miss. Event; of its arguments it reads site (the core), n (the bank). -/
  | contextBankWake
  /-- R24. A migrating thread's message arrives at its home quad and is unpacked or refused. Event; of its arguments it reads hart, flag (bad). -/
  | migrationArrival
  /-- R89. A deposit message lands in a thread's window register, or is refused and counted. Event; of its arguments it reads hart (the target), n (its register), value, writer (who is acknowledged). -/
  | deposit
  /-- R115. A word leaves a mesh send buffer and arrives at the neighbour's receive buffer. Event; of its arguments it reads site (the core), n (the port). -/
  | meshDelivery
  /-- R21. An engine accepts a command from its two-entry command queue. Event; of its arguments it reads site (the core), engine. -/
  | engineAccept
  /-- R135. The SSU executes the next queued command of a thread. Event; of its arguments it reads site (the core), flag (pipeerr). -/
  | ssuCommandExecute
  /-- R198. The array starts a gang operation once its commands have arrived and earlier ones are complete. Event; of its arguments it reads site (the quad). -/
  | gangOperationStart
  /-- R196. A non-accumulating matrix command reaches the head of its core's order and starts. Event; of its arguments it reads site (the quad), n (the pos). -/
  | matrixCommandStart
  /-- R207. A matrix command completes and ORs its flags into its thread. Event; of its arguments it reads site (the quad), n (the pos). -/
  | matrixCommandComplete
  /-- R208. A load-pipe access fails and stops the slice at RP, setting MSTAT. Event; of its arguments it reads site (the quad), n (the pos). -/
  | loadPipeFailure
  /-- R211. The contraction expander reads and checks the parameter block and expands it into gang operations. Event; of its arguments it reads site (the quad), flag (fault). -/
  | contractionExpand
  /-- R265. A halted loader or storer takes its next kick, scans its store and starts. Event; of its arguments it reads site (the core), flag (storer). -/
  | companionStart
  /-- R51. A device-control write requests a page's execute grant and starts the scanner. Event; of its arguments it reads writer, site (the die), n (the frame), flag (the write stands in slot i + 1). -/
  | executeGrantRequest
  /-- R51. The scanner finishes a page, setting the grant or raising CODE-REJECT. Event; of its arguments it reads site (the die). -/
  | codePageScanDone
  /-- R51. Clearing a page's grant invalidates its instruction-cache lines and execute permissions. Event; of its arguments it reads site (the die), n (the frame). -/
  | executeGrantClear
  /-- R149. A supervisor store to TENTRY is accepted or refused by the target check. Event; of its arguments it reads writer, site (the die), value. -/
  | tentryWrite
  /-- R84. A supervisor store to a core's stack-pool pair, checked for alignment. Event; of its arguments it reads writer, site (the die), n (the off), value. -/
  | stackPoolWrite
  /-- R235. A path-6 store to a ring descriptor, accepted only when the ring is idle. Event; of its arguments it reads writer, site (the die), n (the off), value. -/
  | ringDescriptorWrite
  /-- R190. A store to the store-fault control word sets head and count and may clear overflow. Event; of its arguments it reads writer, site (the die), n (the off), value. -/
  | sfqControlWrite
  /-- R242. A store to the merge-conflict control word sets head and count and may clear overflow. Event; of its arguments it reads writer, site (the die), value. -/
  | mcqControlWrite
  /-- R305. A store to an access-table entry, which takes effect for checks in its cycle, including revocation. Event; of its arguments it reads writer, site (the die), n (the off), value. -/
  | accessTableWrite
  /-- R346. A load of a revoked access entry returns once every earlier admitted access is done. Event; of its arguments it reads hart. -/
  | revokedEntryRead
  /-- R315. A store to a time-table slot, which governs later due times and may clear a pending launch. Event; of its arguments it reads writer, site (the die), n (the off), value. -/
  | timeSlotWrite
  /-- R316. A store to a merge-type region table, checked for quota, overlap, code and live revisions. Event; of its arguments it reads writer, site (the die), n (the off), value. -/
  | mergeTableWrite
  /-- R322. A path-6 store to an event counter's configuration or count. Event; of its arguments it reads writer, site (the die), n (the off), value. -/
  | eventCounterWrite
  /-- R306. The management controller writes the next key of an owner domain. Event; of its arguments it reads site (the die), n (the owner domain), wide (the key). -/
  | ownerKeyWrite
  /-- R306. A promotion of the next key takes effect at each port. Event; of its arguments it reads site (the die), n (the domain). -/
  | keyPromote
  /-- R170. Any other path-6 store to the die control block, discarded and recorded when unassigned or read-only. Event; of its arguments it reads writer, site (the die), n (the off), value. -/
  | controlBlockWrite
  /-- R379. A store of 1 to offset 0x01A0 stops the die, sends its down notice and begins the drain. Event; of its arguments it reads writer, site (the die). -/
  | dieReset
  /-- R379. A neighbour receives a down notice and routes transit traffic around the die. Event; of its arguments it reads site (the die). -/
  | dieDownNotice
  /-- R379. After 20 µs or empty queues the drain ends, remaining flits are lost and the state is cleared. Event; of its arguments it reads site (the die). -/
  | dieResetDrainEnd
  /-- R379. INCARN rises and the die announces itself up. Event; of its arguments it reads site (the die), image. -/
  | dieResetComplete
  /-- R382. The configuration image is supplied and checked, and it sets repair, numbering and INCARN. Event; of its arguments it reads site (the die), image. -/
  | powerOn
  /-- R384. Power or temperature over the limit makes the package insert idle cycles. Event; of its arguments it reads site (the package). -/
  | throttle
  /-- R384. At 115 °C the management controller removes power. Event; of its arguments it reads site (the package). -/
  | powerRemoved
  /-- R233. A launch packet enters a die's launch queue. Event; of its arguments it reads site (the die), packet. -/
  | launchArrival
  /-- R271. The launch unit takes the next packet, checks it and the descriptor, reads the time and makes leases resident. Event; of its arguments it reads site (the die). -/
  | launchStart
  /-- R273. Another package receives a launch's descriptor and makes its leases resident. Event; of its arguments it reads site (the die). -/
  | launchDescriptorRemote
  /-- R271. The context engine fills a first thread into a free slot and it starts. Event; of its arguments it reads site (the launch). -/
  | firstThreadStart
  /-- R275. A time-table slot falls due and launches, resumes, pends or skips. Event; of its arguments it reads site (the die), n (the slot), k (the period). -/
  | slotDue
  /-- R275. A slot's budget passes and its launch is pre-empted and held. Event; of its arguments it reads site (the die), n (the slot). -/
  | slotBudgetExpiry
  /-- R276. A queue-one pending launch starts in the cycle after the previous record is written. Event; of its arguments it reads site (the die), n (the slot). -/
  | pendingLaunchStart
  /-- R288. The launch count reaches zero, so the record is written, leases are unpinned and the mailbox is released. Event; of its arguments it reads site (the launch). -/
  | launchCompletion
  /-- R274. An IEEE 1588 message slews or steps the package time counter. Event; of its arguments it reads site (the package), shift. -/
  | timeSyncMessage
  /-- R244. A posted task reaches its home dispatcher and enters a ready queue, or the spill area. Event; of its arguments it reads site (the die). -/
  | postArrival
  /-- R280. The dispatcher reserves a context and starts acquiring a task's sorted neighbourhood. Event; of its arguments it reads site (the die). -/
  | acquisitionStart
  /-- R281. An owning die sets a remote run all-or-nothing, or replies with a conflict. Event; of its arguments it reads site (the die). -/
  | exclusionRequest
  /-- R281. A reply to a remote run arrives and the acquisition moves on, or releases and requeues. Event; of its arguments it reads site (the die). -/
  | exclusionReply
  /-- R281. A fully acquired task issues into its reserved context with acquire. Event; of its arguments it reads site (the die), n (the acq). -/
  | taskIssue
  /-- R385. A husk learns of an older husk, releases its elements and withdraws its marks. Event; of its arguments it reads site (the die). -/
  | huskYield
  /-- R385. A yielded husk restarts its walk once the blocking element is free. Event; of its arguments it reads site (the die), n (the acq). -/
  | huskRestart
  /-- R284. A task-end message reaches the dispatcher, which accounts it and clears the neighbourhood. Event; of its arguments it reads site (the die). -/
  | taskEnd
  /-- R285. A faulted task is requeued once after its release completes. Event; of its arguments it reads site (the die). -/
  | rePost
  /-- R259. An active message reaches its die and enters a handler or joins the tag's pending queue. Event; of its arguments it reads site (the die). -/
  | activeMessageArrival
  /-- R259. The highest-priority eligible pending message enters a handler context. Event; of its arguments it reads site (the die), flag (bad). -/
  | handlerEntry
  /-- R246. A fill reaches a future cell and fills it or is discarded as stale. Event; of its arguments it reads site (the die). -/
  | futureFill
  /-- R254. A barrier instance reaches its count and its Waiting arrivals are released. Event; of its arguments it reads site (the launch), n (the scope), k (the instance), m (the identifier). -/
  | barrierComplete
  /-- R237. An enqueue reaches the receiving interface and is reserved, made to wait, or refused. Event; of its arguments it reads site (the die). -/
  | enqueueArrival
  /-- R237. A message in a waiting slot reserves once frees make room. Event; of its arguments it reads site (the core), n (the ring). -/
  | waitingEnqueueReserve
  /-- R237. A refused reservation is asked again every 256 cycles. Event; of its arguments it reads hart. -/
  | enqueueRetry
  /-- R236. A message's last byte is written and FILLED and TAIL advance. Event; of its arguments it reads site (the core). -/
  | messageLanded
  /-- R375. A landed-message credit returns and ENQLANDED rises. Event; of its arguments it reads site (the die). -/
  | enqueueCredit
  /-- R184. A cleared scratchpad lock bit goes to the earliest waiting ldlk. Event; of its arguments it reads site (the core), n (the bank), k (the bit). -/
  | lockGrant
  /-- R268. Every element of a gather or scatter has its status, and the engine fills the cell. Event; of its arguments it reads site (the die). -/
  | gatherComplete
  /-- R294. A miss message enters a translation service core's miss queue, or merges. Event; of its arguments it reads site (the die). -/
  | tlbMiss
  /-- R303. All invalidations are acknowledged, so Lock and Moved clear and the old frame is returned. Event; of its arguments it reads site (the die), n (the frame). -/
  | pageMigrationComplete
  /-- R222. A die receives a new revision, fixes ancestors and empties the write filters. Event; of its arguments it reads site (the die). -/
  | forkRegistration
  /-- R223. A home answers a first-write question, retaining ancestors and reserving tarn lines, or refusing. Event; of its arguments it reads hart. -/
  | firstWrite
  /-- R226. A home merges one line of a joined revision element by element. Event; of its arguments it reads hart, n (the line). -/
  | merge
  /-- R225. Every home has merged, so copies and records are freed and join returns. Event; of its arguments it reads hart. -/
  | mergeComplete
  /-- R330. A buffered store is performed at its home and its write-through entry is acknowledged. Event; of its arguments it reads site (the core), n (the i). -/
  | homeStorePerform
  /-- R177. A late status returns for an access and appends a store-fault record unless it is DONE. Event; of its arguments it reads hart. -/
  | accessStatus
  /-- R187. The home performs or answers a remote atomic attempt by its token records. Event; of its arguments it reads site (the die). -/
  | atomicHomePerform
  /-- R186. The home die's INCARN answer sets the record and lets the first attempt leave. Event; of its arguments it reads site (the die). -/
  | incarnationProbeReply
  /-- R188. 262,144 cycles without a reply report LINKLOST. Event; of its arguments it reads hart. -/
  | linklostTimeout
  /-- R188. The fabric reports an unanswered request's route down, giving LINKLOST. Event; of its arguments it reads hart. -/
  | routeDownReport
  /-- R342. A destination gathers a release's markers, waits for earlier packets and acknowledges. Event; of its arguments it reads site (the die). -/
  | flushMarker
  /-- R373. A packet arrives at a port and is checked for key, incarnation and access window. Event; of its arguments it reads site (the die). -/
  | packetArrival
  /-- R374. An acknowledgement returns and the sender drops the kept packet. Event; of its arguments it reads site (the die). -/
  | acknowledgement
  /-- R374. An unacknowledged packet is retransmitted every 65,536 cycles. Event; of its arguments it reads site (the die), n (the i). -/
  | retransmit
  /-- R243. A link queue's head idle for 4,096 fabric cycles spills into the pond. Event; of its arguments it reads site (the die), n (the link), k (the vn). -/
  | linkSpill
  /-- R243. When space returns the link refills from the pond, oldest first. Event; of its arguments it reads site (the die), n (the link), k (the vn). -/
  | linkRefill
  /-- R378. A CXL access unanswered for 131,072 cycles completes with CXLERR. Event; of its arguments it reads hart, n (the i). -/
  | cxlerrTimeout
  /-- R378. A root port's link goes down and its accesses complete with CXLERR. Event; of its arguments it reads site (the die), n (the port). -/
  | cxlLinkDown
  /-- R174. Scrub reads, corrects and rewrites one line under its lock. Event; of its arguments it reads site (the die), flag (uncorrectable). -/
  | scrub
  /-- R321. The deadline passes before the pass ends and SCRUB-LATE counts. Event; of its arguments it reads site (the die). -/
  | scrubLate
  /-- R111. An align hold expires after n cycles and releases the thread. Event; of its arguments it reads hart. -/
  | alignTimeout
  /-- R163. A ctxsave or ctxload request arrives at another die on the management network. Event; of its arguments it reads site (the die). -/
  | contextRequestRemote
  /-- R281. A release message for a remote run reaches the owning die, which clears the run's held bits, passes husked elements and drops the grant-list entry. Event; of its arguments it reads site (the die). -/
  | exclusionRelease
  /-- R233. The network interface sends a packet from a core's send queue, freeing an entry and raising ENQSENT for unacknowledged enqueues. Event; of its arguments it reads site (the core), n (the vn). -/
  | packetSent
  /-- R233. A link controller sends the head flit of a link queue to the next hop. Event; of its arguments it reads site (the die), n (the link), k (the vn). -/
  | flitSent
  /-- R343. A Brixal port or die-to-die link fails, its routes go down and a link-down record enters the black box. Event; of its arguments it reads site (the die), n (the link). -/
  | linkDown
  /-- R383. A failed Brixal or die-to-die link comes up again, its routes become live and a link-up record enters the black box. Event; of its arguments it reads site (the die), n (the link). -/
  | linkUp
  /-- R378. A CXL root port's link finishes retraining, so later accesses no longer complete with CXLERR. Event; of its arguments it reads site (the die), n (the port). -/
  | cxlLinkUp
  /-- R379. A neighbour receives a reset die's announcement and marks it up again, routing traffic through it. Event; of its arguments it reads site (the die). -/
  | dieAnnounce
  /-- R88. The core gates a fully written-back context-cache bank into retention or power-off. Event; of its arguments it reads site (the core), n (the bank). -/
  | contextBankGate
  /-- R384. Package power and junction temperature fall back within their limits, and the package stops inserting idle cycles. Event; of its arguments it reads site (the package). -/
  | throttleEnd
  /-- R317. A token-area source block reaches 2^19 cycles since its last first attempt, so a waiting first attempt from a new source can take it. Event; of its arguments it reads site (the die), n (the i). -/
  | tokenBlockAgeOut
  deriving DecidableEq, Repr

end Sys2Proof
end

