-- ==== Sys2Proof/Decode.lean ====
section
/-! DEFINITION. The opcode map (03_instruction_lines R50), the code-page scanner's rules for one slot (R52), the decoder of a slot and,
after it, the encoder. The decoder is total: a slot that is no instruction is rejected with the scanner's reason. -/

namespace Sys2Proof

/-- The kind of operand a register field holds, 03_instruction_lines R44. `upTo n` is the first of a range of window registers that
must not run past x15 (17_tables_translation R295); `code` is a field that holds a code, not a register (07 R125). -/
inductive RegKind where
  | unused | scalar | vector | mask | stream | loop | bank | code
  | upTo (n : Nat)
  deriving DecidableEq, Repr

/-- What the path-or-scope field holds, R46: nothing, a path out of those listed, or a scope from 1 to 5. -/
inductive PathUse where
  | unused
  | path (ok : List Nat)
  | scope
  deriving DecidableEq, Repr

/-- Whether the instruction rounds, R47; `roundsNoSr` refuses `.sr` (07 R129, R130). -/
inductive RoundUse where
  | unused | rounds | roundsNoSr
  deriving DecidableEq, Repr

/-- The class that pairing looks at, R38. -/
inductive PairClass where
  | none | scalar | float | vector | mem | control
  deriving DecidableEq, Repr

/-- The checks that only some instructions have, each named by the rule's subject. -/
inductive SlotCheck where
  | none | convert | convertInt | direct | callDirect | callSlide | loopEnd | load | atomic | compareSwap | fenceKind | scopeMisc
  | tlbinvKind | counterNumber | spawnRange | entry | fputForm | amsgForm | amsgrForm | enqForm | sendCount | recvRange
  | forkRange | rqueryItem | freqKind | needsMask | needsMaskImm | vecImm | vecConvert | vbcastForm | cbPart | ksetForm
  | qcfgMode | bType | q20
  deriving DecidableEq, Repr

/-- How one opcode uses the fields of a slot, R49. A miscellany bit outside `miscMask` is refused with `miscReason`, a type code outside `types`
with `typeReason`: 3 (R52), but 2 where R197 or R295 says so of a field that must be zero. -/
structure OpInfo where
  d : RegKind := .unused
  a : RegKind := .unused
  b : RegKind := .unused
  c : RegKind := .unused
  types : List Nat := [0]
  typeReason : Nat := 3
  path : PathUse := .unused
  rm : RoundUse := .unused
  miscMask : Nat := 0
  miscReason : Nat := 2
  immMask : Nat := 0
  check : SlotCheck := .none
  pair : PairClass := .none
  deriving DecidableEq, Repr

/-- One row of the opcode map. -/
structure OpRow where
  op : Nat
  info : OpInfo
  instr : Instr
  deriving DecidableEq, Repr

/-- Every immediate bit. -/
def imm48 : Nat := 0xFFFFFFFFFFFF

/-- Type codes of 03_instruction_lines R45. -/
def intTypes : List Nat := [1, 2, 3, 4, 5, 6, 7, 8]
def floatTypes : List Nat := [9, 10, 11, 12, 13]
def memTypes : List Nat := [1, 2, 3, 4, 5, 6, 7, 8, 9, 10, 11, 12, 13]
def vecTypes : List Nat := [1, 2, 3, 4, 5, 6, 7, 8, 9, 10, 11, 12]
def elemTypes : List Nat := vecTypes
def cvtTypes : List Nat := memTypes
def atomTypes : List Nat := [3, 4, 7, 8, 9, 10]
/-- The A types of 12_matrix_instructions R199 (R45: any other code is reserved in these instructions); a combination with a B type that
the table does not name raises ILLCLASS at issue. -/
def matTypes : List Nat := [1, 5, 11, 12, 13]

/-- An instruction that uses no field. -/
def noInfo : OpInfo := {}
def rrInfo (types : List Nat) (b c : RegKind) : OpInfo :=
  { d := .scalar, a := .scalar, b := b, c := c, types := types, pair := .scalar }
def riInfo (types : List Nat) : OpInfo :=
  { d := .scalar, a := .scalar, types := types, immMask := imm48, pair := .scalar }
def brInfo : OpInfo :=
  { a := .scalar, b := .scalar, types := intTypes, immMask := imm48, check := .direct, pair := .control }
def vecInfo (types : List Nat) (b : RegKind) : OpInfo :=
  { d := .vector, a := .vector, b := b, types := types, miscMask := 0xF, miscReason := 3, pair := .vector }

/-- Scalar integer, register forms (06_scalar_instructions R92, R93). -/
def opsInt : List OpRow :=
  [⟨0x000, rrInfo intTypes .scalar .unused, .add⟩,
   ⟨0x001, rrInfo intTypes .scalar .unused, .sub⟩,
   ⟨0x002, rrInfo intTypes .scalar .unused, .mul⟩,
   ⟨0x003, rrInfo intTypes .scalar .unused, .mulh⟩,
   ⟨0x004, rrInfo intTypes .scalar .unused, .div⟩,
   ⟨0x005, rrInfo intTypes .scalar .unused, .rem⟩,
   ⟨0x006, rrInfo intTypes .scalar .unused, .and⟩,
   ⟨0x007, rrInfo intTypes .scalar .unused, .or⟩,
   ⟨0x008, rrInfo intTypes .scalar .unused, .xor⟩,
   ⟨0x009, rrInfo intTypes .scalar .unused, .andn⟩,
   ⟨0x00A, rrInfo intTypes .scalar .unused, .shl⟩,
   ⟨0x00B, rrInfo intTypes .scalar .unused, .shr⟩,
   ⟨0x00C, rrInfo intTypes .scalar .unused, .sar⟩,
   ⟨0x00D, rrInfo intTypes .scalar .unused, .rol⟩,
   ⟨0x00E, rrInfo intTypes .scalar .unused, .min⟩,
   ⟨0x00F, rrInfo intTypes .scalar .unused, .max⟩,
   ⟨0x010, rrInfo intTypes .scalar .unused, .addsat⟩,
   ⟨0x011, rrInfo intTypes .scalar .unused, .subsat⟩,
   ⟨0x012, rrInfo intTypes .scalar .unused, .slt⟩,
   ⟨0x013, rrInfo intTypes .scalar .unused, .seq⟩,
   ⟨0x014, rrInfo intTypes .scalar .scalar, .sel⟩,
   ⟨0x015, rrInfo intTypes .scalar .scalar, .madd⟩,
   ⟨0x016, rrInfo [4, 8] .scalar .unused, .bext⟩,
   ⟨0x017, rrInfo [4, 8] .scalar .unused, .bins⟩,
   ⟨0x018, rrInfo intTypes .unused .unused, .mov⟩,
   ⟨0x019, rrInfo intTypes .unused .unused, .clz⟩,
   ⟨0x01A, rrInfo intTypes .unused .unused, .ctz⟩,
   ⟨0x01B, rrInfo intTypes .unused .unused, .popc⟩,
   ⟨0x01C, rrInfo [2, 3, 4, 6, 7, 8] .unused .unused, .bswap⟩,
   ⟨0x01D, rrInfo [1, 2, 3, 4] .unused .unused, .abs⟩]

/-- Scalar integer, immediate forms (R92, R93, R98). -/
def opsIntImm : List OpRow :=
  [⟨0x020, riInfo intTypes, .addImm⟩,
   ⟨0x021, riInfo intTypes, .subImm⟩,
   ⟨0x022, riInfo intTypes, .mulImm⟩,
   ⟨0x023, riInfo intTypes, .mulhImm⟩,
   ⟨0x024, riInfo intTypes, .divImm⟩,
   ⟨0x025, riInfo intTypes, .remImm⟩,
   ⟨0x026, riInfo intTypes, .andImm⟩,
   ⟨0x027, riInfo intTypes, .orImm⟩,
   ⟨0x028, riInfo intTypes, .xorImm⟩,
   ⟨0x029, riInfo intTypes, .andnImm⟩,
   ⟨0x02A, riInfo intTypes, .shlImm⟩,
   ⟨0x02B, riInfo intTypes, .shrImm⟩,
   ⟨0x02C, riInfo intTypes, .sarImm⟩,
   ⟨0x02D, riInfo intTypes, .rolImm⟩,
   ⟨0x02E, riInfo intTypes, .minImm⟩,
   ⟨0x02F, riInfo intTypes, .maxImm⟩,
   ⟨0x030, riInfo intTypes, .addsatImm⟩,
   ⟨0x031, riInfo intTypes, .subsatImm⟩,
   ⟨0x032, riInfo intTypes, .sltImm⟩,
   ⟨0x033, riInfo intTypes, .seqImm⟩,
   ⟨0x034, riInfo intTypes, .selImm⟩,
   ⟨0x035, riInfo intTypes, .maddImm⟩,
   ⟨0x036, { riInfo [4, 8] with immMask := 0x3F3F }, .bextImm⟩,
   ⟨0x037, { riInfo [4, 8] with immMask := 0x3F3F }, .binsImm⟩,
   ⟨0x038, { riInfo intTypes with a := .unused }, .movImm⟩]

/-- Scalar floating (R99 to R103). -/
def opsFloat : List OpRow :=
  [⟨0x040, { rrInfo [9, 10] .scalar .unused with rm := .rounds, pair := .float }, .fadd⟩,
   ⟨0x041, { rrInfo [9, 10] .scalar .unused with rm := .rounds, pair := .float }, .fsub⟩,
   ⟨0x042, { rrInfo [9, 10] .scalar .unused with rm := .rounds, pair := .float }, .fmul⟩,
   ⟨0x043, { rrInfo [9, 10] .scalar .unused with rm := .rounds, pair := .float }, .fdiv⟩,
   ⟨0x044, { rrInfo [9, 10] .unused .unused with rm := .rounds, pair := .float }, .fsqrt⟩,
   ⟨0x045, { rrInfo [9, 10] .scalar .scalar with rm := .rounds, pair := .float }, .fma⟩,
   ⟨0x046, { rrInfo [9, 10] .scalar .unused with pair := .float }, .fmin⟩,
   ⟨0x047, { rrInfo [9, 10] .scalar .unused with pair := .float }, .fmax⟩,
   ⟨0x048, { rrInfo [9, 10] .unused .unused with pair := .float }, .fabs⟩,
   ⟨0x049, { rrInfo [9, 10] .unused .unused with pair := .float }, .fneg⟩,
   ⟨0x04A, { rrInfo [9, 10] .scalar .unused with pair := .float }, .fsgnj⟩,
   ⟨0x04B, { rrInfo [9, 10] .scalar .unused with pair := .float }, .fcmpeq⟩,
   ⟨0x04C, { rrInfo [9, 10] .scalar .unused with pair := .float }, .fcmplt⟩,
   ⟨0x04D, { rrInfo [9, 10] .scalar .unused with pair := .float }, .fcmple⟩,
   ⟨0x04E, { rrInfo [9, 10] .unused .unused with pair := .float }, .fclass⟩,
   ⟨0x04F, { rrInfo floatTypes .unused .unused with rm := .rounds, pair := .float, miscMask := 0x3F, check := .convert }, .fcvt⟩,
   ⟨0x050, { rrInfo intTypes .unused .unused with rm := .rounds, pair := .float, miscMask := 0x3F, check := .convert }, .fcvti⟩,
   ⟨0x051, { rrInfo floatTypes .unused .unused with rm := .rounds, pair := .float, miscMask := 0x3F, check := .convertInt }, .icvtf⟩]

/-- Control (R104 to R112, 09_traps_contexts R156, 11_memory_instructions R192). -/
def opsControl : List OpRow :=
  [⟨0x060, brInfo, .beq⟩,
   ⟨0x061, brInfo, .bne⟩,
   ⟨0x062, brInfo, .blt⟩,
   ⟨0x063, brInfo, .bge⟩,
   ⟨0x064, { noInfo with immMask := imm48, check := .direct, pair := .control }, .jmp⟩,
   ⟨0x065, { noInfo with a := .scalar, pair := .control }, .jmpr⟩,
   ⟨0x066, { noInfo with immMask := imm48, miscMask := 0x3F, check := .callDirect, pair := .control }, .call⟩,
   ⟨0x067, { noInfo with a := .scalar, miscMask := 0x3F, check := .callSlide, pair := .control }, .callr⟩,
   ⟨0x068, { noInfo with pair := .control }, .ret⟩,
   ⟨0x069, { noInfo with d := .loop, immMask := imm48, check := .loopEnd }, .loopImm⟩,
   ⟨0x06A, { noInfo with d := .loop, a := .scalar, immMask := 0xFFFFFF, check := .loopEnd }, .loopReg⟩,
   ⟨0x06B, { noInfo with immMask := 0xFFFF }, .align⟩,
   ⟨0x06C, noInfo, .nop⟩,
   ⟨0x06D, { noInfo with immMask := 0xFFFF }, .trap⟩,
   ⟨0x06E, noInfo, .xret⟩,
   ⟨0x06F, noInfo, .region⟩,
   ⟨0x070, noInfo, .regend⟩,
   ⟨0x071, noInfo, .halt⟩]

/-- Scalar memory (11_memory_instructions R178 to R191). -/
def opsMem : List OpRow :=
  [⟨0x080, { noInfo with d := .scalar, a := .scalar, types := memTypes, path := .path [0, 1, 2, 3, 4, 6], immMask := imm48, pair := .mem, check := .load }, .ld⟩,
   ⟨0x081, { noInfo with d := .scalar, a := .scalar, types := memTypes, path := .path [0, 1, 3, 6], immMask := imm48, pair := .mem }, .st⟩,
   ⟨0x082, { noInfo with d := .scalar, b := .scalar, miscMask := 3, miscReason := 3, a := .scalar, types := memTypes, path := .path [0, 1, 2, 3, 4, 6], immMask := imm48, pair := .mem, check := .load }, .ldx⟩,
   ⟨0x083, { noInfo with d := .scalar, b := .scalar, miscMask := 3, miscReason := 3, a := .scalar, types := memTypes, path := .path [0, 1, 3, 6], immMask := imm48, pair := .mem }, .stx⟩,
   ⟨0x084, { noInfo with d := .scalar, a := .scalar, types := intTypes, path := .path [3], immMask := imm48, pair := .mem }, .ldlk⟩,
   ⟨0x085, { noInfo with d := .scalar, a := .scalar, types := intTypes, path := .path [3], immMask := imm48, pair := .mem }, .stul⟩,
   ⟨0x086, { noInfo with d := .scalar, a := .scalar, b := .unused, c := .scalar, types := atomTypes, path := .scope, immMask := imm48, miscMask := 0x3F, check := .atomic, pair := .mem }, .amo⟩,
   ⟨0x087, { noInfo with d := .scalar, a := .scalar, b := .scalar, c := .scalar, types := atomTypes, path := .scope, immMask := imm48, miscMask := 0x3F, check := .atomic, pair := .mem }, .amor⟩,
   ⟨0x088, { noInfo with d := .scalar, a := .scalar, b := .unused, c := .scalar, types := atomTypes, path := .scope, immMask := imm48, miscMask := 0x3F, check := .compareSwap, pair := .mem }, .cas⟩,
   ⟨0x089, { noInfo with d := .scalar, a := .scalar, b := .scalar, c := .scalar, types := atomTypes, path := .scope, immMask := imm48, miscMask := 0x3F, check := .compareSwap, pair := .mem }, .casr⟩,
   ⟨0x08A, { noInfo with path := .scope, miscMask := 3, miscReason := 3, check := .fenceKind }, .fence⟩,
   ⟨0x08B, { noInfo with d := .scalar }, .drainst⟩,
   ⟨0x08C, { noInfo with a := .scalar, path := .path [0, 1, 2, 3, 6], immMask := imm48, miscMask := 1, miscReason := 3, pair := .mem }, .pf⟩,
   ⟨0x08D, { noInfo with d := .scalar, a := .scalar, types := intTypes, path := .path [0, 1, 3], immMask := imm48, miscMask := 7, miscReason := 3, check := .scopeMisc, pair := .mem }, .ldacq⟩,
   ⟨0x08E, { noInfo with d := .scalar, a := .scalar, types := intTypes, path := .path [0, 1, 3], immMask := imm48, miscMask := 7, miscReason := 3, check := .scopeMisc, pair := .mem }, .strel⟩]

/-- System (09_traps_contexts R158, R163, 17_tables_translation R295, 19_counters R324, 11 R189). -/
def opsSystem : List OpRow :=
  [⟨0x0A0, { noInfo with d := .scalar, immMask := 0xFF }, .sysr⟩,
   ⟨0x0A1, { noInfo with a := .scalar, immMask := 0xFF }, .sysw⟩,
   ⟨0x0A2, { noInfo with a := .upTo 13, typeReason := 2 }, .tlbw⟩,
   ⟨0x0A3, { noInfo with a := .upTo 14, immMask := 3, check := .tlbinvKind, typeReason := 2 }, .tlbinv⟩,
   ⟨0x0A4, { noInfo with immMask := 1, typeReason := 2 }, .replay⟩,
   ⟨0x0A5, noInfo, .l1inv⟩,
   ⟨0x0A6, { noInfo with d := .scalar, immMask := 0x3F, check := .counterNumber }, .ecrd⟩,
   ⟨0x0A7, { noInfo with a := .scalar, immMask := 0x3F, check := .counterNumber }, .ecset⟩,
   ⟨0x0A8, { noInfo with immMask := 0x3F, check := .counterNumber }, .ecclr⟩,
   ⟨0x0A9, { noInfo with d := .scalar, a := .scalar }, .ctxsave⟩,
   ⟨0x0AA, { noInfo with d := .scalar, a := .scalar }, .ctxload⟩,
   ⟨0x0AB, { noInfo with d := .upTo 13, typeReason := 2 }, .wfm⟩]

/-- Tasks, messages and revisions (15_task_message_instructions R247, 13_revisions R221 to R230). -/
def opsTask : List OpRow :=
  [⟨0x0C0, { noInfo with d := .scalar, a := .scalar, b := .scalar, miscMask := 0x3F, immMask := imm48, check := .spawnRange }, .spawn⟩,
   ⟨0x0C1, { noInfo with a := .scalar, immMask := imm48, check := .entry }, .post⟩,
   ⟨0x0C2, { noInfo with a := .scalar }, .done⟩,
   ⟨0x0C3, noInfo, .yield⟩,
   ⟨0x0C4, { noInfo with d := .scalar, a := .scalar, types := intTypes }, .fget⟩,
   ⟨0x0C5, { noInfo with d := .scalar, a := .scalar, b := .scalar, miscMask := 1, check := .fputForm }, .fput⟩,
   ⟨0x0C6, { noInfo with d := .scalar, a := .scalar }, .fpoll⟩,
   ⟨0x0C7, { noInfo with path := .scope, miscMask := 0x3F, immMask := 0xFFFFFF }, .bar⟩,
   ⟨0x0C8, { noInfo with a := .scalar, b := .scalar, miscMask := 0x1F, immMask := imm48, check := .amsgForm }, .amsg⟩,
   ⟨0x0C9, { noInfo with d := .scalar, a := .scalar, b := .scalar, miscMask := 0x1F, immMask := imm48, check := .amsgrForm }, .amsgr⟩,
   ⟨0x0CA, noInfo, .hret⟩,
   ⟨0x0CB, { noInfo with d := .scalar, a := .scalar, b := .scalar, miscMask := 1, immMask := 0x1FFF, check := .enqForm }, .enq⟩,
   ⟨0x0CC, { noInfo with a := .scalar, b := .scalar, miscMask := 0x17, check := .sendCount }, .send⟩,
   ⟨0x0CD, { noInfo with d := .scalar, miscMask := 7, immMask := 7, check := .recvRange }, .recv⟩,
   ⟨0x0CE, { noInfo with d := .scalar }, .commit⟩,
   ⟨0x0CF, { noInfo with d := .scalar }, .abort⟩,
   ⟨0x0D0, { noInfo with a := .scalar, b := .scalar, miscMask := 1 }, .kick⟩,
   ⟨0x0D1, { noInfo with d := .scalar, miscMask := 1 }, .mbwait⟩,
   ⟨0x0D2, { noInfo with a := .scalar, miscMask := 1 }, .tagset⟩,
   ⟨0x0D3, { noInfo with a := .scalar, miscMask := 1 }, .tagclr⟩,
   ⟨0x0D4, { noInfo with d := .scalar, a := .scalar }, .gath⟩,
   ⟨0x0D5, { noInfo with d := .scalar, a := .scalar }, .scat⟩,
   ⟨0x0D6, { noInfo with d := .scalar, a := .scalar, miscMask := 0x3F, immMask := imm48, check := .forkRange }, .fork⟩,
   ⟨0x0D7, { noInfo with d := .scalar, a := .scalar }, .join⟩,
   ⟨0x0D8, { noInfo with d := .scalar, a := .scalar }, .rdrop⟩,
   ⟨0x0D9, { noInfo with d := .scalar, a := .scalar, immMask := 3, check := .rqueryItem }, .rquery⟩]

/-- Rings and fabric requests (15 R264, R269). -/
def opsRing : List OpRow :=
  [⟨0x0E0, { noInfo with a := .scalar, immMask := 7 }, .rnginit⟩,
   ⟨0x0E1, { noInfo with a := .scalar, immMask := 7 }, .rngput⟩,
   ⟨0x0E2, { noInfo with d := .scalar, immMask := 7 }, .rngget⟩,
   ⟨0x0E3, { noInfo with d := .scalar, a := .scalar, immMask := 0xFFF }, .rngpeek⟩,
   ⟨0x0E4, { noInfo with a := .scalar, immMask := 7 }, .rngadv⟩,
   ⟨0x0E5, { noInfo with immMask := 7 }, .rngfree⟩,
   ⟨0x0E6, { noInfo with a := .scalar, immMask := 0x1FFF007 }, .rngfill⟩,
   ⟨0x0E7, { noInfo with d := .scalar, a := .scalar, b := .scalar, types := elemTypes, miscMask := 3, check := .freqKind }, .freq⟩,
   ⟨0x0E8, { noInfo with d := .upTo 14 }, .fresp⟩]

/-- Vector, vector operands (07_vector_instructions R120 to R126). -/
def opsVec : List OpRow :=
  [⟨0x100, { vecInfo vecTypes .vector with rm := .rounds }, .vadd⟩,
   ⟨0x101, { vecInfo vecTypes .vector with rm := .rounds }, .vsub⟩,
   ⟨0x102, { vecInfo vecTypes .vector with rm := .rounds }, .vmul⟩,
   ⟨0x103, vecInfo intTypes .vector, .vmulh⟩,
   ⟨0x104, { vecInfo vecTypes .vector with rm := .rounds }, .vdiv⟩,
   ⟨0x105, { vecInfo vecTypes .vector with c := .vector, rm := .rounds }, .vfma⟩,
   ⟨0x106, vecInfo vecTypes .vector, .vmin⟩,
   ⟨0x107, vecInfo vecTypes .vector, .vmax⟩,
   ⟨0x108, vecInfo intTypes .vector, .vaddsat⟩,
   ⟨0x109, vecInfo intTypes .vector, .vsubsat⟩,
   ⟨0x10A, vecInfo intTypes .vector, .vand⟩,
   ⟨0x10B, vecInfo intTypes .vector, .vor⟩,
   ⟨0x10C, vecInfo intTypes .vector, .vxor⟩,
   ⟨0x10D, vecInfo intTypes .vector, .vandn⟩,
   ⟨0x10E, vecInfo intTypes .vector, .vshl⟩,
   ⟨0x10F, vecInfo intTypes .vector, .vshr⟩,
   ⟨0x110, vecInfo intTypes .vector, .vsar⟩,
   ⟨0x111, { vecInfo [3, 4, 7, 8, 9, 10] .vector with d := .mask }, .vcmpeq⟩,
   ⟨0x112, { vecInfo [3, 4, 7, 8, 9, 10] .vector with d := .mask }, .vcmplt⟩,
   ⟨0x113, { vecInfo [3, 4, 7, 8, 9, 10] .vector with d := .mask }, .vcmple⟩,
   ⟨0x114, { vecInfo vecTypes .vector with check := .needsMask }, .vsel⟩,
   ⟨0x115, { vecInfo [9, 10, 11, 12] .unused with rm := .rounds }, .vsqrt⟩,
   ⟨0x116, vecInfo vecTypes .unused, .vabs⟩,
   ⟨0x117, vecInfo vecTypes .unused, .vneg⟩,
   ⟨0x118, { vecInfo cvtTypes .unused with rm := .rounds, b := .code, immMask := 1, miscMask := 0x3F, check := .vecConvert }, .vcvt⟩,
   ⟨0x119, vecInfo [9, 10, 11, 12] .unused, .vclass⟩,
   ⟨0x11A, vecInfo intTypes .unused, .vpopc⟩,
   ⟨0x11B, vecInfo intTypes .unused, .vclz⟩]

/-- Vector, scalar b broadcast (R120). -/
def opsVecBcast : List OpRow :=
  [⟨0x120, { vecInfo vecTypes .scalar with rm := .rounds }, .vaddBcast⟩,
   ⟨0x121, { vecInfo vecTypes .scalar with rm := .rounds }, .vsubBcast⟩,
   ⟨0x122, { vecInfo vecTypes .scalar with rm := .rounds }, .vmulBcast⟩,
   ⟨0x123, vecInfo intTypes .scalar, .vmulhBcast⟩,
   ⟨0x124, { vecInfo vecTypes .scalar with rm := .rounds }, .vdivBcast⟩,
   ⟨0x125, { vecInfo vecTypes .scalar with c := .vector, rm := .rounds }, .vfmaBcast⟩,
   ⟨0x126, vecInfo vecTypes .scalar, .vminBcast⟩,
   ⟨0x127, vecInfo vecTypes .scalar, .vmaxBcast⟩,
   ⟨0x128, vecInfo intTypes .scalar, .vaddsatBcast⟩,
   ⟨0x129, vecInfo intTypes .scalar, .vsubsatBcast⟩,
   ⟨0x12A, vecInfo intTypes .scalar, .vandBcast⟩,
   ⟨0x12B, vecInfo intTypes .scalar, .vorBcast⟩,
   ⟨0x12C, vecInfo intTypes .scalar, .vxorBcast⟩,
   ⟨0x12D, vecInfo intTypes .scalar, .vandnBcast⟩,
   ⟨0x12E, vecInfo intTypes .scalar, .vshlBcast⟩,
   ⟨0x12F, vecInfo intTypes .scalar, .vshrBcast⟩,
   ⟨0x130, vecInfo intTypes .scalar, .vsarBcast⟩,
   ⟨0x131, { vecInfo [3, 4, 7, 8, 9, 10] .scalar with d := .mask }, .vcmpeqBcast⟩,
   ⟨0x132, { vecInfo [3, 4, 7, 8, 9, 10] .scalar with d := .mask }, .vcmpltBcast⟩,
   ⟨0x133, { vecInfo [3, 4, 7, 8, 9, 10] .scalar with d := .mask }, .vcmpleBcast⟩,
   ⟨0x134, { vecInfo vecTypes .scalar with check := .needsMask }, .vselBcast⟩]

/-- Vector, immediate b (R120). -/
def opsVecImm : List OpRow :=
  [⟨0x1C0, { vecInfo vecTypes .unused with rm := .rounds, immMask := imm48, check := .vecImm }, .vaddImm⟩,
   ⟨0x1C1, { vecInfo vecTypes .unused with rm := .rounds, immMask := imm48, check := .vecImm }, .vsubImm⟩,
   ⟨0x1C2, { vecInfo vecTypes .unused with rm := .rounds, immMask := imm48, check := .vecImm }, .vmulImm⟩,
   ⟨0x1C3, { vecInfo intTypes .unused with immMask := imm48, check := .vecImm }, .vmulhImm⟩,
   ⟨0x1C4, { vecInfo vecTypes .unused with rm := .rounds, immMask := imm48, check := .vecImm }, .vdivImm⟩,
   ⟨0x1C5, { vecInfo vecTypes .unused with c := .vector, rm := .rounds, immMask := imm48, check := .vecImm }, .vfmaImm⟩,
   ⟨0x1C6, { vecInfo vecTypes .unused with immMask := imm48, check := .vecImm }, .vminImm⟩,
   ⟨0x1C7, { vecInfo vecTypes .unused with immMask := imm48, check := .vecImm }, .vmaxImm⟩,
   ⟨0x1C8, { vecInfo intTypes .unused with immMask := imm48, check := .vecImm }, .vaddsatImm⟩,
   ⟨0x1C9, { vecInfo intTypes .unused with immMask := imm48, check := .vecImm }, .vsubsatImm⟩,
   ⟨0x1CA, { vecInfo intTypes .unused with immMask := imm48, check := .vecImm }, .vandImm⟩,
   ⟨0x1CB, { vecInfo intTypes .unused with immMask := imm48, check := .vecImm }, .vorImm⟩,
   ⟨0x1CC, { vecInfo intTypes .unused with immMask := imm48, check := .vecImm }, .vxorImm⟩,
   ⟨0x1CD, { vecInfo intTypes .unused with immMask := imm48, check := .vecImm }, .vandnImm⟩,
   ⟨0x1CE, { vecInfo intTypes .unused with immMask := imm48, check := .vecImm }, .vshlImm⟩,
   ⟨0x1CF, { vecInfo intTypes .unused with immMask := imm48, check := .vecImm }, .vshrImm⟩,
   ⟨0x1D0, { vecInfo intTypes .unused with immMask := imm48, check := .vecImm }, .vsarImm⟩,
   ⟨0x1D1, { vecInfo [3, 4, 7, 8, 9, 10] .unused with d := .mask, immMask := imm48, check := .vecImm }, .vcmpeqImm⟩,
   ⟨0x1D2, { vecInfo [3, 4, 7, 8, 9, 10] .unused with d := .mask, immMask := imm48, check := .vecImm }, .vcmpltImm⟩,
   ⟨0x1D3, { vecInfo [3, 4, 7, 8, 9, 10] .unused with d := .mask, immMask := imm48, check := .vecImm }, .vcmpleImm⟩,
   ⟨0x1D4, { vecInfo vecTypes .unused with check := .needsMaskImm, immMask := imm48 }, .vselImm⟩]

/-- Vector memory (11 R182), permutes, reductions, decode and pruning (07 R127 to R132). -/
def opsVecMem : List OpRow :=
  [⟨0x140, { vecInfo vecTypes .unused with a := .scalar, path := .path [0, 1, 2, 3, 4], immMask := imm48, check := .load }, .vld⟩,
   ⟨0x141, { vecInfo vecTypes .unused with a := .scalar, path := .path [0, 1, 3], immMask := imm48 }, .vst⟩,
   ⟨0x142, { vecInfo vecTypes .scalar with a := .scalar, path := .path [0, 1, 2, 3], immMask := imm48 }, .vlds⟩,
   ⟨0x143, { vecInfo vecTypes .scalar with a := .scalar, path := .path [0, 1, 3], immMask := imm48 }, .vsts⟩,
   ⟨0x144, { vecInfo vecTypes .vector with a := .scalar, path := .path [0, 1, 2, 3], immMask := imm48, miscMask := 0x1F }, .vldx⟩,
   ⟨0x145, { vecInfo vecTypes .vector with a := .scalar, path := .path [0, 1, 3], immMask := imm48, miscMask := 0x1F }, .vstx⟩,
   ⟨0x146, vecInfo vecTypes .vector, .vperm⟩,
   ⟨0x147, { vecInfo vecTypes .scalar with miscMask := 0x1F, immMask := 0x7F, check := .vbcastForm }, .vbcast⟩,
   ⟨0x148, { vecInfo vecTypes .unused with immMask := imm48 }, .vslide⟩,
   ⟨0x149, { vecInfo vecTypes .unused with d := .scalar, miscMask := 0, immMask := 0x7F }, .vext⟩,
   ⟨0x14A, { vecInfo vecTypes .scalar with a := .unused, miscMask := 0, immMask := 0x7F }, .vins⟩,
   ⟨0x14B, { vecInfo vecTypes .scalar with rm := .roundsNoSr }, .vredsum⟩,
   ⟨0x14C, vecInfo vecTypes .scalar, .vredmin⟩,
   ⟨0x14D, vecInfo vecTypes .scalar, .vredmax⟩,
   ⟨0x14E, vecInfo intTypes .scalar, .vredand⟩,
   ⟨0x14F, vecInfo intTypes .scalar, .vredor⟩,
   ⟨0x150, vecInfo intTypes .scalar, .vredxor⟩,
   ⟨0x151, { vecInfo vecTypes .scalar with rm := .roundsNoSr }, .vscan⟩,
   ⟨0x152, { vecInfo [1, 11, 12] .unused with immMask := 7, check := .cbPart }, .vcbdec⟩,
   ⟨0x153, { vecInfo [9, 10, 11, 12] .scalar with miscMask := 0x1F }, .prune⟩,
   ⟨0x154, vecInfo vecTypes .unused, .vcompress⟩,
   ⟨0x155, vecInfo vecTypes .unused, .vexpand⟩,
   ⟨0x156, vecInfo vecTypes .unused, .vmv⟩]

/-- Mask instructions (07 R133). -/
def opsMask : List OpRow :=
  [⟨0x160, { noInfo with d := .mask, a := .mask, b := .mask, miscReason := 3, pair := .vector }, .kand⟩,
   ⟨0x161, { noInfo with d := .mask, a := .mask, b := .mask, miscReason := 3, pair := .vector }, .kor⟩,
   ⟨0x162, { noInfo with d := .mask, a := .mask, b := .mask, miscReason := 3, pair := .vector }, .kxor⟩,
   ⟨0x163, { noInfo with d := .mask, a := .mask, miscReason := 3, pair := .vector }, .knot⟩,
   ⟨0x164, { noInfo with d := .mask, a := .mask, miscReason := 3, pair := .vector }, .kmov⟩,
   ⟨0x165, { noInfo with d := .scalar, a := .mask, miscReason := 3, pair := .vector }, .kpop⟩,
   ⟨0x166, { noInfo with d := .scalar, a := .mask, miscReason := 3, pair := .vector }, .kfirst⟩,
   ⟨0x167, { noInfo with d := .mask, a := .scalar, miscMask := 0x10, immMask := 0xFFFFFFFF, check := .ksetForm, miscReason := 3, pair := .vector }, .kset⟩,
   ⟨0x168, { noInfo with d := .scalar, a := .mask, miscReason := 3, pair := .vector }, .kget⟩]

/-- Stochastic streams (08_stream_registers R140). -/
def opsStream : List OpRow :=
  [⟨0x180, { noInfo with d := .stream, miscMask := 0x3F, immMask := 0x11FFFF }, .qgen⟩,
   ⟨0x181, { noInfo with d := .stream, a := .stream, b := .stream }, .qand⟩,
   ⟨0x182, { noInfo with d := .stream, a := .stream, b := .stream }, .qxnor⟩,
   ⟨0x183, { noInfo with d := .stream, a := .stream, b := .stream }, .qmin⟩,
   ⟨0x184, { noInfo with d := .stream, a := .stream, b := .stream }, .qmax⟩,
   ⟨0x185, { noInfo with d := .stream, a := .stream, b := .stream, c := .stream }, .qmux⟩,
   ⟨0x186, { noInfo with d := .stream, a := .stream, miscMask := 0x3F }, .qregen⟩,
   ⟨0x187, { noInfo with d := .scalar, a := .stream }, .qcount⟩,
   ⟨0x188, { noInfo with d := .scalar, a := .stream, b := .scalar }, .qsum⟩,
   ⟨0x189, { noInfo with d := .scalar, a := .stream }, .qtob⟩,
   ⟨0x18A, { noInfo with d := .stream, a := .scalar, miscMask := 0x3F, immMask := 0x100000 }, .btoq⟩,
   ⟨0x18B, { noInfo with d := .stream, a := .vector, miscMask := 0x3F, immMask := 0x10001F }, .vbtoq⟩,
   ⟨0x18C, { noInfo with d := .stream, a := .stream }, .qnot⟩,
   ⟨0x18D, { noInfo with d := .stream, a := .stream }, .qmov⟩,
   ⟨0x18E, { noInfo with d := .stream, a := .scalar, path := .path [0, 1, 2, 3, 6], immMask := imm48 }, .qld⟩,
   ⟨0x18F, { noInfo with d := .stream, a := .scalar, path := .path [0, 1, 2, 3, 6], immMask := imm48 }, .qst⟩,
   ⟨0x190, { noInfo with miscMask := 0x3F, check := .qcfgMode }, .qcfg⟩,
   ⟨0x191, { noInfo with miscMask := 0xF, miscReason := 3 }, .qseed⟩]

/-- Matrix (12_matrix_instructions R197). -/
def opsMatrix : List OpRow :=
  [⟨0x1A0, { noInfo with typeReason := 2 }, .gang⟩,
   ⟨0x1A1, { noInfo with d := .bank, a := .scalar, b := .scalar, c := .scalar, types := matTypes, miscMask := 0x1F, miscReason := 3, immMask := 0xFF01FF, check := .bType }, .mmac⟩,
   ⟨0x1A2, { noInfo with d := .bank, a := .scalar, b := .scalar, c := .scalar, types := matTypes, miscMask := 0x1F, miscReason := 3, immMask := 0xF, check := .bType }, .mbmac⟩,
   ⟨0x1A3, { noInfo with d := .bank, immMask := 0xFF01FF, typeReason := 2 }, .mclr⟩,
   ⟨0x1A4, { noInfo with d := .bank, a := .scalar, b := .scalar, c := .scalar, types := [4, 9], rm := .rounds, miscMask := 1, miscReason := 3, immMask := 0xFF01FF, check := .q20 }, .mscacc⟩,
   ⟨0x1A5, { noInfo with d := .scalar, a := .scalar, c := .bank, types := [4, 8, 9], immMask := 0x3FFF }, .rdacc⟩,
   ⟨0x1A6, { noInfo with d := .bank, a := .scalar, b := .scalar, types := [4, 8, 9], immMask := 0x3FFF }, .wracc⟩,
   ⟨0x1A7, { noInfo with d := .bank, a := .scalar, path := .path [0, 1, 3], immMask := 0xFF01FF, typeReason := 2 }, .ldacc⟩,
   ⟨0x1A8, { noInfo with d := .bank, a := .scalar, path := .path [0, 1, 3], immMask := 0xFF01FF, typeReason := 2 }, .stacc⟩,
   ⟨0x1A9, { noInfo with a := .scalar, c := .scalar, types := [1, 5, 11, 12, 13, 14] }, .oqld⟩,
   ⟨0x1AA, { noInfo with immMask := 1, typeReason := 2 }, .oqcfg⟩,
   ⟨0x1AB, { noInfo with d := .scalar, typeReason := 2 }, .mrow⟩,
   ⟨0x1AC, { noInfo with a := .scalar, immMask := 0x1FFFF, typeReason := 2 }, .cbload⟩,
   ⟨0x1AD, { noInfo with d := .bank, a := .scalar, typeReason := 2 }, .contract⟩,
   ⟨0x1AE, { noInfo with d := .scalar, typeReason := 2 }, .mwait⟩]

/-- The opcode map, 03_instruction_lines R50: 288 opcodes. -/
def opTable : List OpRow :=
  opsInt ++ opsIntImm ++ opsFloat ++ opsControl ++ opsMem ++ opsSystem ++ opsTask ++ opsRing ++ opsVec ++ opsVecBcast ++ opsVecImm ++ opsVecMem ++ opsMask ++ opsStream ++ opsMatrix

/-- The row of an opcode. -/
def opRow (op : Nat) : Option OpRow := opTable.find? (fun r => r.op == op)

/-- The width of a type code in bits, R45 (16 for a CB8 index; 0 for no type). -/
def typeWidth (t : Nat) : Nat :=
  match t with
  | 1 | 5 | 13 => 8
  | 2 | 6 | 11 | 12 | 14 => 16
  | 3 | 7 | 10 => 32
  | 4 | 8 | 9 => 64
  | _ => 0

/-- An integer type code. -/
def isIntType (t : Nat) : Bool := 1 ≤ t && t ≤ 8
/-- A signed integer type code. -/
def isSignedType (t : Nat) : Bool := 1 ≤ t && t ≤ 4
/-- A floating type code. -/
def isFloatType (t : Nat) : Bool := 9 ≤ t && t ≤ 13

/-- The reasons a register field gives, R44, R52. -/
def RegKind.reasons (k : RegKind) (v : Nat) : List Nat :=
  match k with
  | .unused => if v = 0 then [] else [2]
  | .mask => if v ≤ 7 then [] else [3]
  | .stream => if v ≤ 15 then [] else [3]
  | .loop => if v ≤ 2 then [] else [3]
  | .bank => if v ≤ 1 then [] else [3]
  | .upTo n => if v ≤ n then [] else [3]
  | .scalar | .vector | .code => []

def PathUse.reasons (k : PathUse) (v : Nat) : List Nat :=
  match k with
  | .unused => if v = 0 then [] else [2]
  | .path ok => if ok.contains v then [] else [3]
  | .scope => if 1 ≤ v && v ≤ 5 then [] else [3]

def RoundUse.reasons (k : RoundUse) (v : Nat) : List Nat :=
  match k with
  | .unused => if v = 0 then [] else [2]
  | .rounds => if v = 5 ∨ v = 6 then [3] else []
  | .roundsNoSr => if v = 4 ∨ v = 5 ∨ v = 6 then [3] else []

/-- The displacement form of R48: bits 5:3 zero, bits 2:0 below 5; otherwise reason 6. -/
def dispReasons (imm : Nat) : List Nat :=
  if (imm / 8) % 8 = 0 ∧ imm % 8 < 5 then [] else [6]

/-- A reason where a condition is broken. -/
def reasonIf (p : Bool) (r : Nat) : List Nat := if p then [r] else []

/-- `vcvt`, 07_vector_instructions R125, R126. -/
def vecConvertReasons (f : Slot) : List Nat :=
  let src := f.b.toNat
  let dst := f.ty.toNat
  let ws := typeWidth src
  let wd := typeWidth dst
  let small := min ws wd
  let ratio := if small = 0 then 8 else max ws wd / small
  let sat := f.imm.getLsbD 0
  let ints := isIntType src && isIntType dst
  reasonIf (!(isIntType src || isFloatType src) || src == dst || ratio > 4 || f.misc.toNat / 16 ≥ ratio) 3 ++
  reasonIf (sat && !(dst == 13 || (ints && wd < ws))) 3 ++
  reasonIf (ints && f.rm != 0) 3

/-- The checks of single instructions; each clause cites its rule. -/
def SlotCheck.reasons (k : SlotCheck) (f : Slot) : List Nat :=
  let misc := f.misc.toNat
  let imm := f.imm.toNat
  let ty := f.ty.toNat
  match k with
  | .none => []
  | .direct | .entry => dispReasons imm                                            -- R48
  | .callDirect => dispReasons imm ++ reasonIf (!(1 ≤ misc && misc ≤ 3)) 3          -- R106
  | .callSlide => reasonIf (!(1 ≤ misc && misc ≤ 3)) 3
  | .loopEnd => dispReasons (imm % 2 ^ 24)                                         -- R108
  | .convert => reasonIf (!isFloatType (misc / 2) || (misc % 2 == 1 && ty != 13)) 3  -- R103
  | .convertInt => reasonIf (!isIntType (misc / 2) || (misc % 2 == 1 && ty != 13)) 3
  | .load => reasonIf (f.path == 4 && ty != 1) 3                                   -- R169
  | .atomic => reasonIf (misc % 16 > 7) 3 ++                                        -- R185
      reasonIf (if misc % 16 = 0 then !atomTypes.contains ty
        else if misc % 16 = 7 then !(ty == 9 || ty == 10) else !([3, 4, 7, 8].contains ty)) 3
  | .compareSwap => reasonIf (misc % 16 != 0 || !atomTypes.contains ty) 3
  | .fenceKind => reasonIf (misc == 0) 3                                           -- R189
  | .scopeMisc => reasonIf (!(1 ≤ misc && misc ≤ 5)) 3                             -- R179
  | .tlbinvKind => reasonIf (imm % 4 == 3) 3 ++                                     -- R295, R297
      reasonIf (imm % 4 == 2 && f.a != 0) 2
  | .counterNumber => reasonIf (8 ≤ imm && imm ≤ 31) 3                             -- R324
  | .spawnRange => dispReasons imm ++                                              -- R247
      (let n := misc % 32
       reasonIf (n > 16 || (n > 0 && f.a.toNat + n > 16) || (n == 0 && f.a != 0)) 3)
  | .forkRange => dispReasons imm ++                                               -- R221
      (let n := misc % 32
       reasonIf (n > 16 || (n > 0 && f.a.toNat + n > 16) || (n == 0 && f.a != 0) || misc ≥ 32) 3)
  | .fputForm => if misc % 2 = 1 then reasonIf (f.a != 0 || f.b != 0) 2 else reasonIf (f.d != 0) 2
  | .amsgForm => (if f.misc.getLsbD 3 then reasonIf (imm != 0) 2 else dispReasons imm) ++
      reasonIf (misc % 8 == 7) 3
  | .amsgrForm => (if f.misc.getLsbD 3 then reasonIf (imm != 0) 2 else dispReasons imm) ++
      reasonIf (misc % 8 == 7 || f.misc.getLsbD 4) 3
  | .enqForm => reasonIf (misc % 2 == 0 && f.d != 0) 2
  | .sendCount => reasonIf (misc % 8 == 0) 3
  | .recvRange => reasonIf (f.d.toNat + misc % 8 > 15) 3
  | .rqueryItem => reasonIf (imm == 3 && f.a != 31) 3                              -- R230
  | .freqKind => reasonIf (misc % 4 == 3) 3                                        -- R269
  | .needsMask => reasonIf (!f.misc.getLsbD 3) 3                                   -- R124
  | .needsMaskImm => reasonIf (!f.misc.getLsbD 3) 3 ++
      reasonIf ([10, 11, 12].contains ty && imm / 2 ^ typeWidth ty != 0) 2
  | .vecImm => reasonIf ([10, 11, 12].contains ty && imm / 2 ^ typeWidth ty != 0) 2 -- R120
  | .vecConvert => vecConvertReasons f
  | .vbcastForm => if f.misc.getLsbD 4 then reasonIf (f.b != 0) 2                   -- R127
      else reasonIf (f.a != 0 || imm != 0) 2
  | .cbPart => reasonIf (ty == 1 && imm > 3) 2                                     -- R131
  | .ksetForm => if f.misc.getLsbD 4 then reasonIf (f.a != 0) 2 else reasonIf (imm != 0) 2
  | .qcfgMode => reasonIf (misc / 16 == 3) 3                                       -- R140
  | .bType => reasonIf (misc % 32 > 14) 3                                          -- R45, R197
  | .q20 => reasonIf (misc % 2 == 1 && ty == 9) 3                                  -- R204

/-- Every reason the fields of a slot of one opcode give. -/
def OpInfo.reasons (i : OpInfo) (f : Slot) : List Nat :=
  i.d.reasons f.d.toNat ++ i.a.reasons f.a.toNat ++ i.b.reasons f.b.toNat ++ i.c.reasons f.c.toNat ++
  reasonIf (!i.types.contains f.ty.toNat) i.typeReason ++ i.path.reasons f.path.toNat ++ i.rm.reasons f.rm.toNat ++
  reasonIf (f.misc.toNat &&& (0x3F ^^^ i.miscMask) != 0) i.miscReason ++
  reasonIf (f.imm.toNat &&& (imm48 ^^^ i.immMask) != 0) 2 ++ i.check.reasons f

/-- The lowest of some reasons. -/
def lowestReason : List Nat → Option Nat
  | [] => none
  | r :: rs => match lowestReason rs with
    | none => some r
    | some m => some (min r m)

/-- What the scanner finds in the fields of a slot, R52 reasons 1, 2, 3 and 6 (the form of a displacement). -/
def slotReason (op : Nat) (f : Slot) : Option Nat :=
  match opRow op with
  | none => some 1
  | some r => lowestReason (r.info.reasons f)

/-- The marker of a slot, R43. -/
def slotMarker (w : BitVec 96) : Bool := w.getLsbD 95

/-- The opcode of a slot. -/
def slotOpcode (w : BitVec 96) : Nat := (w.extractLsb' 86 9).toNat

/-- The fields of a slot, R43. -/
def slotFields (w : BitVec 96) : Slot :=
  { d := w.extractLsb' 81 5, a := w.extractLsb' 76 5, b := w.extractLsb' 71 5, c := w.extractLsb' 66 5,
    ty := w.extractLsb' 61 5, path := w.extractLsb' 57 4, rm := w.extractLsb' 54 3, misc := w.extractLsb' 48 6,
    imm := w.extractLsb' 0 48 }

/-- The instruction of a row: opcode 0x0C5 is `fput`, or `fput.new` where bit 0 of the miscellany field is 1 (15 R250). -/
def OpRow.instrOf (r : OpRow) (f : Slot) : Instr :=
  if r.instr = .fput ∧ f.misc.getLsbD 0 then .fputNew else r.instr

/-- What a slot decodes to: an instruction with the slot's fields, or the scanner's reason for refusing it. -/
inductive Decoded where
  | ok (i : Instr) (f : Slot)
  | bad (reason : Nat)
  deriving DecidableEq, Repr

/-- The decoder of a slot. -/
def decodeSlot (w : BitVec 96) : Decoded :=
  match opRow (slotOpcode w) with
  | none => .bad 1
  | some r =>
    match lowestReason (r.info.reasons (slotFields w)) with
    | some n => .bad n
    | none => .ok (r.instrOf (slotFields w)) (slotFields w)

/-- The instruction a decoded slot is, if it is one. -/
def Decoded.instr? : Decoded → Option Instr
  | .ok i _ => some i
  | .bad _ => none

/-- The instruction of a word whose bits are numbered as the table of operations numbers them: bit k of the slot is bit k of the
number (00_scope R9, 03_instruction_lines R33: a slot is stored little-endian). -/
def decodeTableWord (nbits w : Nat) : Option Instr :=
  if nbits ≤ 96 then (decodeSlot (BitVec.ofNat 96 (w % 2 ^ nbits))).instr? else none

/-- The opcode of an instruction, R50; an event has none. -/
def opcodeOf : Instr → Option Nat
  | .add => some 0x000
  | .sub => some 0x001
  | .mul => some 0x002
  | .mulh => some 0x003
  | .div => some 0x004
  | .rem => some 0x005
  | .and => some 0x006
  | .or => some 0x007
  | .xor => some 0x008
  | .andn => some 0x009
  | .shl => some 0x00A
  | .shr => some 0x00B
  | .sar => some 0x00C
  | .rol => some 0x00D
  | .min => some 0x00E
  | .max => some 0x00F
  | .addsat => some 0x010
  | .subsat => some 0x011
  | .slt => some 0x012
  | .seq => some 0x013
  | .sel => some 0x014
  | .madd => some 0x015
  | .bext => some 0x016
  | .bins => some 0x017
  | .mov => some 0x018
  | .clz => some 0x019
  | .ctz => some 0x01A
  | .popc => some 0x01B
  | .bswap => some 0x01C
  | .abs => some 0x01D
  | .addImm => some 0x020
  | .subImm => some 0x021
  | .mulImm => some 0x022
  | .mulhImm => some 0x023
  | .divImm => some 0x024
  | .remImm => some 0x025
  | .andImm => some 0x026
  | .orImm => some 0x027
  | .xorImm => some 0x028
  | .andnImm => some 0x029
  | .shlImm => some 0x02A
  | .shrImm => some 0x02B
  | .sarImm => some 0x02C
  | .rolImm => some 0x02D
  | .minImm => some 0x02E
  | .maxImm => some 0x02F
  | .addsatImm => some 0x030
  | .subsatImm => some 0x031
  | .sltImm => some 0x032
  | .seqImm => some 0x033
  | .selImm => some 0x034
  | .maddImm => some 0x035
  | .bextImm => some 0x036
  | .binsImm => some 0x037
  | .movImm => some 0x038
  | .fadd => some 0x040
  | .fsub => some 0x041
  | .fmul => some 0x042
  | .fdiv => some 0x043
  | .fsqrt => some 0x044
  | .fma => some 0x045
  | .fmin => some 0x046
  | .fmax => some 0x047
  | .fabs => some 0x048
  | .fneg => some 0x049
  | .fsgnj => some 0x04A
  | .fcmpeq => some 0x04B
  | .fcmplt => some 0x04C
  | .fcmple => some 0x04D
  | .fclass => some 0x04E
  | .fcvt => some 0x04F
  | .fcvti => some 0x050
  | .icvtf => some 0x051
  | .beq => some 0x060
  | .bne => some 0x061
  | .blt => some 0x062
  | .bge => some 0x063
  | .jmp => some 0x064
  | .jmpr => some 0x065
  | .call => some 0x066
  | .callr => some 0x067
  | .ret => some 0x068
  | .loopImm => some 0x069
  | .loopReg => some 0x06A
  | .align => some 0x06B
  | .nop => some 0x06C
  | .trap => some 0x06D
  | .xret => some 0x06E
  | .region => some 0x06F
  | .regend => some 0x070
  | .halt => some 0x071
  | .ld => some 0x080
  | .st => some 0x081
  | .ldx => some 0x082
  | .stx => some 0x083
  | .ldlk => some 0x084
  | .stul => some 0x085
  | .amo => some 0x086
  | .amor => some 0x087
  | .cas => some 0x088
  | .casr => some 0x089
  | .fence => some 0x08A
  | .drainst => some 0x08B
  | .pf => some 0x08C
  | .ldacq => some 0x08D
  | .strel => some 0x08E
  | .sysr => some 0x0A0
  | .sysw => some 0x0A1
  | .tlbw => some 0x0A2
  | .tlbinv => some 0x0A3
  | .replay => some 0x0A4
  | .l1inv => some 0x0A5
  | .ecrd => some 0x0A6
  | .ecset => some 0x0A7
  | .ecclr => some 0x0A8
  | .ctxsave => some 0x0A9
  | .ctxload => some 0x0AA
  | .wfm => some 0x0AB
  | .spawn => some 0x0C0
  | .post => some 0x0C1
  | .done => some 0x0C2
  | .yield => some 0x0C3
  | .fget => some 0x0C4
  | .fput => some 0x0C5
  | .fputNew => some 0x0C5
  | .fpoll => some 0x0C6
  | .bar => some 0x0C7
  | .amsg => some 0x0C8
  | .amsgr => some 0x0C9
  | .hret => some 0x0CA
  | .enq => some 0x0CB
  | .send => some 0x0CC
  | .recv => some 0x0CD
  | .commit => some 0x0CE
  | .abort => some 0x0CF
  | .kick => some 0x0D0
  | .mbwait => some 0x0D1
  | .tagset => some 0x0D2
  | .tagclr => some 0x0D3
  | .gath => some 0x0D4
  | .scat => some 0x0D5
  | .fork => some 0x0D6
  | .join => some 0x0D7
  | .rdrop => some 0x0D8
  | .rquery => some 0x0D9
  | .rnginit => some 0x0E0
  | .rngput => some 0x0E1
  | .rngget => some 0x0E2
  | .rngpeek => some 0x0E3
  | .rngadv => some 0x0E4
  | .rngfree => some 0x0E5
  | .rngfill => some 0x0E6
  | .freq => some 0x0E7
  | .fresp => some 0x0E8
  | .vadd => some 0x100
  | .vsub => some 0x101
  | .vmul => some 0x102
  | .vmulh => some 0x103
  | .vdiv => some 0x104
  | .vfma => some 0x105
  | .vmin => some 0x106
  | .vmax => some 0x107
  | .vaddsat => some 0x108
  | .vsubsat => some 0x109
  | .vand => some 0x10A
  | .vor => some 0x10B
  | .vxor => some 0x10C
  | .vandn => some 0x10D
  | .vshl => some 0x10E
  | .vshr => some 0x10F
  | .vsar => some 0x110
  | .vcmpeq => some 0x111
  | .vcmplt => some 0x112
  | .vcmple => some 0x113
  | .vsel => some 0x114
  | .vsqrt => some 0x115
  | .vabs => some 0x116
  | .vneg => some 0x117
  | .vcvt => some 0x118
  | .vclass => some 0x119
  | .vpopc => some 0x11A
  | .vclz => some 0x11B
  | .vaddBcast => some 0x120
  | .vsubBcast => some 0x121
  | .vmulBcast => some 0x122
  | .vmulhBcast => some 0x123
  | .vdivBcast => some 0x124
  | .vfmaBcast => some 0x125
  | .vminBcast => some 0x126
  | .vmaxBcast => some 0x127
  | .vaddsatBcast => some 0x128
  | .vsubsatBcast => some 0x129
  | .vandBcast => some 0x12A
  | .vorBcast => some 0x12B
  | .vxorBcast => some 0x12C
  | .vandnBcast => some 0x12D
  | .vshlBcast => some 0x12E
  | .vshrBcast => some 0x12F
  | .vsarBcast => some 0x130
  | .vcmpeqBcast => some 0x131
  | .vcmpltBcast => some 0x132
  | .vcmpleBcast => some 0x133
  | .vselBcast => some 0x134
  | .vaddImm => some 0x1C0
  | .vsubImm => some 0x1C1
  | .vmulImm => some 0x1C2
  | .vmulhImm => some 0x1C3
  | .vdivImm => some 0x1C4
  | .vfmaImm => some 0x1C5
  | .vminImm => some 0x1C6
  | .vmaxImm => some 0x1C7
  | .vaddsatImm => some 0x1C8
  | .vsubsatImm => some 0x1C9
  | .vandImm => some 0x1CA
  | .vorImm => some 0x1CB
  | .vxorImm => some 0x1CC
  | .vandnImm => some 0x1CD
  | .vshlImm => some 0x1CE
  | .vshrImm => some 0x1CF
  | .vsarImm => some 0x1D0
  | .vcmpeqImm => some 0x1D1
  | .vcmpltImm => some 0x1D2
  | .vcmpleImm => some 0x1D3
  | .vselImm => some 0x1D4
  | .vld => some 0x140
  | .vst => some 0x141
  | .vlds => some 0x142
  | .vsts => some 0x143
  | .vldx => some 0x144
  | .vstx => some 0x145
  | .vperm => some 0x146
  | .vbcast => some 0x147
  | .vslide => some 0x148
  | .vext => some 0x149
  | .vins => some 0x14A
  | .vredsum => some 0x14B
  | .vredmin => some 0x14C
  | .vredmax => some 0x14D
  | .vredand => some 0x14E
  | .vredor => some 0x14F
  | .vredxor => some 0x150
  | .vscan => some 0x151
  | .vcbdec => some 0x152
  | .prune => some 0x153
  | .vcompress => some 0x154
  | .vexpand => some 0x155
  | .vmv => some 0x156
  | .kand => some 0x160
  | .kor => some 0x161
  | .kxor => some 0x162
  | .knot => some 0x163
  | .kmov => some 0x164
  | .kpop => some 0x165
  | .kfirst => some 0x166
  | .kset => some 0x167
  | .kget => some 0x168
  | .qgen => some 0x180
  | .qand => some 0x181
  | .qxnor => some 0x182
  | .qmin => some 0x183
  | .qmax => some 0x184
  | .qmux => some 0x185
  | .qregen => some 0x186
  | .qcount => some 0x187
  | .qsum => some 0x188
  | .qtob => some 0x189
  | .btoq => some 0x18A
  | .vbtoq => some 0x18B
  | .qnot => some 0x18C
  | .qmov => some 0x18D
  | .qld => some 0x18E
  | .qst => some 0x18F
  | .qcfg => some 0x190
  | .qseed => some 0x191
  | .gang => some 0x1A0
  | .mmac => some 0x1A1
  | .mbmac => some 0x1A2
  | .mclr => some 0x1A3
  | .mscacc => some 0x1A4
  | .rdacc => some 0x1A5
  | .wracc => some 0x1A6
  | .ldacc => some 0x1A7
  | .stacc => some 0x1A8
  | .oqld => some 0x1A9
  | .oqcfg => some 0x1AA
  | .mrow => some 0x1AB
  | .cbload => some 0x1AC
  | .contract => some 0x1AD
  | .mwait => some 0x1AE
  | .resultWriteback => none
  | .preEmption => none
  | .instructionLineFill => none
  | .frameRefill => none
  | .contextBankWake => none
  | .migrationArrival => none
  | .deposit => none
  | .meshDelivery => none
  | .engineAccept => none
  | .ssuCommandExecute => none
  | .gangOperationStart => none
  | .matrixCommandStart => none
  | .matrixCommandComplete => none
  | .loadPipeFailure => none
  | .contractionExpand => none
  | .companionStart => none
  | .executeGrantRequest => none
  | .codePageScanDone => none
  | .executeGrantClear => none
  | .tentryWrite => none
  | .stackPoolWrite => none
  | .ringDescriptorWrite => none
  | .sfqControlWrite => none
  | .mcqControlWrite => none
  | .accessTableWrite => none
  | .revokedEntryRead => none
  | .timeSlotWrite => none
  | .mergeTableWrite => none
  | .eventCounterWrite => none
  | .ownerKeyWrite => none
  | .keyPromote => none
  | .controlBlockWrite => none
  | .dieReset => none
  | .dieDownNotice => none
  | .dieResetDrainEnd => none
  | .dieResetComplete => none
  | .powerOn => none
  | .throttle => none
  | .powerRemoved => none
  | .launchArrival => none
  | .launchStart => none
  | .launchDescriptorRemote => none
  | .firstThreadStart => none
  | .slotDue => none
  | .slotBudgetExpiry => none
  | .pendingLaunchStart => none
  | .launchCompletion => none
  | .timeSyncMessage => none
  | .postArrival => none
  | .acquisitionStart => none
  | .exclusionRequest => none
  | .exclusionReply => none
  | .taskIssue => none
  | .huskYield => none
  | .huskRestart => none
  | .taskEnd => none
  | .rePost => none
  | .activeMessageArrival => none
  | .handlerEntry => none
  | .futureFill => none
  | .barrierComplete => none
  | .enqueueArrival => none
  | .waitingEnqueueReserve => none
  | .enqueueRetry => none
  | .messageLanded => none
  | .enqueueCredit => none
  | .lockGrant => none
  | .gatherComplete => none
  | .tlbMiss => none
  | .pageMigrationComplete => none
  | .forkRegistration => none
  | .firstWrite => none
  | .merge => none
  | .mergeComplete => none
  | .homeStorePerform => none
  | .accessStatus => none
  | .atomicHomePerform => none
  | .incarnationProbeReply => none
  | .linklostTimeout => none
  | .routeDownReport => none
  | .flushMarker => none
  | .packetArrival => none
  | .acknowledgement => none
  | .retransmit => none
  | .linkSpill => none
  | .linkRefill => none
  | .cxlerrTimeout => none
  | .cxlLinkDown => none
  | .scrub => none
  | .scrubLate => none
  | .alignTimeout => none
  | .contextRequestRemote => none
  | .exclusionRelease => none
  | .packetSent => none
  | .flitSent => none
  | .linkDown => none
  | .linkUp => none
  | .cxlLinkUp => none
  | .dieAnnounce => none
  | .contextBankGate => none
  | .throttleEnd => none
  | .tokenBlockAgeOut => none

/-- A slot from its parts, R43. -/
def packSlot (marker : Bool) (op : Nat) (f : Slot) : BitVec 96 :=
  BitVec.ofBool marker ++ BitVec.ofNat 9 op ++ f.d ++ f.a ++ f.b ++ f.c ++ f.ty ++ f.path ++ f.rm ++ f.misc ++ f.imm

/-- The encoder: the slot of an instruction with its fields and its marker. -/
def encode (marker : Bool) (i : Instr) (f : Slot) : Option (BitVec 96) :=
  (opcodeOf i).map (fun op => packSlot marker op f)

end Sys2Proof
end

