-- ==== Sys2Proof/Machine/Num.lean ====
section
/-! DEFINITION. Number formats, rounding and the generator of 04_number_formats: integers read and written in a type (R56, R57),
the floating formats (R58 to R62), one rounding function for every mode (R65 to R67), CB8 (R63, R64) and `Mix` (R68). Exact values are
integers times powers of two, so nothing is rounded before the one rounding the spec names. -/

namespace Sys2Proof.Machine

/-! ### Integers -/

/-- The value of the low w bits of a register in an integer type, R56, R57, R92. -/
def intVal (ty : Nat) (v : Word) : Int :=
  let w := typeWidth ty
  let n := v.toNat % 2 ^ w
  if isSignedType ty && 2 ^ (w - 1) ≤ n then (n : Int) - (2 ^ w : Nat) else n

/-- `Wrap(x, w)` read in the type's signedness, R79. -/
def wrap (ty : Nat) (x : Int) : Int :=
  let w := typeWidth ty
  let n := x % (2 ^ w : Nat)
  if isSignedType ty && ((2 ^ (w - 1) : Nat) : Int) ≤ n then n - (2 ^ w : Nat) else n

/-- A w-bit integer result as R57 writes it into a register: sign-extended for a signed type, zero-extended otherwise. -/
def putInt (ty : Nat) (x : Int) : Word := BitVec.ofInt 64 (wrap ty x)

/-- The least and the greatest value of an integer type, R56. -/
def intMin (ty : Nat) : Int := if isSignedType ty then -((2 ^ (typeWidth ty - 1) : Nat) : Int) else 0
def intMax (ty : Nat) : Int :=
  if isSignedType ty then ((2 ^ (typeWidth ty - 1) : Nat) : Int) - 1 else ((2 ^ typeWidth ty : Nat) : Int) - 1

/-- `SatS` or `SatU`, R79. -/
def sat (ty : Nat) (x : Int) : Int := max (intMin ty) (min (intMax ty) x)

/-- `SExt` of the low w bits of a number, R79. -/
def sext (n w : Nat) : Int := if 2 ^ (w - 1) ≤ n % 2 ^ w then (n % 2 ^ w : Nat) - (2 ^ w : Nat) else ((n % 2 ^ w : Nat) : Int)

/-- The integer operations of R93 to R96 on values already read in the type's signedness. -/
def intDiv (ty : Nat) (a b : Int) : Int :=
  if b = 0 then (if isSignedType ty then -1 else intMax ty) else wrap ty (a.tdiv b)
def intRem (a b : Int) : Int := if b = 0 then a else a - b * a.tdiv b
def intMulh (ty : Nat) (a b : Int) : Int := (a * b) / (2 ^ typeWidth ty : Nat)
/-- The w bits of a value as a natural number. -/
def bitsOf (ty : Nat) (x : Int) : Nat := (x % (2 ^ typeWidth ty : Nat)).toNat
def intAnd (ty : Nat) (a b : Int) : Int := ((bitsOf ty a &&& bitsOf ty b : Nat) : Int)
def intOr (ty : Nat) (a b : Int) : Int := ((bitsOf ty a ||| bitsOf ty b : Nat) : Int)
def intXor (ty : Nat) (a b : Int) : Int := ((bitsOf ty a ^^^ bitsOf ty b : Nat) : Int)
def intAndn (ty : Nat) (a b : Int) : Int :=
  ((bitsOf ty a &&& (2 ^ typeWidth ty - 1 - bitsOf ty b) : Nat) : Int)
/-- The shift amount, R95. -/
def shiftAmount (ty : Nat) (b : Int) : Nat := bitsOf ty b % typeWidth ty
def intShl (ty : Nat) (a b : Int) : Int := ((bitsOf ty a * 2 ^ shiftAmount ty b : Nat) : Int)
def intShr (ty : Nat) (a b : Int) : Int := ((bitsOf ty a / 2 ^ shiftAmount ty b : Nat) : Int)
def intSar (ty : Nat) (a b : Int) : Int := sext (bitsOf ty a) (typeWidth ty) / (2 ^ shiftAmount ty b : Nat)
def intRol (ty : Nat) (a b : Int) : Int :=
  let s := shiftAmount ty b
  ((bitsOf ty a * 2 ^ s + bitsOf ty a / 2 ^ (typeWidth ty - s) : Nat) : Int)
/-- Count of zeros above the highest one among w bits, R96. -/
def leadingZeros (w n : Nat) : Nat := if n = 0 then w else w - 1 - n.log2
/-- Count of zeros below the lowest one among w bits, R96. -/
def trailingZeros : Nat → Nat → Nat
  | 0, _ => 0
  | w + 1, n => if n % 2 = 1 then 0 else 1 + trailingZeros w (n / 2)
/-- Count of ones among w bits, R96. -/
def onesCount : Nat → Nat → Nat
  | 0, _ => 0
  | w + 1, n => n % 2 + onesCount w (n / 2)
/-- k bytes in reverse order, R93 `bswap`. -/
def byteReverse : Nat → Nat → Nat
  | 0, _ => 0
  | k + 1, n => (n % 256) * 256 ^ k + byteReverse k (n / 256)
/-- `BitField`, R98. -/
def bitField (v : Word) (p n : Nat) : Nat := (v.toNat / 2 ^ p) % 2 ^ n

/-! ### Floating values -/

/-- A floating format, R58. -/
structure Fmt where
  width : Nat
  expBits : Nat
  frac : Nat
  bias : Nat
  e4m3 : Bool := false
  deriving DecidableEq, Repr

def f64 : Fmt := { width := 64, expBits := 11, frac := 52, bias := 1023 }
def f32 : Fmt := { width := 32, expBits := 8, frac := 23, bias := 127 }
def f16 : Fmt := { width := 16, expBits := 5, frac := 10, bias := 15 }
def bf16 : Fmt := { width := 16, expBits := 8, frac := 7, bias := 127 }
def e4m3 : Fmt := { width := 8, expBits := 4, frac := 3, bias := 7, e4m3 := true }

/-- The format of a floating type code, R45. -/
def fmtOf (ty : Nat) : Fmt :=
  match ty with
  | 10 => f32
  | 11 => f16
  | 12 => bf16
  | 13 => e4m3
  | _ => f64

/-- A floating value read exactly: a NaN, an infinity, or man × 2^exp with a sign. -/
inductive FVal where
  | nan (signalling : Bool)
  | inf (neg : Bool)
  | fin (neg : Bool) (man : Nat) (exp : Int)
  deriving DecidableEq, Repr

/-- The bits of a format in a number. -/
def Fmt.signOf (m : Fmt) (n : Nat) : Bool := n.testBit (m.width - 1)
def Fmt.expOf (m : Fmt) (n : Nat) : Nat := (n / 2 ^ m.frac) % 2 ^ m.expBits
def Fmt.fracOf (m : Fmt) (n : Nat) : Nat := n % 2 ^ m.frac
/-- The exponent of the format's subnormal quantum. -/
def Fmt.qmin (m : Fmt) : Int := 1 - (m.bias : Int) - m.frac
/-- The largest exponent field of a finite value. -/
def Fmt.emaxField (m : Fmt) : Nat := if m.e4m3 then 2 ^ m.expBits - 1 else 2 ^ m.expBits - 2
/-- The quantum's exponent in the top binade. -/
def Fmt.qmax (m : Fmt) : Int := (m.emaxField : Int) - m.bias - m.frac
/-- The largest significand in the top binade: all ones, or 14 in E4M3 (R61). -/
def Fmt.nmax (m : Fmt) : Nat := if m.e4m3 then 14 else 2 ^ (m.frac + 1) - 1
/-- The canonical NaN, R59. -/
def Fmt.canonNaN (m : Fmt) : Nat :=
  if m.e4m3 then 0x7F else (2 ^ m.expBits - 1) * 2 ^ m.frac + 2 ^ (m.frac - 1)
def Fmt.signBit (m : Fmt) (neg : Bool) : Nat := if neg then 2 ^ (m.width - 1) else 0
/-- An infinity; E4M3 has none and never asks for one. -/
def Fmt.infBits (m : Fmt) (neg : Bool) : Nat := m.signBit neg + (2 ^ m.expBits - 1) * 2 ^ m.frac
/-- The largest finite value, R59. -/
def Fmt.maxBits (m : Fmt) (neg : Bool) : Nat :=
  m.signBit neg + m.emaxField * 2 ^ m.frac + (if m.e4m3 then 6 else 2 ^ m.frac - 1)

/-- Reads the low bits of a number as a value of the format, R58, R59, R61. -/
def Fmt.read (m : Fmt) (n : Nat) : FVal :=
  let e := m.expOf n
  let f := m.fracOf n
  let s := m.signOf n
  if m.e4m3 then
    if e = 15 ∧ f = 7 then .nan false
    else if e = 0 then .fin s f m.qmin else .fin s (f + 8) (m.qmin + e - 1)
  else if e = 2 ^ m.expBits - 1 then
    if f = 0 then .inf s else .nan (!(f.testBit (m.frac - 1)))
  else if e = 0 then .fin s f m.qmin
  else .fin s (f + 2 ^ m.frac) (m.qmin + e - 1)

/-- The flags of R72 as five bits: NV 16, DZ 8, OF 4, UF 2, NX 1. -/
abbrev Flags5 := BitVec 5
def flagNV : Flags5 := 16
def flagDZ : Flags5 := 8
def flagOF : Flags5 := 4
def flagUF : Flags5 := 2
def flagNX : Flags5 := 1

/-- A floating result: the bits of its format and the flags it raises. -/
structure FRes where
  bits : Nat
  flags : Flags5 := 0
  deriving DecidableEq, Repr

/-- The rounding modes of R65. -/
inductive RMode where
  | rne | rtz | rdn | rup
  | sr (u : Nat)
  deriving DecidableEq, Repr

/-- Whether the magnitude n + rem / 2^sh rounds up to n + 1, R65, R67. Under `.sr` the lower neighbour of a negative value is the one
of greater magnitude. -/
def RMode.up (mode : RMode) (neg : Bool) (n rem sh : Nat) : Bool :=
  if rem = 0 then false else
  match mode with
  | .rne => let h := 2 * rem; decide (2 ^ sh < h ∨ (h = 2 ^ sh ∧ n % 2 = 1))
  | .rtz => false
  | .rdn => neg
  | .rup => !neg
  | .sr u =>
    if neg then !(decide (u < (2 ^ sh - rem) * 2 ^ 32 / 2 ^ sh)) else decide (u < rem * 2 ^ 32 / 2 ^ sh)

/-- man × 2^exp in units of 2^q, rounded to an integer: the integer, and whether it is inexact. -/
def roundAt (mode : RMode) (neg : Bool) (man : Nat) (exp q : Int) : Nat × Bool :=
  if q ≤ exp then (man * 2 ^ (exp - q).toNat, false)
  else
    let sh := (q - exp).toNat
    let n := man / 2 ^ sh
    let rem := man % 2 ^ sh
    (if mode.up neg n rem sh then n + 1 else n, rem != 0)

/-- What replaces an overflowed result, R66 and, for E4M3, R62. -/
def overflowBits (m : Fmt) (satBit : Bool) (mode : RMode) (neg : Bool) : Nat :=
  let toInf := match mode with
    | .rne => true
    | .rtz => false
    | .rdn => neg
    | .rup => !neg
    | .sr _ => true
  if toInf then (if m.e4m3 then (if satBit then m.maxBits neg else m.canonNaN) else m.infBits neg)
  else m.maxBits neg

/-- `Round(x, fmt, mode)` of a nonzero x = man × 2^exp, R65 to R67, with tininess detected after rounding (R60). -/
def roundNonzero (m : Fmt) (satBit : Bool) (mode : RMode) (neg : Bool) (man : Nat) (exp : Int) : FRes :=
  let e := exp + man.log2
  let q := min m.qmax (max m.qmin (e - m.frac))
  let r := roundAt mode neg man exp q
  let nx := if r.2 then flagNX else 0
  if q = m.qmax ∧ m.nmax < r.1 then { bits := overflowBits m satBit mode neg, flags := flagOF ||| flagNX }
  else
    let free := roundAt mode neg man exp (e - m.frac)
    let tiny := decide ((free.1 : Int) * (2 ^ (e - m.frac - m.qmin).toNat : Nat) < ((2 ^ m.frac * 2 ^ (m.qmin - (e - m.frac)).toNat : Nat) : Int))
    { bits := m.signBit neg + (q - m.qmin).toNat * 2 ^ m.frac + r.1,
      flags := nx ||| (if tiny && r.2 then flagUF else 0) }

/-- `Round` of an exact value; zeroSign is the sign of an exact zero. -/
def roundVal (m : Fmt) (satBit : Bool) (mode : RMode) (zeroSign : Bool) (neg : Bool) (man : Nat) (exp : Int) : FRes :=
  if man = 0 then { bits := m.signBit zeroSign } else roundNonzero m satBit mode neg man exp

/-- The sign of an exact zero difference, R100. -/
def zeroSignOf : RMode → Bool
  | .rdn => true
  | _ => false

/-- A signed integer significand at a common exponent. -/
def signedMan (neg : Bool) (man : Nat) (sh : Nat) : Int := if neg then -((man * 2 ^ sh : Nat) : Int) else ((man * 2 ^ sh : Nat) : Int)

/-- The exact sum of two finite values: sign, significand, exponent. -/
def exactSum (n1 : Bool) (m1 : Nat) (e1 : Int) (n2 : Bool) (m2 : Nat) (e2 : Int) : Bool × Nat × Int :=
  let e := min e1 e2
  let s := signedMan n1 m1 (e1 - e).toNat + signedMan n2 m2 (e2 - e).toNat
  (decide (s < 0), s.natAbs, e)

def FVal.isNaN : FVal → Bool
  | .nan _ => true
  | _ => false
def FVal.isSNaN : FVal → Bool
  | .nan s => s
  | _ => false
def FVal.isZero : FVal → Bool
  | .fin _ 0 _ => true
  | _ => false
def FVal.isInf : FVal → Bool
  | .inf _ => true
  | _ => false
def FVal.neg? : FVal → Bool
  | .nan _ => false
  | .inf s => s
  | .fin s _ _ => s
def FVal.negate : FVal → FVal
  | .nan s => .nan s
  | .inf s => .inf (!s)
  | .fin s m e => .fin (!s) m e

def nanRes (m : Fmt) (invalid : Bool) : FRes := { bits := m.canonNaN, flags := if invalid then flagNV else 0 }

/-- A + B, R100. -/
def fAdd (m : Fmt) (mode : RMode) (a b : FVal) : FRes :=
  match a, b with
  | .nan s, y => nanRes m (s || y.isSNaN)
  | x, .nan s => nanRes m (s || x.isSNaN)
  | .inf s, .inf t => if s = t then { bits := m.infBits s } else nanRes m true
  | .inf s, .fin _ _ _ => { bits := m.infBits s }
  | .fin _ _ _, .inf s => { bits := m.infBits s }
  | .fin s1 m1 e1, .fin s2 m2 e2 =>
    let r := exactSum s1 m1 e1 s2 m2 e2
    let zs := if m1 = 0 ∧ m2 = 0 ∧ s1 = s2 then s1 else zeroSignOf mode
    roundVal m false mode zs r.1 r.2.1 r.2.2

/-- A × B, R100. -/
def fMul (m : Fmt) (mode : RMode) (a b : FVal) : FRes :=
  match a, b with
  | .nan s, y => nanRes m (s || y.isSNaN)
  | x, .nan s => nanRes m (s || x.isSNaN)
  | .inf s, y => if y.isZero then nanRes m true else { bits := m.infBits (s != y.neg?) }
  | x, .inf s => if x.isZero then nanRes m true else { bits := m.infBits (s != x.neg?) }
  | .fin s1 m1 e1, .fin s2 m2 e2 => roundVal m false mode (s1 != s2) (s1 != s2) (m1 * m2) (e1 + e2)

/-- A × B + C with one rounding, R100, R73. -/
def fFma (m : Fmt) (mode : RMode) (a b c : FVal) : FRes :=
  let zeroInf := (a.isInf && b.isZero) || (a.isZero && b.isInf)
  if zeroInf then nanRes m true
  else if a.isNaN || b.isNaN || c.isNaN then nanRes m (a.isSNaN || b.isSNaN || c.isSNaN)
  else
    match a, b, c with
    | .fin s1 m1 e1, .fin s2 m2 e2, .fin s3 m3 e3 =>
      let ps := s1 != s2
      let r := exactSum ps (m1 * m2) (e1 + e2) s3 m3 e3
      let zs := if m1 * m2 = 0 ∧ m3 = 0 ∧ ps = s3 then ps else zeroSignOf mode
      roundVal m false mode zs r.1 r.2.1 r.2.2
    | .fin _ _ _, .fin _ _ _, .inf s => { bits := m.infBits s }
    | x, y, .inf s => if (x.neg? != y.neg?) = s then { bits := m.infBits s } else nanRes m true
    | x, y, _ => { bits := m.infBits (x.neg? != y.neg?) }

/-- A / B, R100, R73. The quotient is taken to 192 bits with a sticky bit below them. -/
def fDiv (m : Fmt) (mode : RMode) (a b : FVal) : FRes :=
  match a, b with
  | .nan s, y => nanRes m (s || y.isSNaN)
  | x, .nan s => nanRes m (s || x.isSNaN)
  | .inf s, y => if y.isInf then nanRes m true else { bits := m.infBits (s != y.neg?) }
  | x, .inf s => { bits := m.signBit (s != x.neg?) }
  | .fin s1 m1 e1, .fin s2 m2 e2 =>
    if m2 = 0 then (if m1 = 0 then nanRes m true else { bits := m.infBits (s1 != s2), flags := flagDZ })
    else
      let k := 192 + m2.log2 - m1.log2
      let n := m1 * 2 ^ k
      let sticky := if n % m2 = 0 then 0 else 1
      roundVal m false mode (s1 != s2) (s1 != s2) (2 * (n / m2) + sticky) (e1 - e2 - k - 1)

/-- The integer square root below 2^k, bit by bit. -/
def isqrt (n : Nat) : Nat → Nat → Nat
  | 0, r => r
  | k + 1, r => isqrt n k (if (r + 2 ^ k) * (r + 2 ^ k) ≤ n then r + 2 ^ k else r)

/-- √A, R100. -/
def fSqrt (m : Fmt) (mode : RMode) (a : FVal) : FRes :=
  match a with
  | .nan s => nanRes m s
  | .inf s => if s then nanRes m true else { bits := m.infBits false }
  | .fin s m1 e1 =>
    if m1 = 0 then { bits := m.signBit s }
    else if s then nanRes m true
    else
      let k := 320 + (e1 % 2).toNat
      let n := m1 * 2 ^ k
      let r := isqrt n 200 0
      let sticky := if r * r = n then 0 else 1
      roundVal m false mode false false (2 * r + sticky) ((e1 - k) / 2 - 1)

/-- A < B for two values that are no NaN, and A = B; −0 equals +0 (R102). -/
def FVal.lt (a b : FVal) : Bool :=
  match a, b with
  | .inf s, .inf t => s && !t
  | .inf s, .fin _ _ _ => s
  | .fin _ _ _, .inf t => !t
  | .fin s1 m1 e1, .fin s2 m2 e2 =>
    let e := min e1 e2
    decide (signedMan s1 m1 (e1 - e).toNat < signedMan s2 m2 (e2 - e).toNat)
  | _, _ => false
def FVal.eqv (a b : FVal) : Bool := !a.isNaN && !b.isNaN && !a.lt b && !b.lt a

/-- `fcmpeq`, `fcmplt`, `fcmple`: the truth value and the flags, R102, R73. -/
def fCmpEq (a b : FVal) : Bool × Flags5 := (a.eqv b, if a.isSNaN || b.isSNaN then flagNV else 0)
def fCmpLt (a b : FVal) : Bool × Flags5 := (a.lt b, if a.isNaN || b.isNaN then flagNV else 0)
def fCmpLe (a b : FVal) : Bool × Flags5 := (a.lt b || a.eqv b, if a.isNaN || b.isNaN then flagNV else 0)

/-- `fmin` and `fmax` on the bits of two operands, R101. -/
def fPick (m : Fmt) (max : Bool) (x y : Nat) : FRes :=
  let a := m.read x
  let b := m.read y
  let flags := if a.isSNaN || b.isSNaN then flagNV else 0
  if a.isNaN && b.isNaN then { bits := m.canonNaN, flags := flags }
  else if a.isNaN then { bits := y, flags := flags }
  else if b.isNaN then { bits := x, flags := flags }
  else
    let aLow := a.lt b || (a.eqv b && (a.neg? && !b.neg?))
    { bits := if aLow = max then y else x, flags := flags }

/-- The class mask of R102. -/
def fClass (m : Fmt) (n : Nat) : Nat :=
  let normal := m.expOf n != 0
  match m.read n with
  | .nan true => 0x100
  | .nan false => 0x200
  | .inf true => 0x001
  | .inf false => 0x080
  | .fin s 0 _ => if s then 0x008 else 0x010
  | .fin true _ _ => if normal then 0x002 else 0x004
  | .fin false _ _ => if normal then 0x040 else 0x020

/-- Conversion of a value to a floating format, R103, R61, R62. A NaN gives the canonical NaN. -/
def fConvert (m : Fmt) (satBit : Bool) (mode : RMode) (a : FVal) : FRes :=
  match a with
  | .nan s => nanRes m s
  | .inf s =>
    if m.e4m3 then (if satBit then { bits := m.maxBits s, flags := flagNX } else { bits := m.canonNaN, flags := flagNV })
    else { bits := m.infBits s }
  | .fin s man e => roundVal m satBit mode s s man e

/-- An integer converted to a floating format, R103. -/
def intToFloat (m : Fmt) (satBit : Bool) (mode : RMode) (x : Int) : FRes :=
  roundVal m satBit mode false (decide (x < 0)) x.natAbs 0

/-- A float converted to an integer type, R73, R103: the value and the flags. -/
def floatToInt (ty : Nat) (mode : RMode) (a : FVal) : Int × Flags5 :=
  match a with
  | .nan _ => (0, flagNV)
  | .inf s => (if s then intMin ty else intMax ty, flagNV)
  | .fin s man e =>
    let r := roundAt mode s man e 0
    let v : Int := if s then -(r.1 : Int) else r.1
    if v < intMin ty then (intMin ty, flagNV)
    else if intMax ty < v then (intMax ty, flagNV)
    else (v, if r.2 then flagNX else 0)

/-! ### CB8 -/

/-- `CB8Decode` of weight j, R64: an index, and the shell-table entry its low byte names. -/
def cb8Weight (ix : Nat) (entry : Nat) (j : Nat) : Int :=
  let h := (ix / 2 ^ 15) % 2
  let mag := min ((entry / 2 ^ (4 * j)) % 16 + h) 15
  let signs := (ix / 2 ^ 8) % 2 ^ 7
  let s := if j < 7 then signs.testBit j else onesCount 7 signs % 2 = 1
  if s then -(mag : Int) else mag

/-! ### The generator -/

/-- `Mix`, R68. -/
def mix (z : Word) : Word :=
  let z := (z ^^^ (z >>> 30)) * 0xBF58476D1CE4E5B9#64
  let z := (z ^^^ (z >>> 27)) * 0x94D049BB133111EB#64
  z ^^^ (z >>> 31)

/-- The draw of domain d at a generator state, R68. -/
def drawOf (gseed gctr : Word) (domain : Nat) : Word := mix (gseed ^^^ (BitVec.ofNat 64 domain <<< 56) ^^^ gctr)

end Sys2Proof.Machine
end

