-- ==== Sys2Proof/Machine/State.lean ====
section
/-! DEFINITION. The state of the machine as plain data: everything the spec gives it (INVENTORY.md, State), and the few fields of the
model's own, which say what moves next. A machine holds many harts, cores, quads and dies; each kind is a list of those that differ
from their reset state, by key. -/

namespace Sys2Proof.Machine

/-- Why the machine stops with a fault. -/
inductive Fault where
  /-- Raised by an instruction's meaning when the hart that should issue it does not exist. No step of the machine does so: a step
  issues only for a hart it holds. Safe. -/
  | noHart
  deriving DecidableEq, Repr

/-- Why the model gives an instruction no meaning. -/
inductive Refusal where
  /-- Raised by an arm of `exec` for an instruction not modelled yet. Safe. -/
  | notModelled (mnemonic : String)
  /-- Raised by a step that fetches a slot that is no instruction from a page with the execute grant. The scanner refuses such a page
  before it grants it (03_instruction_lines R52), so no run reaches it, and the spec gives the run-time decoder no effect for it
  (R54). Safe. -/
  | notAnInstruction (reason : Nat)
  deriving DecidableEq, Repr

/-! ### Lists by key -/

/-- A finite map with a default value: keys strictly rising, no entry equal to the default. -/
abbrev Sparse (α : Type) := List (Nat × α)

/-- The value at a key. -/
def Sparse.get (d : α) : Sparse α → Nat → α
  | [], _ => d
  | (k, v) :: r, a => if k = a then v else Sparse.get d r a

/-- The map with the value at a key replaced; writing the default removes the key. -/
def Sparse.put [DecidableEq α] (d : α) (a : Nat) (v : α) : Sparse α → Sparse α
  | [] => if v = d then [] else [(a, v)]
  | (k, w) :: r =>
    if v = d then (if a = k then Sparse.put d a v r else (k, w) :: Sparse.put d a v r)
    else if a < k then (a, v) :: (k, w) :: r
    else if a = k then (a, v) :: r
    else (k, w) :: Sparse.put d a v r

/-- The canonical form: keys strictly rising, all above a bound, and no value equal to the default. -/
def Sparse.wfFrom [DecidableEq α] (d : α) : Nat → Sparse α → Bool
  | _, [] => true
  | b, (k, v) :: r => decide (b ≤ k) && decide (v ≠ d) && Sparse.wfFrom d (k + 1) r

/-- A record by key, with a default for those not listed. -/
def lookupD [DecidableEq κ] (d : α) (k : κ) : List (κ × α) → α
  | [] => d
  | (j, v) :: r => if j = k then v else lookupD d k r

/-- The record at a key, if it is listed. -/
def lookup? [DecidableEq κ] (k : κ) : List (κ × α) → Option α
  | [] => none
  | (j, v) :: r => if j = k then some v else lookup? k r

/-- Replaces the record at a key, or adds it. -/
def setKey [DecidableEq κ] (k : κ) (v : α) : List (κ × α) → List (κ × α)
  | [] => [(k, v)]
  | (j, w) :: r => if j = k then (k, v) :: r else (j, w) :: setKey k v r

/-- Removes the record at a key. -/
def eraseKey [DecidableEq κ] (k : κ) (l : List (κ × α)) : List (κ × α) := l.filter (fun p => p.1 ≠ k)

/-! ### A hart -/

/-- A stream register, 05_registers R80, 08_stream_registers R136. -/
structure Stream where
  bits : BitVec 4096 := 0
  cls : BitVec 16 := 0
  len : BitVec 2 := 0
  bipolar : Bool := false
  deriving DecidableEq, Repr

/-- A hardware loop counter with its hidden bounds, 06 R107. -/
structure Loop where
  count : BitVec 24 := 0
  start : Word := 0
  stop : Word := 0
  reload : BitVec 24 := 0
  deriving DecidableEq, Repr

/-- The general registers of a hart, 05_registers R80. -/
structure Regs where
  x : Vector Word 16 := Vector.replicate 16 0
  g : Vector Word 8 := Vector.replicate 8 0
  v : Vector VecReg 32 := Vector.replicate 32 0
  k : Vector (BitVec 32) 8 := Vector.replicate 8 0
  q : Vector Stream 16 := Vector.replicate 16 {}
  deriving DecidableEq, Repr

/-- Trap state, 09_traps_contexts R149, R150. -/
structure TrapRegs where
  xcause : BitVec 32 := 0
  xpc : Word := 0
  xval : Word := 0
  mode : Bool := false
  pmode : Bool := false
  trapped : Bool := false
  deriving DecidableEq, Repr

/-- Generator state, 04 R68, 08 R137, R138. -/
structure Gen where
  gseed : Word := 0
  gctr : Word := 0
  cmode : Vector (BitVec 2) 16 := Vector.replicate 16 0
  cseed : Vector Word 16 := Vector.replicate 16 0
  cctr : Vector Word 16 := Vector.replicate 16 0
  deriving DecidableEq, Repr

/-- One register write of an outstanding result; a vector or mask write replaces the bits of its mask. -/
inductive RegWrite where
  | x (i : Nat) (v : Word)
  | g (i : Nat) (v : Word)
  | mesh (port : Nat) (v : Word)
  | cbo (ticket : Nat) (v : Word)
  | vec (i : Nat) (v mask : VecReg)
  | msk (i : Nat) (v mask : BitVec 32)
  deriving DecidableEq, Repr

/-- An outstanding result, 03_instruction_lines R41. A result that has not returned waits for the event that its tag names; a quick one is
an integer result of one cycle (06 R103's table), which may be written before its hart issues again; `second` says that its
instruction stood in slot i + 1 of a pair. -/
structure Pending where
  writes : List RegWrite := []
  flags : Flags5 := 0
  returned : Bool := true
  quick : Bool := false
  poison : Option Word := none
  inRegion : Bool := false
  second : Bool := false
  tag : Nat := 0
  deriving DecidableEq, Repr

/-- What a stalled instruction of a hart waits for; the event that ends the wait clears it. -/
inductive Wait where
  | tlb (loadPipe : Bool) (space page : Nat)
  | frame (n : Nat)
  | future (cell : Nat)
  | barrier (serial : Nat)
  | gang
  | lock (core bank bit : Nat)
  | revision (r : Nat)
  | firstWrite (line : Nat)
  | flush
  | enqueue
  | align (pc : Word)
  | fetch (line : Nat) (again : Bool)
  | request
  deriving DecidableEq, Repr

/-- Where a thread stands, 09 R149, R160: it runs (Ready, Running or Waiting, by what it waits for), or is Pre-empted; a companion or
firmware hart between starts is halted; a handler whose context is free, and a context slot without a thread, hold none. -/
inductive Phase where
  | active | preempted | halted | ending
  deriving DecidableEq, Repr

/-- A trap that waits for the outstanding results of its thread, 09 R153. -/
structure TrapReq where
  cause : Nat
  xval : Word
  pc : Word
  second : Bool
  unit : Nat
  precise : Bool := true
  marker : Bool := false
  deriving DecidableEq, Repr

/-- A status other than DONE on its way to an access's thread, 11_memory_instructions R177, R190; of an access that travels, also whose it
is, should its thread have ended: its owner, core, launch, element word, and the number of its thread's start. -/
structure Access where
  kind : Nat
  addr : Word
  pc : Word
  status : Nat
  owner : Nat := 0
  core : CoreKey := 0
  launch : Option Nat := none
  elem : Word := 0
  born : Nat := 0
  deriving DecidableEq, Repr

/-- How a thread started and whom its end concerns. -/
structure Origin where
  launch : Option Nat := none
  owner : Nat := 0
  space : Nat := 0
  job : Option Nat := none
  first : Bool := false
  element : Option Nat := none
  acq : Option (DieKey × Nat) := none
  parent : Option Word := none
  reply : Option (Nat × Word) := none
  tag : Option Nat := none
  deriving DecidableEq, Repr

/-- How a thread ends: by a cause and its inner cause, and whether as faulted; `fill` is what a `done` fills the parent's cell with (15
R250), `released` says that the flush markers of its release are on their way. -/
structure Ending where
  cause : Nat := 0
  inner : Nat := 0
  faulted : Bool := false
  fill : Option Word := none
  released : Bool := false
  deriving DecidableEq, Repr

/-- A thread, handler, companion hart or firmware hart. Its registers stand here also while their frame is out of the context cache:
`absent` lists those frames, which the image in memory holds (05 R85), `left` the window registers that LIVE left out of the last
write-back of their frame (R87), and `below` the stack words under the window that the context cache holds (R83, R85). `stopping` says that
a pre-emption has taken effect and nothing more issues (09 R162), `since` when a thread that has not issued became ready (16 R287), `fence`
what a fence still waits for (11 R189), `badLine` a line that came wrong twice (03 R54), `joined` the handle of a completed join and what it answers (13 R225). -/
structure Hart where
  regs : Regs := {}
  pc : Word := 0
  tid : Word := 0
  gen : Gen := {}
  loops : Vector Loop 3 := Vector.replicate 3 {}
  trap : TrapRegs := {}
  wbase : Word := 0
  rsbase : Word := 0
  rslim : Word := 0
  rpc : Word := 0
  inRegion : Bool := false
  restarts : Nat := 0
  fflags : BitVec 32 := 0
  frm : BitVec 3 := 0
  live : BitVec 16 := 0xFFFF
  depmask : BitVec 16 := 0
  jobid : Word := 0
  vused : Bool := false
  qused : Bool := false
  prio : Nat := 0
  migratory : Bool := false
  revid : Nat := 0
  filter : List Nat := []
  sfc : BitVec 16 := 0
  origin : Origin := {}
  phase : Phase := .active
  outstanding : List Pending := []
  parked : Bool := false
  wait : Option Wait := none
  grant : Option Word := none
  pendingTrap : Option TrapReq := none
  accesses : List Access := []
  deposits : List (Nat × Word × Option HartId) := []
  absent : List Nat := []
  left : BitVec 16 := 0
  below : List (Nat × Word) := []
  gang : Bool := false
  restartPc : Option Word := none
  lock : Option (CoreKey × Nat × Nat) := none
  preempt : Bool := false
  preemptBy : List (HartId × Nat) := []
  fresh : Bool := false
  stalled : Bool := false
  stopping : Bool := false
  fence : Option (Nat × Nat) := none
  badLine : Option Nat := none
  joined : Option (Word × Word) := none
  answered : List Nat := []
  refused : Option Word := none
  matrix : Nat := 0
  stamp : Nat := 0
  since : Nat := 0
  flush : Nat := 0
  flushNo : Nat := 0
  sram : Sparse Word := []
  endCause : Option Ending := none
  deriving DecidableEq, Repr

/-! ### Commands, messages and packets -/

/-- A queued SSU command: its opcode, fields and operands as read at issue, 08 R135. -/
structure SsuCmd where
  hart : HartId
  op : Nat
  slot : Slot
  pc : Word
  scalar : Word := 0
  vec : VecReg := 0
  mode : BitVec 2 := 0
  draws : List Word := []
  tag : Nat := 0
  inRegion : Bool := false
  second : Bool := false
  rev : Nat := 0
  deriving DecidableEq, Repr

/-- A queued kick of a companion hart, 15 R265. -/
structure Kick where
  pc : Word
  arg : Word
  rev : Nat := 0
  space : Nat := 0
  launch : Option Nat := none
  owner : Nat := 0
  deriving DecidableEq, Repr

/-- Whose accesses a matrix command makes: another thread's, of its A rows, under QSHARE (12 R200). -/
structure Reader where
  hart : HartId
  rev : Nat
  space : Nat
  owner : Nat
  job : Option Nat
  deriving DecidableEq, Repr

/-- A matrix command with its operands as read at issue, 12 R196; whose accesses it makes; and how far it has come: its phase is 0
queued, 1 started, 2 stopped by an access that failed, 3 over. `start` counts what it has done, `data` holds its draws or the words it
has read, `round` is the gang operation it belongs to, `resume` marks a restart at RP, and `gone` a thread that has ended; `acc` is what a record of it
carries, `lead` who reads its A rows, `poison` where it met poisoned data, and `mates` the threads of a contract, with their starts. -/
structure MatCmd where
  hart : HartId
  op : Nat
  slot : Slot
  pc : Word
  a : Word := 0
  b : Word := 0
  c : Word := 0
  mode : RMode := .rne
  data : List Nat := []
  tag : Nat := 0
  inRegion : Bool := false
  rev : Nat := 0
  space : Nat := 0
  owner : Nat := 0
  job : Option Nat := none
  launch : Option Nat := none
  round : Option Nat := none
  resume : Bool := false
  gone : Bool := false
  phase : Nat := 0
  start : Nat := 0
  flags : Flags5 := 0
  status : Nat := 0
  failAddr : Option Word := none
  acc : Access := { kind := 0, addr := 0, pc := 0, status := 1 }
  lead : Option Reader := none
  poison : Option Word := none
  mates : List (HartId × Nat) := []
  deriving DecidableEq, Repr

/-- A block of an element distribution, 18_tables_work R311. -/
structure Block where
  first : Nat
  count : Nat
  die : DieKey
  data : Word := 0
  deriving DecidableEq, Repr

/-- A gather or scatter command, 15 R267, and how far the engine has come: `block` is its command block once read, `next` the next
element, the last four its failures (R268) and what a record of one carries. -/
structure GatCmd where
  hart : HartId
  scatter : Bool
  addr0 : Word
  cell : Word
  pc : Word := 0
  rev : Nat := 0
  space : Nat := 0
  owner : Nat := 0
  launch : Option Nat := none
  job : Option Nat := none
  block : List Word := []
  dist : List Block := []
  next : Nat := 0
  failIndex : Nat := 0
  failCode : Nat := 0
  failCount : Nat := 0
  acc : Access := { kind := 0, addr := 0, pc := 0, status := 1 }
  deriving DecidableEq, Repr

/-- A task: what a post carries and what its home dispatcher keeps, 16 R280 to R285. -/
structure Task where
  launch : Nat
  elem : Nat
  entry : Word
  prio : Nat := 0
  retry : Nat := 0
  arrival : Nat := 0
  reposted : Bool := false
  endNo : Nat := 0
  deriving DecidableEq, Repr

/-- A husk's order key, 16 R283: launch order, arrival count, package, die. -/
structure HuskKey where
  order : Nat
  arrival : Nat
  pkg : Nat
  die : Nat
  deriving DecidableEq, Repr

/-- A remote atomic on its way, 11 R186; `route` is the link it left by. -/
structure AtomicReq where
  hart : HartId
  tag : Nat
  op : Nat
  ty : Nat
  pa : Nat
  operand : Word
  newVal : Word
  isCas : Bool
  token : Nat
  incarn : Nat
  retry : Bool
  dreg : Nat
  va : Word
  pc : Word := 0
  rev : Nat := 0
  job : Option Nat := none
  owner : Nat := 0
  acq : Option Nat := none
  route : Option Nat := none
  deriving DecidableEq, Repr

/-- What a message or packet carries from one agent to another. -/
inductive Msg where
  | post (t : Task)
  | active (src : HartId) (slotPc : Word) (tag : Nat) (table : Bool) (entry : Word) (args : List Word) (reply : Option Word) (owner : Nat) (acc : Access) (sc : CoreKey)
  | enqueue (src : HartId) (core : CoreKey) (ring : Nat) (payload : List Byte) (ack : Option (Nat × Word)) (owner : Nat) (acc : Access) (sc : CoreKey)
  | fill (handle value : Word) (fput : Option (HartId × Access)) (owner : Nat)
  | exclReq (src : DieKey) (acq : Nat) (run : List Nat) (husk : Option HuskKey) (incarn : Nat)
  | exclReply (die : DieKey) (acq : Nat) (run : List Nat) (ok : Bool) (owned : List Nat)
  | exclRelease (src : DieKey) (acq : Nat) (run : List Nat)
  | exclPass (acq : Nat) (die : DieKey) (pos : Nat)
  | huskYield (acq : Nat) (die : DieKey) (pos : Nat)
  | taskEnd (acq : Nat) (faulted : Bool) (cause inner : Nat)
  | forkReg (job rev parent : Nat) (hart : HartId) (tag : Nat)
  | forkAck (hart : HartId) (tag job rev : Nat)
  | ctxReq (src : HartId) (tag : Nat) (load : Bool) (core slot : Nat)
  | ctxReply (src : HartId) (tag : Nat) (status : Nat)
  | downNotice (die : DieKey)
  | upNotice (die : DieKey)
  | marker (src : DieKey) (hart : HartId) (number n vn : Nat)
  | markerAck (hart : HartId) (number : Nat)
  | packetAck (dst : DieKey) (vn seq : Nat)
  | probe (src : DieKey)
  | probeReply (die : DieKey) (incarn : Nat)
  | atomic (src : DieKey) (r : AtomicReq)
  | atomicReply (r : AtomicReq) (d : Word) (status : Nat) (flags : Flags5)
  | miss (hart : HartId) (loadPipe : Bool) (space page kind : Nat) (quad slot lcore : Nat)
  | descriptor (launch : Nat)
  | credit (core : CoreKey)
  | migrate (h : HartId) (quad : Nat)
  deriving DecidableEq, Repr

/-- A packet, 29_fabric_system R372: its header's fields and its message. -/
structure Packet where
  src : DieKey
  dst : DieKey
  vn : Nat
  incarn : Nat := 0
  owner : Nat := 0
  key : BitVec 128 := 0
  seq : Nat := 0
  acked : Bool := true
  core : Option CoreKey := none
  msg : Msg
  deriving DecidableEq, Repr

/-! ### Cores -/

/-- A line of L1, 10_memories R165, tagged with its revision (13 R220). -/
structure L1Line where
  line : Nat
  data : List Byte
  ro : Bool := false
  rev : Nat := 0
  deriving DecidableEq, Repr

/-- An entry of the write-through buffer, 20_order_agent_core R330: `vec` numbers the vector store it belongs to, `silent` one whose record
is made, `gone` one whose thread has ended. -/
structure BufStore where
  hart : HartId
  pc : Word
  kind : Nat := 0
  va : Word
  cells : List Host.Cell
  rev : Nat := 0
  stream : Bool := false
  vec : Nat := 0
  silent : Bool := false
  gone : Bool := false
  job : Option Nat := none
  owner : Nat := 0
  launch : Option Nat := none
  elem : Word := 0
  deriving DecidableEq, Repr

/-- A future cell, 15 R245. -/
structure Future where
  value : Word := 0
  full : Bool := false
  owner : Option HartId := none
  valid : Bool := false
  gen : BitVec 16 := 0
  deriving DecidableEq, Repr

/-- A message that lands in a ring, or waits to: its slots, bytes, and who is told. One that its own core makes has a ticket, lands of itself
(`own`), and is `missing` while its bytes are not there yet. -/
structure Landing where
  ring : Nat
  slots : Nat
  bytes : List Byte
  ack : Option (Nat × Word) := none
  credit : Option CoreKey := none
  owner : Nat := 0
  ticket : Nat := 0
  own : Bool := false
  missing : Bool := false
  deriving DecidableEq, Repr

structure Core where
  l1 : List L1Line := []
  wbuf : List BufStore := []
  meshIn : Vector (List Word) 4 := Vector.replicate 4 []
  meshOut : Vector (List Word) 4 := Vector.replicate 4 []
  landing : List Landing := []
  waiting : List Landing := []
  cmdSsu : List SsuCmd := []
  ssu : List SsuCmd := []
  cmdLd : List Kick := []
  cmdSt : List Kick := []
  kickLd : Option Kick := none
  kickSt : Option Kick := none
  cmdOq : List MatCmd := []
  cmdGe : List GatCmd := []
  sendq : Vector (List Packet) 5 := Vector.replicate 5 []
  hold : List (HartId × Packet) := []
  futures : List (Nat × Future) := []
  locks : List (Nat × HartId) := []
  lockq : List (Nat × HartId) := []
  ldDirty : Bool := false
  stDirty : Bool := false
  gated : List Nat := []
  mstat : Sparse (BitVec 8) := []
  vsets : List HartId := []
  qsets : List HartId := []
  deriving DecidableEq, Repr

/-! ### Quads -/

/-- A TLB entry, 17_tables_translation R293; a dead one is a way that `tlbinv` has emptied, which keeps its place in the order of writing
(R296). -/
structure TlbEntry where
  vpn : Nat
  space : Nat
  frame : Nat
  big : Bool := false
  x : Bool := false
  w : Bool := false
  r : Bool := false
  dead : Bool := false
  deriving DecidableEq, Repr

/-- A line of the quad instruction cache, 03_instruction_lines R51, R54. -/
structure ILine where
  line : Nat
  data : BitVec 512
  deriving DecidableEq, Repr

structure Quad where
  acc : Sparse Word := []
  shell : Sparse (BitVec 32) := []
  rp : Vector Nat 4 := Vector.replicate 4 0
  restart : Vector (Option Word) 4 := Vector.replicate 4 none
  statTy : Vector Nat 4 := Vector.replicate 4 0
  statData : Sparse Byte := []
  qshare : Bool := false
  arrivals : List (Nat × HartId) := []
  rounds : List (Nat × List (Nat × HartId)) := []
  oq : Vector (List MatCmd) 4 := Vector.replicate 4 []
  tlb : List TlbEntry := []
  pipeTlb : List TlbEntry := []
  icache : List ILine := []
  aligned : List (Nat × Word × Option Nat) := []
  progress : Vector Nat 4 := Vector.replicate 4 0
  deriving DecidableEq, Repr

/-! ### Dies, launches, jobs -/

/-- An acquisition in progress, or the task it issued, 16 R280 to R285, R385: its neighbourhood as positions of dies (18 R312), sorted; the
next one; those it holds, and those its husk has marked; where it yielded; whether it waits for a reply. -/
structure Acq where
  task : Task
  ctx : CoreKey × Nat
  hood : List (DieKey × Nat)
  first : Word := 0
  count : Word := 0
  next : Nat := 0
  taken : List (DieKey × Nat) := []
  husk : Option HuskKey := none
  marked : List (DieKey × Nat) := []
  stuck : Option (DieKey × Nat) := none
  asking : Bool := false
  issued : Bool := false
  releasing : Bool := false
  deriving DecidableEq, Repr

/-- The exclusion state of a position of a die, 16 R279, 18 R312: who holds it and which husk has marked it. -/
structure ElemLock where
  pos : Nat
  held : Option (DieKey × Nat) := none
  husk : Option (DieKey × Nat × HuskKey) := none
  holderKey : Option HuskKey := none
  deriving DecidableEq, Repr

/-- A run of the grant list, 18_tables_work R313. -/
structure Grant where
  die : DieKey
  incarn : Nat
  acq : Nat
  run : List Nat
  deriving DecidableEq, Repr

/-- A translation miss, 17 R294. -/
structure Miss where
  die : DieKey
  quad : Nat
  loadPipe : Bool
  space : Nat
  page : Nat
  kind : Nat
  slot : Nat
  lcore : Nat
  waiters : List HartId
  deriving DecidableEq, Repr

/-- A source's block of the token area, 18 R317, 11 R187. -/
structure TokenBlock where
  source : HartId
  records : List (Nat × Nat × Word) := []
  aged : Bool := false
  deriving DecidableEq, Repr

/-- A barrier instance at its root, 15 R254. -/
structure Barrier where
  launch : Nat
  scope : Nat
  inst : Nat
  id : Nat
  count : Nat
  arrived : List HartId := []
  total : Nat := 0
  serial : Nat := 0
  deriving DecidableEq, Repr

/-- A message that waits in a route-tag pending queue, 15 R259. -/
structure TagMsg where
  msg : Msg
  loc : Bool := false
  prio : Nat := 0
  deriving DecidableEq, Repr

/-- A supervisor event message, 09 R151, 19_counters R323. -/
structure SupEvent where
  die : DieKey
  code : Nat
  value : Word
  deriving DecidableEq, Repr

/-- The phase of a die reset, 29 R379. -/
inductive ResetPhase where
  | up | draining | clearing
  deriving DecidableEq, Repr

/-- A lease range of a launch, 17 R304. -/
structure Lease where
  base : Nat
  len : Nat
  r : Bool
  w : Bool
  deriving DecidableEq, Repr

/-- A launch from its start to its record, 16 R270 to R290. -/
structure Launch where
  packet : LaunchPacket := {}
  die : DieKey := 0
  slotNo : Option Nat := none
  budget : Nat := 0
  order : Word := 0
  started : Bool := false
  badStatus : Nat := 0
  radius : Nat := 0
  repost : Bool := false
  prio : Nat := 0
  supervisor : Bool := false
  job : Option Nat := none
  threshold : Nat := 8
  space : Nat := 0
  entry : Word := 0
  count : Nat := 0
  blocks : List Block := []
  rowOff : Word := 0
  neigh : Word := 0
  leases : List Lease := []
  resident : List Nat := []
  toStart : List Nat := []
  live : Nat := 0
  tasks : Nat := 0
  doneCount : Nat := 0
  causeCount : Nat := 0
  faults : Nat := 0
  firstCause : Nat := 0
  firstInner : Nat := 0
  firstElem : Word := 0
  sawFault : Bool := false
  ends : List (Nat × Nat × Bool) := []
  held : Bool := false
  heldHarts : List HartId := []
  rotation : List (DieKey × CoreKey) := []
  deriving DecidableEq, Repr

/-- A live revision of a job, 13 R219. -/
structure Revision where
  num : Nat
  parent : Nat
  order : Nat
  owner : HartId
  child : Option HartId := none
  phase : Nat := 0
  status : Nat := 0
  conflicts : Nat := 0
  registered : List Nat := []
  copies : List (Nat × List Byte) := []
  ancestors : List (Nat × Nat × List Byte) := []
  merged : List Nat := []
  acks : Nat := 0
  handle : Word := 0
  flags : Flags5 := 0
  damaged : Bool := false
  deriving DecidableEq, Repr

/-- A job's revision state, by package and job slot. -/
structure Job where
  revs : List Revision := []
  useCount : Nat := 0
  forks : Nat := 0
  nextCopy : Nat := 0
  vas : List (Nat × Nat) := []
  deriving DecidableEq, Repr

/-- An owner key entry, 17_tables_translation R306: the keys that are valid, and the key generation. -/
structure KeyEntry where
  cur : Option (BitVec 128) := none
  next : Option (BitVec 128) := none
  gen : BitVec 8 := 0
  deriving DecidableEq, Repr
/-- The key under which a domain's packets leave. -/
def KeyEntry.sent (k : KeyEntry) : BitVec 128 := k.cur.getD 0

structure Die where
  inbox : List Msg := []
  links : Vector (List Packet) 60 := Vector.replicate 60 []
  outq : List (Nat × Packet) := []
  ports : List (Bool × Packet) := []
  pond : List (Nat × Packet) := []
  kept : List Packet := []
  performed : List (DieKey × Nat × Nat) := []
  nextSeq : List (DieKey × Nat × Nat) := []
  masks : List (DieKey × BitVec 12) := []
  markers : List (DieKey × HartId × Nat × Nat) := []
  keys : List (Nat × KeyEntry) := []
  missq : Vector (List Miss) 8 := Vector.replicate 8 []
  walking : List (Nat × Miss × Word) := []
  misses : List Miss := []
  parkedMiss : List Miss := []
  ready : List Task := []
  spill : List Task := []
  acqs : List (Nat × Acq) := []
  nextAcq : Nat := 0
  locks : List ElemLock := []
  grants : List Grant := []
  arrivals : List (Nat × Nat) := []
  launchq : List (LaunchPacket × Option Nat) := []
  starting : Option Nat := none
  leaseFaults : List (Nat × Nat) := []
  pendingK : List (Nat × Int) := []
  scan : Option (Option HartId × Nat × Bool) := none
  reset : ResetPhase := .up
  tokens : List TokenBlock := []
  barriers : List Barrier := []
  tagq : List (Nat × List TagMsg) := []
  downDies : List DieKey := []
  downLinks : List Nat := []
  cxlDown : List Nat := []
  freq : List (Nat × Word × Nat) := []
  gather : List (CoreKey × GatCmd) := []
  heldAtomics : List AtomicReq := []
  asked : List AtomicReq := []
  moving : List (Nat × Nat) := []
  tagen : BitVec 256 := 0
  incarn : BitVec 16 := 0
  config : ConfigImage := {}
  partition : Nat := 0
  scrubLate : Bool := false
  cache : List (Nat × Bool) := []
  images : List HartId := []
  cxlBad : List Nat := []
  nextDue : List (Nat × Int) := []
  deriving DecidableEq, Repr

structure Pkg where
  time : Word := 0
  throttled : Bool := false
  off : Bool := false
  deriving DecidableEq, Repr

/-! ### What moves next -/

/-- The model's own: what the next step does. -/
inductive Choice where
  /-- A hart issues. -/
  | issue (h : HartId)
  /-- A hart issues before its results of one cycle are written, so that it may still read the old values (01 R14, 20 R326). -/
  | issueOld (h : HartId)
  /-- An event of the table happens. -/
  | event (e : Instr) (a : EventArg)
  /-- A line leaves an L1 cache (10_memories R165). -/
  | evict (core line : Nat)
  /-- A frame leaves the context cache (05_registers R85). -/
  | evictFrame (h : HartId) (n : Nat)
  /-- A pipeline check of a core fails at the next instruction of a thread (09_traps_contexts R154). -/
  | pipeErr (h : HartId)
  /-- Bits of a line in a quad instruction cache turn (03_instruction_lines R54). -/
  | upset (q : QuadKey) (line : Nat) (wrong : BitVec 512)
  /-- The supervisor loads a firmware image, which is scanned (03 R53). -/
  | loadFirmware (h : HartId) (writer : Option HartId) (lines : List (BitVec 512))
  /-- A stack is granted to an owner, or to none (02_machine R30). -/
  | grantStack (d : DieKey) (owner : Nat)
  deriving DecidableEq, Repr

/-- How the last instruction issued. -/
inductive Issued where
  | issued | stalled | trapped | ended
  deriving DecidableEq, Repr

/-- The model's own: the instruction being executed, beside its constructor; `before` says, of the second of a pair, whether results
were outstanding before the pair. -/
structure Issue where
  hart : HartId := .ctx 0 0
  op : Nat := 0
  slot : Slot := {}
  marker : Bool := false
  second : Bool := false
  before : Bool := false
  result : Issued := .issued
  deriving DecidableEq, Repr

structure State where
  mem : List Host.Cell := []
  poisoned : List (Nat × BitVec 64) := []
  harts : List (HartId × Hart) := []
  cores : List (CoreKey × Core) := []
  quads : List (QuadKey × Quad) := []
  dies : List (DieKey × Die) := []
  pkgs : List (Nat × Pkg) := []
  ctl : Sparse Word := []
  launches : List (Nat × Launch) := []
  jobs : List (Nat × Job) := []
  supEvents : List SupEvent := []
  ir : Issue := {}
  ev : EventArg := {}
  agenda : List Choice := []
  free : Nat := 0
  clock : Nat := 0
  turn : Nat := 0
  deriving DecidableEq, Repr

/-- The canonical form of memory: addresses strictly rising, no listed byte equal to what an unlisted one reads as (0, log entry 1). -/
abbrev Memory.wf (m : List Host.Cell) : Prop := Sparse.wfFrom (0 : Byte) 0 m = true

/-- The machine right after reset: no thread runs, every queue, table and memory is at its reset value (INVENTORY.md, State). -/
def State.reset : State := {}

end Sys2Proof.Machine
end

