-- ==== Sys2Proof/Machine/Records.lean ====
section
/-! DEFINITION. The records of a state and what the shared operations rest on: harts, cores, quads and dies by key; event counters;
the cells of memory; messages between dies; translation and leases; what a thread's end and its faults count as. -/

namespace Sys2Proof.Machine

/-! ### Keys, 02_machine R16 to R19 -/

def lcoreOf (c : CoreKey) : Nat := c % 1536
def pkgOfCore (c : CoreKey) : Nat := c / 1536
def dieOfCore (c : CoreKey) : DieKey := 4 * (c / 1536) + (c % 1536) / 384
def quadOfCore (c : CoreKey) : QuadKey := 96 * dieOfCore c + (c % 384) / 4
def posOfCore (c : CoreKey) : Nat := c % 4
def coreAt (die : DieKey) (n : Nat) : CoreKey := 1536 * (die / 4) + 384 * (die % 4) + n
def dieOfQuad (q : QuadKey) : DieKey := q / 96
def coreOfQuad (q : QuadKey) (pos : Nat) : CoreKey := coreAt (q / 96) (4 * (q % 96) + pos)

/-! ### Records of a state -/

def State.hart? (s : State) (h : HartId) : Option Hart := lookup? h s.harts
def State.hart (s : State) (h : HartId) : Hart := lookupD {} h s.harts
def State.setHart (s : State) (h : HartId) (x : Hart) : State := { s with harts := setKey h x s.harts }
def State.modHart (s : State) (h : HartId) (f : Hart → Hart) : State :=
  match s.hart? h with
  | some x => s.setHart h (f x)
  | none => s
def State.core (s : State) (c : CoreKey) : Core := lookupD {} c s.cores
def State.modCore (s : State) (c : CoreKey) (f : Core → Core) : State := { s with cores := setKey c (f (s.core c)) s.cores }
def State.quad (s : State) (q : QuadKey) : Quad := lookupD {} q s.quads
def State.modQuad (s : State) (q : QuadKey) (f : Quad → Quad) : State := { s with quads := setKey q (f (s.quad q)) s.quads }
def State.die (s : State) (d : DieKey) : Die := lookupD {} d s.dies
def State.modDie (s : State) (d : DieKey) (f : Die → Die) : State := { s with dies := setKey d (f (s.die d)) s.dies }
def State.pkg (s : State) (p : Nat) : Pkg := lookupD {} p s.pkgs
def State.modPkg (s : State) (p : Nat) (f : Pkg → Pkg) : State := { s with pkgs := setKey p (f (s.pkg p)) s.pkgs }
def State.launch? (s : State) (l : Nat) : Option Launch := lookup? l s.launches
def State.modLaunch (s : State) (l : Nat) (f : Launch → Launch) : State :=
  match s.launch? l with
  | some x => { s with launches := setKey l (f x) s.launches }
  | none => s
def State.job (s : State) (j : Nat) : Job := lookupD {} j s.jobs
def State.modJob (s : State) (j : Nat) (f : Job → Job) : State := { s with jobs := setKey j (f (s.job j)) s.jobs }

/-- A doubleword of a die control block, 10_memories R170. -/
def State.ctlGet (s : State) (d : DieKey) (off : Nat) : Word := Sparse.get 0 s.ctl (d * 2 ^ 40 + off)
def State.ctlPut (s : State) (d : DieKey) (off : Nat) (v : Word) : State := { s with ctl := Sparse.put 0 (d * 2 ^ 40 + off) v s.ctl }

/-- A supervisor event message, 09 R151. -/
def State.event (s : State) (d : DieKey) (code : Nat) (v : Word) : State := { s with supEvents := s.supEvents ++ [⟨d, code, v⟩] }

/-- The core a hart runs on: a handler's is the core its tid names (05 R82, 15 R259); a translation service core and the gather engine
have none. -/
def State.coreOf (s : State) : HartId → Option CoreKey
  | .ctx c _ => some c
  | .loader c => some c
  | .storer c => some c
  | .handler d n => some (1536 * (d / 4) + ((s.hart (.handler d n)).tid.toNat / 2 ^ 16) % 2 ^ 16)
  | .expander q => some (coreOfQuad q 0)
  | .tsc _ _ => none
  | .gather _ => none

/-- The die a hart is on. -/
def dieOfHart : HartId → DieKey
  | .ctx c _ => dieOfCore c
  | .loader c => dieOfCore c
  | .storer c => dieOfCore c
  | .handler d _ => d
  | .tsc d _ => d
  | .gather d => d
  | .expander q => dieOfQuad q

/-- The quad whose TLB a hart translates through; the gather engine's own accesses use logical quad 0 (log entry 20). -/
def State.quadOf (s : State) (h : HartId) : QuadKey :=
  match h with
  | .tsc d _ => 96 * d
  | .gather d => 96 * d
  | .expander q => q
  | h => match s.coreOf h with
    | some c => quadOfCore c
    | none => 96 * dieOfHart h

/-- The context slot a record or message names: 64 + n for a handler (05 R82). -/
def slotOf : HartId → Nat
  | .ctx _ n => n
  | .handler _ n => 64 + n
  | _ => 0

def isThread : HartId → Bool
  | .ctx _ _ => true
  | .handler _ _ => true
  | _ => false
/-- A handler's end is no end by `done`: its `done` acts as `hret` (15 R250, 16 R289). -/
def isHandler : HartId → Bool
  | .handler _ _ => true
  | _ => false
/-- A thread of a core, whose first writes are asked for at issue (13 R223); a handler's are not (R224). -/
def isCtx : HartId → Bool
  | .ctx _ _ => true
  | _ => false
def isCompanion : HartId → Bool
  | .loader _ => true
  | .storer _ => true
  | _ => false

/-! ### Event counters, 19_counters R319, R322, R323 -/

/-- Adds to a counter whose configuration selects the source. -/
def State.bump (s : State) (d : DieKey) (off : Nat) (source slot : Nat) (n : Nat) (filtered : Bool) : State :=
  let cfg := s.ctlGet d off
  let c := cfg.toNat
  if cfg.getLsbD 63 && c % 256 == source && (!filtered || !cfg.getLsbD 22 || (c / 2 ^ 16) % 64 == slot) then
    let v := (s.ctlGet d (off + 8)).toNat + n
    let s := s.ctlPut d (off + 8) (BitVec.ofNat 64 (v % 2 ^ 48))
    if 2 ^ 48 ≤ v then s.ctlPut d off (cfg ||| (1#64 <<< 62)) else s
  else s

/-- Counts an event of a die: every die counter that selects the source. -/
def State.countDie (s : State) (d : DieKey) (source : Nat) (n : Nat := 1) : State :=
  (List.range 32).foldl (fun s j => s.bump d (0x510000 + 0x10 * j) source 0 n false) s

/-- Counts an event of a core for a slot: its own counters and the die's sum. -/
def State.countCore (s : State) (c : CoreKey) (slot source : Nat) (n : Nat := 1) : State :=
  ((List.range 8).foldl (fun s i => s.bump (dieOfCore c) (0x500000 + 0x80 * (c % 384) + 0x10 * i) source slot n true) s).countDie
    (dieOfCore c) source n

/-! ### Cells of memory -/

/-- A byte of memory; one that nothing has written reads as 0 (log entry 1). -/
def State.byte (s : State) (a : Nat) : Byte := Sparse.get 0 s.mem a
/-- A poisoned line stays so until all 64 of its bytes are overwritten (11 R193): the bytes of each that still wait for it. -/
def overwrite (a : Nat) (l : List (Nat × BitVec 64)) : List (Nat × BitVec 64) :=
  (l.map fun p => if p.1 = a / 64 then (p.1, p.2 &&& ~~~(1#64 <<< (a % 64))) else p).filter (fun p => p.2 ≠ 0)
def State.putByte (s : State) (a : Nat) (v : Byte) : State :=
  { s with mem := Sparse.put 0 a v s.mem, poisoned := overwrite a s.poisoned }

/-- n bytes from an address, and their little-endian number (00_scope R9). -/
def State.bytes (s : State) (a : Nat) : Nat → List Byte
  | 0 => []
  | n + 1 => s.byte a :: s.bytes (a + 1) n
def leNat : List Byte → Nat
  | [] => 0
  | b :: r => b.toNat + 256 * leNat r
def leBytes : Nat → Nat → List Byte
  | 0, _ => []
  | n + 1, v => BitVec.ofNat 8 (v % 256) :: leBytes n (v / 256)
def State.num (s : State) (a n : Nat) : Nat := leNat (s.bytes a n)
def State.word (s : State) (a : Nat) : Word := BitVec.ofNat 64 (s.num a 8)

/-- The cells that a list of bytes at an address makes. -/
def cellsAt (a : Nat) : List Byte → List Host.Cell
  | [] => []
  | b :: r => (a, b) :: cellsAt (a + 1) r
def putCells (m : List Host.Cell) : List Host.Cell → List Host.Cell
  | [] => m
  | (a, b) :: r => putCells (Sparse.put 0 a b m) r
def State.putCells (s : State) (c : List Host.Cell) : State :=
  { s with mem := Machine.putCells s.mem c, poisoned := c.foldl (fun l x => overwrite x.1 l) s.poisoned }
def State.putNum (s : State) (a n v : Nat) : State := s.putCells (cellsAt a (leBytes n v))
def State.putWord (s : State) (a : Nat) (v : Word) : State := s.putNum a 8 v.toNat

/-- The key of an on-chip window byte (10_memories R168): regions 0, 2 and 3 of a core of a package. -/
def windowKey (pkg : Nat) (va : Nat) : Nat := 3 * 2 ^ 60 + pkg * 2 ^ 50 + va % 2 ^ 50
def scratchKey (c : CoreKey) (off : Nat) : Nat :=
  windowKey (pkgOfCore c) (((c % 1536) / 384) * 2 ^ 48 + (c % 384) * 2 ^ 39 + off)
/-- The instruction store of a loader (region 2) or storer (region 3). -/
def storeKey (c : CoreKey) (storer : Bool) (off : Nat) : Nat := scratchKey c ((if storer then 3 else 2) * 2 ^ 36 + off)
/-- A firmware image's bytes; the spec gives the images no address (log entry 4). -/
def imageKey (h : HartId) (off : Nat) : Nat :=
  5 * 2 ^ 60 + (match h with
    | .tsc d n => (16 * d + n) * 2 ^ 20
    | .gather d => (16 * d + 8) * 2 ^ 20
    | .expander q => 2 ^ 40 + q * 2 ^ 20
    | _ => 2 ^ 50) + off % 2 ^ 20

/-! ### Physical memory, 17_tables_translation R292, R302 -/

def homeOf (pa : Nat) : DieKey := pa / 2 ^ 46 % 2 ^ 10
def isCxl (pa : Nat) : Bool := pa.testBit 45
def homeQuad (pa : Nat) : QuadKey := 96 * homeOf pa + (pa / 2 ^ 16 % 2 ^ 29) % 96
/-- The address of a frame's page metadata. -/
def State.metaAddr (s : State) (pa : Nat) : Nat :=
  if isCxl pa then (s.ctlGet (homeOf pa) 0x148).toNat % 2 ^ 56 + 32 * (pa / 2 ^ 16 % 2 ^ 29)
  else (s.ctlGet (homeOf pa) 0x140).toNat % 2 ^ 56 + 32 * (pa / 2 ^ 16 % 2 ^ 23)
def State.metaWord (s : State) (pa : Nat) (i : Nat) : Word := s.word (s.metaAddr pa + 8 * i)
def State.putMeta (s : State) (pa : Nat) (i : Nat) (v : Word) : State := s.putWord (s.metaAddr pa + 8 * i) v
def State.granted (s : State) (pa : Nat) : Bool := (s.metaWord pa 0).getLsbD 63
/-- The 64-byte lines of a run of bytes. -/
def linesOf (a n : Nat) : List Nat := if n = 0 then [] else List.range' (a / 64) ((a + n - 1) / 64 - a / 64 + 1)
def State.isPoisoned (s : State) (a n : Nat) : Bool := (linesOf a n).any (fun l => s.poisoned.any (fun p => p.1 == l))

/-! ### Messages -/

/-- Whether a port accepts a key tag of a domain, 17_tables_translation R306: it was made under one of the two valid keys. -/
def Die.keyAccepts (x : Die) (owner : Nat) (key : BitVec 128) : Bool :=
  match lookup? owner x.keys with
  | some k => k.cur == some key || k.next == some key
  | none => false
/-- The routes from a die to another, 21_order_cores_dies R341: links 0 to 2 to the dies of the package, 3 to 11 the ports. -/
def routesTo (src dst : DieKey) : List Nat :=
  (if src / 4 = dst / 4 then [if dst % 4 < src % 4 then dst % 4 else dst % 4 - 1] else []) ++ List.range' 3 9
def Die.linkLoad (d : Die) (link : Nat) : Nat :=
  (List.range 5).foldl (fun n vn => n + (d.links.toList.getD (link * 5 + vn) []).length) 0
/-- The 64-byte flits of a packet, R371, R372: its header fills half of the first. -/
def Packet.flits (p : Packet) : Nat :=
  match p.msg with
  | .enqueue _ _ _ bs _ _ _ _ => (32 + bs.length + 63) / 64
  | .active _ _ _ _ _ args _ _ _ _ => (32 + 8 * args.length + 63) / 64
  | _ => 1
def flitsOf (l : List Packet) : Nat := (l.map Packet.flits).sum
def Die.linkQueue (x : Die) (n : Nat) : List Packet := x.links.toList.getD n []
/-- Flits that the pond holds: 64 MiB. -/
def pondFlits : Nat := 2 ^ 20
/-- The hart that sent a message to a core or tag, whose messages to one of them keep their order (15 R263). -/
def Msg.sender : Msg → Option HartId
  | .active src .. => some src
  | .enqueue src .. => some src
  | _ => none
/-- What is queued for one of the 60 link queues, in it, in the pond, and still waiting for room. -/
def Die.queued (x : Die) (n : Nat) : List Packet :=
  x.linkQueue n ++ (x.pond.filter (fun q => q.1 == n)).map (·.2) ++ (x.outq.filter (fun q => q.1 == n)).map (·.2)
/-- The route of a packet: by link load for requests and enqueues, and one route for the other networks, whose packets so keep their
order (R341). A message goes behind an earlier one of its thread to the same die that is still queued (15 R263). -/
def Die.route (x : Die) (src : DieKey) (p : Packet) : Nat :=
  let live := (routesTo src p.dst).filter (fun l => !x.downLinks.contains l)
  if p.vn ≠ 0 ∧ p.vn ≠ 2 then live.headD 3
  else
    let behind := live.find? fun l => p.msg.sender.isSome && (x.queued (l * 5 + p.vn)).any fun q => q.dst == p.dst && q.msg.sender == p.msg.sender
    behind.getD (live.foldl (fun best l => if x.linkLoad l < x.linkLoad best then l else best) (live.headD 3))

def assocN (k : DieKey × Nat) : List (DieKey × Nat × Nat) → Nat
  | [] => 0
  | (d, v, n) :: r => if d = k.1 ∧ v = k.2 then n else assocN k r
def setAssocN (k : DieKey × Nat) (n : Nat) (l : List (DieKey × Nat × Nat)) : List (DieKey × Nat × Nat) :=
  (k.1, k.2, n) :: l.filter (fun e => !(e.1 == k.1 && e.2.1 == k.2))

/-- Whether a packet has room in a link queue of 64 flits, or, behind packets of that queue that were spilled, in the pond (14 R233, R243). A
message longer than the queue takes it alone. -/
def Die.hasRoom (x : Die) (n : Nat) (p : Packet) : Bool :=
  if x.pond.any (fun e => e.1 == n) then decide (flitsOf (x.pond.map (·.2)) + p.flits ≤ pondFlits)
  else (x.linkQueue n).isEmpty || decide (flitsOf (x.linkQueue n) + p.flits ≤ 64)
def Die.putLink (x : Die) (n : Nat) (p : Packet) : Die :=
  if x.pond.any (fun e => e.1 == n) then { x with pond := x.pond ++ [(n, p)] }
  else { x with links := x.links.setIfInBounds n (x.linkQueue n ++ [p]) }
/-- A packet enters a link queue, or goes behind the packets of that queue that were spilled; without room it waits at the unit that sends it,
which stalls (14 R240, R243). -/
def Die.enqueueLink (x : Die) (n : Nat) (p : Packet) : Die :=
  if !x.outq.any (fun e => e.1 == n) && x.hasRoom n p then x.putLink n p else { x with outq := x.outq ++ [(n, p)] }
/-- The packets that wait for a link queue enter it as there is room, the oldest first. -/
def Die.settle (n : Nat) : Nat → Die → Die
  | 0, x => x
  | fuel + 1, x => match x.outq.find? (fun e => e.1 == n) with
    | none => x
    | some q => if x.hasRoom n q.2 then Die.settle n fuel ({ x with outq := x.outq.erase q }.putLink n q.2) else x
/-- Puts a packet on a link queue of its die and records its route (R341). -/
def State.enlink (s : State) (src : DieKey) (p : Packet) : State :=
  let x := s.die src
  let l := x.route src p
  let asked := match p.msg with
    | .atomic _ r => x.asked.map fun q => if q.tag = r.tag ∧ q.hart = r.hart then { q with route := some l } else q
    | _ => x.asked
  s.modDie src fun x => { x.enqueueLink (l * 5 + p.vn) p with
    asked := asked
    masks := if p.vn = 0 ∨ p.vn = 2 then setKey p.dst (lookupD 0 p.dst x.masks ||| (1#12 <<< l)) x.masks else x.masks }

/-- A message from one die to another: within a die it is received at once; otherwise it goes as a packet under the sender's key and
incarnation (29 R372 to R374), the owner being that of the sending hart, or of the die's partition for a unit of its own; one of an acknowledged class is kept and takes the next sequence number. -/
def State.send (s : State) (src dst : DieKey) (vn : Nat) (m : Msg) (owner : Nat := (s.die src).partition) (acked : Bool := true)
    (core : Option CoreKey := none) : State :=
  if src = dst then s.modDie dst fun d => { d with inbox := d.inbox ++ [m] }
  else
    let x := s.die src
    let q := if acked then assocN (dst, vn) x.nextSeq + 1 else 0
    let p : Packet :=
      { src := src, dst := dst, vn := vn, incarn := x.incarn.toNat, owner := owner,
        key := (lookupD {} owner x.keys).sent, seq := q, acked := acked, core := core, msg := m }
    let s := s.modDie src fun d => 
      if acked then { d with nextSeq := setAssocN (dst, vn) q d.nextSeq, kept := d.kept ++ [p] } else d
    s.enlink src p

/-! ### Translation, 17 R293, R294, 11 R176 -/

def TlbEntry.hits (e : TlbEntry) (space va : Nat) : Bool :=
  !e.dead && e.space == space && (if e.big then e.vpn / 2 ^ 13 == va / 2 ^ 29 % 2 ^ 28 else e.vpn == va / 2 ^ 16 % 2 ^ 41)
/-- A lookup takes a 64 KiB entry before a 512 MiB one. -/
def tlbFind (l : List TlbEntry) (space va : Nat) : Option TlbEntry :=
  match l.find? (fun e => !e.big && e.hits space va) with
  | some e => some e
  | none => l.find? (fun e => e.big && e.hits space va)
def TlbEntry.pa (e : TlbEntry) (va : Nat) : Nat :=
  if e.big then e.frame / 2 ^ 13 * 2 ^ 29 + va % 2 ^ 29 else e.frame * 2 ^ 16 + va % 2 ^ 16
/-- The right an access needs: 0 load, 1 store, 2 fetch, 3 atomic, 4 load-pipe read, 5 load-pipe write (R293, R294). -/
def TlbEntry.allows (e : TlbEntry) (kind : Nat) : Bool :=
  match kind with
  | 0 | 4 => e.r
  | 1 | 5 => e.w
  | 2 => e.x
  | _ => e.w

/-- What translation answers. -/
inductive Trans where
  | ok (pa : Nat)
  | miss
  | noRight
  deriving DecidableEq, Repr

def State.translate (s : State) (q : QuadKey) (loadPipe : Bool) (space va kind : Nat) : Trans :=
  match tlbFind (if loadPipe then (s.quad q).pipeTlb else (s.quad q).tlb) space va with
  | none => .miss
  | some e => if e.allows kind then .ok (e.pa va) else .noRight

/-- A miss message for a hart, unless one for the same TLB, space and page is under way (R294). -/
def State.missFor (s : State) (h : HartId) (q : QuadKey) (loadPipe : Bool) (space va kind : Nat) : State :=
  let d := dieOfQuad q
  let page := va / 2 ^ 16 % 2 ^ 41
  let same := fun (m : Miss) => m.quad == q && m.loadPipe == loadPipe && m.space == space && m.page == page
  let queued := (s.die d).inbox.any fun m => match m with
    | .miss _ lp sp pg _ qq _ _ => lp == loadPipe && sp == space && pg == page && qq == q
    | _ => false
  let s := match s.coreOf h with
    | some c => if kind < 4 then s.countCore c (slotOf h) 0x07 else s
    | none => s
  if (s.die d).misses.any same || (s.die d).parkedMiss.any same || queued then s
  else
    let lc := match s.coreOf h with
      | some c => lcoreOf c
      | none => 0
    s.modDie d fun x => { x with inbox := x.inbox ++ [.miss h loadPipe space page kind q (slotOf h) lc] }

/-- A page fault: the access parks and the supervisor is told (R293, R151). -/
def State.pageFault (s : State) (h : HartId) (q : QuadKey) (loadPipe : Bool) (space va kind : Nat) (waiters : List HartId := [h]) :
    State :=
  let d := dieOfQuad q
  let lc := match s.coreOf h with
    | some c => lcoreOf c
    | none => 0
  let m : Miss :=
    { die := d, quad := q, loadPipe := loadPipe, space := space, page := va / 2 ^ 16 % 2 ^ 41, kind := kind, slot := slotOf h, lcore := lc
      waiters := waiters }
  ((s.modDie d fun x => { x with parkedMiss := x.parkedMiss ++ [m] }).event d 0x31 (BitVec.ofNat 64 va)).countDie d 0x50
/-- While the parked list is full, an access that would park stalls unparked (R298). -/
def State.parkedFull (s : State) (q : QuadKey) : Bool := 4096 ≤ (s.die (dieOfQuad q)).parkedMiss.length
/-- A hart's access that hits an entry without the right: parked, and the hart waits. -/
def State.parkHart (s : State) (h : HartId) (q : QuadKey) (space va kind : Nat) : State :=
  let mine := fun (m : Miss) => m.waiters.contains h && m.space == space && m.page == va / 2 ^ 16 % 2 ^ 41
  if s.parkedFull q || (s.die (dieOfQuad q)).parkedMiss.any mine then s.modHart h fun x => { x with wait := some (.tlb false space (va / 2 ^ 16 % 2 ^ 41)) }
  else (s.pageFault h q false space va kind).modHart h fun x => { x with wait := some (.tlb false space (va / 2 ^ 16 % 2 ^ 41)) }

/-- Whether the table of a die gives a space a root, 17 R300. -/
def State.spaceValid (s : State) (d : DieKey) (space : Nat) : Bool := (s.ctlGet d (0x100008 + 32 * (space % 4096))).getLsbD 63
/-- The page that a space maps at an address, by the layout of 17 R300. -/
def State.walkTable (s : State) : List Nat → Nat → Nat → Option Nat
  | [], _, _ => none
  | sh :: r, node, va =>
    let e := (s.word (node + 8 * (va / 2 ^ sh % (if sh = 55 then 4 else 8192)))).toNat
    let f := e / 2 ^ 16 % 2 ^ 40 * 2 ^ 16
    if !e.testBit 0 then none
    else if e.testBit 1 then (if sh = 16 ∨ sh = 29 then some (f + va % 2 ^ sh) else none)
    else s.walkTable r f va
def State.pageOf (s : State) (d : DieKey) (space va : Nat) : Option Nat :=
  let o := 0x100000 + 32 * (space % 4096)
  if s.spaceValid d space then s.walkTable [55, 42, 29, 16] ((s.ctlGet d o).toNat % 2 ^ 56) va else none
/-- The TLB entry of a die's quads for a general-path address of a space. -/
def State.unitEntry (s : State) (d : DieKey) (space va : Nat) : Option TlbEntry :=
  s.quads.findSome? fun q => if dieOfQuad q.1 = d then tlbFind q.2.tlb space (va % 2 ^ 57) else none
/-- The physical address at which a hardware unit of a die finds a general-path address of a space: by a TLB of the die, or by the tables of the
space; in a space without tables it is the address itself (log entry 20). None where the translation gives no right, or there is none. -/
def State.unitAddr (s : State) (d : DieKey) (space va kind : Nat) : Option Nat :=
  match s.unitEntry d space va with
  | some e => if e.allows kind then some (e.pa (va % 2 ^ 57)) else none
  | none => if s.spaceValid d space then s.pageOf d space (va % 2 ^ 57) else some (va % 2 ^ 56)
/-- The same for a unit that stops for nothing. -/
def State.unitPa (s : State) (d : DieKey) (space va : Nat) : Nat :=
  match s.unitEntry d space va with
  | some e => e.pa (va % 2 ^ 57)
  | none => (s.pageOf d space (va % 2 ^ 57)).getD (va % 2 ^ 56)
/-- A doubleword that a unit reads at a general-path address. -/
def State.unitWord (s : State) (d : DieKey) (space va : Nat) : Word := s.word (s.unitPa d space va)

/-! ### Leases, 17 R304, 11 R175 -/

/-- Whether ranges with a right cover n bytes from a. -/
def covered (ls : List Lease) (r w : Bool) : Nat → Nat → Nat → Bool
  | 0, _, n => n == 0
  | fuel + 1, a, n =>
    if n = 0 then true else
    match ls.find? (fun l => l.base ≤ a && a < l.base + l.len && (!r || l.r) && (!w || l.w)) with
    | none => false
    | some l => let k := min n (l.base + l.len - a); covered ls r w fuel (a + k) (n - k)
def State.leased (s : State) (x : Hart) (a n : Nat) (r w : Bool) : Bool :=
  match x.origin.launch with
  | none => false
  | some l => match s.launch? l with
    | none => false
    | some y => covered y.leases r w 17 a n
/-- Whether one range covers the span. -/
def State.leasedOne (s : State) (x : Hart) (a n : Nat) (r w : Bool) : Bool :=
  match x.origin.launch with
  | none => false
  | some l => match s.launch? l with
    | none => false
    | some y => y.leases.any (fun l => decide (l.base ≤ a ∧ a + n ≤ l.base + l.len) && (!r || l.r) && (!w || l.w))

/-! ### The end of a thread, 09 R153, 13 R228, 15 R250, 16 R284 -/

/-- The die and index that a future handle names, R246. -/
def handleCore (v : Word) : Nat := v.toNat / 2 ^ 16 % 2 ^ 16
def handleCell (v : Word) : Nat := v.toNat / 2 ^ 32 % 2 ^ 8
def handleGen (v : Word) : Nat := v.toNat % 2 ^ 16
def mkHandle (lcore cell gen : Nat) : Word := BitVec.ofNat 64 (3 * 2 ^ 40 + cell * 2 ^ 32 + lcore * 2 ^ 16 + gen)
def Core.future (c : Core) (i : Nat) : Future := lookupD {} i c.futures

/-- A fill on its way to its cell; within a package on the reply network (R246). -/
def State.sendFill (s : State) (src : DieKey) (pkg : Nat) (handle v : Word) (fput : Option (HartId × Access)) (owner : Nat) : State :=
  let c := 1536 * pkg + handleCore handle % 1536
  s.send src (dieOfCore c) 1 (.fill handle v fput owner) owner

/-- The live revisions whose owner is a thread: its children not joined or dropped, in fork order. -/
def Job.childrenOf (j : Job) (h : HartId) : List Revision := j.revs.filter (fun r => r.owner == h)
def State.childrenOf (s : State) (h : HartId) : List Revision :=
  match (s.hart h).origin.job with
  | none => []
  | some j => (s.job j).childrenOf h

/-- A record of a die's black box, 29_fabric_system R383. -/
def State.blackBox (s : State) (d : DieKey) (code owner lcore v : Nat) : State :=
  let w := (s.ctlGet d 0x1A8).toNat
  let k := w % 4096
  let o := 0x600000 + 16 * k
  let s := (s.ctlPut d o (s.pkg (d / 4)).time).ctlPut d (o + 8)
    (BitVec.ofNat 64 (code * 2 ^ 56 + owner % 2 ^ 12 * 2 ^ 44 + lcore % 2 ^ 11 * 2 ^ 32 + v % 2 ^ 32))
  s.ctlPut d 0x1A8 (BitVec.ofNat 64 ((k + 1) % 4096 + min (2 ^ 32 - 1) (w / 2 ^ 32 + 1) * 2 ^ 32))
/-- The logical core of a hart, or 0. -/
def State.lcoreFor (s : State) (h : HartId) : Nat :=
  match s.coreOf h with
  | some c => lcoreOf c
  | none => 0
/-- A fault of a hart is recorded against its owner domain, 02_machine R31. -/
def State.recordFault (s : State) (h : HartId) (cause : Nat) (v : Word) : State :=
  s.blackBox (dieOfHart h) cause (s.hart h).origin.owner (s.lcoreFor h) v.toNat

/-- A launch's accounting of a fault, 16 R289. -/
def Launch.fault (l : Launch) (cause inner : Nat) (elem : Word) : Launch :=
  let l := { l with faults := min (2 ^ 32 - 1) (l.faults + 1) }
  if l.sawFault then l else { l with sawFault := true, firstCause := cause, firstInner := inner, firstElem := elem }
/-- What a hart's faults count as: its element, or bit 63 with its core (R289). -/
def Hart.elemWord (x : Hart) (lcore : Nat) : Word :=
  match x.origin.element with
  | some e => BitVec.ofNat 64 e
  | none => BitVec.ofNat 64 (2 ^ 63 + lcore)
/-- A launch counts a fault. -/
def State.launchFault (s : State) (l : Option Nat) (cause inner : Nat) (elem : Word) : State :=
  match l with
  | none => s
  | some l => s.modLaunch l fun y => y.fault cause inner elem
/-- The launch of a hart counts a fault of it. -/
def State.faultOf (s : State) (h : HartId) (cause inner : Nat) : State :=
  s.launchFault (s.hart h).origin.launch cause inner ((s.hart h).elemWord (s.lcoreFor h))

/-! ### Store-fault records, 11 R190, R191 -/

/-- The R151 code that a status counts with in a completion record, 16 R289. -/
def statusCause (st : Nat) : Nat :=
  match st with
  | 2 => 0x11
  | 5 => 0x0F
  | 6 => 0x12
  | _ => 0x04

/-- Appends a record to a core's queue, or counts the overflow. -/
def State.sfqAppend (s : State) (c : CoreKey) (kind slot status : Nat) (pc addr : Word) (owner : Nat) : State :=
  let d := dieOfCore c
  let n := c % 384
  let w := (s.ctlGet d (0x2000 + 8 * n)).toNat
  let head := w % 32
  let count := w / 2 ^ 8 % 64
  let ovf := w / 2 ^ 16 % 2 ^ 16
  if 32 ≤ count then
    (s.ctlPut d (0x2000 + 8 * n) (BitVec.ofNat 64 (head + count * 2 ^ 8 + min 65535 (ovf + 1) * 2 ^ 16))).countDie d 0x42
  else
    let o := 0x10000 + 0x400 * n + 0x20 * ((head + count) % 32)
    let s := s.ctlPut d o (BitVec.ofNat 64 (kind * 2 ^ 24 + slot * 2 ^ 16 + status))
    let s := s.ctlPut d (o + 8) pc
    let s := s.ctlPut d (o + 16) addr
    let s := s.ctlPut d (o + 24) (BitVec.ofNat 64 owner)
    s.ctlPut d (0x2000 + 8 * n) (BitVec.ofNat 64 (head + (count + 1) * 2 ^ 8 + ovf * 2 ^ 16))

/-- A record due to a hart's access: its SFC rises and its launch counts the fault, but for a child that `rdrop` drops (R289). Statuses of a
loader's or storer's accesses append records too, with slot 0 (DESIGN CHOICE, log entry 20: R190 speaks of a core thread's accesses). -/
def State.sfqFor (s : State) (h : HartId) (a : Access) (counts : Bool := true) : State :=
  match s.coreOf h with
  | none => s
  | some c =>
    let x := s.hart h
    let s := s.sfqAppend c a.kind (slotOf h) a.status a.pc a.addr x.origin.owner
    let s := s.modHart h fun y => { y with sfc := if y.sfc = 0xFFFF then y.sfc else y.sfc + 1 }
    let s := (s.countCore c (slotOf h) 0x09).recordFault h (statusCause a.status) a.addr
    if counts then s.faultOf h (statusCause a.status) 0 else s
/-- What an access of a hart that leaves its core carries. -/
def State.accessOf (s : State) (h : HartId) (kind : Nat) (addr pc : Word) (status : Nat) : Access :=
  let x := s.hart h
  { kind := kind, addr := addr, pc := pc, status := status, owner := x.origin.owner, core := (s.coreOf h).getD 0
    launch := x.origin.launch, elem := x.elemWord (s.lcoreFor h), born := x.since }
/-- The record due to an access whose thread has ended, 11 R190, 16 R289. -/
def State.sfqGone (s : State) (h : HartId) (a : Access) : State :=
  ((s.sfqAppend a.core a.kind (slotOf h) a.status a.pc a.addr a.owner).blackBox (dieOfCore a.core) (statusCause a.status) a.owner
    (lcoreOf a.core) a.addr.toNat).launchFault a.launch (statusCause a.status) 0 a.elem

end Sys2Proof.Machine
end

