-- ==== Sys2Proof/Machine/Homes.lean ====
section
/-! DEFINITION. What the home of an address does with an access: address layouts (10_memories R166 to R170), access windows
(17_tables_translation R305), revisions (13_revisions R216, R220, R223), and the stores that the home performs (11 R177, R178). -/

namespace Sys2Proof.Machine

/-! ### Addresses -/

def pathOf (e : Word) : Nat := e.toNat / 2 ^ 60
/-- The region and offset of a window address. -/
def winRegion (e : Nat) : Nat := e / 2 ^ 36 % 8
def winOff (e : Nat) : Nat := e % 2 ^ 36
def winCore (pkg : Nat) (e : Nat) : CoreKey := 1536 * pkg + 384 * (e / 2 ^ 48 % 4) + e / 2 ^ 39 % 512
def winSize (r : Nat) : Nat :=
  match r with
  | 0 => 0x80000
  | 1 => 0x100000
  | 2 | 3 => 0x4000
  | 4 => 0x40000
  | _ => 0
/-- The layout of each path, 10_memories R166, R168 to R170, for an access of n bytes. -/
def layoutOk (e : Word) (n : Nat) : Bool :=
  let a := e.toNat
  match pathOf e with
  | 0 | 1 | 2 => a / 2 ^ 57 % 8 == 0
  | 3 => a / 2 ^ 50 % 2 ^ 10 == 0 && a / 2 ^ 39 % 512 ≤ 383 && winOff a < winSize (winRegion a) && (winRegion a != 4 || n == 8)
  | 4 => a / 2 ^ 59 % 2 == 0
  | 6 => a / 2 ^ 56 == 0x68 || (a / 2 ^ 42 == 0x6000000000000000 / 2 ^ 42)
  | _ => false
/-- The general-path address behind an address of paths 0, 1, 2 and 4. -/
def generalVa (e : Word) : Nat := if pathOf e = 4 then 2 * (e.toNat % 2 ^ 60 / 8) else e.toNat % 2 ^ 57
/-- Whether path 6 names the physical aperture, and its physical address. -/
def inAperture (e : Word) : Bool := e.toNat / 2 ^ 56 == 0x68
/-- Memory present behind a physical address: 384 GB on a die, in decimal units (00_scope R11), and two 2 TB expanders of CXL, each
in its half of 2^42 bytes (02 R17, 29 R377; DESIGN CHOICE, log entry 57: the spec says up to 2 TB a port and does not say how much a part
carries). -/
def present (pa : Nat) : Bool := if isCxl pa then pa % 2 ^ 45 < 2 ^ 42 && pa % 2 ^ 41 < 2 * 10 ^ 12 else pa % 2 ^ 45 < 384 * 10 ^ 9

/-! ### Statuses -/

/-- A status other than DONE on its way back to a hart; ACCESS_STATUS appends its record. -/
def State.addAccess (s : State) (h : HartId) (a : Access) : State := s.modHart h fun x => { x with accesses := x.accesses ++ [a] }
/-! ### Access windows, 17 R305 -/

/-- Whether an access-table entry matches. -/
def State.windowStatus (s : State) (d : DieKey) (owner pkg kind base n : Nat) (write : Bool) : Nat :=
  let m := (List.range 1024).filterMap fun i =>
    let o := 0x180000 + 0x20 * i
    let w0 := (s.ctlGet d o).toNat
    let w1 := (s.ctlGet d (o + 8)).toNat
    let w2 := (s.ctlGet d (o + 16)).toNat
    if (w0.testBit 63 || w0.testBit 62) && w0 / 2 ^ 59 % 2 == kind && w0 % 2 ^ 56 ≤ base && base + n ≤ w1 % 2 ^ 56 &&
        w2 / 2 ^ 52 == owner && (w2 / 2 ^ 44 % 256 == 255 || w2 / 2 ^ 44 % 256 == pkg) then some w0 else none
  match m.find? (fun w => w.testBit 63 && !w.testBit 62) with
  | some w => if w.testBit (if write then 61 else 60) then 0 else 1
  | none => if m.isEmpty then 1 else 2
/-- Whether a die belongs to the partition of another owner, 02_machine R30; 0 is the partition of none (log entry 31). -/
def State.foreignDie (s : State) (d : DieKey) (who : Nat) : Bool := (s.die d).partition != 0 && (s.die d).partition != who
/-- The status of an access to the on-chip memories, 10_memories R168. -/
def State.winStatus (s : State) (src : DieKey) (who e n : Nat) (write : Bool) : Nat :=
  let d := 4 * (src / 4) + e / 2 ^ 48 % 4
  if d = src || !s.foreignDie d who then 0 else s.windowStatus d who (src / 4) 1 (e % 2 ^ 50) n write
/-- Whether packets of an owner from a die pass the port of another: within one partition no port is passed, and between two the key tag is
checked (02 R31, 17 R306). -/
def State.keyPasses (s : State) (src d : DieKey) (who : Nat) : Bool :=
  (s.die src).partition == (s.die d).partition || (s.die d).keyAccepts who (lookupD {} who (s.die src).keys).sent
/-- Whether a message may not reach a die: another owner's, with no valid window opened to the sender (R255, log entry 31). -/
def State.shut (s : State) (d : DieKey) (who pkg : Nat) : Bool :=
  s.foreignDie d who && !(List.range 1024).any fun i =>
    let o := 0x180000 + 0x20 * i
    let w2 := (s.ctlGet d (o + 16)).toNat
    (s.ctlGet d o).getLsbD 63 && !(s.ctlGet d o).getLsbD 62 && w2 / 2 ^ 52 == who && (w2 / 2 ^ 44 % 256 == 255 || w2 / 2 ^ 44 % 256 == pkg)
def State.barred (s : State) (src d : DieKey) (who : Nat) : Bool := d != src && s.shut d who (src / 4)
/-- The status that the home of a physical address gives an access of an owner from a die: a down CXL port gives CXLERR, and
so does a line that the expander answers with an error or not at all (29 R378); another owner's frame on another die goes by the access table. -/
def State.ownerStatus (s : State) (src : DieKey) (who pa n : Nat) (write : Bool) : Nat :=
  let d := homeOf pa
  if isCxl pa && ((s.die d).cxlDown.contains (pa / 2 ^ 41 % 2) || (s.die d).cxlBad.contains (pa / 64)) then 6
  else
    let frame := (s.metaWord pa 3).toNat % 2 ^ 12
    let owner := if frame = 0 then (s.die d).partition else frame
    if d = src || owner = 0 || owner = who then 0 else s.windowStatus d who (src / 4) 0 (pa % 2 ^ 56) n write
/-- The status for an access of a hart. -/
def State.homeStatus (s : State) (h : HartId) (pa n : Nat) (write : Bool) : Nat :=
  s.ownerStatus (dieOfHart h) (s.hart h).origin.owner pa n write

/-! ### Revisions, 13 R216, R220, R223 -/

/-- A job slot's region table lies in every die's control block, 18 R316. -/
def jobOff (j : Nat) : Nat := 0x400000 + 0x20000 * (j % 8)
/-- The merge code of the region that holds a general-path address. -/
def State.regionCode (s : State) (d : DieKey) (j va : Nat) : Option Nat :=
  (List.range 4096).findSome? fun i =>
    let w0 := (s.ctlGet d (jobOff j + 0x100 + 16 * i)).toNat
    let w1 := (s.ctlGet d (jobOff j + 0x108 + 16 * i)).toNat % 2 ^ 32
    let base := w0 / 2 ^ 16 % 2 ^ 41
    if w0.testBit 63 && base ≤ va / 2 ^ 16 && va / 2 ^ 16 < base + w1 then some (w0 % 128) else none
def Job.rev? (j : Job) (r : Nat) : Option Revision := j.revs.find? (fun x => x.num == r)
/-- A line as a revision sees it. -/
def State.viewLine (s : State) (j : Job) (line : Nat) : Nat → Nat → List Byte
  | 0, _ => s.bytes (64 * line) 64
  | fuel + 1, r =>
    if r = 0 then s.bytes (64 * line) 64 else
    match j.rev? r with
    | none => s.bytes (64 * line) 64
    | some x => match lookup? line x.copies with
      | some d => d
      | none => match lookup? line x.ancestors with
        | some d => d.2
        | none => s.viewLine j line fuel x.parent
def State.view (s : State) (j : Nat) (r line : Nat) : List Byte := s.viewLine (s.job j) line ((s.job j).revs.length + 1) r
def State.quota (s : State) (j : Nat) : Nat := (s.ctlGet (4 * (j / 8)) (jobOff j)).toNat % 2 ^ 32
/-- The live children of a revision, registered at a line's home, that lack its ancestor (13 R222, R223). -/
def lackers (j : Job) (r line : Nat) : List Revision :=
  j.revs.filter (fun x => x.parent == r && x.phase != 3 && x.registered.contains (homeOf (64 * line) % 4) &&
    (lookup? line x.ancestors).isNone)
/-- The tarn lines that a first write of a revision to a line takes. -/
def State.firstNeeds (s : State) (j r line : Nat) : Nat :=
  let y := s.job j
  (if (lackers y r line).isEmpty then 0 else 1) +
  (if r = 0 then 0 else match y.rev? r with
    | some x => if (lookup? line x.copies).isSome then 0 else 1
    | none => 0)
/-- Each of a list once. -/
def distinct (l : List Nat) : List Nat := l.foldl (fun m x => if m.contains x then m else x :: m) []
/-- The tarn lines a job uses: its records, its copies, and its ancestors, each once though several forks share it. -/
def Job.use (y : Job) : Nat :=
  y.revs.length + (y.revs.map (fun r => r.copies.length)).sum + (distinct (y.revs.flatMap fun r => r.ancestors.map fun a => a.2.1)).length
/-- The tarn use of a job, which the region tables show. -/
def State.recount (s : State) (j : Nat) : State :=
  let n := (s.job j).use
  let s := s.modJob j fun y => { y with useCount := n }
  (List.range 4).foldl (fun s i => s.ctlPut (4 * (j / 8) + i) (jobOff j + 8) (BitVec.ofNat 64 n)) s
/-- Keeps the ancestor and makes the copy that a first write needs. -/
def State.retain (s : State) (j r line : Nat) : State :=
  let v := s.view j r line
  let y := s.job j
  let lack := (lackers y r line).map (·.num)
  let f := fun (x : Revision) =>
    if lack.contains x.num then { x with ancestors := x.ancestors ++ [(line, y.nextCopy, v)] }
    else if x.num = r && (lookup? line x.copies).isNone then { x with copies := x.copies ++ [(line, v)] } else x
  let s := s.modJob j fun y => { y with revs := y.revs.map f, nextCopy := y.nextCopy + 1 }
  s.recount j
/-- Notes which virtual line a physical one is, for the merge's records (13 R227). -/
def State.noteLine (s : State) (j line vline : Nat) : State := s.modJob j fun y => { y with vas := setKey line vline y.vas }
/-- A first write to a physical line, under its virtual line, or its refusal at the quota. -/
def State.firstWrite (s : State) (j r line vline : Nat) : Option State :=
  let s := s.noteLine j line vline
  let n := s.firstNeeds j r line
  if n = 0 then some s
  else if s.quota j < (s.job j).useCount + n then none
  else some (s.retain j r line)
/-- The job whose region a general access falls in, when revisions are live: by the accessing job and die, and for a hart. -/
def State.regionOf (s : State) (job : Option Nat) (d : DieKey) (va : Nat) : Option Nat :=
  match job with
  | none => none
  | some j => if (s.job j).revs.isEmpty then none else if (s.regionCode d j va).isSome then some j else none
def State.regionFor (s : State) (h : HartId) (va : Nat) : Option Nat := s.regionOf (s.hart h).origin.job (dieOfHart h) va
/-- Cells written into a revision's view: its copy, or memory for the root. -/
def setBytes (d : List Byte) (base : Nat) : List Host.Cell → List Byte
  | [] => d
  | (a, b) :: r => setBytes (d.set (a - base) b) base r
def State.writeRev (s : State) (j : Option Nat) (r : Nat) (cells : List Host.Cell) : State :=
  match j, r with
  | some j, r + 1 =>
    let put := fun (c : Host.Cell) (p : Nat × List Byte) => if p.1 = c.1 / 64 then (p.1, p.2.set (c.1 % 64) c.2) else p
    let upd := fun (c : Host.Cell) (x : Revision) => if x.num = r + 1 then { x with copies := x.copies.map (put c) } else x
    cells.foldl (fun s c => s.modJob j fun y => { y with revs := y.revs.map (upd c) }) s
  | _, _ => s.putCells cells

/-! ### Loads of main memory -/

/-- Bytes of a line list. -/
def sliceBytes (d : List Byte) (o n : Nat) : List Byte := (d.drop o).take n
/-- The home's bytes for an agent in revision r of job j. -/
def State.homeBytes (s : State) (j : Option Nat) (r pa n : Nat) : List Byte :=
  match j with
  | none => s.bytes pa n
  | some j => if r = 0 then s.bytes pa n
    else (List.range n).map fun i => (s.view j r ((pa + i) / 64)).getD ((pa + i) % 64) 0
/-! ### Stores at their home, 11 R177, R178, 13 R220, R224 -/

/-- Lines that a die cache holds: 256 MiB less the black-box slice (10_memories R164). -/
def cacheLines : Nat := (2 ^ 28 - 2 ^ 16) / 64
/-- A line enters its home's die cache, or becomes dirty there (R164, 02 R17). The cache lies in front of the home's memory and shows in no
value: the memory of the state is what the two hold together. -/
def State.cacheLine (s : State) (line : Nat) (dirty : Bool) : State :=
  s.modDie (homeOf (64 * line)) fun x =>
    { x with cache := ((line, dirty || lookupD false line x.cache) :: x.cache.filter (fun p => p.1 ≠ line)).take cacheLines }
/-- What the home does with the bytes of one line that a die's agent stores: its status, and the state. `asked` says that the first writes
were asked for at issue (13 R223); others are refused here at the quota (R224). -/
def State.performCells (s : State) (d : DieKey) (asked : Bool) (job : Option Nat) (owner rev va : Nat) (cells : List Host.Cell) :
    State × Nat :=
  match cells with
  | [] => (s, 0)
  | cell :: _ =>
    let pa := cell.1
    let st := if s.granted pa || (rev ≠ 0 && (s.regionOf job d va).isSome && homeOf pa / 4 ≠ d / 4) then 1
      else s.ownerStatus d owner pa cells.length true
    if st ≠ 0 then (s, st)
    else
      let lines := distinct (cells.map fun x => x.1 / 64)
      let s := lines.foldl (fun s l => s.cacheLine l true) s
      match s.regionOf job d va with
      | none => (s.putCells cells, 0)
      | some j =>
        if asked then ((lines.foldl (fun s l => s.retain j rev l) s).writeRev (some j) rev cells, 0)
        else
          let go := fun (o : Option State) (l : Nat) => o.bind fun s => s.firstWrite j rev l (va / 64 + (l - pa / 64))
          match lines.foldl go (some s) with
          | some t => (t.writeRev (some j) rev cells, 0)
          | none => (s, 1)

/-! ### Walks, 17 R301 -/

/-- A translation service core gives up the walk it is in: its miss parks, and the core resumes at its `wfm`. -/
def State.parkWalk (s : State) (h : HartId) : State :=
  match h with
  | .tsc d n =>
    match lookup? n (s.die d).walking with
    | none => s.modHart h fun x => { x with wait := some .request }
    | some (m, pc) =>
      (s.modDie d fun x => { x with walking := eraseKey n x.walking, misses := x.misses.erase m, parkedMiss := x.parkedMiss ++ [m] }).modHart h
        fun x => { x with pc := pc }
  | _ => s

/-! ### Flush markers, 21_order_cores_dies R342 -/

/-- Sends the flush markers of a release and waits for their acknowledgements, 21 R342. -/
def State.flushFor (s : State) (h : HartId) (dests : List DieKey) : State :=
  let d := dieOfHart h
  let n := s.free + 1
  let s := { s with free := n }
  let s := dests.foldl (fun s t =>
    let mask := lookupD 0 t (s.die d).masks
    let routes := (List.range 12).filter (fun l => mask.getLsbD l)
    let own := (s.hart h).origin.owner
    let mk := fun (x : Die) (vn : Nat) =>
      ({ src := d, dst := t, vn := vn, incarn := x.incarn.toNat, key := (lookupD {} own x.keys).sent, owner := own,
         acked := false, msg := .marker d h n routes.length vn } : Packet)
    let put := fun (l vn : Nat) (x : Die) => x.enqueueLink (l * 5 + vn) (mk x vn)
    let s := routes.foldl (fun s l => [0, 2].foldl (fun s vn => s.modDie d (put l vn)) s) s
    s.modDie d fun x => { x with masks := setKey t 0 x.masks }) s
  s.modHart h fun x => { x with flush := dests.length, flushNo := n, wait := some .flush }

/-! ### Deposits, 05 R89 -/

/-- The window address of register i of a context's image, which a deposit stands for. -/
def depositAddr (h : HartId) (i : Nat) : Word :=
  match h with
  | .ctx c n => BitVec.ofNat 64 (3 * 2 ^ 60 + c % 1536 / 384 * 2 ^ 48 + c % 384 * 2 ^ 39 + 2 ^ 36 + 0x4000 * n + 8 * i)
  | _ => BitVec.ofNat 64 (8 * i)
/-- A deposit is refused: it is counted, and its sender is told. -/
def State.refuseDeposit (s : State) (h : HartId) (i : Nat) (writer : Option HartId) : State :=
  let s := s.countDie (dieOfHart h) 0x40
  match writer with
  | some w => s.addAccess w { kind := 0, addr := depositAddr h i, pc := (s.hart w).pc, status := 1 }
  | none => s

/-! ### Rings, 14_queues R235 to R239 -/

def ringOff (c : CoreKey) (r : Nat) : Nat := 0x80000 + 0x80 * (c % 384) + 0x10 * r
/-- A ring descriptor's fields. -/
structure Ring where
  cap : Nat
  base : Nat
  filled : Nat
  free : Nat
  head : Nat
  tail : Nat
  deriving DecidableEq, Repr
def State.ring (s : State) (c : CoreKey) (r : Nat) : Ring :=
  let a := (s.ctlGet (dieOfCore c) (ringOff c r)).toNat
  let b := (s.ctlGet (dieOfCore c) (ringOff c r + 8)).toNat
  { cap := a / 2 ^ 36 % 2 ^ 14, base := a / 2 ^ 6 % 2 ^ 13, filled := b / 2 ^ 48 % 2 ^ 14, free := b / 2 ^ 32 % 2 ^ 14,
    head := b / 2 ^ 16 % 2 ^ 13, tail := b % 2 ^ 13 }
def State.setRing (s : State) (c : CoreKey) (r : Nat) (g : Ring) : State :=
  (s.ctlPut (dieOfCore c) (ringOff c r) (BitVec.ofNat 64 (g.cap * 2 ^ 36 + g.base * 2 ^ 6))).ctlPut (dieOfCore c) (ringOff c r + 8)
    (BitVec.ofNat 64 (g.filled * 2 ^ 48 + g.free * 2 ^ 32 + g.head * 2 ^ 16 + g.tail))
/-- The scratchpad key of byte o of slot k of a message at a ring slot. -/
def ringKey (c : CoreKey) (g : Ring) (slot o : Nat) : Nat := scratchKey c (64 * (g.base + (if g.cap = 0 then 0 else (slot + o / 64) % g.cap)) + o % 64)
def ringSlots (m : Nat) : Nat := (8 + m + 63) / 64
/-- The header doubleword of a message, R236. -/
def ringHeader (src : CoreKey) (m : Nat) : Nat := lcoreOf src * 2 ^ 48 + pkgOfCore src * 2 ^ 40 + m
/-- Writes bytes into a ring from a slot, wrapping. -/
def putRing (s : State) (c : CoreKey) (g : Ring) (slot : Nat) : Nat → List Byte → State
  | _, [] => s
  | o, b :: r => putRing (s.putByte (ringKey c g slot o) b) c g slot (o + 1) r
def getRing (s : State) (c : CoreKey) (g : Ring) (slot o : Nat) : Nat → List Byte
  | 0 => []
  | n + 1 => s.byte (ringKey c g slot o) :: getRing s c g slot (o + 1) n
/-- Completes a landing: its slots become readable. -/
def Ring.complete (g : Ring) (k : Nat) : Ring := { g with filled := g.filled + k, tail := if g.cap = 0 then 0 else (g.tail + k) % g.cap }
def Ring.freeHead (g : Ring) (k : Nat) : Ring :=
  { g with head := if g.cap = 0 then 0 else (g.head + k) % g.cap, filled := g.filled - k, free := g.free + k }
/-- The slots that a message takes of a ring. -/
def Msg.slotsIn (c : CoreKey) (r : Nat) : Msg → Nat
  | .enqueue _ c2 r2 bs .. => if c2 = c ∧ r2 = r then ringSlots bs.length else 0
  | _ => 0
/-- The enqueues that have been sent to a core and not yet reached its interface. -/
def State.onTheWay (s : State) (c : CoreKey) : List Msg :=
  let packets := s.cores.flatMap (fun k => k.2.sendq.toList.getD 2 []) ++
    s.dies.flatMap fun d => (List.range 60).flatMap d.2.linkQueue ++ (d.2.ports ++ d.2.pond.map (fun q => (true, q.2)) ++ d.2.outq.map (fun q => (true, q.2))).map (·.2)
  ((s.die (dieOfCore c)).inbox ++ packets.map (·.msg)).filter fun m => match m with
    | .enqueue _ c2 .. => c2 == c
    | _ => false
/-- The slots of a ring that are promised to them: R237 answers a message before its sender goes on. -/
def State.promised (s : State) (c : CoreKey) (r : Nat) : Nat := ((s.onTheWay c).map (Msg.slotsIn c r)).sum
/-- Whether a ring has room for k slots behind all that is promised, and no message waits for it. -/
def State.ringRoom (s : State) (c : CoreKey) (r k : Nat) : Bool :=
  decide (s.promised c r + k ≤ (s.ring c r).free) && !(s.core c).waiting.any fun w => w.ring == r
/-- Reserves k slots of a ring for a message that the core itself makes, whose bytes come later under a ticket. -/
def State.reserveOwn (s : State) (c : CoreKey) (r k : Nat) : State :=
  let g := s.ring c r
  let s1 := s.setRing c r { g with free := g.free - k }
  { s1 with free := s.free + 1 : State }.modCore c fun y =>
    { y with landing := y.landing ++ [{ ring := r, slots := k, bytes := [], ticket := s.free + 1, own := true, missing := true }] }
/-- A message whose slots are reserved lands: its bytes are written and its slots become readable. Bytes of its last slot beyond the message
become 0 (DESIGN CHOICE, log entry 60: R236 says nothing of them). -/
def State.landNow (s : State) (c : CoreKey) (m : Landing) : State :=
  let g := s.ring c m.ring
  (putRing s c g g.tail 0 (m.bytes ++ List.replicate (64 * m.slots - m.bytes.length) 0)).setRing c m.ring (g.complete m.slots)
/-- The messages of a core's own that stand first at a ring and have their bytes land, in the order of their reservations (R237). -/
def State.landOwn (c : CoreKey) (r : Nat) : Nat → State → State
  | 0, s => s
  | fuel + 1, s => match (s.core c).landing.find? (fun l => l.ring == r) with
    | none => s
    | some l =>
      if l.own && !l.missing then
        State.landOwn c r fuel ((s.modCore c fun k => { k with landing := k.landing.erase l }).landNow c l)
      else s
/-- The bytes of a message of a core's own arrive. -/
def State.landTicket (s : State) (c : CoreKey) (r t : Nat) (bs : List Byte) : State :=
  let s := s.modCore c fun k => { k with landing := k.landing.map fun l =>
    if l.own && l.ticket == t then { l with bytes := bs, missing := false } else l }
  s.landOwn c r (s.core c).landing.length
/-- Pushes a word into the slot of ring 1 reserved for it. -/
def State.landWord (s : State) (c : CoreKey) (r t : Nat) (v : Word) : State := s.landTicket c r t (leBytes 8 v.toNat)
/-- The slots reserved under a ticket are given back. -/
def State.giveBack (s : State) (c : CoreKey) (t : Nat) : State :=
  match (s.core c).landing.find? (fun l => l.own && l.ticket == t) with
  | none => s
  | some l =>
    let g := s.ring c l.ring
    let s := (s.setRing c l.ring { g with free := g.free + l.slots }).modCore c fun k => { k with landing := k.landing.erase l }
    s.landOwn c l.ring (s.core c).landing.length

/-! ### Results that come late, 03 R41 -/

/-- The value of a result that comes late. -/
def RegWrite.withValue (v : Word) : RegWrite → RegWrite
  | .x i _ => .x i v
  | .g i _ => .g i v
  | .mesh p _ => .mesh p v
  | .cbo t _ => .cbo t v
  | w => w
/-- A late result returns: its value, its flags, and the address of poisoned data it consumed. -/
def State.returnTag (s : State) (h : HartId) (tag : Nat) (v : Word) (flags : Flags5 := 0) (poison : Option Word := none) : State :=
  let f := fun (p : Pending) =>
    if p.tag = tag && !p.returned then
      { p with returned := true, tag := 0, writes := p.writes.map (RegWrite.withValue v), flags := p.flags ||| flags, poison := poison }
    else p
  s.modHart h fun x => { x with outstanding := x.outstanding.map f }
/-- A late result's value, sent to its hart from a die: the management network carries it to another die. -/
def State.replyTag (s : State) (d : DieKey) (h : HartId) (tag : Nat) (v : Nat) : State :=
  if dieOfHart h = d then s.returnTag h tag (BitVec.ofNat 64 v) else s.send d (dieOfHart h) 4 (.ctxReply h tag v)

/-! ### Context images, 09_traps_contexts R159 -/

/-- The general-path address of the image of a thread's context: a context slot's at CTXBASE, a handler's at HCTXBASE (09 R159). -/
def State.imageVa (s : State) : HartId → Nat
  | .ctx c n => (s.ctlGet (dieOfCore c) (0x1000 + 8 * (c % 384))).toNat / 2 ^ 14 * 2 ^ 14 % 2 ^ 57 + 0x4000 * n
  | .handler d n => (s.ctlGet d 0x108).toNat % 2 ^ 57 + 0x4000 * n
  | _ => 0
/-- Where the context engine finds it. -/
def State.imageBase (s : State) (h : HartId) : Nat := s.unitPa (dieOfHart h) (s.hart h).origin.space (s.imageVa h)
def State.ctxImage (s : State) (c : CoreKey) (slot : Nat) : Nat := s.imageBase (.ctx c slot)
/-- Whether the context engine cannot translate it (09 R161). -/
def State.imageLost (s : State) (h : HartId) (write : Bool) : Bool :=
  (s.unitAddr (dieOfHart h) (s.hart h).origin.space (s.imageVa h) (if write then 1 else 0)).isNone

end Sys2Proof.Machine
end

