-- ==== Sys2Proof/Machine/Ops.lean ====
section
/-! DEFINITION. The shared operations: the way an instruction's meaning ends; translation of the issuing hart; window slides; taking a
trap, returning from one, and the end of a thread; retirement; registers and outstanding results. -/

namespace Sys2Proof.Machine

/-! ### How an instruction ends -/

/-- What ends an instruction's meaning early. -/
inductive Stop where
  | stall (f : State → State)
  | trap (cause : Nat) (xval : Word)
  | endThread (cause inner : Nat)
  | fault (r : Fault)

/-- The meaning of an instruction: a state, changed until something ends it. Whatever ends it early discards the changes, so a trap
leaves everything as it was (09 R151). -/
abbrev M (α : Type) := StateT State (Except Stop) α

def stallWith (f : State → State) : M α := throw (.stall f)
def stall : M α := stallWith id
def trapM (cause : Nat) (xval : Word := 0) : M α := throw (.trap cause xval)
def ILLCLASS : Nat := 0x01
def PRIV : Nat := 0x02
def BADTARGET : Nat := 0x03
def ACCESS : Nat := 0x04
def illclass : M α := trapM ILLCLASS
def endM (cause : Nat) : M α := throw (.endThread cause 0)
def LEASE : Nat := 0x20
def CONTEXTLOST : Nat := 0x21
def NESTED : Nat := 0x22
def modS (f : State → State) : M Unit := modify f
def guardM (ok : Bool) (e : M Unit) : M Unit := if ok then pure () else e

def me : M HartId := do return (← get).ir.hart
def ir : M Slot := do return (← get).ir.slot
def getI : M Issue := do return (← get).ir
def hartM : M Hart := do
  let s ← get
  match s.hart? s.ir.hart with
  | some x => pure x
  | none => throw (.fault .noHart)
def modH (f : Hart → Hart) : M Unit := modify fun s => s.modHart s.ir.hart f
def myCore : M CoreKey := do
  let s ← get
  match s.coreOf s.ir.hart with
  | some c => pure c
  | none => illclass
def myDie : M DieKey := do return dieOfHart (← me)
/-- The stalled hart waits for w. -/
def waitFor (w : Wait) : M α := do
  let h ← me
  stallWith fun s => s.modHart h fun x => { x with wait := some w }
/-- The successor of a PC, 03 R34. -/
def succPc (pc : Word) : Word := if pc.toNat % 8 = 4 then pc + 60 else pc + 1
/-- Whether a PC satisfies R34. -/
def pcOk (pc : Word) : Bool := pc.toNat % 64 < 5
def pcLine (pc : Word) : Nat := pc.toNat / 64

/-! ### Translation for the issuing hart, 11 R176 -/

/-- Translation of a general-path address for the issuing hart; it waits on a miss or a page fault. -/
def translateM (va kind : Nat) : M Nat := do
  let s ← get
  let h := s.ir.hart
  let x ← hartM
  let q := s.quadOf h
  let sp := x.origin.space
  let w := Wait.tlb false sp (va / 2 ^ 16 % 2 ^ 41)
  match s.translate q false sp va kind with
  | .ok pa => pure pa
  | .miss => stallWith fun s => (s.missFor h q false sp va kind).modHart h fun x => { x with wait := some w }
  | .noRight => stallWith fun s => s.parkHart h q sp va kind

/-! ### The register window, 05 R83 -/

/-- A word of the register stack. A thread's goes through the context cache, and meets memory only when its frame is written back or
refilled (R83, R85); a companion's lies in scratchpad, a firmware hart's in its private SRAM (06 R114). -/
def stackWrite (va v : Word) : M Unit := do
  match ← me with
  | .loader c => modS fun s => s.putWord (windowKey (pkgOfCore c) va.toNat) v
  | .storer c => modS fun s => s.putWord (windowKey (pkgOfCore c) va.toNat) v
  | .tsc _ _ | .gather _ | .expander _ => modH fun x => { x with sram := Sparse.put 0 va.toNat v x.sram }
  | _ => modH fun x => { x with below := (va.toNat, v) :: x.below.filter (fun p => p.1 ≠ va.toNat) }
/-- The number of the frame of a stack address, behind those of the context itself. -/
def stackFrame (va : Nat) : Nat := 64 + va / 32
def stackRead (va : Word) : M Word := do
  let s ← get
  let x ← hartM
  match s.ir.hart with
  | .loader c => pure (s.word (windowKey (pkgOfCore c) va.toNat))
  | .storer c => pure (s.word (windowKey (pkgOfCore c) va.toNat))
  | .tsc _ _ | .gather _ | .expander _ => pure (Sparse.get 0 x.sram va.toNat)
  | _ => match lookup? va.toNat x.below with
    | some w => pure w
    | none => waitFor (.frame (stackFrame va.toNat))
/-- A slide names every register of the window: it waits for the frames of it that are out of the cache (R85). -/
def windowHere : M Unit := do
  let x ← hartM
  match x.absent.find? (· < 4) with
  | some n => waitFor (.frame n)
  | none => pure ()
/-- Register i of the window. -/
def Hart.xreg (x : Hart) (i : Nat) : Word := x.regs.x.toList.getD i 0
def Hart.setX (x : Hart) (i : Nat) (v : Word) : Hart := { x with regs := { x.regs with x := x.regs.x.setIfInBounds i v } }
/-- The window with register i given by a function. -/
def windowOf (f : Nat → Word) : Vector Word 16 := Vector.ofFn (fun (i : Fin 16) => f i.val)
def storeOut (x : Hart) (base : Word) : Nat → Nat → M Unit
  | 0, _ => pure ()
  | n + 1, i => do stackWrite (base + BitVec.ofNat 64 (8 * i)) (x.xreg i); storeOut x base n (i + 1)
def loadIn (base : Word) : Nat → Nat → M (List Word)
  | 0, _ => pure []
  | n + 1, i => do
    let v ← stackRead (base + BitVec.ofNat 64 (8 * i))
    return v :: (← loadIn base n (i + 1))
/-- `Slide(n)` upward. -/
def slideUp (n : Nat) : M Unit := do
  let x ← hartM
  if x.rslim.toNat < x.wbase.toNat + 8 * n + 128 then trapM 0x05 (x.wbase + BitVec.ofNat 64 (8 * n))
  windowHere
  storeOut x x.wbase n 0
  modH fun y => { y with
    regs := { y.regs with x := windowOf fun i => if i + n < 16 then x.xreg (i + n) else 0 }
    wbase := x.wbase + BitVec.ofNat 64 (8 * n) }
/-- `Slide(−m)`. -/
def slideDown (m : Nat) : M Unit := do
  let x ← hartM
  if x.wbase.toNat < x.rsbase.toNat + 8 * m then trapM 0x06 (x.wbase - BitVec.ofNat 64 (8 * m))
  windowHere
  let base := x.wbase - BitVec.ofNat 64 (8 * m)
  let vs ← loadIn base m 0
  modH fun y => { y with
    regs := { y.regs with x := windowOf fun i => if m ≤ i then x.xreg (i - m) else vs.getD i 0 }
    wbase := base, below := y.below.filter (fun p => p.1 < base.toNat) }

/-! ### Write-backs of the register stack, 05 R83, R85 -/

/-- What a write-back of a stack frame meets. -/
inductive Spilled where
  | done (s : State)
  | wait (s : State)
  | lease
  | lost
/-- The words of a frame are written to memory, under the rules of the general path. -/
def State.writeFrame (s : State) (h : HartId) (pa : Nat) (words : List (Nat × Word)) : State :=
  let x := s.hart h
  let put := fun (s : State) (w : Nat × Word) =>
    let a := pa / 32 * 32 + w.1 % 32
    let rev := if (s.regionFor h w.1).isSome then x.revid else 0
    let r := s.performCells (dieOfHart h) false x.origin.job x.origin.owner rev w.1 (cellsAt a (leBytes 8 w.2.toNat))
    if r.2 = 0 then r.1 else r.1.addAccess h { kind := 0, addr := BitVec.ofNat 64 w.1, pc := x.pc, status := r.2 }
  words.foldl put s
/-- A stack frame below the window leaves the context cache: it needs the lease and a translation; a page under migration is waited for. -/
def State.spill (s : State) (h : HartId) (frame : Nat) : Spilled :=
  let x := s.hart h
  let q := s.quadOf h
  let words := x.below.filter fun p => p.1 / 32 = frame
  if !words.all (fun w => s.leased x w.1 8 false true) then .lease
  else match s.translate q false x.origin.space (32 * frame) 1 with
    | .miss => .wait (s.missFor h q false x.origin.space (32 * frame) 1)
    | .noRight => .lost
    | .ok pa =>
      if (s.metaWord pa 0).getLsbD 60 then .wait s
      else .done ((s.writeFrame h pa words).modHart h fun y => { y with below := y.below.filter fun p => p.1 / 32 ≠ frame })
/-- Writes back every frame below a thread's window that can be at once. -/
def State.spillNow (s : State) (h : HartId) : State :=
  (distinct ((s.hart h).below.map fun p => p.1 / 32)).foldl (fun s f => match s.spill h f with
    | .done t => t
    | _ => s) s

/-! ### `align`, 06 R111 -/

/-- Whether every other core of the quad with a resident thread of a launch has issued an `align` at p. -/
def State.alignMet (s : State) (c : CoreKey) (launch : Option Nat) (p : Word) : Bool :=
  let q := quadOfCore c
  (List.range 4).all fun i =>
    let c2 := coreOfQuad q i
    c2 == c || (s.quad q).aligned.contains (i, p, launch) ||
      !(s.harts.any fun y => match y.1 with
        | .ctx k _ => k == c2 && y.2.origin.launch == launch
        | _ => false)
/-- The threads of a launch held at p go on together. -/
def State.alignRelease (s : State) (q : QuadKey) (launch : Option Nat) (p : Word) : State :=
  let s := s.modQuad q fun y => { y with aligned := y.aligned.filter (fun m => m.2 ≠ (p, launch)) }
  { s with harts := s.harts.map fun y =>
      if y.2.wait = some (.align p) ∧ y.2.origin.launch = launch ∧ s.quadOf y.1 = q then (y.1, { y.2 with wait := none }) else y }
/-- When a thread leaves a quad, the others that `align` holds may all have come. -/
def State.alignCheck (s : State) (q : QuadKey) (launch : Option Nat) : State :=
  s.harts.foldl (fun s y => match y.1, y.2.wait with
    | .ctx c _, some (.align p) =>
      if quadOfCore c = q ∧ y.2.origin.launch = launch ∧ s.alignMet c launch p then s.alignRelease q launch p else s
    | _, _ => s) s

/-! ### What a release waits for, 11 R189 -/

/-- Whether stores that a release at a scope covers are still to be performed, R189: the thread's own, at `.quad` to `.pkg` also the
core's bound for its package, at `.pkg` and `.pod` every one of the package's cores bound for CXL memory, at `.core` those to context
images, which the window reads in memory (10 R173). -/
def State.releaseOpen (s : State) (h : HartId) (scope : Nat) : Bool :=
  match s.coreOf h with
  | none => false
  | some c =>
    let pkg := pkgOfCore c
    let image := fun (pa : Nat) => s.harts.any fun p =>
      isThread p.1 && dieOfHart p.1 / 4 == pkg && s.imageBase p.1 ≤ pa && pa < s.imageBase p.1 + 0x4000
    let bound := fun (b : BufStore) => match scope with
      | 0 => false
      | 1 => b.cells.any fun k => image k.1
      | 5 => true
      | _ => b.hart == h || b.cells.any fun k => homeOf k.1 / 4 == pkg
    (s.core c).wbuf.any bound ||
      (decide (4 ≤ scope) && s.cores.any fun k => pkgOfCore k.1 == pkg && k.2.wbuf.any fun b => b.cells.any fun x => isCxl x.1)
/-- The dies to which a release at `.pkg` or `.pod` sends its flush markers. -/
def State.releaseDests (s : State) (h : HartId) (scope : Nat) : List DieKey :=
  let d := dieOfHart h
  ((s.die d).masks.filter (fun p => p.2 ≠ 0 && p.1 != d && (scope == 5 || p.1 / 4 == d / 4))).map (·.1)

/-! ### A thread that is gone -/

/-- A matrix command whose thread has ended (12 R207). -/
def MatCmd.orphan (h : HartId) (c : MatCmd) : MatCmd := if c.hart = h then { c with gone := true } else c

/-- A thread that is gone: its cells, its lock, its held packets, its gang arrival and its context are free; its launch, its parent
and its dispatcher are told. -/
def State.threadGone (s : State) (h : HartId) (e : Ending) (dropped : Bool := false) : State :=
  let x := s.hart h
  let d := dieOfHart h
  let c := (s.coreOf h).getD 0
  let heldN := ((s.core c).hold.filter (fun p => p.1 == h)).length
  let s := s.spillNow h
  let s := (s.hart h).accesses.foldl (fun s a => s.sfqFor h a (!dropped)) s
  let s := s.modCore c fun k => { k with
    futures := k.futures.map (fun f => if f.2.owner = some h then (f.1, { f.2 with valid := false, owner := none, full := false }) else f)
    hold := k.hold.filter (fun p => p.1 ≠ h)
    lockq := k.lockq.filter (fun p => p.2 ≠ h)
    cmdOq := k.cmdOq.map (MatCmd.orphan h)
    wbuf := k.wbuf.map (fun b => if b.hart = h then { b with gone := true } else b) }
  let s := if heldN = 0 then s else s.countDie d 0x44 heldN
  let s := match x.lock with
    | none => s
    | some (lc, b, i) => s.modCore lc fun k => { k with locks := k.locks.filter (fun p => p.1 ≠ 8 * b + i) }
  let s := s.modQuad (quadOfCore c) fun q => { q with
    oq := q.oq.map (fun l => l.map (MatCmd.orphan h))
    arrivals := q.arrivals.filter (fun p => p.2 ≠ h), rounds := q.rounds.map (fun r => (r.1, r.2.filter (fun p => p.2 ≠ h))) }
  let s := x.deposits.foldl (fun s p => s.refuseDeposit h p.1 p.2.2) s
  let s := x.preemptBy.foldl (fun s p => s.replyTag d p.1 p.2 1) s
  let s := match x.origin.job with
    | some j => s.modJob j fun y => { y with revs := y.revs.map (fun (r : Revision) => if r.child = some h then { r with phase := 1, status := e.cause, child := none } else r) }
    | none => s
  let s := if !e.faulted || dropped then s else (s.recordFault h e.cause 0).faultOf h e.cause e.inner
  let s := match x.origin.parent with
    | some p => match e.fill with
      | some v => s.sendFill d (d / 4) p v none x.origin.owner
      | none => s
    | none => s
  let s := match x.origin.acq with
    | some (hd, a) => s.send d hd 3 (.taskEnd a e.faulted e.cause e.inner) x.origin.owner
    | none => match x.origin.launch with
      | some l => if dropped then s.modLaunch l fun y => { y with live := y.live - 1 } else s.modLaunch l fun y => { y with
          live := y.live - 1
          doneCount := if !e.faulted && !isHandler h then y.doneCount + 1 else y.doneCount
          causeCount := if e.faulted then y.causeCount + 1 else y.causeCount
          ends := if e.faulted then y.ends ++ [(0, e.cause, false)] else y.ends }
      | none => s
  ({ s with harts := eraseKey h s.harts }.alignCheck (quadOfCore c) x.origin.launch)

/-- The thread that is stopping goes once its unjoined children are gone (R228) and the SSU has done the commands it accepted; one that
ends by `done` has then released at `.pkg` (15 R250). -/
def State.tryGone (s : State) (h : HartId) : State :=
  let x := s.hart h
  let busy := match s.coreOf h with
    | some c => (s.core c).ssu.any (fun q => q.hart == h)
    | none => false
  let e := x.endCause.getD {}
  if x.phase ≠ .ending || x.wait == some .flush || busy || !(s.childrenOf h).isEmpty then s
  else if e.fill.isSome && s.releaseOpen h 4 then s
  else if e.fill.isSome && !e.released && !(s.releaseDests h 4).isEmpty then
    (s.modHart h fun y => { y with endCause := some { e with released := true } }).flushFor h (s.releaseDests h 4)
  else s.threadGone h e
/-- The outstanding results of a hart are discarded; the ring slots that they had reserved are given back. -/
def State.dropResults (s : State) (h : HartId) : State :=
  let c := (s.coreOf h).getD 0
  let tickets := (s.hart h).outstanding.flatMap fun p => p.writes.filterMap fun w => match w with
    | .cbo t _ => some t
    | _ => none
  (tickets.foldl (fun s t => s.giveBack c t) s).modHart h fun x => { x with outstanding := [] }
/-- A thread stops: nothing more of it issues. -/
def State.stopWith (s : State) (h : HartId) (e : Ending) : State :=
  let s := if s.ir.hart = h then { s with ir := { s.ir with result := .ended } } else s
  let s := match s.coreOf h with
    | some c => if (s.core c).cmdSsu.isEmpty then s else s.modCore c fun k => { k with cmdSsu := k.cmdSsu.filter (fun q => q.hart ≠ h) }
    | none => s
  ((s.dropResults h).modHart h fun x => { x with phase := .ending, endCause := some e, grant := none, wait := none }).tryGone h
/-- A thread stops by a cause. -/
def State.endThread (s : State) (h : HartId) (cause inner : Nat) : State := s.stopWith h { cause := cause, inner := inner, faulted := true }

/-! ### Traps, 09 R150 to R157 -/

/-- The unit field of XCAUSE for an opcode, R150. -/
def unitOf (op : Nat) : Nat :=
  if 0x100 ≤ op ∧ op ≤ 0x168 ∨ 0x1C0 ≤ op ∧ op ≤ 0x1D4 then 1
  else if 0x180 ≤ op ∧ op ≤ 0x191 then 2
  else if 0x1A0 ≤ op ∧ op ≤ 0x1AE then 5
  else if 0x080 ≤ op ∧ op ≤ 0x08E then 3
  else 0
def xcauseOf (t : TrapReq) : BitVec 32 :=
  BitVec.ofNat 32 ((if t.precise then 2 ^ 31 else 0) + (if t.second then 2 ^ 30 else 0) + t.unit * 2 ^ 16 + t.cause)

/-- A companion hart halts with the cause in its mailbox (R153, 15 R266); a firmware hart raises FIRMWARE-FAULT. -/
def State.haltWith (s : State) (h : HartId) (t : TrapReq) : State :=
  let s := { s with ir := { s.ir with result := .trapped } }.recordFault h t.cause t.xval
  match h with
  | .loader c => (s.putWord (scratchKey c 0x7FFF0) (BitVec.ofNat 64 (2 ^ 63 + t.cause * 2 ^ 48 + t.xval.toNat % 2 ^ 48))).modHart h
      fun x => { x with phase := .halted, outstanding := [], wait := none }
  | .storer c => (s.putWord (scratchKey c 0x7FFF8) (BitVec.ofNat 64 (2 ^ 63 + t.cause * 2 ^ 48 + t.xval.toNat % 2 ^ 48))).modHart h
      fun x => { x with phase := .halted, outstanding := [], wait := none }
  | h => (s.event (dieOfHart h) 0x32 t.pc).modHart h fun x => { x with phase := .halted, outstanding := [], wait := none }

/-- The slide and the registers of TRAP ENTRY, R153. -/
def trapEntryM (t : TrapReq) : M Unit := do
  let x ← hartM
  let s ← get
  let d := dieOfHart s.ir.hart
  slideUp 12
  modH fun y => { y with
    trap := { xcause := xcauseOf t, xpc := if t.cause = 0x0E then succPc t.pc else t.pc, xval := t.xval, mode := true,
              pmode := x.trap.mode, trapped := true }
    pc := s.ctlGet d 0x100, pendingTrap := none, parked := t.marker, wait := none, grant := none, answered := [], refused := none }
  modS fun s => s.spillNow s.ir.hart

/-- TRAP ENTRY once the thread's results are written. -/
def State.enterTrap (s : State) (h : HartId) (t : TrapReq) : State :=
  let x := s.hart h
  let s := { s with ir := { s.ir with hart := h, result := .trapped } }
  if x.trap.trapped then s.endThread h NESTED t.cause
  else if s.ctlGet (dieOfHart h) 0x100 = 0 then s.endThread h t.cause 0
  else if x.rslim.toNat < x.wbase.toNat + 96 + 128 then s.endThread h NESTED t.cause
  else
    match trapEntryM t s with
    | .ok (_, s') => let s' := s'.recordFault h t.cause t.xval; if t.precise then s'.faultOf h t.cause 0 else s'
    | .error (.endThread c i) => s.endThread h c i
    | .error (.stall f) => f (s.modHart h fun y => { y with pendingTrap := some t })
    | .error _ => s.endThread h NESTED t.cause

/-- A trap of a hart: it waits until every outstanding result of the thread is written. -/
def State.takeTrap (s : State) (h : HartId) (t : TrapReq) : State :=
  let s := { s with ir := { s.ir with result := .trapped } }
  if isThread h then
    if (s.hart h).outstanding.isEmpty then s.enterTrap h t
    else s.modHart h fun x => { x with pendingTrap := some t, parked := true }
  else s.haltWith h t

/-- A thread, slid back, that returns from its trap: mode and PC as they were, with the deposits that DEPMASK lets in (R157, R158). -/
def Hart.restored (x : Hart) : Hart :=
  (x.deposits.filter fun p => x.depmask.getLsbD p.1).foldl (fun z p => z.setX p.1 p.2.1)
    { x with trap := { x.trap with mode := x.trap.pmode, trapped := false }, pc := x.trap.xpc, deposits := [] }
/-- The deposits held for a thread that DEPMASK keeps out are refused (R158). -/
def State.refuseHeld (s : State) (h : HartId) (x : Hart) : State :=
  (x.deposits.filter fun p => !x.depmask.getLsbD p.1).foldl (fun s p => s.refuseDeposit h p.1 p.2.2) s
/-- The return from a trap, R157, with a drained thread in supervisor mode. -/
def trapReturnM : M Unit := do
  let x ← hartM
  let i ← getI
  if !pcOk x.trap.xpc then throw (.endThread NESTED BADTARGET)
  if x.wbase.toNat < x.rsbase.toNat + 96 then throw (.endThread NESTED 0x06)
  slideDown 12
  modH Hart.restored
  modS fun s => (s.refuseHeld i.hart x).modHart i.hart fun y =>
    { y with parked := i.marker, stopping := y.stopping || (y.preempt && i.marker) }

/-- The unit of a trap: R150, and R361 for the fabric interface's causes. -/
def unitFor (op cause : Nat) : Nat := if cause = 0x0A ∨ cause = 0x0B ∨ cause = 0x0C then 4 else unitOf op
/-- A pre-emption is asked for, 09 R162: it takes effect at once when the thread is not issuing. -/
def Hart.askPreempt (x : Hart) : Hart :=
  { x with preempt := true, stopping := x.stopping || x.parked || x.stalled || x.wait.isSome || x.fresh }
/-- A hart that stalls does not issue: a pre-emption asked for takes effect (09 R162). -/
def Hart.stall (x : Hart) : Hart := { x with stalled := true, stopping := x.stopping || x.preempt }
/-- The state in which an instruction's meaning starts. -/
def State.go (s : State) : State := { s with ir := { s.ir with result := .issued } }
/-- Runs a meaning. -/
def runM (op : Nat) (m : M Unit) (s : State) : Host.Outcome State Fault Refusal :=
  let s := s.go
  match m s with
  | .ok (_, s') => .next s'
  | .error (.stall f) => .next ({ f s with ir := { s.ir with result := .stalled } }.modHart s.ir.hart Hart.stall)
  | .error (.trap cause v) =>
    .next (s.takeTrap s.ir.hart { cause := cause, xval := v, pc := (s.hart s.ir.hart).pc, second := s.ir.second, unit := unitFor op cause
                                  marker := cause == 0x0E && s.ir.marker })
  | .error (.endThread cause inner) =>
    if isThread s.ir.hart then .next (s.endThread s.ir.hart cause inner)
    else .next (s.haltWith s.ir.hart { cause := cause, xval := 0, pc := (s.hart s.ir.hart).pc, second := s.ir.second, unit := 0 })
  | .error (.fault r) => .fault r

/-- An instruction waits at issue until every outstanding result of its thread is written, 20_order_agent_core R327; the second of a pair
waits for those that were outstanding before the pair, which issues as one (03 R39). -/
def drained : M Unit := do
  let x ← hartM
  let i ← getI
  guardM (if i.second then !i.before else x.outstanding.isEmpty) stall

/-! ### Retirement, 03 R41, 06 R109 -/

/-- The active loop counters that end at a PC, the greatest START first. -/
def endingLoops (x : Hart) (pc : Word) : List Nat :=
  let l := (List.range 3).filter (fun n => let p := x.loops.toList.getD n {}; p.count != 0 && p.stop == pc)
  l.mergeSort (fun a b => decide ((x.loops.toList.getD b {}).start.toNat ≤ (x.loops.toList.getD a {}).start.toNat))
def Hart.setLoop (x : Hart) (n : Nat) (f : Loop → Loop) : Hart :=
  { x with loops := x.loops.setIfInBounds n (f (x.loops.toList.getD n {})) }
/-- `LoopEnd`: the counters after it, and the start PC of a back edge. -/
def loopEnd (x : Hart) : List Nat → List Nat → Hart × Option Word
  | [], _ => (x, none)
  | n :: r, inner =>
    let x := x.setLoop n fun l => { l with count := l.count - 1 }
    if (x.loops.toList.getD n {}).count ≠ 0 then
      (inner.foldl (fun x j => x.setLoop j fun l => { l with count := l.reload }) x, some (x.loops.toList.getD n {}).start)
    else loopEnd x r (inner ++ [n])

/-- The line a hart fetches: its bytes, by what its code lives in (02 R20). A thread's comes from the quad instruction cache. -/
def State.cachedLine (s : State) (q : QuadKey) (line : Nat) : Option (BitVec 512) :=
  ((s.quad q).icache.find? (fun l => l.line == line)).map (·.data)
def lineNat (bs : List Byte) : BitVec 512 := BitVec.ofNat 512 (leNat bs)
/-- A line leaves a quad instruction cache. -/
def State.dropILine (s : State) (q : QuadKey) (line : Nat) : State :=
  s.modQuad q fun y => { y with icache := y.icache.filter (fun l => l.line != line) }
/-- The parity of a slot, 03 R36. -/
def parityOf (w : BitVec 96) : Bool := onesCount 96 w.toNat % 2 = 1
def slotOfLine (l : BitVec 512) (i : Nat) : BitVec 96 := l.extractLsb' (96 * i) 96
/-- Whether a line's parities are right: each slot's, and that of line-word bits 31:17. -/
def lineParityOk (l : BitVec 512) : Bool :=
  (List.range 5).all (fun i => parityOf (slotOfLine l i) == l.getLsbD (480 + 18 + i)) && onesCount 15 (l.toNat / 2 ^ 497) % 2 == 0
/-- What fetching a line answers: the line; what the hart waits for; that its page lacks the grant; that its store has no such line; that
it came wrong twice. -/
inductive Fetched where
  | line (w : BitVec 512)
  | stall (f : State → State)
  | noGrant
  | beyond
  | bad

def State.fetchLine (s : State) (h : HartId) (pc : Word) : Fetched :=
  match h with
  | .loader c => if 0x4000 ≤ pc.toNat then .beyond else .line (lineNat (s.bytes (storeKey c false (pcLine pc * 64)) 64))
  | .storer c => if 0x4000 ≤ pc.toNat then .beyond else .line (lineNat (s.bytes (storeKey c true (pcLine pc * 64)) 64))
  | .tsc _ _ | .gather _ | .expander _ => .line (lineNat (s.bytes (imageKey h (pcLine pc * 64)) 64))
  | _ =>
    let x := s.hart h
    let q := s.quadOf h
    let va := pcLine pc * 64
    let w := Wait.tlb false x.origin.space (va / 2 ^ 16 % 2 ^ 41)
    match s.translate q false x.origin.space va 2 with
    | .miss => .stall fun s => (s.missFor h q false x.origin.space va 2).modHart h fun x => { x with wait := some w }
    | .noRight => .stall fun s => s.parkHart h q x.origin.space va 2
    | .ok pa =>
      if !s.granted pa then .noGrant
      else if x.badLine = some (pa / 64) then .bad
      else match s.cachedLine q (pa / 64) with
        | some l =>
          if lineParityOk l then .line l
          else .stall fun s => (s.dropILine q (pa / 64)).modHart h fun x => { x with wait := some (.fetch (pa / 64) true) }
        | none => .stall fun s => s.modHart h fun x => { x with wait := some (.fetch (pa / 64) false) }

/-- The target mark of a PC's slot in its line, 03 R35. -/
def markedIn (l : BitVec 512) (pc : Word) : Bool := l.getLsbD (480 + 27 + pc.toNat % 8)

/-- A checked transfer, 03 R40: the target satisfies R34 and its slot is marked; a line not yet fetched is waited for. Of a line that cannot
be had, the fetch of the target raises the fault, at the target's PC (R51, R54). -/
def checkTarget (pc : Word) (xval : Word) : M Unit := do
  if !pcOk pc then trapM BADTARGET xval
  let s ← get
  match s.fetchLine s.ir.hart pc with
  | .line l => if markedIn l pc then pure () else trapM BADTARGET xval
  | .stall f => stallWith f
  | .noGrant | .bad => pure ()
  | .beyond => trapM BADTARGET pc

/-- Counts an issued instruction of a thread, 19 R323. -/
def State.counted (s : State) : State :=
  match s.coreOf s.ir.hart with
  | some c =>
    if isThread s.ir.hart then
      let t := (s.countCore c (slotOf s.ir.hart) 0x02).countCore c (slotOf s.ir.hart) 0x03
      if s.ir.marker then t.countCore c (slotOf s.ir.hart) 0x04 else t
    else s
  | none => s
def countIssue : M Unit := modS State.counted
/-- A hart past an instruction: its next PC, parked at a marker, waiting for nothing. -/
def Hart.past (x : Hart) (pc : Word) (marker : Bool) : Hart := 
  { x with pc := pc, parked := marker, wait := none, grant := none, answered := [], refused := none
           stopping := x.stopping || (x.preempt && marker) }

/-- BADTARGET on a back edge, R109. -/
def badEdge (s : State) (h : HartId) (tgt : Word) : State :=
  s.takeTrap h { cause := BADTARGET, xval := tgt, pc := tgt, second := s.ir.second, unit := unitOf s.ir.op }

/-- Ends an instruction that is no taken transfer: LOOP END, the next PC, and the switch marker. A back edge whose target is unmarked
raises BADTARGET after the instruction's full effect, with XPC and XVAL the loop's start (R109). -/
def retire : M Unit := do
  let x ← hartM
  let h ← me
  let s ← get
  countIssue
  let fin := fun (y : Hart) (pc : Word) => y.past pc s.ir.marker
  match endingLoops x x.pc with
  | [] => modH fun y => fin y (succPc x.pc)
  | ls =>
    let r := loopEnd x ls []
    let loops := r.1.loops
    match r.2 with
    | none => modH fun y => fin { y with loops := loops } (succPc x.pc)
    | some tgt => do
      match s.fetchLine h tgt with
      | .stall f => stallWith f
      | .line l =>
        if markedIn l tgt && pcOk tgt then modH fun y => fin { y with loops := loops } tgt
        else modS fun s => badEdge (s.modHart h (fun y => fin { y with loops := loops } tgt)) h tgt
      | .beyond => modS fun s => badEdge (s.modHart h (fun y => fin { y with loops := loops } tgt)) h tgt
      | _ => modH fun y => fin { y with loops := loops } tgt

/-- Ends a taken transfer. -/
def retireTo (pc : Word) : M Unit := do
  let s ← get
  countIssue
  modH fun y => y.past pc s.ir.marker

/-! ### Releases, acquires and fences, 11 R189 -/

/-- Whether the SSU still has a `qld` or `qst` of a hart to do (R352). -/
def State.ssuMemory (s : State) (h : HartId) : Bool :=
  match s.coreOf h with
  | some c => ((s.core c).ssu ++ (s.core c).cmdSsu).any fun q => q.hart == h && (q.op == 0x18E || q.op == 0x18F)
  | none => false
/-- An acquire: at `.quad` or wider every L1 line but those filled by `.o` goes, 10 R165. -/
def State.acquire (s : State) (h : HartId) (scope : Nat) : State :=
  match s.coreOf h with
  | some c => if 2 ≤ scope then s.modCore c fun k => { k with l1 := k.l1.filter (·.ro) } else s
  | none => s
/-- A release at a scope, R189: it waits for the stores it covers, for loads to return, for earlier `qld` and `qst`, and, at `.pkg` and
`.pod`, for its markers (21 R342). -/
def releaseM (scope : Nat) : M Unit := do
  let s ← get
  let h := s.ir.hart
  let x ← hartM
  if x.outstanding.any (fun p => !p.returned) || s.ssuMemory h || s.releaseOpen h scope then stall
  if 4 ≤ scope && x.grant ≠ some 2 then
    let dests := s.releaseDests h scope
    if dests.isEmpty then pure () else stallWith fun s => s.flushFor h dests
  else pure ()
/-- An acquire of the issuing hart: earlier loads and atomics have returned first. -/
def acquireM (scope : Nat) : M Unit := do
  let x ← hartM
  let s ← get
  if x.outstanding.any (fun p => !p.returned) || s.ssuMemory s.ir.hart then stall
  let h ← me
  modS fun s => s.acquire h scope
/-- What a fence of a kind and a scope waits for and does. -/
def fenceNow (kind scope : Nat) : M Unit := do
  if kind / 2 % 2 = 1 then releaseM scope
  if kind % 2 = 1 then acquireM scope
/-- An instruction that a fence orders waits for the fence that is still open; others issue past it (R189). -/
def fenceM : M Unit := do
  let x ← hartM
  match x.fence with
  | none => pure ()
  | some (kind, scope) => do
    fenceNow kind scope
    modH fun y => { y with fence := none, grant := if y.grant = some 2 then none else y.grant }

/-! ### Results -/

/-- Appends an outstanding result of the issuing thread. -/
def result (ws : List RegWrite) (flags : Flags5 := 0) (poison : Option Word := none) (returned : Bool := true) (tag : Nat := 0)
    (quick : Bool := false) : M Unit :=
  modS fun s => s.modHart s.ir.hart fun x => { x with outstanding := x.outstanding ++
    [{ writes := ws, flags := flags, returned := returned, poison := poison, inRegion := x.inRegion, second := s.ir.second, tag := tag, quick := quick }] }

/-- A fresh tag that names a result or a command. -/
def freshTag : M Nat := do
  let s ← get
  modS fun s => { s with free := s.free + 1 }
  return s.free + 1

/-- A value the spec leaves open: a fresh one each time (log entry 3). -/
def freeValue : M Word := do
  let s ← get
  modS fun s => { s with free := s.free + 1 }
  return Config.freeWord s.free

/-- A draw of the thread's generator, 04 R68; a hart without one never draws (R65). -/
def draw (domain : Nat) : M Word := do
  let x ← hartM
  modH fun y => { y with gen := { y.gen with gctr := x.gen.gctr + 1 } }
  return drawOf x.gen.gseed x.gen.gctr domain
def draws (domain : Nat) : Nat → M (List Word)
  | 0 => pure []
  | n + 1 => do return (← draw domain) :: (← draws domain n)
/-- The 32 bits a stochastic rounding uses, R67. -/
def drawU : M Nat := do return (← draw 0x01).toNat / 2 ^ 32

end Sys2Proof.Machine
end

