-- ==== Sys2Proof/Machine/Operands.lean ====
section
/-! DEFINITION. Operand forms: which hart may execute which class (02_machine R20, R23, 06 R113, 11 R181, 15 R248), how a scalar
register field is read and written with its ports and rings (05_registers R81, 06 R115, R116), immediates, vector and mask operands. -/

namespace Sys2Proof.Machine

/-- The classes that R20 and its companions tell apart. -/
inductive Cls where
  | base          -- the scalar subset of R113
  | float | align | regions | xret
  | mem           -- ld st ldx stx
  | acqrel        -- ldacq strel
  | fence | drain | prefetch
  | amo           -- amo cas
  | amoTok        -- amor casr
  | lock          -- ldlk stul
  | halt
  | sys           -- sysr sysw l1inv ctxsave ctxload replay and the counters
  | tlb           -- tlbw tlbinv
  | wfm
  | task          -- R247 but done and yield
  | control       -- done and yield
  | hret
  | ring
  | freq
  | vector | ssu | matrix
  deriving DecidableEq, Repr

/-- Whether a hart may use a class. -/
def mayUse (h : HartId) (migratory : Bool) (c : Cls) : Bool :=
  match h with
  | .ctx _ _ =>
    if migratory then
      match c with
      | .base | .float | .align | .regions | .xret | .mem | .acqrel | .fence | .drain | .prefetch | .amo | .amoTok | .lock | .sys
      | .tlb | .control => true
      | _ => false
    else
      match c with
      | .halt | .hret | .freq | .wfm => false
      | _ => true
  | .handler _ _ =>
    match c with
    | .halt | .freq | .wfm | .ssu | .matrix => false
    | _ => true
  | .loader _ | .storer _ =>
    match c with
    | .base | .halt | .mem | .acqrel | .fence | .drain | .prefetch | .amo | .ring => true
    | _ => false
  | .tsc _ _ =>
    match c with
    | .base | .halt | .mem | .acqrel | .fence | .tlb | .wfm => true
    | _ => false
  | .gather _ =>
    match c with
    | .base | .halt | .mem | .fence | .freq => true
    | _ => false
  | .expander _ =>
    match c with
    | .base | .halt | .mem | .fence | .matrix => true
    | _ => false

/-- The classes whose instructions a fence orders, 11 R189: memory accesses, engine commands and sends. -/
def Cls.ordered : Cls → Bool
  | .mem | .acqrel | .fence | .drain | .amo | .amoTok | .lock | .task | .ring | .freq | .ssu | .matrix => true
  | _ => false
/-- ILLCLASS for a class a hart may not use; an ordered instruction waits for an open fence. -/
def useClass (c : Cls) : M Unit := do
  let x ← hartM
  let h ← me
  guardM (mayUse h x.migratory c) illclass
  if c.ordered then fenceM else pure ()

/-- Whether a hart may name a scalar register value, R23, R81, R113. -/
def mayName (h : HartId) (migratory : Bool) (dest : Bool) (v : Nat) : Bool :=
  if v = 29 ∧ !dest then false
  else if v = 28 ∧ dest then false
  else if 24 ≤ v ∧ v ≤ 29 then isThread h && !migratory
  else if 16 ≤ v ∧ v ≤ 23 then !migratory
  else true

/-- ILLCLASS for registers that may not be named: sources, then destinations. -/
def names (srcs dsts : List (BitVec 5)) : M Unit := do
  let x ← hartM
  let h ← me
  guardM (srcs.all (fun v => mayName h x.migratory false v.toNat) && dsts.all (fun v => mayName h x.migratory true v.toNat)) illclass

/-! ### Frames of the context cache, 05 R85, R88 -/

/-- Waits for the frame that holds a register: 0 to 3 the window, 4 and 5 `g`, 8 + i for v_i, 40 for the masks, 48 + i for q_i. -/
def needFrame (n : Nat) : M Unit := do
  let x ← hartM
  if x.absent.contains n then waitFor (.frame n) else pure ()

/-! ### Mesh ports, 06 R115 -/

/-- The core a port of a core reaches: 0 north, 1 east, 2 south, 3 west, in the order `mn me ms mw`. -/
def meshNeighbour (c : CoreKey) (port : Nat) : Option CoreKey :=
  let n := c % 384
  let q := n / 4
  let p := n % 4
  let col := 2 * (q % 8) + p % 2
  let row := 2 * (q / 8) + p / 2
  let at2 := fun (col row : Nat) => some (c - n + (4 * (row / 2 * 8 + col / 2) + 2 * (row % 2) + col % 2))
  match port with
  | 0 => if row = 0 then none else at2 col (row - 1)
  | 1 => if col = 15 then none else at2 (col + 1) row
  | 2 => if row = 23 then none else at2 col (row + 1)
  | _ => if col = 0 then none else at2 (col - 1) row

/-- Pops a word of a mesh receive buffer; stalls while it is empty. -/
def popMesh (port : Nat) : M Word := do
  let c ← myCore
  if (meshNeighbour c port).isNone then trapM ACCESS
  let s ← get
  match (s.core c).meshIn.toList.getD port [] with
  | [] => stall
  | w :: r => do
    modS fun s => s.modCore c fun k => { k with meshIn := k.meshIn.setIfInBounds port r }
    pure w

/-! ### Rings, 14_queues R235 to R239 -/

/-- A ring operation on a disabled ring raises ACCESS. -/
def enabledRing (c : CoreKey) (r : Nat) : M Ring := do
  let s ← get
  let g := s.ring c r
  if g.cap = 0 then trapM ACCESS else pure g
/-- Pops one word of ring r as `cbi` does (R238): one slot, bytes 0 to 7. -/
def popRing (r : Nat) : M Word := do
  let c ← myCore
  let g ← enabledRing c r
  if g.filled = 0 then stall
  else do
    let s ← get
    let w := BitVec.ofNat 64 (leNat (getRing s c g g.head 0 8))
    modS fun s => s.setRing c r (g.freeHead 1)
    pure w
/-- Reserves one slot of ring r for a headerless word, as `cbo` does at issue (06 R116): its ticket. -/
def reserveWord (r : Nat) : M Nat := do
  let c ← myCore
  let _ ← enabledRing c r
  let s ← get
  if s.ringRoom c r 1 then do
    modS fun s => s.reserveOwn c r 1
    pure (s.free + 1)
  else stall
/-! ### Scalar registers -/

/-- `ReadReg`, R81. -/
def readReg (f : BitVec 5) : M Word := do
  let v := f.toNat
  if v ≤ 15 then do
    needFrame (v / 4)
    let x ← hartM
    pure (x.xreg v)
  else if v ≤ 23 then do
    needFrame (v / 4)
    let x ← hartM
    pure (x.regs.g.toList.getD (v - 16) 0)
  else if v ≤ 27 then popMesh (v - 24)
  else if v = 28 then popRing 0
  else if v = 29 then illclass
  else if v = 30 then do
    let x ← hartM
    pure x.tid
  else pure 0

/-- The register write of `WriteReg`, R81, as part of an outstanding result: a full port or ring stalls at issue. -/
def destReg (f : BitVec 5) (val : Word) : M (List RegWrite) := do
  let v := f.toNat
  if v ≤ 15 then do
    needFrame (v / 4)
    pure [.x v val]
  else if v ≤ 23 then do
    needFrame (v / 4)
    pure [.g (v - 16) val]
  else if v ≤ 27 then do
    let c ← myCore
    if (meshNeighbour c (v - 24)).isNone then trapM ACCESS
    let s ← get
    let waiting := (s.harts.map (fun p => if s.coreOf p.1 = some c then
      (p.2.outstanding.map (fun q => (q.writes.filter (fun w => match w with
        | .mesh p _ => p == v - 24
        | _ => false)).length)).sum else 0)).sum
    if 4 ≤ ((s.core c).meshOut.toList.getD (v - 24) []).length + waiting then stall
    else pure [.mesh (v - 24) val]
  else if v = 28 then illclass
  else if v = 29 then do
    let t ← reserveWord 1
    pure [.cbo t val]
  else pure []

/-- Writes a register in an outstanding result. -/
def writeReg (f : BitVec 5) (val : Word) (flags : Flags5 := 0) : M Unit := do
  result (← destReg f val) flags

/-- The integer instructions whose result is written one cycle after issue: all but the multiplications and divisions. -/
def oneCycle (op : Nat) : Bool := op < 0x040 && !(2 ≤ op % 0x20 && op % 0x20 ≤ 5) && op % 0x20 ≠ 0x15
/-- Writes a register in the outstanding result of an integer instruction. -/
def writeAlu (op : Nat) (f : BitVec 5) (val : Word) : M Unit := do
  result (← destReg f val) (quick := oneCycle op)

/-- The value of a window register range, read at issue. -/
def readRange (a : Nat) : Nat → M (List Word)
  | 0 => pure []
  | n + 1 => do return (← readReg (BitVec.ofNat 5 a)) :: (← readRange (a + 1) n)

/-! ### Immediates -/

/-- The immediate sign-extended to 64 bits, 03 R43. -/
def immWord (f : Slot) : Word := f.imm.signExtend 64
/-- B of an immediate form: Wrap(SExt(imm, 48), w), 06 R92. -/
def immInt (f : Slot) : Int := wrap f.ty.toNat (sext f.imm.toNat 48)
/-- The target of a displacement, 03 R48. -/
def target (pc : Word) (imm : BitVec 48) : Word := (pc &&& ~~~0x3F#64) + imm.signExtend 64

/-! ### Vector and mask registers, 07 R117, R118 -/

def readVec (f : BitVec 5) : M VecReg := do
  needFrame (8 + f.toNat)
  let x ← hartM
  pure (x.regs.v.toList.getD f.toNat 0)
def readMask (n : Nat) : M (BitVec 32) := do
  needFrame 40
  let x ← hartM
  pure (x.regs.k.toList.getD (n % 8) 0)
/-- The register sets of an engine for two threads, 05 R85, the thread that used one last in front; it is the first to lose it. -/
def takeSet (h : HartId) (l : List HartId) : List HartId :=
  if l.contains h then h :: l.filter (· ≠ h) else if l.length < 2 then h :: l else h :: l.drop 1
/-- Marks the thread's vector part as used, 09 R149, and gives it a register set of the vector engine. -/
def useVector : M Unit := do
  modH fun x => { x with vused := true }
  let s ← get
  match s.coreOf s.ir.hart with
  | some c => modS fun s => s.modCore c fun k => { k with vsets := takeSet s.ir.hart k.vsets }
  | none => pure ()

/-! ### Modes -/

/-- PRIV for a thread in user mode; the other harts have no mode (09 R152). -/
def supervisorOnly : M Unit := do
  let x ← hartM
  let h ← me
  guardM (!(isThread h) || x.trap.mode) (trapM PRIV)

end Sys2Proof.Machine
end

