-- ==== Sys2Proof/Machine/Flags.lean ====
section
/-! DEFINITION. Flag computations: FFLAGS (04_number_formats R72, R74), FRM and the rounding mode of an instruction (R65, 03 R47),
and a floating result with its flags. -/

namespace Sys2Proof.Machine

/-- FFLAGS with some flags raised, R74. -/
def orFlags (f : BitVec 32) (n : Flags5) : BitVec 32 := f ||| n.setWidth 32
/-- What a write to FFLAGS leaves: bits 31:5 read as zero (R72). -/
def writeFflags (v : Word) : BitVec 32 := BitVec.ofNat 32 (v.toNat % 32)
/-- What a write to FRM leaves: a code above 4 stores 0 (R65). -/
def writeFrm (v : Word) : BitVec 3 := if 4 < v.toNat % 8 then 0 else BitVec.ofNat 3 (v.toNat % 8)

/-- The rounding code of a slot, with `.dyn` as FRM; a hart without a generator has FRM 0 and no `.sr` (R65). -/
def roundCode (f : Slot) : M Nat := do
  let x ← hartM
  let h ← me
  let c := if f.rm.toNat = 7 then (if isThread h then x.frm.toNat else 0) else f.rm.toNat
  if c = 4 && !(isThread h) then illclass else pure c
/-- The mode of a rounding code with its draw. -/
def modeOf (c u : Nat) : RMode :=
  match c with
  | 1 => .rtz
  | 2 => .rdn
  | 3 => .rup
  | 4 => .sr u
  | _ => .rne
/-- The mode of an instruction that rounds once: under `.sr` it takes exactly one draw (06 R99). -/
def roundMode (f : Slot) : M RMode := do
  let c ← roundCode f
  if c = 4 then return modeOf 4 (← drawU) else return modeOf c 0

/-- The value of a register in a floating type. -/
def fval (ty : Nat) (w : Word) : FVal := (fmtOf ty).read (w.toNat % 2 ^ (fmtOf ty).width)
/-- A floating result as R57 writes it. -/
def putFloat (r : FRes) : Word := BitVec.ofNat 64 r.bits
def boolWord (b : Bool) : Word := if b then 1 else 0

/-! ### Results, 03 R41, 20 R326 -/

/-- What an earlier outstanding result still writes once a later write to the same register has been made, R326. -/
def RegWrite.after (later : RegWrite) (w : RegWrite) : Option RegWrite :=
  match later, w with
  | .x i _, .x j v => if i = j then none else some (.x j v)
  | .g i _, .g j v => if i = j then none else some (.g j v)
  | .vec i _ m, .vec j v n => some (if i = j then .vec j v (n &&& ~~~m) else .vec j v n)
  | .msk i _ m, .msk j v n => some (if i = j then .msk j v (n &&& ~~~m) else .msk j v n)
  | _, w => some w
def Pending.after (later : List RegWrite) (p : Pending) : Pending :=
  { p with writes := later.foldl (fun ws l => ws.filterMap (RegWrite.after l)) p.writes }
/-- A write performed: a register's, a word into a mesh send buffer, a word into ring 1. -/
def State.performWrite (s : State) (h : HartId) (w : RegWrite) : State :=
  let c := (s.coreOf h).getD 0
  match w with
  | .x i v => s.modHart h fun x => x.setX i v
  | .g i v => s.modHart h fun x => { x with regs := { x.regs with g := x.regs.g.setIfInBounds i v } }
  | .vec i v m =>
    let put := fun (x : Hart) => (x.regs.v.toList.getD i 0 &&& ~~~m) ||| (v &&& m)
    s.modHart h fun x => { x with regs := { x.regs with v := x.regs.v.setIfInBounds i (put x) } }
  | .msk i v m =>
    let put := fun (x : Hart) => (x.regs.k.toList.getD i 0 &&& ~~~m) ||| (v &&& m)
    s.modHart h fun x => { x with regs := { x.regs with k := x.regs.k.setIfInBounds i (put x) } }
  | .mesh p v => s.modCore c fun k => { k with meshOut := k.meshOut.setIfInBounds p (k.meshOut.toList.getD p [] ++ [v]) }
  | .cbo t v => s.landWord c 1 t v
/-- A write of zero in place of poisoned data, R194; a vector load has put the zeros in at issue. -/
def RegWrite.zero (w : RegWrite) : RegWrite :=
  match w with
  | .vec i v m => .vec i v m
  | .msk i _ m => .msk i 0 m
  | w => w.withValue 0
/-- A result that has returned is written, with its flags. -/
def State.writeBack (s : State) (h : HartId) (n : Nat) (p : Pending) : State :=
  let ws := if p.poison.isSome then p.writes.map RegWrite.zero else p.writes
  let rest := fun (l : List Pending) => (l.take n).map (Pending.after ws) ++ l.drop (n + 1)
  let s := s.modHart h fun x => { x with outstanding := rest x.outstanding, fflags := orFlags x.fflags p.flags }
  ws.foldl (fun s w => s.performWrite h w) s
/-- The results of the first slot of a pair land before the second moves the window, 03 R39, 06 R106. -/
def State.landResults (h : HartId) : Nat → State → State
  | 0, s => s
  | n + 1, s => match (s.hart h).outstanding with
    | [] => s
    | p :: _ => State.landResults h n (s.writeBack h 0 p)
/-- The one-cycle results of a hart are written before it issues again. -/
def State.landQuick (h : HartId) : Nat → State → State
  | 0, s => s
  | n + 1, s => match (s.hart h).outstanding.findIdx? (·.quick) with
    | none => s
    | some i => match (s.hart h).outstanding[i]? with
      | none => s
      | some p => State.landQuick h n (s.writeBack h i p)
def landPair : M Unit := do
  let i ← getI
  if i.second then modS fun s => s.landResults i.hart (s.hart i.hart).outstanding.length else pure ()

end Sys2Proof.Machine
end

