-- ==== Sys2Proof/Machine/Access.lean ====
section
/-! DEFINITION. Accesses to memory: the checks of 11_memory_instructions R175, the on-chip window (10_memories R168, R171), revisions
(13_revisions R220, R223), L1 and the write-through buffer (10 R165, 20_order_agent_core R330), releases and acquires (11 R189,
21_order_cores_dies R342), and the store-fault records (11 R190, R191). -/

namespace Sys2Proof.Machine

/-! ### Statuses -/

/-- Notes a status of the issuing hart. -/
def noteAccess (kind : Nat) (e : Word) (status : Nat) : M Unit := do
  let x ← hartM
  modS fun s => s.addAccess s.ir.hart { kind := kind, addr := e, pc := x.pc, status := status }

/-! ### Checks 1 to 4 of R175 -/

/-- The paths a hart may use, R181; the two PRIV and ACCESS cases of path 6 (09 R152). -/
def pathAllowed (e : Word) : M Unit := do
  let h ← me
  let x ← hartM
  let p := pathOf e
  match h with
  | .ctx _ _ | .handler _ _ => if p = 6 && !x.trap.mode then trapM PRIV else pure ()
  | .tsc d _ => if p = 6 && (inAperture e || e.toNat / 2 ^ 40 % 4 = d % 4) then pure () else trapM ACCESS e
  | _ => if p ≤ 3 then pure () else trapM ACCESS e

/-- Path, layout, alignment, lease. `own` is the path field, where the instruction has one. -/
def checkAccess (own : Option Nat) (e : Word) (n align : Nat) (r w : Bool) : M Unit := do
  pathAllowed e
  match own with
  | some p => if p ≠ pathOf e then trapM ACCESS e
  | none => pure ()
  if !layoutOk e n then trapM ACCESS e
  if e.toNat % align ≠ 0 then trapM ACCESS e
  let p := pathOf e
  if p = 0 || p = 1 || p = 2 || p = 4 then do
    let x ← hartM
    let s ← get
    if !s.leased x (generalVa e) (if p = 4 then 2 else n) r w then endM LEASE
  else pure ()

/-! ### Loads of main memory -/

/-- Overlays buffered stores, the newest last, R330. -/
def overlay (buf : List BufStore) (r pa : Nat) (d : List Byte) : List Byte :=
  buf.foldl (fun d b => if b.rev = r then b.cells.foldl (fun d c => if pa ≤ c.1 then d.set (c.1 - pa) c.2 else d) d else d) d
/-- One line through L1: a hit, or a fill that evicts the oldest line of a full cache (log entry 7). The line filled takes in the core's
buffered stores, so that no later load of the core goes back behind them (R173). -/
def State.l1Line (s : State) (c : CoreKey) (j : Option Nat) (r line : Nat) (ro : Bool) : State × List Byte :=
  match (s.core c).l1.find? (fun l => l.line == line && l.rev == r) with
  | some l => (s, l.data)
  | none =>
    let d := s.homeBytes j r (64 * line) 64
    let s := s.modCore c fun k =>
      let l := if Config.l1Lines ≤ k.l1.length then k.l1.drop 1 else k.l1
      { k with l1 := l ++ [{ line := line, data := overlay k.wbuf r (64 * line) d, ro := ro, rev := r }] }
    ((s.cacheLine line false).countCore c 0 0x06, d)
def State.l1Bytes (s : State) (c : CoreKey) (j : Option Nat) (r : Nat) (ro : Bool) : List Nat → State × List Byte
  | [] => (s, [])
  | l :: ls =>
    let p := s.l1Line c j r l ro
    let q := p.1.l1Bytes c j r ro ls
    (q.1, p.2 ++ q.2)
/-- Page counting of a remote access, 17 R303; the state of the page's migration follows. -/
def State.touchPage (s : State) (h : HartId) (pa : Nat) : State :=
  let d := homeOf pa
  let q := dieOfHart h
  if d = q then s else
  let w := (s.metaWord pa 0).toNat
  let last := w / 2 ^ 22 % 2 ^ 10
  let count := if last = q then min 255 (w / 2 ^ 32 % 256 + 1) else 1
  let thr := (s.ctlGet d 0x150).toNat % 256
  let keep := w - w / 2 ^ 32 % 256 * 2 ^ 32 - last * 2 ^ 22 + q * 2 ^ 22
  if s.metaAddr pa = 32 * (pa / 2 ^ 16 % 2 ^ 23) && (s.ctlGet d 0x140) = 0 then s
  else if thr ≠ 0 ∧ thr ≤ count ∧ !w.testBit 59 ∧ !w.testBit 60 ∧ !w.testBit 62 ∧ !w.testBit 63 ∧ (s.metaWord pa 1).toNat % 2 ^ 56 ≠ 0 then
    if s.ctlGet q 0x158 = 0 then s.putMeta pa 0 (BitVec.ofNat 64 keep)
    else (s.putMeta pa 0 (BitVec.ofNat 64 (keep + count * 2 ^ 32 + 2 ^ 60))).modDie d fun x => { x with moving := x.moving ++ [(pa / 2 ^ 16, q)] }
  else s.putMeta pa 0 (BitVec.ofNat 64 (keep + count * 2 ^ 32))
/-- Waits while the page's migration lock is set, R174, and while the home's port drops the packets of the owner (02 R31). -/
def unlocked (pa : Nat) : M Unit := do
  let s ← get
  let h := s.ir.hart
  if (s.metaWord pa 0).getLsbD 60 || !s.keyPasses (dieOfHart h) (homeOf pa) (s.hart h).origin.owner then stall else pure ()
/-- Waits for the hart's own atomics under way on the same bytes: a later access sees them (R173). -/
def settled (pa n : Nat) : M Unit := do
  let s ← get
  let h := s.ir.hart
  if (s.die (dieOfHart h)).asked.any (fun r => r.hart == h && r.pa < pa + n && pa < r.pa + typeWidth r.ty / 8) then stall else pure ()

/-- A migratory thread's general-path access whose home quad is not its own asks to move there, 02_machine R24; it is served remotely
when it may not move, or when the home quad has refused it. The accesses of paths 0, 1, 2 and 4 move it (DEDUCED, log entry 26: R29 names
only path 0 General, and all four reach general-path memory). Its stack frames below the window are in memory first. -/
def migrateFor (pa : Nat) : M Unit := do
  let x ← hartM
  let h ← me
  let s ← get
  let stays := !x.migratory || homeQuad pa == s.quadOf h || x.trap.trapped || x.inRegion || x.loops.toList.any (fun l => l.count != 0) ||
    x.lock.isSome || x.sfc != 0 || x.grant == some 3
  if stays then pure ()
  else do
    drained
    if !x.accesses.isEmpty || !x.below.isEmpty then stall
    match s.coreOf h with
    | some c => if (s.core c).wbuf.any (fun b => b.hart == h) then stall
    | none => pure ()
    stallWith fun s => (s.send (dieOfHart h) (homeOf pa) 4 (.migrate h (homeQuad pa)) x.origin.owner).modHart h fun y => { y with wait := some .request }

/-- A load of main memory by the issuing hart: its bytes and whether they are poisoned; a status other than DONE gives zeros. -/
def loadMain (path : Nat) (e : Word) (va n : Nat) : M (List Byte × Bool) := do
  let pa ← translateM va 0
  unlocked pa
  migrateFor pa
  settled pa n
  let s ← get
  let h := s.ir.hart
  let x ← hartM
  modS fun s => s.touchPage h pa
  let j := s.regionFor h va
  let far := x.revid ≠ 0 && j.isSome && homeOf pa / 4 ≠ dieOfHart h / 4
  if far && isCtx h then trapM ACCESS e
  let st := if far then 1 else s.homeStatus h pa n false
  if st ≠ 0 then do
    noteAccess 1 e st
    pure (List.replicate n 0, false)
  else do
    let r := if j.isSome then x.revid else 0
    let bad := s.isPoisoned pa n
    match s.coreOf h with
    | none => pure (s.homeBytes j r pa n, bad)
    | some c =>
      if path = 1 then do
        modS fun s => (linesOf pa n).foldl (fun s l => s.cacheLine l false) s
        pure (overlay (s.core c).wbuf r pa (s.homeBytes j r pa n), bad)
      else do
        let p := s.l1Bytes c j r (path = 2) (linesOf pa n)
        modS fun s => (s.l1Bytes c j r (path = 2) (linesOf pa n)).1
        let d := sliceBytes p.2 (pa % 64) n
        pure (if path = 2 then d else overlay (s.core c).wbuf r pa d, bad)

/-! ### Stores to main memory -/

/-- Stores in the write-through buffer whose cells overlap some bytes. -/
def overlapsCells (b : BufStore) (pa n : Nat) : Bool := b.cells.any (fun c => pa ≤ c.1 && c.1 < pa + n)
/-- Notes the virtual line of a line that a hart asks about. -/
def State.noteVa (s : State) (h : HartId) (va pa line : Nat) : State :=
  match s.regionFor h va with
  | none => s
  | some j => s.noteLine j line (va / 64 + (line - pa / 64))
/-- The answer of R223 for the lines of a store: waits for it, or traps when it was refused. A line is known from the write filter, or from an
answer to this same instruction. -/
def askFirst (va pa n : Nat) : M Unit := do
  let s ← get
  let h := s.ir.hart
  let x ← hartM
  match s.regionFor h va with
  | none => pure ()
  | some _ =>
    if isCtx h && x.revid ≠ 0 && homeOf pa / 4 ≠ dieOfHart h / 4 then trapM ACCESS (BitVec.ofNat 64 va)
    match x.refused with
    | some v => trapM 0x0D v
    | none => pure ()
    match (linesOf pa n).find? (fun l => !(x.filter.contains l || x.answered.contains l)) with
    | none => pure ()
    | some l =>
      if isCtx h then
        stallWith fun s => (s.noteVa h va pa l).modHart h fun y => { y with wait := some (.firstWrite l) }
      else pure ()
/-- Groups cells by line, in the order of the cells, each group at the address of its first. -/
def groupLines : List (Word × List Host.Cell) → List (Word × List Host.Cell)
  | [] => []
  | (e, []) :: r => (e, []) :: groupLines r
  | (e, c :: g) :: r => match groupLines r with
    | (e2, d :: g2) :: gs => if d.1 / 64 = c.1 / 64 then (e, c :: g ++ d :: g2) :: gs else (e, c :: g) :: (e2, d :: g2) :: gs
    | gs => (e, c :: g) :: gs
/-- Enters stores into the write-through buffer, as those of the instruction at a PC; L1 follows (R178). A hart without a core performs at once. -/
def enterStores (path kind vec : Nat) (groups : List (Word × List Host.Cell)) (pc? : Option Word := none) : M Unit := do
  let s ← get
  let h := s.ir.hart
  let x ← hartM
  let pc := pc?.getD x.pc
  let rev := fun (e : Word) => if (s.regionFor h (generalVa e)).isSome then x.revid else 0
  match s.coreOf h with
  | none =>
    let put := fun (s : State) (g : Word × List Host.Cell) =>
      let r := s.performCells (dieOfHart h) false x.origin.job x.origin.owner (rev g.1) (generalVa g.1) g.2
      if r.2 = 0 then r.1 else r.1.addAccess h { kind := kind, addr := g.1, pc := pc, status := r.2 }
    modS fun s => groups.foldl put s
  | some c =>
    let room := Config.writeBufferSize - (s.core c).wbuf.length
    if groups.length ≤ room || (Config.writeBufferSize < groups.length && (s.core c).wbuf.isEmpty) then
      let mk := fun (g : Word × List Host.Cell) =>
        ({ hart := h, pc := pc, kind := kind, va := g.1, cells := g.2, rev := rev g.1, stream := path == 1, vec := vec, job := x.origin.job
           owner := x.origin.owner, launch := x.origin.launch, elem := x.elemWord (s.lcoreFor h) } : BufStore)
      let put := fun (l : L1Line) (d : List Byte) (c : Host.Cell) => if c.1 / 64 = l.line then d.set (c.1 % 64) c.2 else d
      let upd := fun (l : L1Line) => { l with data := groups.foldl (fun d g => if l.rev = rev g.1 then g.2.foldl (put l) d else d) l.data }
      let hit := fun (l : L1Line) => groups.any fun g => g.2.any fun c => c.1 / 64 == l.line
      modS fun s => s.modCore c fun k =>
        { k with wbuf := k.wbuf ++ groups.map mk, l1 := if path = 1 then k.l1.filter (fun l => !hit l) else k.l1.map upd }
    else stall
/-- A scalar store to main memory. -/
def storeMain (path kind : Nat) (e : Word) (va : Nat) (bs : List Byte) : M Unit := do
  let pa ← translateM va 1
  unlocked pa
  migrateFor pa
  settled pa bs.length
  askFirst va pa bs.length
  let h ← me
  modS fun s => s.touchPage h pa
  enterStores path kind 0 [(e, cellsAt pa bs)]

/-! ### The on-chip window -/

/-- Bytes of status word 0, 09 R160. -/
def statusWord (x : Hart) : Nat :=
  x.fflags.toNat % 32 + x.frm.toNat * 2 ^ 5 + x.live.toNat * 2 ^ 8 + x.depmask.toNat * 2 ^ 24 + (if x.trap.mode then 2 ^ 44 else 0) +
  (if x.trap.pmode then 2 ^ 45 else 0) + (if x.trap.trapped then 2 ^ 46 else 0) + (if x.inRegion then 2 ^ 47 else 0) +
  x.restarts * 2 ^ 48 + (if x.migratory then 2 ^ 50 else 0) + (if x.vused then 2 ^ 51 else 0) + (if x.qused then 2 ^ 52 else 0) +
  x.prio * 2 ^ 53
/-- The doubleword of a context image at an offset, for a live thread (09 R159). -/
def imageWord (x : Hart) (o : Nat) : Word :=
  let l := fun (i : Nat) => x.loops.toList.getD i {}
  if o < 0x80 then x.xreg (o / 8)
  else if o < 0xC0 then x.regs.g.toList.getD ((o - 0x80) / 8) 0
  else if o = 0xC0 then x.pc
  else if o = 0xC8 then x.gen.gseed
  else if o = 0xD0 then x.gen.gctr
  else if o = 0xD8 then BitVec.ofNat 64 (statusWord x)
  else if o = 0xE0 then x.wbase
  else if o = 0xE8 then x.rsbase
  else if o = 0xF0 then x.rslim
  else if o = 0xF8 then x.rpc
  else if o = 0x100 then x.trap.xcause.setWidth 64
  else if o = 0x108 then x.trap.xpc
  else if o = 0x110 then x.trap.xval
  else if 0x118 ≤ o ∧ o < 0x160 then
    let i := (o - 0x118) / 24
    match (o - 0x118) % 24 / 8 with
    | 0 => BitVec.ofNat 64 ((l i).count.toNat + (l i).reload.toNat * 2 ^ 24)
    | 1 => (l i).start
    | _ => (l i).stop
  else if 0x200 ≤ o ∧ o < 0x220 then
    let i := (o - 0x200) / 4
    BitVec.ofNat 64 ((x.regs.k.toList.getD i 0).toNat + (x.regs.k.toList.getD (i + 1) 0).toNat * 2 ^ 32)
  else if 0x220 ≤ o ∧ o < 0x320 then
    let i := (o - 0x220) / 16
    if (o - 0x220) % 16 = 0 then x.gen.cseed.toList.getD i 0 else x.gen.cctr.toList.getD i 0
  else if o = 0x320 then BitVec.ofNat 64 ((List.range 16).foldl (fun n c => n + (x.gen.cmode.toList.getD c 0).toNat * 4 ^ c) 0)
  else if 0x400 ≤ o ∧ o < 0x1400 then
    ((x.regs.v.toList.getD ((o - 0x400) / 128) 0).extractLsb' ((o - 0x400) % 128 * 8) 64)
  else if 0x1400 ≤ o ∧ o < 0x3500 then
    let q := x.regs.q.toList.getD ((o - 0x1400) / 0x210) {}
    let k := (o - 0x1400) % 0x210
    if k = 0 then BitVec.ofNat 64 (q.cls.toNat + q.len.toNat * 2 ^ 16 + (if q.bipolar then 2 ^ 18 else 0))
    else if k < 0x208 then q.bits.extractLsb' ((k - 8) * 8) 64 else 0
  else 0

/-! ### The context cache, 05_registers R85 to R89 -/

/-- The frames of a thread's context, which refill on demand (R85). -/
def framesOf (x : Hart) : List Nat :=
  List.range 6 ++ (if x.vused then List.range' 8 33 else []) ++ (if x.qused then List.range' 48 16 else [])
/-- The offsets of the image's doublewords that hold a frame. -/
def frameWords (n : Nat) : List Nat :=
  let run := fun (a k : Nat) => (List.range' a k).map (8 * ·)
  if n < 6 then run (4 * n) 4 else if n < 8 then [] else if n < 40 then run (0x80 + 16 * (n - 8)) 16
  else if n = 40 then run 0x40 4 else if n < 48 then [] else run (0x280 + 66 * (n - 48)) 66
/-- The frame that a doubleword of the image belongs to; 7, which is none, for those that are always in the cache. -/
def frameOf (o : Nat) : Nat :=
  if o < 0xC0 then o / 32 else if o < 0x200 then 7 else if o < 0x220 then 40 else if o < 0x400 then 7
  else if o < 0x1400 then 8 + (o - 0x400) / 128 else if o < 0x3500 then 48 + (o - 0x1400) / 0x210 else 7
/-- The window registers of a frame. -/
def frameMask (n : Nat) : BitVec 16 := if n < 4 then 0xF#16 <<< (4 * n) else 0
/-- A thread without a frame in the cache: a window register outside LIVE is lost (R87). -/
def Hart.without (x : Hart) (n : Nat) : Hart :=
  { x with absent := n :: x.absent, left := (x.left &&& ~~~(frameMask n)) ||| (~~~x.live &&& frameMask n)
           regs := { x.regs with x := windowOf fun i => if i / 4 ≠ n || x.live.getLsbD i then x.xreg i else 0 } }
/-- A restored thread: all its frames refill on demand (09 R163). -/
def Hart.outOfCache (x : Hart) : Hart := { x with absent := framesOf x, left := ~~~x.live }
/-- Whether the SSU or its queue holds a command of a hart. -/
def State.ssuBusy (s : State) (h : HartId) : Bool :=
  match s.coreOf h with
  | some c => ((s.core c).ssu ++ (s.core c).cmdSsu).any (fun q => q.hart == h)
  | none => false
/-- The frame that a register write goes to; 7 is none. -/
def RegWrite.frame : RegWrite → Nat
  | .x i _ => i / 4
  | .g i _ => 4 + i / 4
  | .vec i _ _ => 8 + i
  | .msk _ _ _ => 40
  | _ => 7
/-- Whether a result is on its way to a frame, which then stays in the cache (log entry 32). -/
def State.pinned (s : State) (h : HartId) (n : Nat) : Bool :=
  (s.hart h).outstanding.any (fun p => p.writes.any fun w => w.frame == n) || (48 ≤ n && s.ssuBusy h)
/-- A frame of the context leaves the context cache: it is written back to the image, of a window frame only the registers of LIVE (R87). -/
def State.writeBackFrame (s : State) (h : HartId) (n : Nat) : State :=
  let x := s.hart h
  if !isThread h || (s.hart? h).isNone || x.phase ≠ .active || x.absent.contains n || !(framesOf x).contains n || s.pinned h n then s
  else if s.imageLost h true then s.endThread h CONTEXTLOST 0
  else
    let put := fun (s : State) (o : Nat) => s.putWord (s.imageBase h + o) (imageWord x o)
    (((frameWords n).filter fun o => 0x80 ≤ o || x.live.getLsbD (o / 8)).foldl put s).setHart h (x.without n)
/-- The 32-byte frames of a frame of the context. -/
def frameWeight (n : Nat) : Nat := if n < 6 || n = 40 then 1 else if n < 40 then 4 else 17
/-- The 32-byte frames of a core's context cache that hold state, of 2,048: two of each scalar image are not frames of registers. -/
def State.cacheUse (s : State) (c : CoreKey) : Nat :=
  ((s.harts.filter fun p => isThread p.1 && p.2.phase == .active && s.coreOf p.1 == some c).map fun p =>
    2 + (((framesOf p.2).filter fun n => !p.2.absent.contains n).map frameWeight).sum + (distinct (p.2.below.map fun w => w.1 / 32)).length).sum
/-- Whether the cache of a core may take this frame next, R85: frames below a window go first, then those of threads that are not ready. -/
def State.mayEvict (s : State) (h : HartId) : Bool :=
  match s.coreOf h with
  | none => false
  | some c =>
    let mine := s.harts.filter fun p => isThread p.1 && p.2.phase == .active && s.coreOf p.1 == some c
    let ready := fun (x : Hart) => x.wait.isNone && (!x.parked || x.outstanding.isEmpty)
    mine.all (fun p => p.2.below.isEmpty) &&
      (!ready (s.hart h) || mine.all fun p => ready p.2 || (framesOf p.2).all fun n => p.2.absent.contains n || s.pinned p.1 n)
/-- The context cache evicts a frame: of the context, or one of the register stack below the window (number 64 and up). -/
def State.evictFrame (s : State) (h : HartId) (n : Nat) : State :=
  if n < 64 then (if s.mayEvict h then s.writeBackFrame h n else s)
  else match (s.hart h).below with
    | [] => s
    | (a, _) :: _ => match s.spill h (a / 32) with
      | .done t => t
      | .wait t => t
      | .lease => s.endThread h LEASE 0
      | .lost => s.endThread h CONTEXTLOST 0
/-- A thread that waits on an empty cell is suspended, its window written back (R87). -/
def State.suspend (s : State) (h : HartId) (w : Wait) : State :=
  ([0, 1, 2, 3].foldl (fun s n => s.writeBackFrame h n) s).modHart h fun x => { x with wait := some w }
/-- A stream register in the form of 08_stream_registers R146. -/
def State.streamAt (s : State) (a : Nat) : Stream :=
  let h := (s.word a).toNat
  { bits := BitVec.ofNat 4096 (leNat (s.bytes (a + 8) 512)), cls := BitVec.ofNat 16 h, len := BitVec.ofNat 2 (h / 2 ^ 16), bipolar := h.testBit 18 }
/-- The registers of a thread with a frame as its image holds it. -/
def State.frameRegs (s : State) (h : HartId) (x : Hart) (n : Nat) : Regs :=
  let b := s.imageBase h
  let r := x.regs
  if n < 4 then { r with x := windowOf fun i => if i / 4 ≠ n then x.xreg i else if x.left.getLsbD i then 0 else s.word (b + 8 * i) }
  else if n < 6 then { r with g := Vector.ofFn fun (i : Fin 8) => if i.val / 4 + 4 = n then s.word (b + 0x80 + 8 * i.val) else r.g[i] }
  else if n < 40 then { r with v := r.v.setIfInBounds (n - 8) (BitVec.ofNat 1024 (leNat (s.bytes (b + 0x400 + 128 * (n - 8)) 128))) }
  else if n = 40 then { r with k := Vector.ofFn fun (i : Fin 8) => BitVec.ofNat 32 (s.num (b + 0x200 + 4 * i.val) 4) }
  else { r with q := r.q.setIfInBounds (n - 48) (s.streamAt (b + 0x1400 + 0x210 * (n - 48))) }
/-- Whether a frame reads back with an uncorrectable error; a register that LIVE left out is not read (09 R161). -/
def State.frameLost (s : State) (h : HartId) (x : Hart) (n : Nat) : Bool :=
  ((frameWords n).filter fun o => 0x80 ≤ o || !x.left.getLsbD (o / 8)).any fun o => s.isPoisoned (s.imageBase h + o) 8
/-- What a refill of a stack frame meets: the words below the window, R83. -/
def State.refillStack (s : State) (h : HartId) (frame : Nat) : Spilled :=
  let x := s.hart h
  let q := s.quadOf h
  let words := ((List.range 4).map fun i => 32 * frame + 8 * i).filter fun a => decide (a + 8 ≤ x.wbase.toNat) && (lookup? a x.below).isNone
  if !words.all (fun a => s.leased x a 8 true false) then .lease
  else match s.translate q false x.origin.space (32 * frame) 0 with
    | .miss => .wait (s.missFor h q false x.origin.space (32 * frame) 0)
    | .noRight => .lost
    | .ok pa =>
      if (s.metaWord pa 0).getLsbD 60 then .wait s
      else if words.any (fun a => s.isPoisoned (pa / 32 * 32 + a % 32) 8) then .lost
      else
        let j := s.regionFor h (32 * frame)
        let get := fun (a : Nat) =>
          let b := pa / 32 * 32 + a % 32
          (a, if s.homeStatus h b 8 false = 0 then BitVec.ofNat 64 (leNat (s.homeBytes j (if j.isSome then x.revid else 0) b 8)) else 0)
        .done (s.modHart h fun y => { y with
          below := y.below ++ words.map get
          wait := if y.wait = some (.frame (64 + frame)) then none else y.wait })
/-- A frame comes back into the cache. -/
def State.refill (s : State) (h : HartId) (n : Nat) : State :=
  s.modHart h fun x => { x with
    regs := s.frameRegs h x n, absent := x.absent.filter (· ≠ n), left := x.left &&& ~~~(frameMask n)
    wait := if x.wait = some (.frame n) then none else x.wait }
/-- A word lands in a window register, or in the image where the register is not in the cache (R89, 10 R171). -/
def State.landInWindow (s : State) (h : HartId) (i : Nat) (v : Word) : State :=
  let x := s.hart h
  if x.phase = .preempted then s.putWord (s.imageBase h + 8 * i) v
  else if x.absent.contains (i / 4) then
    (s.putWord (s.imageBase h + 8 * i) v).modHart h fun y => { y.setX i v with left := y.left &&& ~~~(1#16 <<< i) }
  else s.modHart h fun y => y.setX i v

/-- A load through the window: its bytes as a number, 10 R168, R171, R172. -/
def State.winLoad (s : State) (pkg : Nat) (e n : Nat) : Nat :=
  let c := winCore pkg e
  let o := winOff e
  match winRegion e with
  | 1 =>
    let slot := o / 0x4000
    let k := o % 0x4000
    match s.hart? (.ctx c slot) with
    | some x => if x.phase = .preempted then s.num (s.ctxImage c slot + k) n
                else (imageWord x (k / 8 * 8)).toNat / 2 ^ (8 * (k % 8)) % 2 ^ (8 * n)
    | none => s.num (s.ctxImage c slot + k) n
  | 4 => (Sparse.get 0 (s.quad (quadOfCore c)).acc
      (o / 0x20000 * 65536 + o % 0x20000 / 0x200 * 256 + 64 * posOfCore c + o % 0x200 / 8)).toNat
  | _ => s.num (windowKey pkg e) n
/-- Whether bytes of the window are poisoned in their memory (29 R381). -/
def State.winPoisoned (s : State) (pkg : Nat) (e n : Nat) : Bool :=
  let c := winCore pkg e
  let slot := winOff e / 0x4000
  match winRegion e with
  | 1 => ((s.hart? (.ctx c slot)).isNone || (s.hart (.ctx c slot)).phase == .preempted) &&
      s.isPoisoned (s.ctxImage c slot + winOff e % 0x4000) n
  | 4 => false
  | _ => s.isPoisoned (windowKey pkg e) n
/-- Waits while the port of the die that a window address names drops the packets of the hart's owner (02 R31). -/
def winReach (e : Word) : M Unit := do
  let s ← get
  let h := s.ir.hart
  if s.keyPasses (dieOfHart h) (4 * (dieOfHart h / 4) + e.toNat / 2 ^ 48 % 4) (s.hart h).origin.owner then pure () else stall
/-- Bytes j to j + n − 1 of a word replaced. -/
def spliceWord (w : Word) (j n v : Nat) : Word :=
  BitVec.ofNat 64 (w.toNat % 2 ^ (8 * j) + v % 2 ^ (8 * n) * 2 ^ (8 * j) + w.toNat / 2 ^ (8 * (j + n)) * 2 ^ (8 * (j + n)))
/-- Whether a companion of a core runs. -/
def State.running (s : State) (h : HartId) : Bool :=
  match s.hart? h with
  | some x => x.phase == .active
  | none => false
/-- A store through the window: the state, or a status (R53, R171). -/
def State.winStore (s : State) (pkg : Nat) (e n v : Nat) : State × Nat :=
  let c := winCore pkg e
  let o := winOff e
  match winRegion e with
  | 1 =>
    let slot := o / 0x4000
    let k := o % 0x4000
    match s.hart? (.ctx c slot) with
    | some x =>
      if k < 0x80 && x.phase ≠ .preempted then (s.landInWindow (.ctx c slot) (k / 8) (spliceWord (x.xreg (k / 8)) (k % 8) n v), 0)
      else if x.phase = .preempted then (s.putNum (s.ctxImage c slot + k) n v, 0) else (s, 1)
    | none => (s.putNum (s.ctxImage c slot + k) n v, 0)
  | 2 => if s.running (.loader c) then (s, 1) else ((s.putNum (windowKey pkg e) n v).modCore c fun k => { k with ldDirty := true }, 0)
  | 3 => if s.running (.storer c) then (s, 1) else ((s.putNum (windowKey pkg e) n v).modCore c fun k => { k with stDirty := true }, 0)
  | 4 =>
    let k := o / 0x20000 * 65536 + o % 0x20000 / 0x200 * 256 + 64 * posOfCore c + o % 0x200 / 8
    (s.modQuad (quadOfCore c) fun q => { q with acc := Sparse.put 0 k (BitVec.ofNat 64 v) q.acc }, 0)
  | _ => (s.putNum (windowKey pkg e) n v, 0)
/-- A store of an owner from a die, refused where another owner's access table gives it no window. -/
def State.winStoreBy (s : State) (src : DieKey) (who e n v : Nat) : State × Nat :=
  let st := s.winStatus src who e n true
  if st = 0 then s.winStore (src / 4) e n v else (s, st)
/-- The same for a hart, whose core's L1 gives up the line of an image that it changes (R173). -/
def State.winStoreFor (s : State) (h : HartId) (e n v : Nat) : State × Nat :=
  let r := s.winStoreBy (dieOfHart h) (s.hart h).origin.owner e n v
  match winRegion e, s.coreOf h with
  | 1, some c =>
    let line := (r.1.ctxImage (winCore (dieOfHart h / 4) e) (winOff e / 0x4000) + winOff e % 0x4000) / 64
    (r.1.modCore c fun k => { k with l1 := k.l1.filter fun l => l.line != line }, r.2)
  | _, _ => r
/-- The status of a hart's load from the on-chip window. -/
def State.winLoadStatus (s : State) (h : HartId) (e n : Nat) : Nat :=
  s.winStatus (dieOfHart h) (s.hart h).origin.owner e n false

/-! ### Spans of bytes, 15_task_message_instructions R257, R264 -/

/-- Whether n bytes from an address lie in what paths 0, 1 and 3 reach. -/
def spanOk (e : Word) (n : Nat) : Bool :=
  match pathOf e with
  | 0 | 1 => e.toNat / 2 ^ 57 % 8 == 0 && e.toNat % 2 ^ 57 + n ≤ 2 ^ 57
  | 3 => layoutOk e 1 && winRegion e.toNat != 4 && winOff e.toNat + n ≤ winSize (winRegion e.toNat)
  | _ => false
/-- Checks 1 to 4 of R175 over a whole span whose address is a multiple of 8. -/
def checkSpan (e : Word) (n : Nat) (r w : Bool) : M Unit := do
  pathAllowed e
  if !spanOk e n || e.toNat % 8 ≠ 0 then trapM ACCESS e
  if pathOf e ≠ 3 then do
    let x ← hartM
    let s ← get
    if !s.leased x (generalVa e) n r w then endM LEASE
/-- A span cut at 64-byte lines: offsets and lengths. -/
def linePieces (va n : Nat) : List (Nat × Nat) :=
  (linesOf va n).map fun l => (max va (64 * l) - va, min (va + n) (64 * l + 64) - max va (64 * l))
/-- A span cut at 64 KiB pages: offsets and lengths. -/
def pagePieces (va : Nat) : Nat → Nat → Nat → List (Nat × Nat)
  | 0, _, _ => []
  | fuel + 1, o, n =>
    if n = 0 then [] else
    let k := min n (65536 - (va + o) % 65536)
    (o, k) :: pagePieces va fuel (o + k) (n - k)
/-- Reads the pieces of a span; none when one has a status other than DONE, whose record is then on its way. -/
def loadPieces (path : Nat) (e : Word) : List (Nat × Nat) → M (Option (List Byte))
  | [] => pure (some [])
  | (o, k) :: r => do
    let n := (← hartM).accesses.length
    let p ← loadMain path e (generalVa e + o) k
    if p.2 then noteAccess 1 (e + BitVec.ofNat 64 o) 5
    let failed := decide (n < (← hartM).accesses.length)
    match ← loadPieces path e r with
    | some bs => pure (if failed then none else some (p.1 ++ bs))
    | none => pure none
/-- Reads a checked span. -/
def loadSpan (e : Word) (n : Nat) : M (Option (List Byte)) := do
  if pathOf e = 3 then do
    winReach e
    let s ← get
    let st := s.winLoadStatus s.ir.hart e.toNat n
    if st ≠ 0 then do
      noteAccess 1 e st
      pure none
    else pure (some ((List.range n).map fun i => BitVec.ofNat 8 (s.winLoad (dieOfHart s.ir.hart / 4) (e.toNat + i) 1)))
  else loadPieces (pathOf e) e (pagePieces (generalVa e) 9 0 n)
/-- The cells that a span of general memory stores. -/
def spanCells (e : Word) (bs : List Byte) : List (Nat × Nat) → M (List Host.Cell)
  | [] => pure []
  | (o, k) :: r => do
    let pa ← translateM (generalVa e + o) 1
    unlocked pa
    settled pa k
    askFirst (generalVa e + o) pa k
    let h ← me
    modS fun s => s.touchPage h pa
    return cellsAt pa ((bs.drop o).take k) ++ (← spanCells e bs r)
/-- Stores a checked span. -/
def storeSpan (e : Word) (bs : List Byte) : M Unit := do
  if pathOf e = 3 then do
    winReach e
    let s ← get
    let put := fun (p : State × Nat × Nat) (b : Byte) =>
      let r := p.1.winStoreFor s.ir.hart (e.toNat + p.2.2) 1 b.toNat
      (r.1, max p.2.1 r.2, p.2.2 + 1)
    let q := bs.foldl put (s, 0, 0)
    modS fun _ => q.1
    if q.2.1 ≠ 0 then noteAccess 0 e q.2.1
  else do
    let cells ← spanCells e bs (pagePieces (generalVa e) 9 0 bs.length)
    enterStores (pathOf e) 0 0 (groupLines (cells.zipIdx.map fun c => (e + BitVec.ofNat 64 c.2, [c.1])))

end Sys2Proof.Machine
end

