-- ==== Sys2Proof/Machine/Poison.lean ====
section
/-! DEFINITION. What consuming an uncorrectable error does (11_memory_instructions R193, R194). -/

namespace Sys2Proof.Machine

/-- The unit of XCAUSE for a poisoned datum of a load, 09_traps_contexts R150: vector memory, or memory. -/
def Pending.unit (p : Pending) : Nat := if p.writes.any (fun w => match w with | .vec .. => true | _ => false) then 1 else 3
/-- The restart of an idempotent region, R193; the command that the SSU is executing goes on, and the thread's held speculative packets are
dropped and counted (15 R262). -/
def State.restartRegion (s : State) (h : HartId) : State :=
  let s := match s.coreOf h with
    | some c =>
      let held := ((s.core c).hold.filter (fun (p : HartId × Packet) => p.1 == h)).length
      let s := (s.modCore c fun k => { k with cmdSsu := k.cmdSsu.filter (fun q => q.hart ≠ h), hold := k.hold.filter (fun (p : HartId × Packet) => p.1 ≠ h) }).countCore c
        (slotOf h) 0x0B
      if held = 0 then s else s.countDie (dieOfHart h) 0x44 held
    | none => s
  (s.dropResults h).modHart h fun x =>
    { x with restarts := x.restarts + 1, pc := x.rpc, wait := none, parked := false, grant := none, pendingTrap := none
             answered := [], refused := none }
/-- A pipeline check fails at an instruction of a hart, 09 R154: a region consumes it (R193), otherwise it traps. -/
def State.pipeError (s : State) (h : HartId) (unit : Nat) (second : Bool) : State :=
  let x := s.hart h
  if x.inRegion && isThread h then
    if decide (x.restarts < Config.maxRestarts) then s.restartRegion h
    else s.takeTrap h { cause := 0x0F, xval := 0, pc := x.pc, second := second, unit := unit }
  else s.takeTrap h { cause := 0x07, xval := 0, pc := x.pc, second := second, unit := unit }
/-- A trap that consumption raises: it waits for the outstanding results; a deferred trap already waiting comes first. -/
def State.poisonTrap (s : State) (h : HartId) (t : TrapReq) : State :=
  s.modHart h fun x =>
    match x.pendingTrap with
    | some u => if u.precise then { x with pendingTrap := some t, wait := none } else x
    | none => { x with pendingTrap := some t, wait := none }
/-- A thread consumes an uncorrectable error at an address. -/
def State.consume (s : State) (h : HartId) (addr : Word) (inRegion : Bool) (unit : Nat) (second : Bool := false) : State :=
  let x := s.hart h
  if inRegion && decide (x.restarts < Config.maxRestarts) then s.restartRegion h
  else s.poisonTrap h { cause := 0x0F, xval := addr, pc := x.pc, second := second, unit := unit }

end Sys2Proof.Machine
end

