-- ==== Sys2Proof/Machine/Fetch.lean ====
section
/-! DEFINITION. Fetching a line and issuing an instruction or a pair (03_instruction_lines R33 to R54), and where a program is placed for
the next step. -/

namespace Sys2Proof.Machine

abbrev Out := Host.Outcome State Fault Refusal

/-- The pairs of a template, R37: whether slot i is the first of a pair. -/
def pairFirst (template i : Nat) : Bool :=
  match template with
  | 1 => i == 0
  | 2 => i == 1
  | 3 => i == 2
  | 4 => i == 3
  | 5 => i == 0 || i == 2
  | 6 => i == 0 || i == 3
  | 7 => i == 1 || i == 3
  | _ => false
def templateOf (l : BitVec 512) : Nat := (l.extractLsb' (480 + 23) 4).toNat

/-- Whether a thread may issue: it is active, waits for nothing, and, once parked at a marker, has no outstanding result (R41). -/
def Hart.runnable (x : Hart) : Bool :=
  x.phase == .active && x.wait.isNone && (!x.parked || x.outstanding.isEmpty)

/-- A trap found before an instruction issues. -/
def State.fetchTrap (s : State) (h : HartId) (cause : Nat) (v : Word) : Out :=
  .next (s.takeTrap h { cause := cause, xval := v, pc := (s.hart h).pc, second := false, unit := 0 })

/-- Issues one slot. -/
def issueSlot (exec : Instr → State → Out) (s : State) (h : HartId) (w : BitVec 96) (second : Bool) (before : Bool := false) : Out :=
  match decodeSlot w with
  | .ok i f => exec i { s with ir := { hart := h, op := slotOpcode w, slot := f, marker := slotMarker w, second := second, before := before } }
  | .bad n => .refused (.notAnInstruction n)

/-- Issues a pair as one: when the second must wait, neither issues (R39). What a wait of the pair was answered stands for the second
too. -/
def issuePair (exec : Instr → State → Out) (s : State) (h : HartId) (w1 w2 : BitVec 96) : Out :=
  let pc := (s.hart h).pc
  let answers := fun (y : Hart) => { y with grant := (s.hart h).grant, answered := (s.hart h).answered, refused := (s.hart h).refused }
  let before := !(s.hart h).outstanding.isEmpty
  match issueSlot exec s h w1 false with
  | .next s1 =>
    if s1.ir.result = .issued then
      match issueSlot exec (s1.modHart h answers) h w2 true before with
      | .next s2 =>
        if s2.ir.result = .stalled then
          match issueSlot exec (s.modHart h fun x => { x with pc := succPc pc }) h w2 true before with
          | .next s3 => if s3.ir.result = .stalled then .next (s3.modHart h fun x => { x with pc := pc })
            else .next ({ s with ir := s2.ir }.modHart h Hart.stall)
          | o => o
        else .next s2
      | o => o
    else .next s1
  | o => o

/-- A handler that a higher-priority handler of its core has pre-empted, 15 R259. -/
def State.heldBack (s : State) (h : HartId) (x : Hart) : Bool :=
  match h with
  | .handler d _ => s.harts.any fun p => match p.1 with
    | .handler g _ => g == d && p.1 != h && s.coreOf p.1 == s.coreOf h && decide (x.prio < p.2.prio)
    | _ => false
  | _ => false
/-- Whether a hart may issue; a thread whose pre-emption has taken effect does not, but a trap that it has raised is taken first (09 R162). -/
def State.canIssue (s : State) (h : HartId) (x : Hart) : Bool :=
  x.runnable && (!x.stopping || x.pendingTrap.isSome) && (s.die (dieOfHart h)).reset == .up && !(s.pkg (dieOfHart h / 4)).off && !s.heldBack h x

/-- Issues the next instruction or pair of a hart. Its one-cycle results are written first, unless it issues before them (01 R14). -/
def issueHart (exec : Instr → State → Out) (h : HartId) (s : State) (old : Bool := false) : Out :=
  match s.hart? h with
  | none => .next s
  | some x =>
    if !s.canIssue h x then .next s
    else match x.pendingTrap with
    | some t => if x.outstanding.isEmpty then .next (s.enterTrap h t) else .next s
    | none =>
      match s.fetchLine h x.pc with
      | .beyond => s.fetchTrap h BADTARGET x.pc
      | .stall f => .next ((f s).modHart h Hart.stall)
      | .bad => .next ((s.modHart h fun y => { y with badLine := none, fresh := false }).pipeError h 0 false)
      | .noGrant => s.fetchTrap h ACCESS x.pc
      | .line l =>
        let i := x.pc.toNat % 8
        if x.fresh && !(pcOk x.pc && markedIn l x.pc) then (s.modHart h fun y => { y with fresh := false }).fetchTrap h BADTARGET x.pc
        else if l = 0 then s.fetchTrap h BADTARGET x.pc
        else
          let s := if old then s else s.landQuick h x.outstanding.length
          let s := { s.modHart h (fun y => { y with fresh := false, stalled := false, stamp := s.clock + 1 }) with clock := s.clock + 1 }
          if pairFirst (templateOf l) i && (endingLoops x x.pc).isEmpty then issuePair exec s h (slotOfLine l i) (slotOfLine l (i + 1))
          else issueSlot exec s h (slotOfLine l i) false

/-! ### Placing a program -/

/-- The line that holds one instruction in slot 0, marked as a target, with its parities (03 R35, R36). -/
def oneLine (w : BitVec 96) : BitVec 512 :=
  let hi := 2 ^ 27 + (if parityOf w then 2 ^ 18 else 0)
  let word := hi + (if onesCount 32 hi % 2 = 1 then 2 ^ 17 else 0)
  BitVec.ofNat 512 (w.toNat + word * 2 ^ 480)
/-- The state in which the next step fetches and runs one instruction. -/
def placeProgram (s : State) (w : BitVec 96) : State :=
  let h := HartId.ctx 0 0
  let l := oneLine w
  let s := s.putCells (cellsAt 0x400000 (leBytes 64 l.toNat))
  let s := s.putMeta 0x400000 0 (s.metaWord 0x400000 0 ||| (1#64 <<< 63))
  let s := s.modQuad 0 fun q => { q with
    tlb := { vpn := 0x40, space := 0, frame := 0x40, x := true, r := true, w := true } :: q.tlb
    icache := { line := 0x400000 / 64, data := l } :: q.icache }
  let s := s.setHart h { pc := 0x400000 }
  { s with agenda := [.issue h], ir := { hart := h } }

end Sys2Proof.Machine
end

