-- ==== Sys2Proof/Machine/Tables.lean ====
section
/-! DEFINITION. The die control block (10_memories R170): what a load of it returns and what a store does, table by table
(09 R149, 05 R84, 14 R235 R242, 11 R190, 17 R305, 18 R314 to R316, 19 R321 R322, 29 R375 R379), and the table writes that are events. -/

namespace Sys2Proof.Machine

/-- A store that its table discards: recorded as ACCESS in the writer's queue. -/
def State.refuseStore (s : State) (w : Option HartId) (d : DieKey) (off : Nat) : State :=
  match w with
  | some h => s.sfqFor h { kind := 0, addr := BitVec.ofNat 64 (6 * 2 ^ 60 + d % 4 * 2 ^ 40 + off), pc := (s.hart h).pc, status := 1 }
  | none => s

/-- Whether the target mark of a PC is set in the code the die can see: the line in memory at the address the supervisor's space maps
it to, or the address itself as a physical one when no translation is at hand (log entry 6). -/
def State.markAt (s : State) (w : Option HartId) (d : DieKey) (pc : Word) : Bool :=
  let sp := match w with
    | some h => (s.hart h).origin.space
    | none => 0
  let q := match w with
    | some h => s.quadOf h
    | none => 96 * d
  let va := pcLine pc * 64
  let pa := match s.translate q false sp va 2 with
    | .ok pa => pa
    | _ => va % 2 ^ 56
  markedIn (lineNat (s.bytes pa 64)) pc

/-- TENTRY, R149: 0 is always accepted, another value must satisfy R34 and name a marked slot. -/
def State.tentryWrite (s : State) (w : Option HartId) (d : DieKey) (v : Word) : State :=
  if v = 0 || (pcOk v && s.markAt w d v) then s.ctlPut d 0x100 v else s.refuseStore w d 0x100
/-- A core's stack pool, 05 R84: base and stride are multiples of 32, the stride below 2^32. -/
def State.stackPoolWrite (s : State) (w : Option HartId) (d : DieKey) (off : Nat) (v : Word) : State :=
  if v.toNat % 32 = 0 && (off % 16 = 0 || v.toNat < 2 ^ 32) then s.ctlPut d off v else s.refuseStore w d off
/-- Whether a ring is at rest, or disabled (R235). -/
def State.ringIdle (s : State) (c : CoreKey) (r : Nat) : Bool :=
  let g := s.ring c r
  g.cap == 0 || (g.filled == 0 && g.free == g.cap && s.promised c r == 0 && !((s.core c).waiting.any fun w => w.ring == r))
/-- Whether a descriptor breaks R235: past the scratchpad's slots, or over another ring. -/
def State.ringBad (s : State) (c : CoreKey) (r cap base : Nat) : Bool :=
  8192 < base + cap || (List.range 8).any fun i =>
    i != r && (let g := s.ring c i; g.cap != 0 && cap != 0 && base < g.base + g.cap && g.base < base + cap)
def State.ringSet (s : State) (c : CoreKey) (r cap base : Nat) : State :=
  s.setRing c r { cap := cap, base := base, filled := 0, free := cap, head := 0, tail := 0 }
def State.ringDescriptorWrite (s : State) (w : Option HartId) (d : DieKey) (off : Nat) (v : Word) : State :=
  let c := coreAt d ((off - 0x80000) / 0x80)
  let r := off % 0x80 / 0x10
  let cap := v.toNat / 2 ^ 36 % 2 ^ 14
  let base := v.toNat / 2 ^ 6 % 2 ^ 13
  let reserved := v.toNat - cap * 2 ^ 36 - base * 2 ^ 6
  if off % 16 = 0 && s.ringIdle c r && reserved = 0 && !(s.ringBad c r cap base) then s.ringSet c r cap base else s.refuseStore w d off
/-- The store-fault control word, R190: head and count; the overflow only with bit 63. -/
def State.sfqControlWrite (s : State) (d : DieKey) (off : Nat) (v : Word) : State :=
  let old := (s.ctlGet d off).toNat / 2 ^ 16 % 2 ^ 16
  s.ctlPut d off (BitVec.ofNat 64 (v.toNat % 32 + min 32 (v.toNat / 2 ^ 8 % 64) * 2 ^ 8 + (if v.getLsbD 63 then 0 else old) * 2 ^ 16))
/-- The merge-conflict control word, 14 R242. -/
def State.mcqControlWrite (s : State) (d : DieKey) (v : Word) : State :=
  let old := (s.ctlGet d 0x130).toNat / 2 ^ 32 % 2 ^ 16
  s.ctlPut d 0x130 (BitVec.ofNat 64 (v.toNat % 2 ^ 10 + min 1024 (v.toNat / 2 ^ 10 % 2 ^ 11) * 2 ^ 10 + (if v.getLsbD 63 then 0 else old) * 2 ^ 32))
/-- An access-table word, 17 R305: writing a new entry (word 0 valid, not revoked) clears Revoked. -/
def State.accessTableWrite (s : State) (w : Option HartId) (d : DieKey) (off : Nat) (v : Word) : State :=
  let bad := match off % 0x20 with
    | 0 => v.toNat / 2 ^ 56 % 8 != 0
    | 8 => v.toNat / 2 ^ 56 != 0
    | 24 => v != 0
    | _ => v.toNat % 2 ^ 44 != 0
  if bad then s.refuseStore w d off else s.ctlPut d off v
/-- A time-table slot word, 18 R315: the pending bit is the hardware's; clearing Valid clears the pending launch and the count of due
times. -/
def State.timeSlotWrite (s : State) (w : Option HartId) (d : DieKey) (off : Nat) (v : Word) : State :=
  let pend := (s.ctlGet d off).toNat / 2 ^ 61 % 2
  match off % 0x40 with
  | 0 =>
    if v.toNat / 2 ^ 44 % 2 ^ 15 ≠ 0 then s.refuseStore w d off
    else (if v.getLsbD 63 then s else s.modDie d (fun x => { x with
        pendingK := x.pendingK.filter (fun p => p.1 ≠ (off - 0x380000) / 0x40), nextDue := eraseKey ((off - 0x380000) / 0x40) x.nextDue })).ctlPut d off (BitVec.ofNat 64 (v.toNat - v.toNat / 2 ^ 61 % 2 * 2 ^ 61 + (if v.getLsbD 63 then pend else 0) * 2 ^ 61))
  | 24 => if v.toNat / 2 ^ 32 ≠ 0 then s.refuseStore w d off else s.ctlPut d off v
  | _ => s.ctlPut d off v
/-- Whether a merge code is one the hardware refuses, 13 R217, R218. -/
def mergeBad (code : Nat) : Bool :=
  let kind := code / 8
  9 < kind || (code % 2 == 1 && (code / 2 % 4 == 0 || !([2, 3, 4].contains kind)))
/-- A merge-type region table word, 18 R316. -/
def State.mergeTableWrite (s : State) (w : Option HartId) (d : DieKey) (off : Nat) (v : Word) : State :=
  let j := (off - 0x400000) / 0x20000
  let k := (off - 0x400000) % 0x20000
  let key := 8 * (d / 4) + j
  let live := !(s.job key).revs.isEmpty
  let base := jobOff j
  let area := (s.ctlGet d (base + 0x18)).toNat % 2 ^ 32
  if k = 0 then if v.toNat / 2 ^ 32 ≠ 0 || area < 2 * v.toNat then s.refuseStore w d off else s.ctlPut d off v
  else if k = 8 then s.refuseStore w d off
  else if k = 0x10 || k = 0x18 then
    if live || (k = 0x10 && (v.toNat % 2 ^ 16 ≠ 0 || v.toNat / 2 ^ 56 ≠ 0)) then s.refuseStore w d off else s.ctlPut d off v
  else if k < 0x100 || 0x10100 ≤ k then s.refuseStore w d off
  else
    let i := (k - 0x100) / 16
    let w0 := if k % 16 = 0 then v.toNat else (s.ctlGet d (base + 0x100 + 16 * i)).toNat
    let w1 := if k % 16 = 0 then (s.ctlGet d (base + 0x108 + 16 * i)).toNat % 2 ^ 32 else v.toNat % 2 ^ 32
    let lo := w0 / 2 ^ 16 % 2 ^ 41
    let clash := w0.testBit 63 && (List.range 4096).any fun n =>
      n != i && (let a := (s.ctlGet d (base + 0x100 + 16 * n)).toNat
                 let b := (s.ctlGet d (base + 0x108 + 16 * n)).toNat % 2 ^ 32
                 let l := a / 2 ^ 16 % 2 ^ 41
                 a.testBit 63 && lo < l + b && l < lo + w1)
    let reserved := if k % 16 = 0 then v.toNat / 2 ^ 57 % 64 != 0 || v.toNat / 2 ^ 7 % 2 ^ 9 != 0 || mergeBad (v.toNat % 128) else v.toNat / 2 ^ 32 != 0
    if live || reserved || clash then s.refuseStore w d off else s.ctlPut d off v
/-- A counter configuration that R323 and R324 refuse. -/
def counterBad (die : Bool) (v : Word) : Bool :=
  let n := v.toNat
  let src := n % 256
  n / 2 ^ 23 % 2 ^ 39 != 0 || n / 2 ^ 8 % 2 ^ 8 != 0 || !(src ≤ 0x0D || (die && 0x40 ≤ src && src ≤ 0x52))
/-- An event-counter word, 19 R322: a store of the count clears OV. -/
def State.eventCounterWrite (s : State) (w : Option HartId) (d : DieKey) (off : Nat) (v : Word) : State :=
  if off % 16 = 0 then
    if counterBad (0x510000 ≤ off) v then s.refuseStore w d off
    else s.ctlPut d off ((v &&& ~~~(1#64 <<< 62)) ||| (s.ctlGet d off &&& (1#64 <<< 62)))
  else if v.toNat / 2 ^ 48 ≠ 0 then s.refuseStore w d off
  else (s.ctlPut d off v).ctlPut d (off - 8) (s.ctlGet d (off - 8) &&& ~~~(1#64 <<< 62))
/-- A route-tag entry word, 18 R314. -/
def State.routeTagWrite (s : State) (w : Option HartId) (d : DieKey) (off : Nat) (v : Word) : State :=
  let n := v.toNat
  let bad := match off % 0x20 with
    | 0 => n / 2 ^ 59 % 16 != 0 || n / 2 ^ 41 % 2 ^ 15 != 0 || n / 2 ^ 12 % 2 ^ 20 != 0 || 383 < n / 2 ^ 32 % 512
    | 16 => n / 2 ^ 32 != 0
    | 24 => n != 0
    | _ => false
  if bad then s.refuseStore w d off else s.ctlPut d off v

/-- DIE RESET begins, 29 R379 step 1 and R383: it is recorded, and the neighbours are told. -/
def State.dieReset (s : State) (d : DieKey) : State :=
  if (s.die d).reset ≠ .up then s
  else
    let s := s.modDie d fun x => { x with reset := .draining }
    let s := s.blackBox d 0x80 0 0 0
    [0, 1, 2, 3].foldl (fun s i => let t := 4 * (d / 4) + i; if t = d then s else s.send d t 4 (.downNotice d)) s

/-- Whether a store's writer is a hart of another owner than the die's, 29_fabric_system R379. -/
def State.otherOwner (s : State) (w : Option HartId) (d : DieKey) : Bool :=
  match w with
  | some h => s.foreignDie d (s.hart h).origin.owner
  | none => false
/-- What the rest of the control block does with a store: the named writable doublewords, the space table, the discarded ones. -/
def State.controlBlockWrite (s : State) (w : Option HartId) (d : DieKey) (off : Nat) (v : Word) : State :=
  if off = 0x108 then s.ctlPut d off (v &&& ~~~0x3FFF#64)
  else if 0x1000 ≤ off ∧ off < 0x1C00 then s.ctlPut d off (v &&& ~~~0x3FFF#64)
  else if off = 0x118 then if v.toNat % 2 ^ 26 ≠ 0 then s.refuseStore w d off else s.ctlPut d off v
  else if off = 0x128 then if v.toNat % 2 ^ 16 ≠ 0 then s.refuseStore w d off else s.ctlPut d off v
  else if off = 0x150 then s.ctlPut d off (BitVec.ofNat 64 (v.toNat % 256))
  else if off = 0x160 || off = 0x168 then (s.modDie d fun x => { x with nextDue := [] }).ctlPut d off v
  else if [0x120, 0x138, 0x140, 0x148, 0x158, 0x170, 0x178, 0x180, 0x198].contains off then s.ctlPut d off v
  else if off = 0x1A0 then if v = 1 && !s.otherOwner w d then s.dieReset d else s.refuseStore w d off
  else if 0x100000 ≤ off ∧ off < 0x120000 then s.ctlPut d off v
  else if 0x300000 ≤ off ∧ off < 0x302000 then s.routeTagWrite w d off v
  else s.refuseStore w d off

/-- A store to a die control block, by its offset. -/
def State.ctlStore (s : State) (w : Option HartId) (d : DieKey) (off : Nat) (v : Word) : State :=
  if off = 0x100 then s.tentryWrite w d v
  else if off = 0x130 then s.mcqControlWrite d v
  else if 0x2000 ≤ off ∧ off < 0x2C00 then s.sfqControlWrite d off v
  else if 0x4800 ≤ off ∧ off < 0x6000 then s.stackPoolWrite w d off v
  else if 0x80000 ≤ off ∧ off < 0x8C000 then s.ringDescriptorWrite w d off v
  else if 0x180000 ≤ off ∧ off < 0x188000 then s.accessTableWrite w d off v
  else if 0x380000 ≤ off ∧ off < 0x384000 then s.timeSlotWrite w d off v
  else if 0x400000 ≤ off ∧ off < 0x500000 then s.mergeTableWrite w d off v
  else if 0x500000 ≤ off ∧ off < 0x510200 then s.eventCounterWrite w d off v
  else s.controlBlockWrite w d off v

/-- A load of a die control block: the owner keys read as zero, unassigned offsets too (R170, R306). -/
def State.ctlLoad (s : State) (d : DieKey) (off : Nat) : Word :=
  if 0x200000 ≤ off ∧ off < 0x240000 then (if off % 64 = 0 then
      match lookup? ((off - 0x200000) / 64) (s.die d).keys with
      | some k => BitVec.ofNat 64 ((if k.cur.isSome then 2 ^ 63 else 0) + (if k.next.isSome then 2 ^ 62 else 0) + k.gen.toNat)
      | none => 0
    else 0)
  else s.ctlGet d off

/-! ### The table writes as events of their own: by a supervisor thread, or by the management controller -/

/-- An event always happens, in a next state. -/
def event (f : EventArg → State → State) (s : State) : Out := .next (f s.ev s)

/-- R149. -/
def execTentryWrite (s : State) : Out := event (fun e s => s.tentryWrite e.writer e.site e.value) s
/-- R84. -/
def execStackPoolWrite (s : State) : Out := event (fun e s => if 0x4800 ≤ e.n ∧ e.n < 0x6000 then s.stackPoolWrite e.writer e.site (e.n / 8 * 8) e.value else s) s
/-- R235. -/
def execRingDescriptorWrite (s : State) : Out := event (fun e s => if 0x80000 ≤ e.n ∧ e.n < 0x8C000 then s.ringDescriptorWrite e.writer e.site (e.n / 8 * 8) e.value else s) s
/-- R190. -/
def execSfqControlWrite (s : State) : Out := event (fun e s => if 0x2000 ≤ e.n ∧ e.n < 0x2C00 then s.sfqControlWrite e.site (e.n / 8 * 8) e.value else s) s
/-- R242. -/
def execMcqControlWrite (s : State) : Out := event (fun e s => s.mcqControlWrite e.site e.value) s
/-- R305. -/
def execAccessTableWrite (s : State) : Out := event (fun e s => if 0x180000 ≤ e.n ∧ e.n < 0x188000 then s.accessTableWrite e.writer e.site (e.n / 8 * 8) e.value else s) s
/-- R315. -/
def execTimeSlotWrite (s : State) : Out := event (fun e s => if 0x380000 ≤ e.n ∧ e.n < 0x384000 then s.timeSlotWrite e.writer e.site (e.n / 8 * 8) e.value else s) s
/-- R316. -/
def execMergeTableWrite (s : State) : Out := event (fun e s => if 0x400000 ≤ e.n ∧ e.n < 0x500000 then s.mergeTableWrite e.writer e.site (e.n / 8 * 8) e.value else s) s
/-- R322. -/
def execEventCounterWrite (s : State) : Out := event (fun e s => if 0x500000 ≤ e.n ∧ e.n < 0x510200 then s.eventCounterWrite e.writer e.site (e.n / 8 * 8) e.value else s) s
/-- R170. -/
def execControlBlockWrite (s : State) : Out := event (fun e s => s.controlBlockWrite e.writer e.site (e.n / 8 * 8) e.value) s
/-- R379. -/
def execDieReset (s : State) : Out := event (fun e s => s.dieReset e.site) s
/-- R306. The management controller writes a domain's next key, with its generation (log entry 54). -/
def execOwnerKeyWrite (s : State) : Out :=
  event (fun e s => s.modDie e.site fun x =>
    { x with keys := setKey e.n { lookupD {} e.n x.keys with next := some (e.wide.setWidth 128), gen := BitVec.ofNat 8 e.k } x.keys }) s
/-- R306. The management controller promotes a domain's next key. -/
def execKeyPromote (s : State) : Out :=
  event (fun e s => s.modDie e.site fun x =>
    match lookup? e.n x.keys with
    | some k => if k.next.isSome then { x with keys := setKey e.n { k with cur := k.next, next := none } x.keys } else x
    | none => x) s
/-- R346. A path-6 load of a revoked entry returns once every access that the entry admitted is performed or refused; the model admits
an access when it performs it, so none is left. -/
def execRevokedEntryRead (s : State) : Out :=
  event (fun e s => s.modHart e.hart fun x =>
    { x with outstanding := x.outstanding.map fun p => if 2 ^ 32 ≤ p.tag then { p with returned := true, tag := 0 } else p }) s

end Sys2Proof.Machine
end

