-- ==== Sys2Proof/Machine/MemInstr.lean ====
section
/-! DEFINITION. The scalar memory instructions (11_memory_instructions R178 to R191). -/

namespace Sys2Proof.Machine

/-- A loaded value as R57 writes it: extended by the type's signedness, or zero-extended for a float. -/
def loadValue (ty n : Nat) : Word := if isIntType ty then putInt ty n else BitVec.ofNat 64 n
def sizeOf8 (ty : Nat) : Nat := typeWidth ty / 8
/-- The class a memory instruction needs on a firmware hart: the expander only loads (R181). -/
def onlyLoads (store : Bool) : M Unit := do
  let h ← me
  match h with
  | .expander _ => guardM (!store) illclass
  | _ => pure ()

/-- A path-6 load, R170, R178, and the physical aperture, 17 R292, R301, which sees the core's earlier stores (10 R173). A translation
service core that meets an absent node parks its miss and resumes at its `wfm`. -/
def loadControl (e : Word) (ty : Nat) : M (Word × Bool) := do
  if !(ty = 4 || ty = 8) then trapM ACCESS e
  let s ← get
  let h := s.ir.hart
  if inAperture e then do
    let pa := e.toNat % 2 ^ 56
    if !present pa then trapM ACCESS e
    match h with
    | .tsc d _ =>
      let m := s.metaWord pa 0
      let pinned := m.getLsbD 62 || (m.toNat / 2 ^ 40 % 2 ^ 16 != 0)
      let s1 := if pinned then s else s.event d 0x30 (BitVec.ofNat 64 pa)
      if m.getLsbD 61 then
        stallWith fun _ => s1.parkWalk h
      else if m.getLsbD 60 then stall
      else do
        modS fun _ => s1
        return (s.word pa, false)
    | h => match s.coreOf h with
      | some c => return (BitVec.ofNat 64 (leNat (overlay (s.core c).wbuf 0 pa (s.bytes pa 8))), s.isPoisoned pa 8)
      | none => return (s.word pa, s.isPoisoned pa 8)
  else do
    let d := 4 * (dieOfHart h / 4) + e.toNat / 2 ^ 40 % 4
    let off := e.toNat % 2 ^ 40
    return (s.ctlLoad d (off / 8 * 8), false)

/-- A scalar load from a checked address: the number read, and whether it was poisoned. -/
def loadAt (e : Word) (ty : Nat) : M (Word × Bool) := do
  let n := sizeOf8 ty
  match pathOf e with
  | 3 => do
    winReach e
    let s ← get
    let st := s.winLoadStatus s.ir.hart e.toNat n
    let pk := dieOfHart s.ir.hart / 4
    if st ≠ 0 then do
      noteAccess 1 e st
      return (0, false)
    else return (BitVec.ofNat 64 (s.winLoad pk e.toNat n), s.winPoisoned pk e.toNat n)
  | 4 => do
    let p ← loadMain 0 e (generalVa e) 2
    let s ← get
    let ix := leNat p.1
    let entry := Sparse.get 0 (s.quad (s.quadOf s.ir.hart)).shell (ix % 256)
    return (BitVec.ofInt 64 ((cb8Weight ix entry.toNat (e.toNat % 8)) % 256), p.2)
  | 6 => loadControl e ty
  | p => do
    let r ← loadMain p e (generalVa e) n
    return (BitVec.ofNat 64 (leNat r.1), r.2)

/-- A store through the physical aperture: it follows the core's earlier stores to its bytes, and L1 gives up its line (10 R173); a page with
the execute grant refuses it (03 R51). -/
def storeAperture (e : Word) (v : Word) : M Unit := do
  let pa := e.toNat % 2 ^ 56
  if !present pa then trapM ACCESS e
  let s ← get
  match s.coreOf s.ir.hart with
  | some c => do
    if (s.core c).wbuf.any (fun b => overlapsCells b pa 8) then stall
    modS fun s => s.modCore c fun k => { k with l1 := k.l1.filter fun l => l.line != pa / 64 }
  | none => pure ()
  if s.granted pa then noteAccess 0 e 1
  else modS fun s => (s.cacheLine (pa / 64) true).putWord pa v
/-- A scalar store to a checked address. -/
def storeAt (e : Word) (ty : Nat) (v : Word) : M Unit := do
  let n := sizeOf8 ty
  match pathOf e with
  | 3 => do
    winReach e
    let s ← get
    let r := s.winStoreFor s.ir.hart e.toNat n (v.toNat % 2 ^ (8 * n))
    modS fun _ => r.1
    if r.2 ≠ 0 then noteAccess 0 e r.2
  | 6 => do
    if !(ty = 4 || ty = 8) then trapM ACCESS e
    let s ← get
    let h := s.ir.hart
    if inAperture e then storeAperture e v
    else modS fun s => s.ctlStore (some h) (4 * (dieOfHart h / 4) + e.toNat / 2 ^ 40 % 4) (e.toNat % 2 ^ 40 / 8 * 8) v
  | p => storeMain p 0 e (generalVa e) (leBytes n v.toNat)

/-- What a poisoned datum is to a hart: a thread consumes it when it returns (R193); to a companion or firmware hart it is a status, and
the spec states no value for the destination (R177, log entry 3). -/
def poisonFor (kind : Nat) (e : Word) (bad : Bool) (v : Word) : M (Word × Option Word) := do
  let h ← me
  if !bad then return (v, none)
  else if isThread h then return (v, some e)
  else do
    noteAccess kind e 5
    return (← freeValue, none)
/-- A load's register write. A read of a revoked access-table entry is held
until its accesses are done (R346). -/
def loadResult (f : Slot) (e : Word) (r : Word × Bool) : M Unit := do
  let v ← poisonFor 1 e r.2 (loadValue f.ty.toNat r.1.toNat)
  let ws ← destReg f.d v.1
  let s ← get
  let off := e.toNat % 2 ^ 40
  let held := pathOf e = 6 && !inAperture e && 0x180000 ≤ off && off < 0x188000 && off % 32 = 0 && r.1.getLsbD 62
  result ws 0 v.2 (!held) (if held then 2 ^ 32 + s.free else 0)

/-- The effective address of `ld` and `st`, and of the indexed forms (R178). -/
def addrImm (f : Slot) : M Word := do return (← readReg f.a) + immWord f
def addrIndexed (f : Slot) : M Word := do
  let a ← readReg f.a
  let b ← readReg f.b
  return a + (b <<< (f.misc.toNat % 4)) + immWord f

/-- A load instruction. -/
def loadInstr (op : Nat) (addr : Slot → M Word) (idx : Bool) (s : State) : Out :=
  runM op (do
    useClass .mem
    let f ← ir
    names (if idx then [f.a, f.b] else [f.a]) [f.d]
    let e ← addr f
    checkAccess (some f.path.toNat) e (sizeOf8 f.ty.toNat) (sizeOf8 f.ty.toNat) true false
    loadResult f e (← loadAt e f.ty.toNat)
    retire) s
/-- A store instruction. -/
def storeInstr (op : Nat) (addr : Slot → M Word) (idx : Bool) (s : State) : Out :=
  runM op (do
    useClass .mem
    onlyLoads true
    let f ← ir
    names (if idx then [f.a, f.b, f.d] else [f.a, f.d]) []
    let e ← addr f
    checkAccess (some f.path.toNat) e (sizeOf8 f.ty.toNat) (sizeOf8 f.ty.toNat) false true
    let v ← readReg f.d
    storeAt e f.ty.toNat v
    retire) s

/-- R178. `ld`. -/
def execLd (s : State) : Out := loadInstr 0x080 addrImm false s
/-- R178. `st`. -/
def execSt (s : State) : Out := storeInstr 0x081 addrImm false s
/-- R178. `ldx`. -/
def execLdx (s : State) : Out := loadInstr 0x082 addrIndexed true s
/-- R178. `stx`. -/
def execStx (s : State) : Out := storeInstr 0x083 addrIndexed true s

/-! ### Scratchpad locks, R183, R184 -/

/-- The lock bit of a scratchpad offset: 8 × bank + bit. -/
def lockOf (e : Nat) : Nat := 8 * (e / 2 ^ 14 % 32) + (e / 2 ^ 6 % 8 ^^^ e / 2 ^ 9 % 8)

/-- R183. `ldlk`. -/
def execLdlk (s : State) : Out :=
  runM 0x084 (do
    useClass .lock
    let f ← ir
    names [f.a] [f.d]
    let e ← addrImm f
    checkAccess (some f.path.toNat) e (sizeOf8 f.ty.toNat) (sizeOf8 f.ty.toNat) true false
    let x ← hartM
    let mine := x.grant = some 6
    if (x.lock.isSome && !mine) || winRegion e.toNat ≠ 0 then trapM ACCESS e
    let s ← get
    let h := s.ir.hart
    let c := winCore (dieOfHart h / 4) e.toNat
    let b := lockOf e.toNat
    let k := s.core c
    winReach e
    if s.winLoadStatus h e.toNat (sizeOf8 f.ty.toNat) ≠ 0 then do
      loadResult f e (← loadAt e f.ty.toNat)
      modS fun s => if mine then (s.modCore c fun k => { k with locks := k.locks.filter (fun l => l.1 ≠ b) }).modHart h fun y =>
        { y with lock := none, grant := none } else s
      retire
    else if mine || (!(k.locks.any fun l => l.1 == b) && !(k.lockq.any fun l => l.1 == b)) then do
      modS fun s => s.modCore c fun k => { k with locks := (b, h) :: k.locks.filter (fun l => l.1 ≠ b) }
      modH fun y => { y with lock := some (c, b / 8, b % 8), grant := none }
      loadResult f e (← loadAt e f.ty.toNat)
      retire
    else
      stallWith fun s => (s.modCore c fun k => { k with lockq := if k.lockq.contains (b, h) then k.lockq else k.lockq ++ [(b, h)] }).modHart h
        fun y => { y with wait := some (.lock c (b / 8) (b % 8)) }) s

/-- R183. `stul`. -/
def execStul (s : State) : Out :=
  runM 0x085 (do
    useClass .lock
    let f ← ir
    names [f.a, f.d] []
    let e ← addrImm f
    checkAccess (some f.path.toNat) e (sizeOf8 f.ty.toNat) (sizeOf8 f.ty.toNat) false true
    let x ← hartM
    let s ← get
    let c := winCore (dieOfHart s.ir.hart / 4) e.toNat
    let b := lockOf e.toNat
    if x.lock ≠ some (c, b / 8, b % 8) || winRegion e.toNat ≠ 0 then trapM ACCESS e
    let v ← readReg f.d
    storeAt e f.ty.toNat v
    modS fun s => s.modCore c fun k => { k with locks := k.locks.filter (fun l => l.1 ≠ b) }
    modH fun y => { y with lock := none }
    retire) s

/-! ### Atomics, R185 to R188 -/

/-- `Op(old, v)`: the new value and the flags of `.fadd`. -/
def atomicOp (op ty : Nat) (old v : Nat) : Nat × Flags5 :=
  let w := typeWidth ty
  let a := intVal ty (BitVec.ofNat 64 old)
  let b := intVal ty (BitVec.ofNat 64 v)
  match op with
  | 0 => (v % 2 ^ w, 0)
  | 1 => ((old + v) % 2 ^ w, 0)
  | 2 => ((old &&& v) % 2 ^ w, 0)
  | 3 => ((old ||| v) % 2 ^ w, 0)
  | 4 => ((old ^^^ v) % 2 ^ w, 0)
  | 5 => (bitsOf ty (min a b), 0)
  | 6 => (bitsOf ty (max a b), 0)
  | _ => let r := fAdd (fmtOf ty) .rne (fval ty (BitVec.ofNat 64 old)) (fval ty (BitVec.ofNat 64 v)); (r.bits, r.flags)
/-- What an atomic leaves at its home: the new value and the flags. -/
def atomicNew (isCas : Bool) (op ty : Nat) (old operand newVal : Nat) : Nat × Flags5 :=
  if isCas then (if old = operand % 2 ^ typeWidth ty then newVal % 2 ^ typeWidth ty else old, 0) else atomicOp op ty old operand

/-- An atomic performed at its home in memory at issue: the old value, its flags and whether the bytes were poisoned. -/
def atomicMain (f : Slot) (e : Word) (isCas : Bool) (operand newVal : Word) : M (Word × Flags5 × Bool) := do
  let ty := f.ty.toNat
  let n := sizeOf8 ty
  let va := generalVa e
  let pa ← translateM va 3
  unlocked pa
  migrateFor pa
  let h ← me
  let x ← hartM
  let s ← get
  if homeOf pa / 4 ≠ dieOfHart h / 4 then trapM ACCESS e
  match s.coreOf h with
  | some c => if (s.core c).wbuf.any (fun b => overlapsCells b pa n) then stall
  | none => pure ()
  settled pa n
  askFirst va pa n
  modS fun s => s.touchPage h pa
  let s ← get
  let j := s.regionFor h va
  let r := if j.isSome then x.revid else 0
  let old := leNat (s.homeBytes j r pa n)
  let nw := atomicNew isCas (f.misc.toNat % 16) ty old operand.toNat newVal.toNat
  let q := s.performCells (dieOfHart h) (isCtx h) x.origin.job x.origin.owner r va (cellsAt pa (leBytes n nw.1))
  if q.2 ≠ 0 then do
    noteAccess 2 e q.2
    return (0, 0, false)
  else if s.isPoisoned pa n then return (0, 0, true)
  else do
    modS fun _ => q.1
    match s.coreOf h with
    | some c => modS fun s => s.modCore c fun k => { k with l1 := k.l1.filter (fun l => l.line != pa / 64) }
    | none => pure ()
    return (BitVec.ofNat 64 old, nw.2, false)

/-- Paths 2, 4 and 6 raise ACCESS; a thread in user mode on path 6 raises PRIV first (09 R151, R152). -/
def offPath (p : Nat) (e : Word) : M Unit := do
  let x ← hartM
  let h ← me
  if p = 6 && isThread h && !x.trap.mode then trapM PRIV
  else guardM (!(p = 2 || p = 4 || p = 6)) (trapM ACCESS e)
/-- `amo` and `cas`. -/
def atomicInstr (op : Nat) (isCas : Bool) (s : State) : Out :=
  runM op (do
    useClass .amo
    let f ← ir
    names (if isCas then [f.a, f.c, f.d] else [f.a, f.c]) [f.d]
    let ty := f.ty.toNat
    let n := sizeOf8 ty
    let e ← addrImm f
    let p := pathOf e
    offPath p e
    checkAccess none e n n true true
    let c ← readReg f.c
    let d ← (if isCas then readReg f.d else pure 0)
    let ord := f.misc.toNat / 16
    let scope := f.path.toNat
    if ord / 2 = 1 then releaseM scope
    let r ← (if p = 3 then do
        winReach e
        let s ← get
        let pk := dieOfHart s.ir.hart / 4
        let old := s.winLoad pk e.toNat n
        let nw := atomicNew isCas (f.misc.toNat % 16) ty old c.toNat d.toNat
        let q := s.winStoreFor s.ir.hart e.toNat n nw.1
        modS fun _ => q.1
        if q.2 ≠ 0 then do
          noteAccess 2 e q.2
          pure ((0 : Word), (0 : Flags5), false)
        else if s.winPoisoned pk e.toNat n then do
          modS fun _ => s
          pure ((0 : Word), (0 : Flags5), true)
        else pure (BitVec.ofNat 64 old, nw.2, false)
      else atomicMain f e isCas c d)
    let v ← poisonFor 2 e r.2.2 (loadValue ty r.1.toNat)
    let ws ← destReg f.d v.1
    result ws r.2.1 v.2
    if ord % 2 = 1 then acquireM scope
    retire) s

/-- R185. `amo`. -/
def execAmo (s : State) : Out := atomicInstr 0x086 false s
/-- R185. `cas`. -/
def execCas (s : State) : Out := atomicInstr 0x088 true s

/-- The incarnation record that a die keeps of another, 17 R307. -/
def State.incarnRecord (s : State) (d other : DieKey) : Option Nat :=
  if other = d then some (s.die d).incarn.toNat else
  let w := (s.ctlGet d (0x280000 + 8 * (other / 2))).toNat / 2 ^ (32 * (other % 2)) % 2 ^ 32
  if w.testBit 31 then some (w % 2 ^ 16) else none
def State.setIncarnRecord (s : State) (d other n : Nat) : State :=
  let o := 0x280000 + 8 * (other / 2)
  let w := (s.ctlGet d o).toNat
  let sh := 2 ^ (32 * (other % 2))
  s.ctlPut d o (BitVec.ofNat 64 (w - w / sh % 2 ^ 32 * sh + (2 ^ 31 + n % 2 ^ 16) * sh))

/-- `amor` and `casr`: the request goes to the home of E, wherever it is. -/
def atomicToken (op : Nat) (isCas : Bool) (s : State) : Out :=
  runM op (do
    useClass .amoTok
    let f ← ir
    names (if isCas then [f.a, f.b, f.c, f.d] else [f.a, f.b, f.c]) [f.d, f.b]
    let ty := f.ty.toNat
    let n := sizeOf8 ty
    let e ← addrImm f
    let p := pathOf e
    offPath p e
    checkAccess none e n n true true
    let b ← readReg f.b
    let c ← readReg f.c
    let d ← (if isCas then readReg f.d else pure 0)
    let ord := f.misc.toNat / 16
    if ord / 2 = 1 then releaseM f.path.toNat
    let h ← me
    let die := dieOfHart h
    let retry := b.toNat / 2 ^ 16 % 256 = 3
    let va := generalVa e
    let pa ← (if p = 3 then pure (windowKey (die / 4) e.toNat) else translateM va 3)
    if p ≠ 3 then do
      unlocked pa
      migrateFor pa
      settled pa n
      askFirst va pa n
    let s ← get
    match s.coreOf h with
    | some k => do
      if (s.core k).wbuf.any (fun b => overlapsCells b pa n) then stall
      modS fun s => s.modCore k fun y => { y with l1 := y.l1.filter (fun l => l.line != pa / 64) }
    | none => pure ()
    let home := if p = 3 then 4 * (die / 4) + e.toNat / 2 ^ 48 % 4 else homeOf pa
    let dw ← destReg f.d 0
    let bw ← destReg f.b 0
    let tag ← freshTag
    let x ← hartM
    let rec? := s.incarnRecord die home
    let inc := if retry then b.toNat / 2 ^ 24 % 2 ^ 16 else rec?.getD 0
    let req : AtomicReq :=
      { hart := h, tag := tag, op := f.misc.toNat % 16, ty := ty, pa := pa, operand := c, newVal := d, isCas := isCas,
        token := b.toNat % 2 ^ 16, incarn := inc, retry := retry, dreg := dw.length, va := e, pc := x.pc
        rev := if (s.regionFor h va).isSome && p ≠ 3 then x.revid else 0, job := if p = 3 then none else s.regionFor h va
        owner := x.origin.owner, acq := if ord % 2 = 1 then some f.path.toNat else none }
    result (dw ++ bw) 0 none false tag
    modS fun s => s.modDie die fun y => { y with asked := y.asked ++ [req] }
    if retry || rec?.isSome then modS fun s => s.send die home 0 (.atomic die req) (s.hart h).origin.owner
    else modS fun s => (s.modDie die fun y => { y with heldAtomics := y.heldAtomics ++ [req] }).send die home 4 (.probe die)
    retire
    if ord % 2 = 1 then modH fun y => { y with parked := true }) s

/-- R185, R186. `amor`. -/
def execAmor (s : State) : Out := atomicToken 0x087 false s
/-- R185, R186. `casr`. -/
def execCasr (s : State) : Out := atomicToken 0x089 true s

/-! ### Fences and the rest -/

/-- R189. `fence`: it does what it can at once; what it must wait for, the next instruction that it orders waits for, and others issue past
it. -/
def execFence (s : State) : Out :=
  runM 0x08A (do
    useClass .fence
    let f ← ir
    let k := f.misc.toNat % 4
    fun s => match fenceNow k f.path.toNat s with
      | .error (.stall _) => .ok ((), s.modHart s.ir.hart fun y => { y with fence := some (k, f.path.toNat) })
      | r => r
    retire) s

/-- R191. `drainst`. -/
def execDrainst (s : State) : Out :=
  runM 0x08B (do
    useClass .drain
    let f ← ir
    names [] [f.d]
    let x ← hartM
    let s ← get
    let h := s.ir.hart
    if !x.accesses.isEmpty || x.outstanding.any (fun p => !p.returned) || s.ssuMemory h then stall
    match s.coreOf h with
    | some c => if (s.core c).wbuf.any (fun b => b.hart == h) then stall
    | none => pure ()
    writeReg f.d (x.sfc.setWidth 64)
    modH fun y => { y with sfc := 0 }
    retire) s

/-- R180. `pf`: whatever would go wrong, nothing happens. -/
def execPf (s : State) : Out :=
  runM 0x08C (do
    useClass .prefetch
    let f ← ir
    names [f.a] []
    let e ← addrImm f
    let p := pathOf e
    if f.misc.getLsbD 0 || !(p = 0 || p = 2) || p ≠ f.path.toNat then pure ()
    else fun s => match (do checkAccess none e 1 1 true false; let _ ← loadMain p e (generalVa e) 1; pure () : M Unit) s with
      | .ok (_, t) => .ok ((), { s with cores := t.cores })
      | .error _ => .ok ((), s)
    retire) s

/-- R179. `ldacq`. -/
def execLdacq (s : State) : Out :=
  runM 0x08D (do
    useClass .acqrel
    let f ← ir
    names [f.a] [f.d]
    let e ← addrImm f
    checkAccess (some f.path.toNat) e (sizeOf8 f.ty.toNat) (sizeOf8 f.ty.toNat) true false
    let r ← loadAt e f.ty.toNat
    loadResult f e r
    acquireM (f.misc.toNat % 8)
    retire) s

/-- R179. `strel`. -/
def execStrel (s : State) : Out :=
  runM 0x08E (do
    useClass .acqrel
    let f ← ir
    names [f.a, f.d] []
    let e ← addrImm f
    checkAccess (some f.path.toNat) e (sizeOf8 f.ty.toNat) (sizeOf8 f.ty.toNat) false true
    let v ← readReg f.d
    releaseM (f.misc.toNat % 8)
    storeAt e f.ty.toNat v
    retire) s

end Sys2Proof.Machine
end

