-- ==== Sys2Proof/Machine/Streams.lean ====
section
/-! DEFINITION. The stochastic stream unit (08_stream_registers): issue into its command queue with the checks of R141, and what each
command does when it executes (R139, R142 to R147). -/

namespace Sys2Proof.Machine

/-- The length of a code, R136. -/
def lenOf (code : Nat) : Nat :=
  match code with
  | 0 => 16
  | 1 => 256
  | 2 => 1024
  | _ => 4096

/-! ### The core's copies of masks, lengths and formats, R141 -/

structure QCopy where
  cls : Nat := 0
  len : Nat := 0
  bipolar : Bool := false
  pending : Bool := false
  deriving DecidableEq, Repr

def copyOf (q : Stream) : QCopy := { cls := q.cls.toNat, len := q.len.toNat, bipolar := q.bipolar }
/-- The copy of the destination that an instruction writes, from the copies of its sources. -/
def destCopy (op : Nat) (f : Slot) (t : Nat → QCopy) : Option QCopy :=
  let a := t f.a.toNat
  let b := t f.b.toNat
  let c := t f.c.toNat
  let one := 2 ^ (f.misc.toNat % 16)
  match op with
  | 0x180 | 0x18A | 0x18B => some { cls := one, len := f.misc.toNat / 16, bipolar := f.imm.getLsbD 20 }
  | 0x181 => some { cls := a.cls ||| b.cls, len := a.len }
  | 0x182 => some { cls := a.cls ||| b.cls, len := a.len, bipolar := true }
  | 0x183 | 0x184 | 0x18C | 0x18D => some { cls := a.cls, len := a.len, bipolar := a.bipolar }
  | 0x185 => some { cls := a.cls ||| b.cls ||| c.cls, len := a.len, bipolar := a.bipolar }
  | 0x186 => some { cls := one, len := f.misc.toNat / 16, bipolar := a.bipolar }
  | 0x18E => some { pending := true }
  | _ => none
/-- The copies after a queued command. -/
def trackCmd (t : Nat → QCopy) (c : SsuCmd) : Nat → QCopy :=
  match destCopy c.op c.slot t with
  | some q => fun n => if n = c.slot.d.toNat then q else t n
  | none => t
/-- The copies as the core holds them: the registers, and what the queued commands will write. -/
def State.copies (s : State) (h : HartId) : Nat → QCopy :=
  let k := s.core ((s.coreOf h).getD 0)
  ((k.ssu ++ k.cmdSsu).filter (fun c => c.hart == h)).foldl trackCmd fun n => copyOf ((s.hart h).regs.q.toList.getD n {})

/-- The streams a command reads. -/
def ssuReads (op : Nat) (f : Slot) : List Nat :=
  match op with
  | 0x181 | 0x182 | 0x183 | 0x184 => [f.a.toNat, f.b.toNat]
  | 0x185 => [f.a.toNat, f.b.toNat, f.c.toNat]
  | 0x186 | 0x187 | 0x188 | 0x189 | 0x18C | 0x18D => [f.a.toNat]
  | 0x18F => [f.d.toNat]
  | _ => []
/-- The stream a command writes. -/
def ssuWrites (op : Nat) (f : Slot) : List Nat := if (destCopy op f fun _ => {}).isSome then [f.d.toNat] else []
/-- LENGTH and CORRELATED, R141, R143. -/
def ssuChecks (op : Nat) (f : Slot) (t : Nat → QCopy) : M Unit := do
  let a := t f.a.toNat
  let b := t f.b.toNat
  let c := if op = 0x185 then t f.c.toNat else {}
  if [0x181, 0x182, 0x183, 0x184, 0x185].contains op then
    if a.len ≠ b.len || (op = 0x185 && c.len ≠ a.len) then trapM 0x08 (BitVec.ofNat 64 (c.len * 16 + b.len * 4 + a.len))
    let broken := match op with
      | 0x181 | 0x182 => (a.cls &&& b.cls) != 0
      | 0x183 | 0x184 => a.cls != b.cls
      | _ => (c.cls &&& (a.cls ||| b.cls)) != 0
    if broken then trapM 0x09 (BitVec.ofNat 64 (c.cls * 2 ^ 32 + b.cls * 2 ^ 16 + a.cls))

/-- Issues a command: its scalar and vector sources are read, its result is outstanding. -/
def ssuIssue (op : Nat) (scalar : Slot → M Word) (vec : Slot → M VecReg) (dests : Slot → List (BitVec 5)) (drawDomain : Slot → Option Nat)
    (check : Slot → Word → M Unit) (s : State) : Out :=
  runM op (do
    useClass .ssu
    let f ← ir
    names [] (dests f)
    modH fun x => { x with qused := true }
    let c ← myCore
    let h ← me
    let s ← get
    let t := s.copies h
    if (ssuReads op f).any (fun n => (t n).pending) then stall
    for n in ssuReads op f ++ ssuWrites op f do needFrame (48 + n)
    modS fun s => s.modCore c fun k => { k with qsets := takeSet h k.qsets }
    ssuChecks op f t
    let v ← scalar f
    let w ← vec f
    check f v
    if 2 ≤ (s.core c).cmdSsu.length then stall
    let us ← (match drawDomain f with
      | some d => draws d 1
      | none => pure [])
    let x ← hartM
    let tag ← (match dests f with
      | [] => pure 0
      | _ => do
        let ws ← destReg f.d 0
        let tag ← freshTag
        result ws 0 none false tag
        pure tag)
    let cmd : SsuCmd :=
      { hart := h, op := op, slot := f, pc := x.pc, scalar := v, vec := w, draws := us, tag := tag, inRegion := x.inRegion, second := s.ir.second, rev := x.revid }
    modS fun s => s.modCore c fun k => { k with cmdSsu := k.cmdSsu ++ [cmd] }
    retire) s

def noScalar (_ : Slot) : M Word := pure 0
def noVector (_ : Slot) : M VecReg := pure 0
def noDest (_ : Slot) : List (BitVec 5) := []
def noDraw (_ : Slot) : Option Nat := none
def noCheck (_ : Slot) (_ : Word) : M Unit := pure ()
/-- A command of streams alone. -/
def ssuPlain (op : Nat) (s : State) : Out := ssuIssue op noScalar noVector noDest noDraw noCheck s
/-- A command with a scalar result. -/
def ssuScalar (op : Nat) (s : State) : Out := ssuIssue op noScalar noVector (fun f => [f.d]) noDraw noCheck s
def scalarA (f : Slot) : M Word := do
  names [f.a] []
  readReg f.a
def scalarB (f : Slot) : M Word := do
  names [f.b] []
  readReg f.b
def addrA (f : Slot) : M Word := do return (← scalarA f) + immWord f
/-- The checks of `qld` and `qst` that the core makes at issue (R146): path, layout, alignment and the lease of the header. The lines
that a `qst` writes in a region are asked for here (13 R223). -/
def ssuAccessCheck (write : Bool) (f : Slot) (e : Word) : M Unit := do
  checkAccess (some f.path.toNat) e 8 8 (!write) write
  let h ← me
  let s ← get
  if write && (pathOf e ≤ 2) && (s.regionFor h (generalVa e)).isSome then
    (linePieces (generalVa e) (8 + lenOf ((s.copies h) f.d.toNat).len / 8)).forM fun q => do
      let pa ← translateM (generalVa e + q.1) 1
      askFirst (generalVa e + q.1) pa q.2

/-- R142. -/
def execQgen (s : State) : Out := ssuPlain 0x180 s
/-- R143. -/
def execQand (s : State) : Out := ssuPlain 0x181 s
/-- R143. -/
def execQxnor (s : State) : Out := ssuPlain 0x182 s
/-- R143. -/
def execQmin (s : State) : Out := ssuPlain 0x183 s
/-- R143. -/
def execQmax (s : State) : Out := ssuPlain 0x184 s
/-- R143. -/
def execQmux (s : State) : Out := ssuPlain 0x185 s
/-- R144. -/
def execQregen (s : State) : Out := ssuPlain 0x186 s
/-- R145. -/
def execQcount (s : State) : Out := ssuScalar 0x187 s
/-- R145. -/
def execQsum (s : State) : Out := ssuIssue 0x188 scalarB noVector (fun f => [f.d]) noDraw noCheck s
/-- R145. -/
def execQtob (s : State) : Out := ssuScalar 0x189 s
/-- R142. -/
def execBtoq (s : State) : Out := ssuIssue 0x18A scalarA noVector noDest noDraw noCheck s
/-- R142. -/
def execVbtoq (s : State) : Out := ssuIssue 0x18B noScalar (fun f => readVec f.a) noDest noDraw noCheck s
/-- R143. -/
def execQnot (s : State) : Out := ssuPlain 0x18C s
/-- R143. -/
def execQmov (s : State) : Out := ssuPlain 0x18D s
/-- R146. -/
def execQld (s : State) : Out := ssuIssue 0x18E addrA noVector noDest noDraw (ssuAccessCheck false) s
/-- R146. -/
def execQst (s : State) : Out := ssuIssue 0x18F addrA noVector noDest noDraw (ssuAccessCheck true) s
/-- R147. -/
def execQcfg (s : State) : Out := ssuPlain 0x190 s
/-- R147. The draw is taken at issue. -/
def execQseed (s : State) : Out := ssuIssue 0x191 noScalar noVector noDest (fun f => some (0x20 + f.misc.toNat % 16)) noCheck s

/-! ### Execution -/

/-- `BitRev(i, b)`. -/
def bitRev (i : Nat) : Nat → Nat
  | 0 => 0
  | b + 1 => i % 2 * 2 ^ b + bitRev (i / 2) b
/-- One bit of `GenBits`, R139. -/
def genBit (mode : Nat) (seed ctr : Word) (p l i : Nat) : Bool :=
  match mode with
  | 0 => (mix (seed ^^^ (ctr + BitVec.ofNat 64 (i / 4)))).toNat / 2 ^ (16 * (i % 4)) % 65536 < p
  | 1 => i * 65536 < p * l
  | _ => bitRev i l.log2 * 65536 < p * l
def bitsFrom (l : Nat) (b : Nat → Bool) : Nat := (List.range l).foldl (fun n i => if b i then n + 2 ^ i else n) 0
/-- `GenBits(c, P, L)` with a thread's generators: the bits, and the generators after it. -/
def genBits (g : Gen) (c p l : Nat) : Nat × Gen :=
  let mode := (g.cmode.toList.getD c 0).toNat
  let ctr := g.cctr.toList.getD c 0
  (bitsFrom l (genBit mode (g.cseed.toList.getD c 0) ctr p l),
   if mode = 0 then { g with cctr := g.cctr.setIfInBounds c (ctr + BitVec.ofNat 64 (l / 4)) } else g)

/-- The bits of a stream. -/
def Stream.val (q : Stream) : Nat := q.bits.toNat % 2 ^ lenOf q.len.toNat
def Stream.ones (q : Stream) : Nat := onesCount (lenOf q.len.toNat) q.val
def mkStream (k : QCopy) (bits : Nat) : Stream :=
  { bits := BitVec.ofNat 4096 (bits % 2 ^ lenOf k.len), cls := BitVec.ofNat 16 k.cls, len := BitVec.ofNat 2 k.len, bipolar := k.bipolar }
def Hart.stream (x : Hart) (n : Nat) : Stream := x.regs.q.toList.getD n {}
def Hart.setStream (x : Hart) (n : Nat) (q : Stream) : Hart := { x with regs := { x.regs with q := x.regs.q.setIfInBounds n q } }

/-- The probability a generating command uses. -/
def genP (c : SsuCmd) (x : Hart) : Nat :=
  match c.op with
  | 0x180 => min (c.slot.imm.toNat % 2 ^ 17) 65536
  | 0x18A => min c.scalar.toNat 65536
  | 0x18B => min (c.vec.toNat / 2 ^ (32 * (c.slot.imm.toNat % 32)) % 2 ^ 32) 65536
  | _ => let q := x.stream c.slot.a.toNat; q.ones * (65536 / lenOf q.len.toNat)
/-- A combining command's bits. -/
def combineBits (op a b c l : Nat) : Nat :=
  let all := 2 ^ l - 1
  match op with
  | 0x181 | 0x183 => a &&& b
  | 0x182 => all ^^^ (a ^^^ b)
  | 0x184 => a ||| b
  | 0x185 => (b &&& c) ||| (a &&& (all ^^^ c))
  | 0x18C => all ^^^ a
  | _ => a
/-- A counting command's scalar, R145. -/
def countWord (op : Nat) (q : Stream) (b : Word) : Word :=
  let n := q.ones
  let l := lenOf q.len.toNat
  match op with
  | 0x187 => BitVec.ofNat 64 n
  | 0x188 => b + BitVec.ofNat 64 n
  | _ => if q.bipolar then BitVec.ofInt 64 ((2 * (n : Int) - l) * (65536 / l : Nat)) else BitVec.ofNat 64 (n * (65536 / l))

/-- The address of the first poisoned piece of a read. -/
def firstBad : List (Word × Bool) → Option Word
  | [] => none
  | (e, true) :: _ => some e
  | (_, false) :: r => firstBad r
/-- The doublewords of n bytes: their offsets and lengths. -/
def wordPieces (n : Nat) : List (Nat × Nat) := (List.range ((n + 7) / 8)).map fun i => (8 * i, min 8 (n - 8 * i))
/-- Bytes that the SSU reads on any of its paths, and the address of poisoned data among them. The on-chip window gives aligned
doublewords, in region 4 nothing else (10 R168). -/
def ssuRead (e : Word) (n : Nat) : M (List Byte × Option Word) := do
  let s ← get
  let h := s.ir.hart
  let pk := dieOfHart h / 4
  match pathOf e with
  | 3 => do
    winReach e
    let fits := winOff e.toNat + n ≤ winSize (winRegion e.toNat) && (winRegion e.toNat != 4 || n % 8 == 0)
    let st := if fits then s.winLoadStatus h e.toNat n else 1
    if st = 0 then
      let one := fun (p : Nat × Nat) => leBytes p.2 (s.winLoad pk (e.toNat + p.1) p.2)
      pure ((wordPieces n).flatMap one,
        firstBad ((wordPieces n).map fun p => (e + BitVec.ofNat 64 p.1, s.winPoisoned pk (e.toNat + p.1) p.2)))
    else do
      noteAccess 4 e st
      pure (List.replicate n 0, none)
  | 6 => do
    let r ← (wordPieces n).mapM fun p => do
      let w ← loadControl (e + BitVec.ofNat 64 p.1) 8
      pure (leBytes p.2 w.1.toNat, (e + BitVec.ofNat 64 p.1, w.2))
    pure (r.flatMap (·.1), firstBad (r.map (·.2)))
  | p => do
    let x ← hartM
    if !(s.leased x (generalVa e) n true false) then endM LEASE
    let r ← (linePieces (generalVa e) n).mapM fun q => do
      let a := e + BitVec.ofNat 64 q.1
      let w ← loadMain p a (generalVa e + q.1) q.2
      pure (w.1, (a, w.2))
    pure (r.flatMap (·.1), firstBad (r.map (·.2)))
/-- Bytes that the SSU writes for the instruction at a PC: to the write-through buffer, the window, or path 6. -/
def ssuWrite (pc e : Word) (bs : List Byte) : M Unit := do
  let s ← get
  let h := s.ir.hart
  let n := bs.length
  let part := fun (p : Nat × Nat) => (bs.drop p.1).take p.2
  match pathOf e with
  | 3 => do
    winReach e
    let put := fun (q : State × Nat) (p : Nat × Nat) =>
      let r := q.1.winStoreFor h (e.toNat + p.1) p.2 (leNat (part p))
      (r.1, max q.2 r.2)
    if winOff e.toNat + n ≤ winSize (winRegion e.toNat) && (winRegion e.toNat != 4 || n % 8 == 0) then do
      let q := (wordPieces n).foldl put (s, 0)
      modS fun _ => q.1
      if q.2 ≠ 0 then noteAccess 3 e q.2
    else noteAccess 3 e 1
  | 6 =>
    (wordPieces n).forM fun p => do
      let a := e + BitVec.ofNat 64 p.1
      let s ← get
      if inAperture e then storeAperture a (spliceWord (s.word (a.toNat % 2 ^ 56)) 0 p.2 (leNat (part p)))
      else
        let d := 4 * (dieOfHart h / 4) + e.toNat / 2 ^ 40 % 4
        modS fun s => s.ctlStore (some h) d (a.toNat % 2 ^ 40) (spliceWord (s.ctlLoad d (a.toNat % 2 ^ 40)) 0 p.2 (leNat (part p)))
  | p => do
    let x ← hartM
    if !(s.leased x (generalVa e) n false true) then endM LEASE
    let groups ← (linePieces (generalVa e) n).mapM fun q => do
      let pa ← translateM (generalVa e + q.1) 1
      unlocked pa
      settled pa q.2
      modS fun s => s.touchPage h pa
      pure (e + BitVec.ofNat 64 q.1, cellsAt pa (part q))
    let tag ← freshTag
    enterStores p 3 tag groups (some pc)

/-- What a command does, R142 to R147; the address of poisoned data that it consumed, if any. -/
def ssuRun (c : SsuCmd) : M (Option Word) := do
  let x ← hartM
  let f := c.slot
  let t := fun (n : Nat) => copyOf (x.stream n)
  let cls := f.misc.toNat % 16
  let put := fun (bits : Nat) (y : Hart) => match destCopy c.op f t with
    | some k => y.setStream f.d.toNat (mkStream k bits)
    | none => y
  match c.op with
  | 0x180 | 0x18A | 0x18B | 0x186 => do
    let r := genBits x.gen cls (genP c x) (lenOf (f.misc.toNat / 16))
    modH fun y => put r.1 { y with gen := r.2 }
    pure none
  | 0x187 | 0x188 | 0x189 => do
    modS fun s => s.returnTag c.hart c.tag (countWord c.op (x.stream f.a.toNat) c.scalar)
    pure none
  | 0x18E => do
    let hd ← ssuRead c.scalar 8
    let h := leNat hd.1
    let k : QCopy := { cls := h % 2 ^ 16, len := h / 2 ^ 16 % 4, bipolar := h.testBit 18 }
    let r ← ssuRead (c.scalar + 8) (lenOf k.len / 8)
    let bad := hd.2.orElse fun _ => r.2
    let restarts := bad.isSome && c.inRegion && decide (x.restarts < Config.maxRestarts)
    if !restarts then modH fun y => y.setStream f.d.toNat (if bad.isSome then {} else mkStream k (leNat r.1))
    oneLate 4 x.accesses.length
    pure bad
  | 0x18F => do
    let q := x.stream f.d.toNat
    let l := lenOf q.len.toNat
    let h := q.cls.toNat + q.len.toNat * 2 ^ 16 + (if q.bipolar then 2 ^ 18 else 0)
    ssuWrite c.pc c.scalar (leBytes 8 h ++ leBytes (l / 8) q.val)
    oneLate 3 x.accesses.length
    pure none
  | 0x190 => do
    modH fun y => { y with gen := { y.gen with cmode := y.gen.cmode.setIfInBounds cls (BitVec.ofNat 2 (f.misc.toNat / 16)), cctr := y.gen.cctr.setIfInBounds cls 0 } }
    pure none
  | 0x191 => do
    modH fun y => { y with gen := { y.gen with cseed := y.gen.cseed.setIfInBounds cls (c.draws.headD 0), cctr := y.gen.cctr.setIfInBounds cls 0 } }
    pure none
  | op => do
    let q := fun (n : Nat) => (x.stream n).val
    modH (put (combineBits op (q f.a.toNat) (q f.b.toNat) (q f.c.toNat) (lenOf (x.stream f.a.toNat).len.toNat)))
    pure none
where
  /-- One record for the command, at its PC. -/
  oneLate (kind before : Nat) : M Unit :=
    modH fun y => { y with accesses := y.accesses.take before ++
      ((y.accesses.drop before).take 1).map fun (a : Access) => { a with kind := kind, pc := c.pc } }

end Sys2Proof.Machine
end

