-- ==== Sys2Proof/Machine/System.lean ====
section
/-! DEFINITION. System instructions: system registers (05_registers R90, 09_traps_contexts R152, R158), translation
(17_tables_translation R295 to R299), contexts (09 R159 to R163), event counters (19_counters R324). -/

namespace Sys2Proof.Machine

/-! ### System registers -/

/-- The 64 bits of a word of a set of route tags. -/
def tagWord (b : Nat → Bool) : Word := BitVec.ofNat 64 ((List.range 64).foldl (fun n i => if b i then n + 2 ^ i else n) 0)
/-- Whether a hart may touch TAGEN and TAGPEND: a handler, or a supervisor-mode thread. -/
def tagAllowed (h : HartId) (x : Hart) : Bool :=
  match h with
  | .handler _ _ => true
  | _ => x.trap.mode

/-- A system register's value, R90. -/
def readSys (n : Nat) : M Word := do
  let x ← hartM
  let h ← me
  let s ← get
  let d := dieOfHart h
  let sup := x.trap.mode
  match n with
  | 0x00 => if sup then pure (x.trap.xcause.setWidth 64) else trapM PRIV
  | 0x01 => if sup then pure x.trap.xpc else trapM PRIV
  | 0x02 => if sup then pure x.trap.xval else trapM PRIV
  | 0x03 => pure x.rpc
  | 0x04 => pure (x.fflags.setWidth 64)
  | 0x05 => pure (x.frm.setWidth 64)
  | 0x06 => pure x.gen.gseed
  | 0x07 => pure x.gen.gctr
  | 0x08 => pure (x.live.setWidth 64)
  | 0x09 => pure (if x.migratory then 0 else x.depmask.setWidth 64)
  | 0x0A => pure x.rsbase
  | 0x0B => pure x.rslim
  | 0x0C => pure x.wbase
  | 0x0D => pure x.jobid
  | 0x0E => do return BitVec.ofNat 64 (lcoreOf (← myCore))
  | 0x0F => pure ((s.die d).incarn.setWidth 64)
  | n =>
    if 0x10 ≤ n ∧ n ≤ 0x13 then
      if tagAllowed h x then pure ((s.die d).tagen.extractLsb' (64 * (n - 0x10)) 64) else trapM PRIV
    else if 0x14 ≤ n ∧ n ≤ 0x17 then
      if tagAllowed h x then pure (tagWord fun i => !(lookupD [] (64 * (n - 0x14) + i) (s.die d).tagq).isEmpty) else trapM PRIV
    else illclass

/-- A word of a bit set replaced. -/
def putTagWord (t : BitVec 256) (i : Nat) (v : Word) : BitVec 256 :=
  (t &&& ~~~((0xFFFFFFFFFFFFFFFF#256) <<< (64 * i))) ||| (v.setWidth 256 <<< (64 * i))

/-- Whether a system register may be written: the read-only ones and the unassigned numbers raise ILLCLASS, those of the supervisor
PRIV in user mode (R90, R152). -/
def sysWritable (n : Nat) : M Unit := do
  let x ← hartM
  let h ← me
  if n ≤ 0x0C && n ≠ 0x03 then do
    if x.migratory && (n = 0x0A || n = 0x0B) then illclass
    if (n ≤ 0x02 || 0x0A ≤ n) && !x.trap.mode then trapM PRIV
  else if 0x10 ≤ n && n ≤ 0x13 then guardM (tagAllowed h x) (trapM PRIV)
  else illclass
/-- What a supervisor's write of RSBASE, RSLIM or WBASE must leave, R83, R90: both ends multiples of 32, WBASE a multiple of 8 within the
segment. The fault of a write that does not is the one named for the register stack (00_scope R12, log entry 58): RSTACK-UNF below the
segment, RSTACK-OVF above it, with the WBASE it would leave, and ACCESS for a misaligned value. -/
def stackWritable (n : Nat) (v : Word) : M Unit := do
  let x ← hartM
  let base := if n = 0x0A then v else x.rsbase
  let lim := if n = 0x0B then v else x.rslim
  let w := if n = 0x0C then v else x.wbase
  if v.toNat % (if n = 0x0C then 8 else 32) ≠ 0 then trapM ACCESS v
  if w.toNat < base.toNat then trapM 0x06 w
  if lim.toNat < w.toNat then trapM 0x05 w
/-- A write of a system register. -/
def writeSys (n : Nat) (v : Word) : M Unit := do
  sysWritable n
  if 0x0A ≤ n && n ≤ 0x0C then stackWritable n v
  match n with
  | 0x00 => modH fun y => { y with trap := { y.trap with xcause := v.setWidth 32 &&& 0xC0FF00FF } }
  | 0x01 => modH fun y => { y with trap := { y.trap with xpc := v } }
  | 0x02 => modH fun y => { y with trap := { y.trap with xval := v } }
  | 0x04 => modH fun y => { y with fflags := writeFflags v }
  | 0x05 => modH fun y => { y with frm := writeFrm v }
  | 0x06 => modH fun y => { y with gen := { y.gen with gseed := v } }
  | 0x07 => modH fun y => { y with gen := { y.gen with gctr := v } }
  | 0x08 => modH fun y => { y with live := v.setWidth 16 }
  | 0x09 => modH fun y => if y.migratory then y else { y with depmask := v.setWidth 16 }
  | 0x0A => modH fun y => { y with rsbase := v }
  | 0x0B => modH fun y => { y with rslim := v }
  | 0x0C => modH fun y => { y with wbase := v }
  | n => do
    let d ← myDie
    modS fun s => s.modDie d fun x => { x with tagen := putTagWord x.tagen (n - 0x10) v }

/-- R158. `sysr`. -/
def execSysr (s : State) : Out :=
  runM 0x0A0 (do
    useClass .sys
    let f ← ir
    names [] [f.d]
    writeReg f.d (← readSys (f.imm.toNat % 256))
    retire) s

/-- R158. `sysw`. -/
def execSysw (s : State) : Out :=
  runM 0x0A1 (do
    useClass .sys
    let f ← ir
    names [f.a] []
    sysWritable (f.imm.toNat % 256)
    writeSys (f.imm.toNat % 256) (← readReg f.a)
    retire) s

/-! ### Translation -/

/-- A TLB entry's two doublewords, R293. -/
def entryOf (w0 w1 : Word) : TlbEntry :=
  let a := w0.toNat
  let b := w1.toNat
  { vpn := a / 2 ^ 16 % 2 ^ 41, space := b % 2 ^ 16, frame := b / 2 ^ 16 % 2 ^ 40, big := a.testBit 1, x := a.testBit 4, w := a.testBit 3,
    r := a.testBit 2 }
def entryOk (w0 w1 : Word) : Bool :=
  let a := w0.toNat
  let b := w1.toNat
  a / 2 ^ 57 == 0 && a / 2 ^ 5 % 2 ^ 11 == 0 && a.testBit 0 && b / 2 ^ 56 == 0 &&
    (!a.testBit 1 || (a / 2 ^ 16 % 2 ^ 13 == 0 && b / 2 ^ 16 % 2 ^ 13 == 0))
/-- The set of a quad TLB entry. -/
def TlbEntry.set (e : TlbEntry) : Nat := if e.big then e.vpn / 2 ^ 13 % 64 else e.vpn % 64
/-- Drops the oldest of the entries that satisfy p when there are n of them; the newest stands first. -/
def dropOldest (p : TlbEntry → Bool) (n : Nat) (l : List TlbEntry) : List TlbEntry :=
  if (l.filter p).length < n then l
  else match l.reverse.find? p with
    | some e => (l.reverse.erase e).reverse
    | none => l
/-- Writes an entry into a TLB, R296. -/
def Quad.tlbWrite (q : Quad) (pipe : Bool) (e : TlbEntry) : Quad :=
  if pipe then { q with pipeTlb := e :: dropOldest (fun _ => true) 64 q.pipeTlb }
  else { q with tlb := e :: dropOldest (fun o => o.set == e.set) 8 q.tlb }
/-- Whether an entry covers a page. -/
def TlbEntry.covers (e : TlbEntry) (space page : Nat) : Bool := e.hits space (page * 2 ^ 16)
/-- Whether an access of a hart is parked, and only `replay` retries it (R298). -/
def State.parkedFor (s : State) (h : HartId) (pipe : Bool) (space page : Nat) : Bool :=
  (s.die (dieOfHart h)).parkedMiss.any fun m => m.loadPipe == pipe && m.space == space && m.page == page && m.waiters.contains h
/-- The harts that wait on a miss which an entry covers retry, but for those whose access is parked. -/
def State.wake (s : State) (q : QuadKey) (pipe : Bool) (e : TlbEntry) : State :=
  let f := fun (p : HartId × Hart) => match p.2.wait with
    | some (.tlb lp sp pg) =>
      if lp == pipe && s.quadOf p.1 == q && e.covers sp pg && !s.parkedFor p.1 lp sp pg then (p.1, { p.2 with wait := none }) else p
    | _ => p
  { s with harts := s.harts.map f }
/-- `tlbw` with a target word: the quad and whether it is a load-pipe TLB. -/
def tlbTarget (die : DieKey) (id : Nat) : Option (QuadKey × Bool) :=
  if id < 96 then some (96 * die + id, false) else if 128 ≤ id ∧ id < 224 then some (96 * die + (id - 128), true) else none

/-- R296. `tlbw`. -/
def execTlbw (s : State) : Out :=
  runM 0x0A2 (do
    useClass .tlb
    supervisorOnly
    let f ← ir
    let vs ← readRange f.a.toNat 3
    let w0 := vs.getD 0 0
    let w1 := vs.getD 1 0
    let t := vs.getD 2 0
    let d ← myDie
    let e := entryOf w0 w1
    match tlbTarget d (t.toNat % 256) with
    | none => trapM ACCESS t
    | some (q, pipe) => do
      if t.toNat / 2 ^ 9 ≠ 0 || !entryOk w0 w1 then trapM ACCESS t
      let mine := fun (m : Miss) => m.quad == q && m.loadPipe == pipe && e.covers m.space m.page
      let s ← get
      let ms := (s.die d).misses.filter mine
      modS fun s => s.modDie d fun x =>
        { x with misses := x.misses.filter (fun m => !mine m), walking := x.walking.filter (fun w => !mine w.2.1) }
      if t.toNat.testBit 8 then
        if 4096 < (s.die d).parkedMiss.length + ms.length then modS fun s => s.wake q pipe e
        else modS fun s => ms.foldl (fun s m => s.pageFault (m.waiters.headD (.ctx 0 0)) q pipe m.space (m.page * 2 ^ 16) m.kind m.waiters) s
      else modS fun s => (s.modQuad q fun x => x.tlbWrite pipe e).wake q pipe e
      retire) s

/-- The entries that `tlbinv` removes. -/
def invHits (k : Nat) (va space : Nat) (e : TlbEntry) : Bool :=
  match k with
  | 0 => e.hits (space % 2 ^ 16) va
  | 1 => e.space == space % 2 ^ 16
  | _ => true
/-- Whether accesses of a package are still under way: a buffered store, or a remote atomic on its way. -/
def State.accessesLeft (s : State) (pkg : Nat) : Bool :=
  let own := fun (m : Msg) => match m with
    | .atomic _ r => dieOfHart r.hart / 4 == pkg
    | _ => false
  s.cores.any (fun c => pkgOfCore c.1 == pkg && !c.2.wbuf.isEmpty) ||
  s.dies.any (fun d => d.2.inbox.any own || d.2.heldAtomics.any (fun r => dieOfHart r.hart / 4 == pkg) ||
    d.2.links.toList.any (fun l => l.any fun p => own p.msg) || d.2.ports.any (fun p => own p.2.msg) || d.2.pond.any (fun p => own p.2.msg) ||
    d.2.outq.any (fun p => own p.2.msg) || d.2.kept.any fun p => own p.msg)

/-- R297. `tlbinv`: the entries go at once; the thread goes on when the accesses under way are performed. -/
def execTlbinv (s : State) : Out :=
  runM 0x0A3 (do
    useClass .tlb
    supervisorOnly
    let f ← ir
    let k := f.imm.toNat % 4
    let vs ← (if k = 2 then pure [] else readRange f.a.toNat 2)
    let hit := invHits k (vs.getD 0 0).toNat (vs.getD 1 0).toNat
    let d ← myDie
    let kill := fun (e : TlbEntry) => if hit e then { e with dead := true } else e
    let cut := fun (q : Quad) => { q with tlb := q.tlb.map kill, pipeTlb := q.pipeTlb.map kill }
    let one := fun (p : QuadKey × Quad) => if dieOfQuad p.1 / 4 = d / 4 then (p.1, cut p.2) else p
    let clear := fun (s : State) => { s with quads := s.quads.map one }
    let s ← get
    if s.accessesLeft (d / 4) then stallWith clear
    modS clear
    retire) s

/-- A parked access retries, R298: it goes on, sends a fresh miss, or faults again. -/
def State.retryMiss (s : State) (m : Miss) : State :=
  let h := m.waiters.headD (.ctx 0 0)
  let va := m.page * 2 ^ 16
  match s.translate m.quad m.loadPipe m.space va m.kind with
  | .ok _ =>
    let one := fun (p : HartId × Hart) =>
      if p.2.wait = some (.tlb m.loadPipe m.space m.page) && s.quadOf p.1 = m.quad then (p.1, { p.2 with wait := none }) else p
    { s with harts := s.harts.map one }
  | .miss => s.missFor h m.quad m.loadPipe m.space va m.kind
  | .noRight => s.pageFault h m.quad m.loadPipe m.space va m.kind
/-- Retries the parked accesses of a die. -/
def State.replayDie (s : State) (d : DieKey) : State :=
  let l := (s.die d).parkedMiss
  l.foldl State.retryMiss (s.modDie d fun x => { x with parkedMiss := [] })

/-- R298. `replay`. -/
def execReplay (s : State) : Out :=
  runM 0x0A4 (do
    useClass .sys
    supervisorOnly
    let f ← ir
    let d ← myDie
    if f.imm.getLsbD 0 then modS fun s => (List.range 4).foldl (fun s i => s.replayDie (4 * (d / 4) + i)) s
    else modS fun s => s.replayDie d
    retire) s

/-- R189. `l1inv`. -/
def execL1inv (s : State) : Out :=
  runM 0x0A5 (do
    useClass .sys
    let c ← myCore
    modS fun s => s.modCore c fun k => { k with l1 := [] }
    retire) s

/-- Results of a range of window registers. -/
def writeRange (d : Nat) : List Word → M Unit
  | [] => pure ()
  | v :: r => do writeReg (BitVec.ofNat 5 d) v; writeRange (d + 1) r

/-- The message of a miss, R294. -/
def Miss.words (m : Miss) : List Word :=
  [BitVec.ofNat 64 (m.page * 2 ^ 16),
   BitVec.ofNat 64 ((if m.kind = 5 then 1 else m.kind) * 2 ^ 24 + (m.quad % 96 + (if m.loadPipe then 128 else 0)) * 2 ^ 16 + m.space),
   BitVec.ofNat 64 (m.slot % 64 * 2 ^ 16 + m.lcore)]

/-- R299. `wfm`: PRIV for a thread in user mode (R295), ILLCLASS for every hart but a translation service core. -/
def execWfm (s : State) : Out :=
  runM 0x0AB (do
    let h ← me
    let x ← hartM
    match h with
    | .tsc d n => do
      let f ← ir
      let s ← get
      match (s.die d).missq.toList.getD n [] with
      | [] => waitFor .request
      | m :: r => do
        modS fun s => s.modDie d fun y => { y with missq := y.missq.setIfInBounds n r, walking := setKey n (m, x.pc) y.walking }
        writeRange f.d.toNat m.words
        retire
    | h => if isThread h && !x.trap.mode then trapM PRIV else illclass) s

/-! ### Contexts -/

/-- The offsets of a context image's written doublewords, R159: the vector and stream parts only where they were used. -/
def imageOffsets (x : Hart) : List Nat :=
  (List.range 16).filterMap (fun i => if x.live.getLsbD i then some (8 * i) else none) ++
  (List.range' 0x10 28).map (8 * ·) ++ (List.range' 0x44 33).map (8 * ·) ++
  (if x.vused then (List.range' 0x40 4).map (8 * ·) ++ (List.range' 0x80 512).map (8 * ·) else []) ++
  (if x.qused then (List.range' 0x280 1056).map (8 * ·) else [])
/-- Writes a thread's image; a frame out of the context cache is there already. -/
def State.writeImage (s : State) (base : Nat) (x : Hart) : State :=
  ((imageOffsets x).filter fun o => !x.absent.contains (frameOf o)).foldl (fun s o => s.putWord (base + o) (imageWord x o)) s
/-- A thread as its image in memory says; what was not written reads as zero. -/
def State.readImage (s : State) (base : Nat) (x : Hart) : Hart :=
  let w := fun (o : Nat) => s.word (base + o)
  let st := (w 0xD8).toNat
  let live := BitVec.ofNat 16 (st / 2 ^ 8)
  let vu := st.testBit 51
  let qu := st.testBit 52
  let loop := fun (i : Nat) =>
    ({ count := BitVec.ofNat 24 (w (0x118 + 24 * i)).toNat, reload := BitVec.ofNat 24 ((w (0x118 + 24 * i)).toNat / 2 ^ 24),
       start := w (0x120 + 24 * i), stop := w (0x128 + 24 * i) } : Loop)
  let vec := fun (i : Nat) => if vu then BitVec.ofNat 1024 (leNat (s.bytes (base + 0x400 + 128 * i) 128)) else 0
  let q := fun (i : Nat) => if qu then s.streamAt (base + 0x1400 + 0x210 * i) else {}
  { x with
    regs :=
      { x := Vector.ofFn fun (i : Fin 16) => if live.getLsbD i.val then w (8 * i.val) else 0
        g := Vector.ofFn fun (i : Fin 8) => w (0x80 + 8 * i.val)
        v := Vector.ofFn fun (i : Fin 32) => vec i.val
        k := Vector.ofFn fun (i : Fin 8) => if vu then BitVec.ofNat 32 (s.num (base + 0x200 + 4 * i.val) 4) else 0
        q := Vector.ofFn fun (i : Fin 16) => q i.val }
    pc := w 0xC0
    gen :=
      { gseed := w 0xC8, gctr := w 0xD0
        cmode := Vector.ofFn fun (i : Fin 16) => BitVec.ofNat 2 ((w 0x320).toNat / 4 ^ i.val)
        cseed := Vector.ofFn fun (i : Fin 16) => w (0x220 + 16 * i.val)
        cctr := Vector.ofFn fun (i : Fin 16) => w (0x228 + 16 * i.val) }
    loops := Vector.ofFn fun (i : Fin 3) => loop i.val
    trap := { xcause := (w 0x100).setWidth 32, xpc := w 0x108, xval := w 0x110, mode := st.testBit 44, pmode := st.testBit 45, trapped := st.testBit 46 }
    wbase := w 0xE0, rsbase := w 0xE8, rslim := w 0xF0, rpc := w 0xF8
    inRegion := st.testBit 47, restarts := st / 2 ^ 48 % 4, fflags := BitVec.ofNat 32 (st % 32), frm := writeFrm (BitVec.ofNat 64 (st / 2 ^ 5))
    live := live, depmask := BitVec.ofNat 16 (st / 2 ^ 24), vused := vu, qused := qu, prio := st / 2 ^ 53 % 8 }

/-- Whether a pre-emption abandons a wait, so that the instruction issues again after `ctxload` (11 R176, 06 R111): translation, a frame, a
line, a lock, an answer of R223; a held `align` is past. -/
def Wait.abandoned : Wait → Bool
  | .lock .. | .tlb .. | .frame _ | .fetch .. | .firstWrite _ | .align _ => true
  | _ => false
/-- The misses and parked accesses of a die no longer concern a hart. -/
def State.dropMisses (s : State) (h : HartId) : State :=
  let cut := fun (l : List Miss) => (l.map fun m => { m with waiters := m.waiters.filter (· ≠ h) })
  s.modDie (dieOfHart h) fun x => { x with misses := cut x.misses, parkedMiss := (cut x.parkedMiss).filter fun m => !m.waiters.isEmpty }
/-- The wait of a thread that a pre-emption stops. -/
def State.abandonWait (s : State) (h : HartId) : State :=
  match (s.hart h).wait with
  | some w =>
    if w.abandoned then
      let s := s.modHart h fun x => { x with wait := none }
      match w with
      | .tlb .. => s.dropMisses h
      | .lock c _ _ => s.modCore c fun k => { k with lockq := k.lockq.filter (fun p => p.2 ≠ h) }
      | _ => s
    else s
  | none => s
/-- A pre-empted thread is filled from its image and runs on, R163; where the image cannot be read it ends (R161). -/
def State.resumeImage (s : State) (h : HartId) (x : Hart) : State × Bool :=
  let base := s.imageBase h
  if s.imageLost h false || (imageOffsets x).any (fun o => s.isPoisoned (base + o) 8) then (s.endThread h CONTEXTLOST 0, false)
  else ((s.setHart h { s.readImage base x with phase := .active, preempt := false, stopping := false, parked := false }.outOfCache), true)
/-- A context request at the core it names, R163: the answer, where there is one at once. -/
def State.ctxRequest (s : State) (src : HartId) (tag : Nat) (load : Bool) (c : CoreKey) (slot : Nat) : State × Option Nat :=
  let h := HartId.ctx c slot
  match s.hart? h with
  | none => (s, some 1)
  | some x =>
    if load then
      if x.phase ≠ .preempted then (s, some 2)
      else match s.resumeImage h x with
        | (s, true) => (s, some 0)
        | (s, false) => (s, some 0x21)
    else if x.phase = .preempted then (s, some 2)
    else if x.phase = .ending then (s, some 1)
    else (s.setHart h { x.askPreempt with preemptBy := x.preemptBy ++ [(src, tag)] }, none)

/-- `ctxsave` and `ctxload`. -/
def ctxInstr (op : Nat) (load : Bool) (s : State) : Out :=
  runM op (do
    useClass .sys
    let f ← ir
    names [f.a] [f.d]
    let a ← readReg f.a
    let h ← me
    let d ← myDie
    let lc := a.toNat % 2 ^ 11
    let slot := a.toNat / 2 ^ 16 % 64
    let c := 1536 * (d / 4) + lc
    if h = .ctx c slot then illclass
    supervisorOnly
    let ws ← destReg f.d 0
    let tag ← freshTag
    result ws 0 none false tag
    if 1535 < lc then modS fun s => s.returnTag h tag 1
    else if dieOfCore c = d then
      modS fun s =>
        let r := s.ctxRequest h tag load c slot
        match r.2 with
        | some v => r.1.returnTag h tag (BitVec.ofNat 64 v)
        | none => r.1
    else modS fun s => s.send d (dieOfCore c) 4 (.ctxReq h tag load c slot)
    retire) s

/-- R163. `ctxsave`. -/
def execCtxsave (s : State) : Out := ctxInstr 0x0A9 false s
/-- R163. `ctxload`. -/
def execCtxload (s : State) : Out := ctxInstr 0x0AA true s

/-! ### Event counters -/

/-- The control-block offset of counter k of the executing core, or of its die. -/
def counterOff (c : CoreKey) (k : Nat) : Nat := if k < 8 then 0x500000 + 0x80 * (c % 384) + 0x10 * k else 0x510000 + 0x10 * (k - 32)

/-- R324. `ecrd`. -/
def execEcrd (s : State) : Out :=
  runM 0x0A6 (do
    useClass .sys
    let f ← ir
    names [] [f.d]
    let k := f.imm.toNat % 64
    if 32 ≤ k then supervisorOnly
    let c ← myCore
    let s ← get
    writeReg f.d (s.ctlGet (dieOfCore c) (counterOff c k + 8))
    retire) s

/-- R324. `ecset`. -/
def execEcset (s : State) : Out :=
  runM 0x0A7 (do
    useClass .sys
    let f ← ir
    names [f.a] []
    supervisorOnly
    let k := f.imm.toNat % 64
    let a ← readReg f.a
    let c ← myCore
    if counterBad (32 ≤ k) (a &&& ~~~(1#64 <<< 62)) then trapM ACCESS a
    modS fun s => (s.ctlPut (dieOfCore c) (counterOff c k) (a &&& ~~~(1#64 <<< 62))).ctlPut (dieOfCore c) (counterOff c k + 8) 0
    retire) s

/-- R324. `ecclr`. -/
def execEcclr (s : State) : Out :=
  runM 0x0A8 (do
    useClass .sys
    supervisorOnly
    let f ← ir
    let k := f.imm.toNat % 64
    let c ← myCore
    let d := dieOfCore c
    let o := counterOff c k
    modS fun s => (s.ctlPut d (o + 8) 0).ctlPut d o (s.ctlGet d o &&& ~~~(1#64 <<< 62))
    retire) s

end Sys2Proof.Machine
end

