-- ==== Sys2Proof/Machine/Threads.lean ====
section
/-! DEFINITION. How a thread starts (05_registers R80, R82, R84, R86, 04 R70, 08 R138), future cells (15 R245, R246), and the homes of
elements (18 R311, R312). -/

namespace Sys2Proof.Machine

/-! ### Contexts -/

/-- Whether a context of a core is taken: by a thread, or reserved by a dispatcher (R280). -/
def State.ctxTaken (s : State) (c : CoreKey) (n : Nat) : Bool :=
  (s.hart? (.ctx c n)).isSome || (s.die (dieOfCore c)).acqs.any (fun a => a.2.ctx == (c, n) && !a.2.issued)
/-- The lowest free allocatable context of a core, R86. -/
def State.freeSlot (s : State) (c : CoreKey) : Option Nat := (List.range Config.allocatable).find? (fun n => !s.ctxTaken c n)
/-- The first of some cores that has one. -/
def State.freeAmong (s : State) (cs : List CoreKey) : Option (CoreKey × Nat) := cs.findSome? fun c => (s.freeSlot c).map fun n => (c, n)
def quadCores (q : QuadKey) : List CoreKey := (List.range 4).map (coreOfQuad q)
def dieCores (d : DieKey) : List CoreKey := (List.range 384).map (coreAt d)

/-! ### The state at thread start -/

/-- GSEED at thread start, R70. -/
def startSeed (seed : Word) (element : Option Nat) (lcore slot : Nat) : Word :=
  match element with
  | some e => mix (seed ^^^ (0x0E#64 <<< 56) ^^^ BitVec.ofNat 64 e)
  | none => mix (seed ^^^ (0x0F#64 <<< 56) ^^^ (BitVec.ofNat 64 lcore <<< 8) ^^^ BitVec.ofNat 64 slot)
/-- The generators at thread start, R70, R138. -/
def startGen (g : Word) : Gen :=
  { gseed := g, cseed := Vector.ofFn fun (c : Fin 16) => mix (g ^^^ (BitVec.ofNat 64 (0x20 + c.val) <<< 56)) }
def tidOf (identity lcore slot : Nat) : Word := BitVec.ofNat 64 (identity % 2 ^ 24 * 2 ^ 40 + lcore * 2 ^ 16 + slot)
/-- A stack of the core's pool for a slot, or a default, R84. -/
def State.stackFor (s : State) (c : CoreKey) (slot : Nat) (dflt : Word × Word) : Word × Word :=
  let o := 0x4800 + 16 * (c % 384)
  let base := s.ctlGet (dieOfCore c) o
  let stride := s.ctlGet (dieOfCore c) (o + 8)
  if stride = 0 then dflt else (base + stride * BitVec.ofNat 64 slot, base + stride * BitVec.ofNat 64 slot + stride)
/-- A thread of a launch at its start, with its windows' first registers. -/
def State.startHart (s : State) (c : CoreKey) (slot : Nat) (o : Origin) (entry : Word) (args : List Word) (stack : Word × Word)
    (prio : Nat) : Hart :=
  let y := match o.launch with
    | some l => (s.launch? l).getD {}
    | none => {}
  let g := startSeed y.packet.seed (if o.acq.isSome then o.element else none) (lcoreOf c) slot
  { regs := { x := windowOf fun i => args.getD i 0 }
    pc := entry
    tid := tidOf y.packet.identity.toNat (lcoreOf c) slot
    gen := startGen g
    trap := { mode := y.supervisor }
    wbase := stack.1, rsbase := stack.1, rslim := stack.2
    jobid := y.packet.seed
    prio := prio
    origin := o
    fresh := true
    since := s.clock + 1 }
/-- A thread takes its context: the bank that holds it wakes (05 R88), and the clock of the issue rule numbers its start. -/
def State.placeHart (s : State) (h : HartId) (x : Hart) : State :=
  let s := { s.setHart h x with clock := s.clock + 1 }
  match s.coreOf h with
  | some c => if (s.core c).gated.isEmpty then s else s.modCore c fun k => { k with gated := k.gated.filter (· ≠ slotOf h % 16) }
  | none => s
/-- A firmware hart starts at its start event, where the supervisor has loaded its image (02_machine R20): at the start of the image, its
register stack empty (06 R114). What its unit does is defined apart from its image (DESIGN CHOICE, log entry 59). -/
def State.startFirmware (s : State) (h : HartId) (o : Origin) : State :=
  if !(s.die (dieOfHart h)).images.contains h || s.running h then s
  else s.setHart h { origin := o, rslim := 4096, sram := (s.hart h).sram, since := s.clock }
/-- A launch counts one more live thread. -/
def State.liveUp (s : State) (l : Option Nat) : State :=
  match l with
  | some l => s.modLaunch l fun y => { y with live := y.live + 1 }
  | none => s

/-! ### Future cells -/

/-- A free cell of a core and its new handle. -/
def State.allocCell (s : State) (c : CoreKey) (owner : HartId) : Option (State × Word) :=
  match (List.range 256).find? (fun i => !((s.core c).future i).valid) with
  | none => none
  | some i =>
    let g := ((s.core c).future i).gen + 1
    let f : Future := { value := 0, full := false, owner := some owner, valid := true, gen := g }
    some (s.modCore c fun k => { k with futures := setKey i f k.futures }, mkHandle (lcoreOf c) i g.toNat)
/-- Allocates a cell of the issuing core for the issuing thread. -/
def allocM : M (Option Word) := do
  let c ← myCore
  let h ← me
  let s ← get
  match s.allocCell c h with
  | none => pure none
  | some (t, v) => do
    modS fun _ => t
    pure (some v)
/-- The cell that a handle names, for the thread that owns it, R251; any other handle raises ACCESS. -/
def ownCell (v : Word) : M (Nat × Future) := do
  let c ← myCore
  let h ← me
  let s ← get
  let f := (s.core c).future (handleCell v)
  if v.toNat / 2 ^ 40 = 3 && handleCore v = lcoreOf c && f.valid && f.gen.toNat = handleGen v && f.owner = some h then
    pure (handleCell v, f)
  else trapM ACCESS v
def freeCell (c : CoreKey) (i : Nat) (s : State) : State :=
  s.modCore c fun k => { k with futures := setKey i { k.future i with valid := false, full := false, owner := none } k.futures }

/-! ### Elements -/

/-- The home die of an element and its position there. -/
def elementAt (blocks : List Block) (e : Nat) : Option (DieKey × Nat) :=
  match blocks.find? (fun b => b.first ≤ e && e < b.first + b.count) with
  | none => none
  | some b => some (b.die, ((blocks.filter (fun c => c.die == b.die && c.first < b.first)).map (·.count)).sum + (e - b.first))
def Launch.home (y : Launch) (e : Nat) : DieKey :=
  match elementAt y.blocks e with
  | some p => p.1
  | none => y.die
/-- The RSBASE and RSLIM of launch image 0, R84. -/
def State.imageStack (s : State) (y : Launch) : Word × Word :=
  (s.unitWord y.die y.space (y.packet.image.toNat + 0xE8), s.unitWord y.die y.space (y.packet.image.toNat + 0xF0))

end Sys2Proof.Machine
end

