-- ==== Sys2Proof/Machine/CoreEvents.lean ====
section
/-! DEFINITION. The events of a core and of its threads: results and statuses that return, the context engine, the fetch port, mesh ports,
deposits, engine commands, the SSU, buffered stores and locks (chapters 03, 05, 06, 08, 09, 11, 20). -/

namespace Sys2Proof.Machine

/-! ### Results, 03 R41 -/

/-- R41, R193, R194. -/
def execResultWriteback (s : State) : Out :=
  event (fun e s =>
    let x := s.hart e.hart
    match x.outstanding[e.n]? with
    | none => s
    | some p =>
      if !p.returned then s
      else match p.poison with
        | none => s.writeBack e.hart e.n p
        | some a =>
          if p.inRegion && decide (x.restarts < Config.maxRestarts) then s.restartRegion e.hart
          else (s.writeBack e.hart e.n p).consume e.hart a p.inRegion p.unit p.second) s

/-- R177, R190: the oldest status on its way to a hart arrives and its record is appended. -/
def execAccessStatus (s : State) : Out :=
  event (fun e s =>
    match (s.hart e.hart).accesses with
    | [] => s
    | a :: _ => (s.sfqFor e.hart a).modHart e.hart fun x => { x with accesses := x.accesses.drop 1 }) s

/-! ### The context engine, 05 R85 to R88, 09 R159 to R163 -/

/-- R162. The thread issues nothing until its results are written and its SSU commands done; then its image is written. A thread on its
way to another quad is not pre-empted (02 R24). -/
def execPreEmption (s : State) : Out :=
  event (fun e s =>
    let h := e.hart
    if !isThread h then s
    else
      let x := s.hart h
      if !x.preempt || x.phase ≠ .active || x.pendingTrap.isSome || (x.migratory && x.wait == some .request) then s
      else if !x.outstanding.isEmpty || s.ssuBusy h then s.modHart h fun y => { y with stopping := true }
      else if s.imageLost h true then s.endThread h CONTEXTLOST 0
      else
        let d := dieOfHart h
        let s := s.writeImage (s.imageBase h) x
        let s := (s.abandonWait h).modHart h fun y =>
          { y with phase := .preempted, preempt := false, stopping := false, preemptBy := [], parked := false }
        x.preemptBy.foldl (fun s p => s.replyTag d p.1 p.2 0) s) s
/-- The bank of a context's frames (log entry 21). -/
def bankOf (slot : Nat) : Nat := slot % 16
/-- R85, R161: a frame of the context, or a stack frame below the window, comes into the cache where there is room. -/
def execFrameRefill (s : State) : Out :=
  event (fun e s =>
    let h := e.hart
    let c := (s.coreOf h).getD 0
    let x := s.hart h
    if (s.core c).gated.contains (bankOf (slotOf h)) then s
    else if 64 ≤ e.n then
      if x.wait ≠ some (.frame e.n) || 2048 ≤ s.cacheUse c then s
      else if e.flag then s.endThread h CONTEXTLOST 0
      else match s.refillStack h (e.n - 64) with
        | .done t => t.countCore c (slotOf h) 0x05
        | .wait t => t
        | .lease => s.endThread h LEASE 0
        | .lost => s.endThread h CONTEXTLOST 0
    else if !x.absent.contains e.n || 2048 < s.cacheUse c + frameWeight e.n then s
    else if e.flag || s.imageLost h false || s.frameLost h x e.n then s.endThread h CONTEXTLOST 0
    else (s.refill h e.n).countCore c (slotOf h) 0x05) s
/-- R88. -/
def execContextBankWake (s : State) : Out :=
  event (fun e s => s.modCore e.site fun k => { k with gated := k.gated.filter (· ≠ e.n) }) s
/-- R88. Every frame of the bank is written back before it is gated; one that a result is on its way to is not yet. -/
def execContextBankGate (s : State) : Out :=
  event (fun e s =>
    if 16 ≤ e.n then s
    else
      let mine := fun (h : HartId) => match h with
        | .ctx _ n => s.coreOf h == some e.site && bankOf n == e.n
        | .handler _ n => s.coreOf h == some e.site && bankOf (64 + n) == e.n
        | _ => false
      let hs := (s.harts.map (·.1)).filter mine
      let s := hs.foldl (fun s h => (framesOf (s.hart h)).foldl (fun s f => s.writeBackFrame h f) (s.spillNow h)) s
      let kept := hs.any fun h => (s.hart h).phase == .active &&
        (!(s.hart h).below.isEmpty || (framesOf (s.hart h)).any fun f => !(s.hart h).absent.contains f)
      if kept then s
      else s.modCore e.site fun k => { k with gated := if k.gated.contains e.n then k.gated else e.n :: k.gated }) s

/-- The die whose inbox holds a migration message of a hart, with the quad it goes to. -/
def State.migrationOf (s : State) (h : HartId) : Option (DieKey × QuadKey) :=
  s.dies.findSome? fun p => p.2.inbox.findSome? fun m => match m with
    | .migrate g q => if g = h then some (p.1, q) else none
    | _ => none
/-- What a migration changes, 02 R24, 09 R159: its message carries the window, the PC, the generator and the status words. No register table
lists MIGRATION as changing XCAUSE, XPC, XVAL or RPC (05 R90), so they stay as they are; the class generators, which a migratory thread
cannot use, start at 0 (DESIGN CHOICE, log entry 26). -/
def migrated (x : Hart) : Hart :=
  { regs := { x := x.regs.x }, pc := x.pc, tid := x.tid
    gen := { gseed := x.gen.gseed, gctr := x.gen.gctr }
    trap := x.trap
    rpc := x.rpc
    wbase := x.wbase, rsbase := x.rsbase, rslim := x.rslim
    fflags := x.fflags, frm := x.frm, live := x.live, depmask := x.depmask, jobid := x.jobid, prio := x.prio, migratory := x.migratory
    restarts := x.restarts, origin := x.origin, preempt := x.preempt, preemptBy := x.preemptBy, since := x.since, stamp := x.stamp }
/-- R24, R161: the thread is unpacked into the lowest free context of its home quad, or refused; a quad of another owner's partition takes
none (R30). -/
def execMigrationArrival (s : State) : Out :=
  event (fun e s =>
    let h := e.hart
    match s.migrationOf h with
    | none => s
    | some (d, q) =>
      let s := s.modDie d fun y => { y with inbox := y.inbox.filter fun m => match m with
        | .migrate g _ => decide (g ≠ h)
        | _ => true }
      match (if s.foreignDie d (s.hart h).origin.owner then none else s.freeAmong (quadCores q)) with
      | none => s.modHart h fun x => { x with wait := none, grant := some 3 }
      | some (c, n) =>
        if e.flag then s.endThread h CONTEXTLOST 0
        else
          let y := migrated (s.hart h)
          let s := { s with harts := eraseKey h s.harts }.placeHart (.ctx c n) y
          let s := if s.ir.hart = h then { s with ir := { s.ir with hart := .ctx c n } } else s
          s.countDie d 0x4D) s

/-- R89, R155: DEPMASK filters a deposit as it lands (R158, R334), so one that waits for a trapped thread is filtered at `xret`. -/
def execDeposit (s : State) : Out :=
  event (fun e s =>
    let h := e.hart
    let i := e.n % 16
    match s.hart? h with
    | none => s.refuseDeposit h i e.writer
    | some x =>
      if !(isThread h) || x.migratory then s.refuseDeposit h i e.writer
      else if x.trap.trapped then s.modHart h fun y => { y with deposits := y.deposits ++ [(i, e.value, e.writer)] }
      else if !x.depmask.getLsbD i then s.refuseDeposit h i e.writer
      else s.landInWindow h i e.value) s

/-! ### The fetch port, 03 R36, R54 -/

/-- R54: the line in memory as it is delivered, and once more if its parity is wrong; a line fetched again because its cached copy was wrong
has the one try. A line that is wrong again raises PIPEERR at the slot of it that issues first. -/
def execInstructionLineFill (s : State) : Out :=
  event (fun e s =>
    let h := e.hart
    let x := s.hart h
    match x.wait with
    | some (.fetch line again) =>
      let m := lineNat (s.bytes (64 * line) 64)
      let c := (s.coreOf h).getD 0
      let fill := fun (s : State) (l : BitVec 512) =>
        (s.modQuad (s.quadOf h) fun q => { q with icache := { line := line, data := l } :: q.icache.filter (fun y => y.line != line) }).modHart h
          fun y => { y with wait := none }
      if lineParityOk (m ^^^ e.wide) then fill s (m ^^^ e.wide)
      else
        let s := s.countCore c (slotOf h) 0x0A
        if !again && lineParityOk (m ^^^ e.again) then fill s (m ^^^ e.again)
        else s.modHart h fun y => { y with wait := none, badLine := some line }
    | _ => s) s

/-- R111. -/
def execAlignTimeout (s : State) : Out :=
  event (fun e s => s.modHart e.hart fun x => match x.wait with
    | some (.align _) => { x with wait := none }
    | _ => x) s

/-! ### Mesh, 06 R115 -/

/-- A word leaves a send buffer for the neighbour's receive buffer, where there is room (R234). -/
def execMeshDelivery (s : State) : Out :=
  event (fun e s =>
    let c := e.site
    let p := e.n % 4
    match meshNeighbour c p, (s.core c).meshOut.toList.getD p [] with
    | some d, w :: r =>
      let q := (p + 2) % 4
      if 4 ≤ ((s.core d).meshIn.toList.getD q []).length then s
      else
        (s.modCore c fun k => { k with meshOut := k.meshOut.setIfInBounds p r }).modCore d fun k =>
          { k with meshIn := k.meshIn.setIfInBounds q (k.meshIn.toList.getD q [] ++ [w]) }
    | _, _ => s) s

/-! ### Engine commands and the SSU, 02 R21, 08 R135 -/

/-- Whether a companion hart is halted. -/
def State.halted (s : State) (h : HartId) : Bool := !s.running h
/-- R21: an engine accepts the oldest command of its queue. The SSU and the gather engine take one at a time; the array's operand queue
holds eight for the core (14 R233); a companion takes a kick when it is halted (15 R265). -/
def execEngineAccept (s : State) : Out :=
  event (fun e s =>
    let c := e.site
    let k := s.core c
    match e.engine with
    | .ssu =>
      if k.ssu.isEmpty then s.modCore c fun k => { k with ssu := k.cmdSsu.take 1, cmdSsu := k.cmdSsu.drop 1 } else s
    | .loader =>
      if k.kickLd.isNone && s.halted (.loader c) then s.modCore c fun k => { k with kickLd := k.cmdLd.head?, cmdLd := k.cmdLd.drop 1 } else s
    | .storer =>
      if k.kickSt.isNone && s.halted (.storer c) then s.modCore c fun k => { k with kickSt := k.cmdSt.head?, cmdSt := k.cmdSt.drop 1 } else s
    | .operandQueue =>
      let q := quadOfCore c
      let p := posOfCore c
      match k.cmdOq with
      | [] => s
      | m :: r =>
        if 8 ≤ ((s.quad q).oq.toList.getD p []).length then s
        else (s.modCore c fun k => { k with cmdOq := r }).modQuad q fun y => { y with oq := y.oq.setIfInBounds p (y.oq.toList.getD p [] ++ [m]) }
    | .gather =>
      let d := dieOfCore c
      match k.cmdGe with
      | [] => s
      | m :: r =>
        if (s.die d).gather.isEmpty then
          ((s.modCore c fun k => { k with cmdGe := r }).modDie d fun y => { y with gather := [(c, m)] }).startFirmware (.gather d)
            { launch := m.launch, owner := m.owner, space := m.space, job := m.job }
        else s) s

/-- PIPEERR in the SSU, 08 R148, 09 R154: the thread's commands are dropped, and it traps at the failed one when it is drained. -/
def State.ssuPipeErr (s : State) (k : CoreKey) (c : SsuCmd) : State :=
  let h := c.hart
  let tags := ((s.core k).cmdSsu ++ (s.core k).ssu).filterMap fun q => if q.hart = h then some q.tag else none
  let s := s.modCore k fun y => { y with cmdSsu := y.cmdSsu.filter (fun q => q.hart ≠ h), ssu := y.ssu.filter (fun q => q.hart ≠ h) }
  let s := s.modHart h fun x => { x with outstanding := x.outstanding.filter fun p => p.returned || !tags.contains p.tag }
  if c.inRegion then s.consume h 0 true 2 c.second
  else s.modHart h fun x =>
    { x with wait := none, pendingTrap := some { cause := 0x07, xval := x.pc, pc := c.pc, second := c.second, unit := 2, precise := false } }
/-- The SSU's command is over. -/
def State.ssuDone (s : State) (k : CoreKey) : State := s.modCore k fun y => { y with ssu := y.ssu.drop 1 }
/-- R135, R142 to R148. -/
def execSsuCommandExecute (s : State) : Out :=
  event (fun e s =>
    let k := e.site
    match (s.core k).ssu with
    | [] => s
    | c :: _ =>
      if e.flag then s.ssuPipeErr k c
      else
        let at0 := s.ir
        let x := s.hart c.hart
        let s0 := { s with ir := { s.ir with hart := c.hart } }
        match ssuRun c s0 with
        | .ok (bad, t) =>
          let t := { t with ir := at0 }.ssuDone k
          (match bad with
            | some a => t.consume c.hart a c.inRegion 2 c.second
            | none => t).tryGone c.hart
        | .error (.stall f) => ({ f s0 with ir := at0 }).modHart c.hart fun y => { y with wait := x.wait, grant := x.grant }
        | .error (.trap _ v) =>
          let kind := if c.op = 0x18F then 3 else 4
          ((s.ssuDone k).addAccess c.hart { kind := kind, addr := v, pc := c.pc, status := 1 }).tryGone c.hart
        | .error (.endThread cause inner) => (s.ssuDone k).endThread c.hart cause inner
        | .error (.fault _) => s.ssuDone k) s

/-! ### Buffered stores, 20 R330, and locks, 11 R184 -/

/-- Whether two entries write a byte in common. -/
def BufStore.meets (b c : BufStore) : Bool := b.cells.any fun x => c.cells.any fun y => x.1 == y.1
/-- The status of a buffered store at its home, and the state that performs it. -/
def State.performStore (s : State) (c : CoreKey) (b : BufStore) : State × Nat :=
  s.performCells (dieOfCore c) (isCtx b.hart) b.job b.owner b.rev (generalVa b.va) b.cells
/-- The record of a store that was not performed, R190; one for a vector store (R177). -/
def State.storeRecord (s : State) (c : CoreKey) (b : BufStore) (st : Nat) : State :=
  if b.silent then s
  else if b.gone then s.sfqGone b.hart
    { kind := b.kind, addr := b.va, pc := b.pc, status := st, owner := b.owner, core := c, launch := b.launch, elem := b.elem }
  else s.addAccess b.hart { kind := b.kind, addr := b.va, pc := b.pc, status := st }
/-- The virtual address under which an entry maps a physical one. -/
def TlbEntry.virtualOf (t : TlbEntry) (pa : Nat) : Option Nat :=
  if t.big then (if t.frame / 2 ^ 13 = pa / 2 ^ 29 then some (t.vpn / 2 ^ 13 * 2 ^ 29 + pa % 2 ^ 29) else none)
  else if t.frame = pa / 2 ^ 16 then some (t.vpn * 2 ^ 16 + pa % 2 ^ 16) else none
/-- The job of a package with live revisions whose region a physical address lies in, and its virtual address there (log entry 55). -/
def State.regionAt (s : State) (d : DieKey) (pa : Nat) : Option (Nat × Nat) :=
  (List.range 8).findSome? fun i =>
    let j := 8 * (d / 4) + i
    if (s.job j).revs.isEmpty then none
    else
      let known := ((lookup? (pa / 64) (s.job j).vas).map (64 * ·)).toList
      let mapped := (s.quads.filter (fun q => dieOfQuad q.1 / 4 == d / 4)).flatMap fun q => q.2.tlb.filterMap fun t =>
        if s.launches.any (fun l => l.2.job == some j && l.2.space == t.space) then t.virtualOf pa else none
      ((known ++ mapped).find? fun va => (s.regionCode d j va).isSome).map fun va => (j, va)
/-- A write of a host that reaches its home die, 29_fabric_system R376, 13_revisions R224: through an access window, in the root revision,
and not into a page of code; a refused one changes nothing, and its status goes back to the host. -/
def State.hostWrite (s : State) (d : DieKey) (host owner pa : Nat) (bs : List Byte) : State :=
  let n := bs.length
  if n = 0 || 64 < pa % 64 + n || !present pa || homeOf pa ≠ d || s.granted pa || s.windowStatus d owner host 0 pa n true ≠ 0 then s
  else match s.regionAt d pa with
    | none => s.putCells (cellsAt pa bs)
    | some (j, va) => match s.firstWrite j 0 (pa / 64) (va / 64) with
      | some t => t.putCells (cellsAt pa bs)
      | none => s
/-- R330: the i-th buffered store is performed, behind earlier ones to its bytes and earlier lines of its vector. With the flag, it is a
host's write that is performed. -/
def execHomeStorePerform (s : State) : Out :=
  event (fun e s =>
    if e.flag then s.hostWrite e.site e.n e.m e.value.toNat ((List.range (e.k % 65)).map fun i => e.wide.extractLsb' (8 * i) 8)
    else
    let c := e.site
    let l := (s.core c).wbuf
    match l[e.n]? with
    | none => s
    | some b =>
      if (l.take e.n).any (fun o => o.meets b || (b.vec != 0 && o.vec == b.vec)) then s
      else
        let hush := fun (o : BufStore) => if b.vec != 0 && o.vec == b.vec then { o with silent := true } else o
        let r := s.performStore c b
        let s := r.1.modCore c fun k => { k with wbuf := k.wbuf.eraseIdx e.n }
        (if r.2 = 0 then s else (s.storeRecord c b r.2).modCore c fun k => { k with wbuf := k.wbuf.map hush }).tryGone b.hart) s

/-- R184: a clear bit goes to the waiting `ldlk` that arrived first. -/
def execLockGrant (s : State) : Out :=
  event (fun e s =>
    let c := e.site
    let b := 8 * e.n + e.k % 8
    let k := s.core c
    if k.locks.any (fun l => l.1 == b) then s
    else match k.lockq.find? (fun l => l.1 == b) with
      | none => s
      | some l =>
        if (s.hart l.2).phase ≠ .active || (s.hart l.2).wait ≠ some (.lock c e.n (e.k % 8)) then
          s.modCore c fun k => { k with lockq := k.lockq.erase l }
        else (s.modCore c fun k => { k with locks := l :: k.locks, lockq := k.lockq.erase l }).modHart l.2 fun x =>
          { x with lock := some (c, e.n, e.k % 8), wait := none, grant := some 6 }) s

end Sys2Proof.Machine
end

