-- ==== Sys2Proof/Machine/CodeEvents.lean ====
section
/-! DEFINITION. The code-page scanner (03_instruction_lines R38, R51 to R53): execute grants, and the start of a companion hart
(15_task_message_instructions R265). -/

namespace Sys2Proof.Machine

/-! ### What the scanner finds, R52 -/

/-- The class and destinations of a slot, for R38. -/
def pairClassOf (op : Nat) : PairClass :=
  match opRow op with
  | some r => r.info.pair
  | none => .none
/-- Slots whose field d names a source: stores. -/
def dIsSource (op : Nat) : Bool := [0x081, 0x083, 0x085, 0x08E, 0x141, 0x143, 0x145].contains op
/-- The registers that an instruction writes, by kind and number; `zero`, whose writes are discarded, is one of them
(DEDUCED: R38 compares what the slots name). -/
def destKeys (op : Nat) (f : Slot) : List (RegKind × Nat) :=
  match opRow op with
  | none => []
  | some r =>
    let d := if dIsSource op || r.info.d = .unused then [] else [(r.info.d, f.d.toNat)]
    if op = 0x087 || op = 0x089 then d ++ [(.scalar, f.b.toNat)] else d
def isScalarClass (c : PairClass) : Bool := c == .scalar || c == .float
/-- Whether two slots may pair, R38. -/
def pairLegal (w1 w2 : BitVec 96) (target2 : Bool) : Bool :=
  let o1 := slotOpcode w1
  let o2 := slotOpcode w2
  let c1 := pairClassOf o1
  let c2 := pairClassOf o2
  let kinds :=
    (isScalarClass c1 && isScalarClass c2 && !(c1 == .float && c2 == .float)) || (isScalarClass c1 && (c2 == .vector || c2 == .mem || c2 == .control)) ||
      ((c1 == .vector || c1 == .mem) && isScalarClass c2)
  kinds && !slotMarker w1 && !target2 && (destKeys o1 (slotFields w1)).all (fun k => !(destKeys o2 (slotFields w2)).contains k)
/-- Whether a slot is a direct transfer. -/
def isDirect (op : Nat) : Bool := [0x060, 0x061, 0x062, 0x063, 0x064, 0x066].contains op
/-- The lines of a page or store, by number; how many there are. -/
abbrev CodeLines := Nat → BitVec 512
/-- The reasons that apply to a slot of line k. -/
def slotFaults (page : CodeLines) (n k i : Nat) : List Nat :=
  let l := page k
  let w := slotOfLine l i
  let op := slotOpcode w
  let f := slotFields w
  let t := templateOf l
  let form := match slotReason op f with
    | some r => [r]
    | none => []
  let off : Int := (64 * k : Int) + (f.imm.toInt / 64) * 64
  let direct := isDirect op && 0 ≤ off && off < 64 * n && !(page (off.toNat / 64)).getLsbD (480 + 27 + f.imm.toNat % 8)
  form ++ (if parityOf w = l.getLsbD (480 + 18 + i) then [] else [4]) ++
    (if i ≠ 0 && pairFirst t (i - 1) && !pairLegal (slotOfLine l (i - 1)) w (l.getLsbD (480 + 27 + i)) then [5] else []) ++
    (if direct then [6] else [])
/-- The least of a list. -/
def leastOf : List Nat → Option Nat
  | [] => none
  | a :: r => match leastOf r with
    | none => some a
    | some b => some (min a b)
/-- The offence in line k: its slot, or 7 for the line word, and its reason. -/
def lineFault (page : CodeLines) (n k : Nat) : Option (Nat × Nat) :=
  let l := page k
  if l = 0 then none
  else match (List.range 5).findSome? (fun i => (leastOf (slotFaults page n k i)).map fun r => (i, r)) with
    | some p => some p
    | none =>
      let w := l.toNat / 2 ^ 480
      let r := (if w % 2 ^ 17 ≠ 0 then [2] else []) ++ (if onesCount 32 (w / 2 ^ 17) % 2 = 0 then [] else [4]) ++ (if 8 ≤ templateOf l then [5] else [])
      (leastOf r).map fun x => (7, x)
/-- The first offence in n lines, in the form of R52 with the line addresses counted from a base. -/
def scanLines (page : CodeLines) (n base : Nat) : Option Word :=
  (List.range n).findSome? fun k => (lineFault page n k).map fun p => BitVec.ofNat 64 (base + 64 * k + 8 * p.2 + p.1)

/-! ### Execute grants, R51 -/

/-- The physical address of a die's frame. -/
def frameAddr (die n : Nat) : Nat := die * 2 ^ 46 + n % 2 ^ 30 * 2 ^ 16
def State.codePage (s : State) (pa : Nat) : CodeLines := fun k => lineNat (s.bytes (pa + 64 * k) 64)
/-- R51. The scan begins; the writer, whose write this is, waits for it at its PC. -/
def execExecuteGrantRequest (s : State) : Out :=
  event (fun e s =>
    if (s.die e.site).scan.isSome then s
    else
      let s := s.modDie e.site fun x => { x with scan := some (e.writer, e.n, e.flag) }
      match e.writer with
      | some w => s.modHart w fun x => { x with wait := some .request }
      | none => s) s
/-- R51, R52. The page has passed, and the grant is set, or CODE-REJECT is raised at the writer. -/
def execCodePageScanDone (s : State) : Out :=
  event (fun e s =>
    match (s.die e.site).scan with
    | none => s
    | some (w, n, second) =>
      let pa := frameAddr e.site n
      let s := s.modDie e.site fun x => { x with scan := none }
      let wake := fun (s : State) (t : Word → Option TrapReq) => match w with
        | some h => s.modHart h fun x => { x with wait := if x.wait = some .request then none else x.wait, pendingTrap := (t x.pc).orElse fun _ => x.pendingTrap }
        | none => s
      match scanLines (s.codePage pa) 1024 (pa % 2 ^ 56) with
      | none => wake (s.putMeta pa 0 (s.metaWord pa 0 ||| (1#64 <<< 63))) fun _ => none
      | some v => wake s fun pc => some { cause := 0x10, xval := v, pc := pc, second := second, unit := 3 }) s
/-- R51. Every cached line and execute permission of the page goes before the bit is clear. -/
def execExecuteGrantClear (s : State) : Out :=
  event (fun e s =>
    let pa := frameAddr e.site e.n
    let lift := fun (t : TlbEntry) => if (if t.big then t.frame / 2 ^ 13 == pa / 2 ^ 29 else t.frame == pa / 2 ^ 16) then { t with x := false } else t
    let put := fun (p : QuadKey × Quad) =>
      (p.1, { p.2 with icache := p.2.icache.filter (fun l => l.line / 1024 != pa / 2 ^ 16), tlb := p.2.tlb.map lift, pipeTlb := p.2.pipeTlb.map lift })
    { s with quads := s.quads.map put }.putMeta pa 0 (s.metaWord pa 0 &&& ~~~(1#64 <<< 63))) s

/-! ### Companion harts, 15 R265, 06 R114 -/

/-- A companion's mailbox word written by the hardware, R266. -/
def State.mailbox (s : State) (c : CoreKey) (storer : Bool) (cause : Nat) (v : Word) : State :=
  s.putWord (scratchKey c (if storer then 0x7FFF8 else 0x7FFF0)) (BitVec.ofNat 64 (2 ^ 63 + cause * 2 ^ 48 + v.toNat % 2 ^ 48))
/-- The window address of a byte of a core's own scratchpad. -/
def ownScratch (c : CoreKey) (o : Nat) : Word := BitVec.ofNat 64 (3 * 2 ^ 60 + c % 1536 / 384 * 2 ^ 48 + c % 384 * 2 ^ 39 + o)
/-- The hart that a kick starts. -/
def State.kickedHart (s : State) (c : CoreKey) (storer : Bool) (k : Kick) : Hart :=
  let base := ownScratch c (if storer then 0x7F800 else 0x7F000)
  { regs := { x := windowOf fun i => if i = 0 then k.arg else 0 }
    pc := k.pc
    wbase := base, rsbase := base, rslim := ownScratch c (if storer then 0x7FFE0 else 0x7F800)
    revid := k.rev
    origin := { launch := k.launch, owner := k.owner, space := k.space, job := (k.launch.bind s.launch?).bind (·.job) }
    fresh := true }
/-- R265, R53. A halted companion takes its kick: the scan of its store, the start PC, the start. -/
def execCompanionStart (s : State) : Out :=
  event (fun e s =>
    let c := e.site
    let st := e.flag
    let k := s.core c
    let h := if st then HartId.storer c else HartId.loader c
    match (if st then k.kickSt else k.kickLd) with
    | none => s
    | some q =>
      if s.running h then s
      else
        let s := s.modCore c fun y => if st then { y with kickSt := none } else { y with kickLd := none }
        let page : CodeLines := fun i => lineNat (s.bytes (storeKey c st (64 * i)) 64)
        match (if (if st then k.stDirty else k.ldDirty) then scanLines page 256 0 else none) with
        | some v => s.mailbox c st 0x10 v
        | none =>
          let s := s.modCore c fun y => if st then { y with stDirty := false } else { y with ldDirty := false }
          if !pcOk q.pc || 0x4000 ≤ q.pc.toNat then s.mailbox c st BADTARGET q.pc else s.setHart h (s.kickedHart c st q)) s

end Sys2Proof.Machine
end

