-- ==== Sys2Proof/Machine/Exclusion.lean ====
section
/-! DEFINITION. Messages that a die receives, and the exclusion state (16_dispatch R279 to R283, R385): what an acquisition takes, marks and
releases. A position of a die stands for the element it is home of (18_tables_work R312). -/

namespace Sys2Proof.Machine

/-! ### Messages -/

/-- The first message that satisfies p, and the others. -/
def pickMsg (p : Msg → Bool) : List Msg → Option (Msg × List Msg)
  | [] => none
  | m :: r => if p m then some (m, r) else (pickMsg p r).map fun q => (q.1, m :: q.2)
/-- A die takes its first message of a kind; without one nothing changes. -/
def State.takeMsg (s : State) (d : DieKey) (p : Msg → Bool) (f : State → Msg → State) : State :=
  match pickMsg p (s.die d).inbox with
  | none => s
  | some (m, r) => f (s.modDie d fun x => { x with inbox := r }) m

/-- Whether a message belongs to an acquisition. -/
def Msg.ofAcq : Msg → Bool
  | .exclReq .. | .exclReply .. | .exclPass .. | .exclRelease .. | .huskYield .. => true
  | _ => false
/-- A die takes its first message of an acquisition, when it is of one kind: these go in their order of arrival. -/
def State.takeExcl (s : State) (d : DieKey) (p : Msg → Bool) (f : State → Msg → State) : State :=
  match pickMsg Msg.ofAcq (s.die d).inbox with
  | none => s
  | some (m, r) => if p m then f (s.modDie d fun x => { x with inbox := r }) m else s

/-! ### Positions -/

def State.lockAt (s : State) (d : DieKey) (p : Nat) : ElemLock := ((s.die d).locks.find? (fun l => l.pos == p)).getD { pos := p }
/-- Whether a husk key is older, R283; arrival counts compare as serial numbers (19 R320). -/
def HuskKey.older (a b : HuskKey) : Bool :=
  if a.order ≠ b.order then a.order < b.order
  else if a.arrival ≠ b.arrival then (let k := (b.arrival + 2 ^ 40 - a.arrival) % 2 ^ 40; decide (1 ≤ k ∧ k ≤ 2 ^ 39 - 1))
  else if a.pkg ≠ b.pkg then a.pkg < b.pkg
  else a.die < b.die
/-- Whether an acquisition holds its whole neighbourhood. -/
def Acq.complete (q : Acq) : Bool :=
  !q.issued && !q.asking && q.stuck.isNone && q.marked.isEmpty && decide (q.hood.length ≤ q.next) && q.hood.all (fun e => q.taken.contains e)
/-- Whether a husk that yielded may walk again, R385: the element is neither held nor husked under an older key. -/
def State.restartable (s : State) (q : Acq) : Bool :=
  match q.stuck, q.husk with
  | some (t, p), some key =>
    let l := s.lockAt t p
    let marked := match l.husk with
      | some (_, _, k) => k.older key
      | none => false
    let held := match l.holderKey with
      | some k => l.held.isSome && k.older key
      | none => false
    !q.asking && !held && !marked
  | _, _ => false

/-- Of the husks of a die that may walk again, the one of the oldest key (R279). -/
def State.firstRestart (s : State) (d : DieKey) : Option Nat :=
  let key := fun (a : Nat × Acq) => a.2.husk.getD { order := 0, arrival := 0, pkg := 0, die := 0 }
  (((s.die d).acqs.filter fun a => s.restartable a.2).foldl (fun b a => match b with
    | some c => if (key a).older (key c) then some a else some c
    | none => some a) none).map (·.1)
/-- What of a position's state lies in main memory, 18 R312: the bits of positions from 2^26 on, at the base in 0x0138, and the key of a husked
one, at the base in 0x0170; a base of 0 there is no table (log entry 27). -/
def State.lockBytes (s : State) (d : DieKey) (l : ElemLock) : State :=
  let s :=
    if l.pos < 2 ^ 26 then s
    else
      let a := (s.ctlGet d 0x138).toNat % 2 ^ 56 + (l.pos - 2 ^ 26) / 4
      let o := 2 * (l.pos % 4)
      let old := (s.byte a).toNat
      let bits := (if l.held.isSome then 1 else 0) + (if l.husk.isSome then 2 else 0)
      s.putByte a (BitVec.ofNat 8 (old - old / 2 ^ o % 4 * 2 ^ o + bits * 2 ^ o))
  match l.husk with
  | none => s
  | some (_, _, k) =>
    let b := (s.ctlGet d 0x170).toNat % 2 ^ 56
    if b = 0 then s
    else (s.putWord (b + 16 * l.pos) (BitVec.ofNat 64 k.order)).putWord (b + 16 * l.pos + 8)
      (BitVec.ofNat 64 (k.arrival % 2 ^ 40 * 2 ^ 24 + k.pkg % 2 ^ 8 * 2 ^ 16 + k.die % 4 * 2 ^ 14))
def State.setLock (s : State) (d : DieKey) (l : ElemLock) : State :=
  (s.modDie d fun x =>
    let r := x.locks.filter (fun m => m.pos != l.pos)
    { x with locks := if l.held.isNone && l.husk.isNone then r else l :: r }).lockBytes d l
def State.acq? (s : State) (d : DieKey) (a : Nat) : Option Acq := lookup? a (s.die d).acqs
def State.modAcq (s : State) (d : DieKey) (a : Nat) (f : Acq → Acq) : State :=
  s.modDie d fun x => match lookup? a x.acqs with
    | some q => { x with acqs := setKey a (f q) x.acqs }
    | none => x

/-! ### Releases, R279, R282 -/

/-- An element passes to the husk that marked it. -/
def passTo (t : DieKey) (p : Nat) (q : Acq) : Acq :=
  { q with taken := q.taken ++ [(t, p)], marked := q.marked.filter (fun e => e ≠ (t, p)) }
/-- A holder releases a position, or a husk withdraws its mark. -/
def State.releasePos (s : State) (d : DieKey) (who : DieKey × Nat) (p : Nat) : State :=
  let l := s.lockAt d p
  let mine := match l.husk with
    | some (t, a, _) => (t, a) == who
    | none => false
  if l.held = some who then
    match l.husk with
    | none => s.setLock d { l with held := none, holderKey := none }
    | some (t, a, k) =>
      let s := s.setLock d { l with held := some (t, a), husk := none, holderKey := some k }
      if t = d then s.modAcq d a (passTo d p) else s.send d t 3 (.exclPass a d p)
  else if mine then s.setLock d { l with husk := none }
  else s
/-- What a die's grant list says once a run is released, 18 R313. -/
def dropGrant (src : DieKey) (a : Nat) (run : List Nat) (l : List Grant) : List Grant :=
  (l.map fun g => if g.die = src ∧ g.acq = a then { g with run := g.run.filter (fun p => !run.contains p) } else g).filter (fun g => !g.run.isEmpty)
/-- Releases positions of any dies for an acquisition, the local ones first, remote runs by message. -/
def State.releaseAll (s : State) (d : DieKey) (a : Nat) (l : List (DieKey × Nat)) : State :=
  let s := (l.filter (fun e => e.1 == d)).foldl (fun s e => s.releasePos d (d, a) e.2) s
  (distinct ((l.filter (fun e => e.1 != d)).map (·.1))).reverse.foldl
    (fun s t => s.send d t 3 (.exclRelease d a ((l.filter (fun e => e.1 == t)).map (·.2)))) s
/-- The runs that a die granted under an older incarnation are released, R286. -/
def State.releaseOld (s : State) (d src : DieKey) (incarn : Nat) : State :=
  let old := (s.die d).grants.filter (fun g => g.die == src && g.incarn != incarn)
  let s := s.modDie d fun x => { x with grants := x.grants.filter (fun g => !(g.die == src && g.incarn != incarn)) }
  old.foldl (fun s g => g.run.foldl (fun s p => s.releasePos d (src, g.acq) p) s) s

/-! ### Sets, R281, R282 -/

/-- What a husk finds at a position. -/
inductive Found where
  | taken
  | marked
  | stop
/-- The holder of a position, when it is a husk younger than one that marks it, is told, and yields (R385). -/
def State.tellHolder (s : State) (d : DieKey) (l : ElemLock) (key : HuskKey) : State :=
  match l.held, l.holderKey with
  | some (t, a), some k => if key.older k then s.send d t 3 (.huskYield a d l.pos) else s
  | _, _ => s
/-- A husk comes to a position, R282: the husk whose mark or hold it overrides is told, and yields (R385). -/
def State.huskSet (s : State) (d : DieKey) (who : DieKey × Nat) (key : HuskKey) (p : Nat) : State × Found :=
  let l := s.lockAt d p
  let mark := { l with husk := some (who.1, who.2, key) }
  match l.held, l.husk with
  | none, none => (s.setLock d { l with held := some who, holderKey := some key }, .taken)
  | h, some (t, a, k) =>
    if h = some who then (s, .taken)
    else if (t, a) = who then (s, .marked)
    else if k.older key then (s, .stop)
    else (((s.setLock d mark).send d t 3 (.huskYield a d p)).tellHolder d l key, .marked)
  | some (t, a), none =>
    if (t, a) = who then (s, .taken)
    else ((s.setLock d mark).tellHolder d l key, .marked)
/-- A husk comes to a run of positions of a die: which it holds now, and the position it must yield at. -/
def State.huskRun (s : State) (d : DieKey) (who : DieKey × Nat) (key : HuskKey) : List Nat → State × List Nat × Option Nat
  | [] => (s, [], none)
  | p :: r =>
    match s.huskSet d who key p with
    | (s, .stop) => (s, [], some p)
    | (s, .marked) => s.huskRun d who key r
    | (s, .taken) => let q := s.huskRun d who key r; (q.1, p :: q.2.1, q.2.2)
/-- An ordinary acquisition sets a whole run, or nothing. -/
def State.setRun (s : State) (d : DieKey) (who : DieKey × Nat) (run : List Nat) : Option State :=
  if run.any (fun p => (s.lockAt d p).held.isSome || (s.lockAt d p).husk.isSome) then none
  else some (run.foldl (fun s p => s.setLock d { pos := p, held := some who }) s)

/-! ### The ready queues, 14 R244 -/

/-- Entries of the ready queues' SRAM in use; a task keeps its entry until it issues. -/
def Die.readyUsed (x : Die) : Nat := x.ready.length + (x.acqs.filter (fun a => !a.2.issued)).length
/-- An entry joins the tail of its priority's order: in SRAM, or behind the spilled entries; none where both are full. -/
def Die.enter (x : Die) (t : Task) : Option Die :=
  if x.readyUsed < 8192 && !x.spill.any (fun q => q.prio == t.prio) then some { x with ready := x.ready ++ [t] }
  else if x.spill.length < 16777216 then some { x with spill := x.spill ++ [t] }
  else none
/-- Spilled entries come back, the oldest first, as SRAM entries free. -/
def Die.unspill (x : Die) : Die :=
  match x.spill with
  | t :: r => if x.readyUsed < 8192 then { x with ready := x.ready ++ [t], spill := r } else x
  | [] => x
/-- A requeue moves the entry that the task kept to the tail of its priority's order. -/
def Die.requeue (x : Die) (t : Task) : Die :=
  if x.spill.any (fun q => q.prio == t.prio) then { x with spill := x.spill ++ [t] }.unspill else { x with ready := x.ready ++ [t] }

/-! ### The walk, R280 to R282 -/

/-- An ordinary acquisition meets a conflict: everything it took is released, its context is free, and the task is requeued. -/
def State.conflict (s : State) (d : DieKey) (a : Nat) (q : Acq) : State :=
  let s := s.modDie d fun x => { x with acqs := eraseKey a x.acqs }
  let s := (s.releaseAll d a q.taken).countDie d 0x4A
  s.modDie d fun x => x.requeue { q.task with retry := min 255 (q.task.retry + 1) }
/-- A husk yields at a position, R385: it releases what it holds, withdraws its marks, and waits. -/
def State.yieldHusk (s : State) (d : DieKey) (a : Nat) (q : Acq) (at1 : DieKey × Nat) : State :=
  let s := s.modAcq d a fun q => { q with taken := [], marked := [], next := 0, stuck := some at1 }
  s.releaseAll d a (q.taken ++ q.marked)
/-- The walk of an acquisition from where it stands: through the positions of its own die, up to the next remote run. -/
def State.walk (d : DieKey) (a : Nat) : Nat → State → State
  | 0, s => s
  | fuel + 1, s =>
    match s.acq? d a with
    | none => s
    | some q =>
      match q.hood.drop q.next with
      | [] => s
      | (t, p) :: r =>
        if t = d then
          match q.husk with
          | none => match s.setRun d (d, a) [p] with
            | some s => (s.modAcq d a fun q => { q with taken := q.taken ++ [(d, p)], next := q.next + 1 }).walk d a fuel
            | none => s.conflict d a q
          | some key => match s.huskSet d (d, a) key p with
            | (s, .taken) => (s.modAcq d a fun q => { q with taken := if q.taken.contains (d, p) then q.taken else q.taken ++ [(d, p)], next := q.next + 1 }).walk d a fuel
            | (s, .marked) => (s.modAcq d a fun q => { q with marked := if q.marked.contains (d, p) then q.marked else q.marked ++ [(d, p)], next := q.next + 1 }).walk d a fuel
            | (s, .stop) => s.yieldHusk d a q (d, p)
        else
          let run := p :: (r.takeWhile (fun e => e.1 == t)).map (·.2)
          (s.modAcq d a fun q => { q with asking := true }).send d t 3 (.exclReq d a run q.husk (s.die d).incarn.toNat)
/-- The walk goes on. -/
def State.walkOn (s : State) (d : DieKey) (a : Nat) : State :=
  match s.acq? d a with
  | none => s
  | some q => s.walk d a (q.hood.length - q.next + 1)

end Sys2Proof.Machine
end

