-- ==== Sys2Proof/Machine/MemoryEvents.lean ====
section
/-! DEFINITION. The events of a home memory and of translation: misses, migration of pages, remote atomics (11_memory_instructions R186 to
R188, 18_tables_work R317), CXL (29_fabric_system R378), scrub (19_counters R321), and context requests from another die (09 R163). -/

namespace Sys2Proof.Machine

/-! ### Translation misses, 17 R294 -/

/-- The translation service core that a miss goes to. -/
def missCore (space page : Nat) : Nat := (page % 8) ^^^ (page / 8 % 8) ^^^ (space % 8)
/-- R294. Misses of one TLB, space and page merge; with a full miss queue the requester goes on stalling, and asks again. The message starts a
translation service core that has halted or not run yet (02_machine R20). -/
def execTlbMiss (s : State) : Out :=
  event (fun e s =>
    let d := e.site
    s.takeMsg d (fun m => match m with
      | .miss .. => true
      | _ => false) fun s m => match m with
      | .miss h lp sp pg kind q slot lc =>
        let same := fun (m : Miss) => m.quad == q && m.loadPipe == lp && m.space == sp && m.page == pg
        let n := missCore sp pg
        let ms : Miss := { die := d, quad := q, loadPipe := lp, space := sp, page := pg, kind := kind, slot := slot, lcore := lc, waiters := [h] }
        let w := Wait.tlb lp sp pg
        if (s.die d).misses.any same then
          s.modDie d fun x => { x with misses := x.misses.map fun m => if same m then { m with waiters := m.waiters ++ [h] } else m }
        else if 32 ≤ ((s.die d).missq.toList.getD n []).length then
          s.modHart h fun x => if x.wait = some w then { x with wait := none } else x
        else
          let s := s.modDie d fun x =>
            { x with misses := x.misses ++ [ms], missq := x.missq.setIfInBounds n (x.missq.toList.getD n [] ++ [ms]) }
          (s.modHart (.tsc d n) fun x => if x.wait = some .request then { x with wait := none } else x).startFirmware (.tsc d n) {}
      | _ => s) s

/-! ### Page migration, 17 R303 -/

/-- The frame number of a physical address, and whether a TLB entry names it. -/
def TlbEntry.names (f : Nat) (e : TlbEntry) : Bool := if e.big then e.frame / 2 ^ 13 == f / 2 ^ 13 else e.frame == f
/-- A line of an old frame as the same line of the new one. -/
def moveLine (old new l : Nat) : Nat := if l / 1024 = old then 1024 * new + l % 1024 else l
def Job.moveFrame (old new : Nat) (y : Job) : Job :=
  let one := fun (r : Revision) =>
    { r with copies := r.copies.map fun c => (moveLine old new c.1, c.2), ancestors := r.ancestors.map fun c => (moveLine old new c.1, c.2)
             merged := r.merged.map (moveLine old new) }
  { y with revs := y.revs.map one, vas := y.vas.map fun v => (moveLine old new v.1, v.2) }
/-- A remote atomic to a page that moved goes to its new home, with the incarnation that its die has of it (R303). -/
def State.retarget (s : State) (old new : Nat) (r : AtomicReq) : AtomicReq :=
  if pathOf r.va = 3 ∨ r.pa / 2 ^ 16 ≠ old then r
  else
    let d := homeOf (new * 2 ^ 16)
    let seen := (s.incarnRecord (dieOfHart r.hart) d).getD (s.die d).incarn.toNat
    { r with pa := new * 2 ^ 16 + r.pa % 2 ^ 16, incarn := if r.retry then r.incarn else seen }
def State.retargetMsg (s : State) (old new : Nat) : Msg → Msg
  | .atomic src r => .atomic src (s.retarget old new r)
  | m => m
/-- What a die holds of the accesses to a frame that moves, and of its lines. -/
def State.moveIn (s : State) (old new : Nat) (x : Die) : Die :=
  let pk := fun (p : Packet) => { p with msg := s.retargetMsg old new p.msg }
  { x with
    inbox := x.inbox.map (s.retargetMsg old new), links := x.links.map (·.map pk), outq := x.outq.map fun q => (q.1, pk q.2)
    ports := x.ports.map fun q => (q.1, pk q.2), pond := x.pond.map fun q => (q.1, pk q.2), kept := x.kept.map pk
    heldAtomics := x.heldAtomics.map (s.retarget old new), asked := x.asked.map (s.retarget old new)
    cache := x.cache.filter fun l => l.1 / 1024 ≠ old }
/-- A core's cached lines of a frame that moves stay what they are, under the new frame. -/
def Core.moveIn (old new : Nat) (k : Core) : Core :=
  { k with l1 := (k.l1.filter fun l => l.line / 1024 ≠ new).map fun l => { l with line := moveLine old new l.line } }
/-- A thread's filter and what it has asked for, of the lines of a frame that moves. -/
def Hart.moveIn (old new : Nat) (x : Hart) : Hart :=
  { x with
    filter := x.filter.map (moveLine old new), answered := x.answered.map (moveLine old new)
    wait := match x.wait with
      | some (.firstWrite l) => some (.firstWrite (moveLine old new l))
      | w => w }
/-- The metadata word 0 of a frame as it stands after a move: the count of moves in the window, and Frozen at the fourth. -/
def movedMeta (w : Word) (first : Bool) : Word × Bool :=
  let n := w.toNat
  let moves := if first then 1 else min 4 (n / 2 ^ 19 % 8 + 1)
  let frozen := moves = 4
  (BitVec.ofNat 64 (n / 2 ^ 61 % 4 * 2 ^ 61 + (if frozen || n.testBit 59 then 2 ^ 59 else 0) + n / 2 ^ 40 % 2 ^ 16 * 2 ^ 40 + moves * 2 ^ 19),
   frozen && !n.testBit 59)
/-- R303, R174. The whole of a page's move: copied, mapped, invalidated; nothing of it is seen before. The pool is a list of frames, each
holding the address of the next (log entry 23). -/
def execPageMigrationComplete (s : State) : Out :=
  event (fun e s =>
    let d := e.site
    match (s.die d).moving.find? (fun m => m.1 == e.n) with
    | none => s
    | some (old, q) =>
      let inOld := fun (a : Nat) => a / 2 ^ 16 == old
      if s.cores.any (fun c => c.2.wbuf.any fun b => b.cells.any fun k => inOld k.1) then s
      else
        let s := s.modDie d fun x => { x with moving := x.moving.filter (fun m => m.1 ≠ old) }
        let pa := old * 2 ^ 16
        let w0 := s.metaWord pa 0
        let room := (s.ctlGet q 0x158).toNat % 2 ^ 56 / 2 ^ 16
        if room = 0 then s.putMeta pa 0 (w0 &&& ~~~(1#64 <<< 60))
        else
          let dst := room * 2 ^ 16
          let now := Config.freeWord s.free
          let s := { s with free := s.free + 1 }
          let start := s.metaWord pa 2
          let first := decide (2 ^ 20 ≤ (now - start).toNat)
          let mw := movedMeta w0 first
          let leaf := (s.metaWord pa 1).toNat % 2 ^ 56
          let s := s.ctlPut q 0x158 (s.word dst)
          let s := s.putCells (cellsAt dst (s.bytes pa 65536))
          let s := { s with poisoned := s.poisoned.map fun (p : Nat × BitVec 64) => (moveLine old room p.1, p.2) }
          let s := (s.putMeta dst 1 (s.metaWord pa 1)).putMeta dst 2 (if first then now else start)
          let s := (s.putMeta dst 3 (BitVec.ofNat 64 ((s.metaWord pa 3).toNat % 2 ^ 12))).putMeta dst 0 mw.1
          let entry := (s.word leaf).toNat
          let s := s.putWord leaf (BitVec.ofNat 64 (entry - entry / 2 ^ 16 % 2 ^ 40 * 2 ^ 16 + room % 2 ^ 40 * 2 ^ 16))
          let cut := fun (p : QuadKey × Quad) =>
            (p.1, { p.2 with tlb := p.2.tlb.filter (fun t => !t.names old), pipeTlb := p.2.pipeTlb.filter (fun t => !t.names old) })
          let s := { s with quads := s.quads.map cut, jobs := s.jobs.map fun (j : Nat × Job) => (j.1, j.2.moveFrame old room) }
          let s := { s with
            dies := s.dies.map fun (x : DieKey × Die) => (x.1, s.moveIn old room x.2), cores := s.cores.map fun (k : CoreKey × Core) => (k.1, k.2.moveIn old room)
            harts := s.harts.map fun (x : HartId × Hart) => (x.1, x.2.moveIn old room) }
          let s := (s.putMeta pa 0 0).putMeta pa 1 0
          let s := (s.putWord pa (s.ctlGet d 0x158)).ctlPut d 0x158 (BitVec.ofNat 64 pa)
          if mw.2 then s.countDie d 0x46 else s) s

/-! ### Remote atomics, 11 R186 room R188, 18 R317 -/

/-- The home of a remote atomic. -/
def AtomicReq.window (r : AtomicReq) : Bool := pathOf r.va == 3
def AtomicReq.home (r : AtomicReq) : DieKey := if r.window then 4 * (dieOfHart r.hart / 4) + r.va.toNat / 2 ^ 48 % 4 else homeOf r.pa
/-- What an attempt finds in the token area: its source's block. -/
def Die.blockOf (x : Die) (h : HartId) : Option TokenBlock := x.tokens.find? (fun b => b.source == h)
/-- Whether a block can be had for an attempt that records: the source's own, a free one, or the oldest that has aged. -/
def Die.blockFor (x : Die) (h : HartId) : Bool := (x.blockOf h).isSome || x.tokens.length < 4096 || x.tokens.any (·.aged)
/-- Records a performed attempt; a first attempt moves its block to the end of the order of last first attempts. -/
def Die.recordToken (x : Die) (r : AtomicReq) (incarn : Nat) (old : Word) : Die :=
  let b := (x.blockOf r.hart).getD { source := r.hart }
  let keep := if 64 ≤ b.records.length then b.records.drop 1 else b.records
  let nb := { b with records := keep ++ [(r.token, incarn, old)], aged := r.retry && b.aged }
  let rest := x.tokens.filter (fun t => t.source != r.hart)
  let rest := if 4096 ≤ rest.length then (match rest.find? (·.aged) with
    | some a => rest.erase a
    | none => rest) else rest
  { x with tokens := rest ++ [nb] }
/-- An attempt performed at its home: the state, the old value, the status and the flags. -/
def State.performAtomic (s : State) (d : DieKey) (r : AtomicReq) : State × Word × Nat × Flags5 :=
  let n := sizeOf8 r.ty
  if r.window then
    if s.winPoisoned (d / 4) r.va.toNat n then (s, 0, 5, 0) else
    let old := s.winLoad (d / 4) r.va.toNat n
    let nw := atomicNew r.isCas r.op r.ty old r.operand.toNat r.newVal.toNat
    let q := s.winStoreBy (dieOfHart r.hart) r.owner r.va.toNat n nw.1
    (q.1, if q.2 = 0 then BitVec.ofNat 64 old else 0, q.2, if q.2 = 0 then nw.2 else 0)
  else
    let st := if s.granted r.pa then 1 else s.ownerStatus (dieOfHart r.hart) r.owner r.pa n true
    if st ≠ 0 then (s, 0, st, 0)
    else if s.isPoisoned r.pa n then (s, 0, 5, 0)
    else
      let old := leNat (s.homeBytes r.job r.rev r.pa n)
      let nw := atomicNew r.isCas r.op r.ty old r.operand.toNat r.newVal.toNat
      let q := s.performCells (dieOfHart r.hart) (isCtx r.hart) r.job r.owner r.rev (generalVa r.va) (cellsAt r.pa (leBytes n nw.1))
      if q.2 = 0 then (q.1, BitVec.ofNat 64 old, 0, nw.2) else (s, 0, q.2, 0)
/-- R187: the home's answer to an attempt. Where a source used a token twice under one incarnation, the older record answers a retry (DESIGN
CHOICE, log entry 61: R187 and R317 do not say which). -/
def State.answerAtomic (s : State) (d : DieKey) (r : AtomicReq) : State × Word × Nat × Flags5 :=
  let now := (s.die d).incarn.toNat
  let seen := match (s.die d).blockOf r.hart with
    | some b => b.records.find? (fun (t : Nat × Nat × Word) => t.1 == r.token && t.2.1 == r.incarn)
    | none => none
  let perform :=
    let q := s.performAtomic d r
    if q.2.2.1 = 0 then (q.1.modDie d fun x => x.recordToken r (if r.retry then r.incarn else now) q.2.1, q.2) else q
  if !r.retry then perform
  else if now ≠ r.incarn then (s, 0, 4, 0)
  else match seen with
    | some t => (s, t.2.2, 0, 0)
    | none => perform
/-- Whether d and b of an attempt name one register. -/
def oneTarget : List RegWrite → Bool
  | [.x i _, .x j _] => i == j
  | [.g i _, .g j _] => i == j
  | _ => false
/-- The answer reaches the thread: the old value, and the token word with its status (R186). Where d and b name one register, the spec
does not say which stands: the register takes a free value (log entry 3). -/
def State.returnAtomic (s : State) (r : AtomicReq) (old : Word) (status : Nat) (flags : Flags5) : State :=
  let b := BitVec.ofNat 64 (r.incarn % 2 ^ 16 * 2 ^ 24 + status % 2 ^ 8 * 2 ^ 16 + r.token)
  let v := loadValue r.ty old.toNat
  let ws := fun (l : List RegWrite) => if oneTarget l then (l.take 1).map (RegWrite.withValue (Config.freeWord s.free)) else (l.take r.dreg).map (RegWrite.withValue v) ++ (l.drop r.dreg).map (RegWrite.withValue b)
  let f := fun (p : Pending) =>
    if p.tag = r.tag && !p.returned then
      { p with returned := true, tag := 0, writes := ws p.writes, flags := p.flags ||| flags, poison := if status = 5 then some r.va else none }
    else p
  let x := s.hart r.hart
  let live := x.outstanding.any (fun p => p.tag == r.tag && !p.returned)
  let s := s.modDie (dieOfHart r.hart) fun y => 
    let other := fun (q : AtomicReq) => !(q.tag == r.tag && q.hart == r.hart)
    { y with asked := y.asked.filter other, heldAtomics := y.heldAtomics.filter other }
  if !live then s
  else
    let s := { s.modHart r.hart (fun x => { x with outstanding := x.outstanding.map f }) with free := s.free + 1 }
    let s := match r.acq with
      | some scope => s.acquire r.hart scope
      | none => s
    if [0, 3, 4, 5].contains status then s else s.addAccess r.hart { kind := 2, addr := r.va, pc := r.pc, status := status }
/-- R187, R188. The home answers an attempt, or an answer returns. An attempt waits at the home for the page's lock and for a block; one whose
page has moved meanwhile goes on to the new home (R174). -/
def execAtomicHomePerform (s : State) : Out :=
  event (fun e s =>
    let d := e.site
    let ready := fun (m : Msg) => match m with
      | .atomic _ r => r.home != d || ((r.window || !(s.metaWord r.pa 0).getLsbD 60) && (s.die d).blockFor r.hart)
      | .atomicReply .. => true
      | _ => false
    s.takeMsg d ready fun s m => match m with
      | .atomic src r =>
        if r.home ≠ d then s.send d r.home 0 m r.owner
        else
        let q := s.answerAtomic d r
        q.1.send d src 1 (.atomicReply r q.2.1 q.2.2.1 q.2.2.2)
      | .atomicReply r old status flags => s.returnAtomic r old status flags
      | _ => s) s
/-- The oldest attempt of a hart without an answer. -/
def State.askedBy (s : State) (h : HartId) : Option AtomicReq := (s.die (dieOfHart h)).asked.find? (fun r => r.hart == h)
/-- R188. -/
def execLinklostTimeout (s : State) : Out :=
  event (fun e s => match s.askedBy e.hart with
    | some r => s.returnAtomic r 0 3 0
    | none => s) s
/-- R188. The route of the request is down, or its home's die is. -/
def execRouteDownReport (s : State) : Out :=
  event (fun e s => match s.askedBy e.hart with
    | some r =>
      let x := s.die (dieOfHart e.hart)
      let down := match r.route with
        | some l => x.downLinks.contains l
        | none => false
      if down || x.downDies.contains r.home then s.returnAtomic r 0 3 0 else s
    | none => s) s
/-- R186, R307. A probe is answered; an answer sets the record and lets the waiting first attempts leave. -/
def execIncarnationProbeReply (s : State) : Out :=
  event (fun e s =>
    let d := e.site
    s.takeMsg d (fun m => match m with
      | .probe _ | .probeReply .. => true
      | _ => false) fun s m => match m with
      | .probe src => s.send d src 4 (.probeReply d (s.die d).incarn.toNat)
      | .probeReply t n =>
        let s := if t = d then s else s.setIncarnRecord d t n
        let go := (s.die d).heldAtomics.filter (fun r => r.home == t)
        let s := s.modDie d fun x => { x with
          heldAtomics := x.heldAtomics.filter (fun r => r.home != t)
          asked := x.asked.map fun r => if go.any (fun q => q.tag == r.tag && q.hart == r.hart) then { r with incarn := n } else r }
        go.foldl (fun s r => s.send d t 0 (.atomic d { r with incarn := n }) r.owner) s
      | _ => s) s
/-- R317. -/
def execTokenBlockAgeOut (s : State) : Out :=
  event (fun e s => s.modDie e.site fun x => match x.tokens[e.n]? with
    | some b => { x with tokens := x.tokens.set e.n { b with aged := true } }
    | none => x) s

/-! ### CXL, 29 R378 -/

/-- R378. The n-th buffered store of a hart to CXL memory is not answered and completes with CXLERR, with one record for a vector store (R177).
With the flag, the expander behind line n of a die's CXL memory begins, or ceases, to answer accesses to it with an error or not at all. -/
def execCxlerrTimeout (s : State) : Out :=
  event (fun e s =>
    if e.flag then s.modDie e.site fun x => { x with cxlBad := if x.cxlBad.contains e.n then x.cxlBad.filter (· ≠ e.n) else e.n :: x.cxlBad }
    else match s.coreOf e.hart with
    | none => s
    | some c =>
      let mine := (s.core c).wbuf.filter fun b => b.hart == e.hart && b.cells.any (fun k => isCxl k.1)
      match mine[e.n]? with
      | none => s
      | some b =>
        let hush := fun (o : BufStore) => if b.vec != 0 && o.vec == b.vec then { o with silent := true } else o
        ((s.modCore c fun k => { k with wbuf := (k.wbuf.erase b).map hush }).storeRecord c b 6).tryGone e.hart) s
/-- R378. -/
def execCxlLinkDown (s : State) : Out :=
  event (fun e s => s.modDie e.site fun x => { x with cxlDown := if x.cxlDown.contains (e.n % 2) then x.cxlDown else (e.n % 2) :: x.cxlDown }) s
/-- R378. -/
def execCxlLinkUp (s : State) : Out :=
  event (fun e s => s.modDie e.site fun x => { x with cxlDown := x.cxlDown.filter (· ≠ e.n % 2) }) s

/-! ### Scrub, 10 R174, 19 R321 -/

def scrubLines : Nat := 6 * 10 ^ 9
/-- R174, R321. One line; an uncorrectable one is poisoned and recorded. After the last line the pass ends. -/
def execScrub (s : State) : Out :=
  event (fun e s =>
    let d := e.site
    let w := (s.ctlGet d 0x188).toNat
    let pos := w % 2 ^ 40
    let line := d * 2 ^ 40 + pos
    let s := if e.flag then
        ({ s with poisoned := (line, BitVec.allOnes 64) :: s.poisoned.filter (fun p => p.1 ≠ line) }).blackBox d 0x83 0 0 line
      else s
    let s := s.countDie d 0x4E
    if pos + 1 < scrubLines then s.ctlPut d 0x188 (BitVec.ofNat 64 (w + 1))
    else
      ((s.ctlPut d 0x188 (BitVec.ofNat 64 ((w / 2 ^ 40 + 1) % 2 ^ 24 * 2 ^ 40))).ctlPut d 0x190 (s.pkg (d / 4)).time).modDie d
        fun x => { x with scrubLate := false }) s
/-- R321. The deadline passes before the pass ends: counted once; the counter has then run to the deadline. -/
def execScrubLate (s : State) : Out :=
  event (fun e s =>
    let d := e.site
    let limit := (s.ctlGet d 0x190).toNat + (if s.ctlGet d 0x198 = 0 then 86400000000000 else (s.ctlGet d 0x198).toNat) + 1
    if (s.die d).scrubLate then s
    else
      let s := s.modPkg (d / 4) fun x => { x with time := if x.time.toNat < limit then BitVec.ofNat 64 limit else x.time }
      (s.countDie d 0x52).modDie d fun x => { x with scrubLate := true }) s

/-! ### Context requests from another die, 09 R163 -/

/-- R163. -/
def execContextRequestRemote (s : State) : Out :=
  event (fun e s =>
    let d := e.site
    s.takeMsg d (fun m => match m with
      | .ctxReq .. => true
      | _ => false) fun s m => match m with
      | .ctxReq src tag load c slot =>
        let r := s.ctxRequest src tag load c slot
        match r.2 with
        | some v => r.1.replyTag d src tag v
        | none => r.1
      | _ => s) s

end Sys2Proof.Machine
end

