-- ==== Sys2Proof/Machine/Rings.lean ====
section
/-! DEFINITION. The ring instructions (15_task_message_instructions R264, 14_queues R235 to R239) and the gather engine's requests
(R269). -/

namespace Sys2Proof.Machine

/-- R264. `rnginit`. -/
def execRnginit (s : State) : Out :=
  runM 0x0E0 (do
    useClass .ring
    let f ← ir
    names [f.a] []
    let a ← readReg f.a
    let c ← myCore
    let r := f.imm.toNat % 8
    let cap := a.toNat / 2 ^ 16 % 2 ^ 14
    let base := a.toNat % 2 ^ 13
    let s ← get
    if !s.ringIdle c r || s.ringBad c r cap base then trapM ACCESS
    modS fun s => s.ringSet c r cap base
    retire) s

/-- R264. `rngput`: as a write of `cbo` on its ring. -/
def execRngput (s : State) : Out :=
  runM 0x0E1 (do
    useClass .ring
    let f ← ir
    names [f.a] []
    let a ← readReg f.a
    let c ← myCore
    let r := f.imm.toNat % 8
    let t ← reserveWord r
    modS fun s => s.landWord c r t a
    retire) s

/-- R264. `rngget`: as a read of `cbi` on its ring. -/
def execRngget (s : State) : Out :=
  runM 0x0E2 (do
    useClass .ring
    let f ← ir
    names [] [f.d]
    writeReg f.d (← popRing (f.imm.toNat % 8))
    retire) s

/-- The head message's payload length. -/
def headLen (s : State) (c : CoreKey) (g : Ring) : Nat := leNat (getRing s c g g.head 0 8) % 2 ^ 13
/-- An enabled ring with a landed message. -/
def headRing (r : Nat) : M Ring := do
  let c ← myCore
  let g ← enabledRing c r
  if g.filled = 0 then stall else pure g

/-- R264. `rngpeek`. -/
def execRngpeek (s : State) : Out :=
  runM 0x0E3 (do
    useClass .ring
    let f ← ir
    names [f.a] [f.d]
    let a ← readReg f.a
    let c ← myCore
    let g ← headRing (f.imm.toNat % 8)
    let s ← get
    let n := 8 + headLen s c g
    let o := 8 * (BitVec.ofNat 64 (f.imm.toNat / 8 % 512) + a).toNat
    writeReg f.d (if n ≤ o then 0 else BitVec.ofNat 64 (leNat ((getRing s c g g.head o 8).take (n - o))))
    retire) s

/-- R264. `rngadv`. -/
def execRngadv (s : State) : Out :=
  runM 0x0E4 (do
    useClass .ring
    let f ← ir
    names [f.a] []
    let e ← readReg f.a
    let c ← myCore
    let r := f.imm.toNat % 8
    let g ← headRing r
    let s ← get
    let m := headLen s c g
    checkSpan e (8 + m) false true
    storeSpan e (getRing s c g g.head 0 (8 + m))
    modS fun s => s.setRing c r ((s.ring c r).freeHead (ringSlots m))
    retire) s

/-- R264. `rngfree`. -/
def execRngfree (s : State) : Out :=
  runM 0x0E5 (do
    useClass .ring
    let f ← ir
    let c ← myCore
    let r := f.imm.toNat % 8
    let g ← headRing r
    modS fun s => s.setRing c r (g.freeHead (ringSlots (headLen s c g)))
    retire) s

/-- R264. `rngfill`. -/
def execRngfill (s : State) : Out :=
  runM 0x0E6 (do
    useClass .ring
    let f ← ir
    names [f.a] []
    let e ← readReg f.a
    let c ← myCore
    let r := f.imm.toNat % 8
    let m := f.imm.toNat / 2 ^ 12 % 2 ^ 13
    let g ← enabledRing c r
    checkSpan e m true false
    if 4088 < m || g.cap < ringSlots m then trapM 0x0C (BitVec.ofNat 64 m)
    let s ← get
    if !s.ringRoom c r (ringSlots m) then stall
    match ← loadSpan e m with
    | none => pure ()
    | some bs => modS fun s => (s.reserveOwn c r (ringSlots m)).landTicket c r (s.free + 1) (leBytes 8 (ringHeader c m) ++ bs)
    retire) s

/-! ### The gather engine's requests, R269 -/

/-- What an `add` of the gather engine leaves: Wrap for integers, Round under RNE for floats (R268). -/
def elemAdd (ty old v : Nat) : Nat :=
  if isIntType ty then (old + v) % 2 ^ typeWidth ty
  else (fAdd (fmtOf ty) .rne (fval ty (BitVec.ofNat 64 old)) (fval ty (BitVec.ofNat 64 v))).bits
/-- One request performed at its address, which is physical (log entry 20): its datum and its status. -/
def State.request (s : State) (d : DieKey) (who kind ty : Nat) (a v : Word) : State × Word × Nat :=
  let n := typeWidth ty / 8
  let pa := a.toNat % 2 ^ 56
  if !present pa || pa % n ≠ 0 then (s, 0, 1)
  else if s.ownerStatus d who pa n (kind != 0) ≠ 0 then (s, 0, s.ownerStatus d who pa n (kind != 0))
  else if kind ≠ 1 && s.isPoisoned pa n then (s, 0, 5)
  else
    let old := s.num pa n
    if kind = 0 then (s, if isIntType ty then putInt ty old else BitVec.ofNat 64 old, 0)
    else
      let r := s.performCells d false none who 0 0 (cellsAt pa (leBytes n (if kind = 1 then v.toNat else elemAdd ty old v.toNat)))
      (r.1, 0, r.2)

/-- R269. `freq`. -/
def execFreq (s : State) : Out :=
  runM 0x0E7 (do
    useClass .freq
    let f ← ir
    let a ← readReg f.a
    let b ← readReg f.b
    let d ← myDie
    let s ← get
    let used := (s.die d).freq.map (·.1)
    match (List.range 64).find? (fun t => !used.contains t) with
    | none => stall
    | some t => do
      let r := s.request d (← hartM).origin.owner (f.misc.toNat % 4) f.ty.toNat a b
      modS fun _ => r.1.modDie d fun x => { x with freq := x.freq ++ [(t, r.2.1, r.2.2)] }
      writeReg f.d (BitVec.ofNat 64 t)
      retire) s

/-- R269. `fresp`. -/
def execFresp (s : State) : Out :=
  runM 0x0E8 (do
    useClass .freq
    let f ← ir
    let d ← myDie
    let s ← get
    match (s.die d).freq with
    | [] => stall
    | (t, v, st) :: r => do
      modS fun s => s.modDie d fun x => { x with freq := r }
      writeReg f.d (BitVec.ofNat 64 (t + st * 2 ^ 8))
      writeReg (BitVec.ofNat 5 (f.d.toNat + 1)) v
      retire) s

end Sys2Proof.Machine
end

