-- ==== Sys2Proof/Machine/Tasks.lean ====
section
/-! DEFINITION. Tasks, futures, barriers, messages, mailboxes and the gather commands (15_task_message_instructions R245 to R267). -/

namespace Sys2Proof.Machine

/-- A thread that acts in a revision other than the root may not start work elsewhere (R248, 13 R220). -/
def rootOnly : M Unit := do
  let x ← hartM
  guardM (x.revid == 0) illclass

/-- Where `spawn` puts a child: the core X[b] names, or the nearest with a free context. A core of another owner's stack has none for it
(02 R30, DEDUCED, log entry 31). -/
def spawnPlace (b : BitVec 5) : M (Option (CoreKey × Nat)) := do
  let c ← myCore
  if b.toNat = 31 then do
    let s ← get
    pure ((s.freeAmong [c]).orElse fun _ => (s.freeAmong (quadCores (quadOfCore c))).orElse fun _ => s.freeAmong (dieCores (dieOfCore c)))
  else do
    let v ← readReg b
    if 1536 ≤ v.toNat % 2 ^ 11 then trapM ACCESS v
    let s ← get
    let t := 1536 * pkgOfCore c + v.toNat % 2 ^ 11
    pure (if s.barred (dieOfCore c) (dieOfCore t) (← hartM).origin.owner then none else s.freeAmong [t])

/-- R249. `spawn`. -/
def execSpawn (s : State) : Out :=
  runM 0x0C0 (do
    useClass .task
    rootOnly
    let f ← ir
    names [f.b] [f.d]
    let n := f.misc.toNat % 32
    let args ← readRange f.a.toNat n
    let s0 ← get
    if (s0.allocCell (← myCore) (← me)).isNone then writeReg f.d 0
    else do
      match ← spawnPlace f.b with
      | none => writeReg f.d 1
      | some (c, slot) => do
        let hd := (← allocM).getD 0
        let x ← hartM
        let tgt := target x.pc f.imm
        let o : Origin := { launch := x.origin.launch, owner := x.origin.owner, space := x.origin.space, job := x.origin.job, parent := some hd }
        modS fun s =>
          let y := s.startHart c slot o tgt args (s.stackFor c slot (x.rsbase, x.rslim)) x.prio
          (s.placeHart (.ctx c slot) { y with migratory := f.misc.getLsbD 5 }).liveUp x.origin.launch
        writeReg f.d hd
    retire) s

/-- A request or reply of the hardware stalls while packets of its network wait for room on the way to its die (14 R240). -/
def linkRoom (dst : DieKey) (vn : Nat) : M Unit := do
  let d ← myDie
  let s ← get
  if (s.die d).outq.any (fun q => q.1 % 5 == vn && q.2.dst == dst) then stall
/-- Posts that have reached a die and wait for its dispatcher. -/
def Die.postsHere (x : Die) : Nat :=
  (x.inbox.filter fun m => match m with
    | .post _ => true
    | _ => false).length
/-- R252. `post`. -/
def execPost (s : State) : Out :=
  runM 0x0C1 (do
    useClass .task
    rootOnly
    let f ← ir
    names [f.a] []
    let e ← readReg f.a
    let x ← hartM
    let s ← get
    match x.origin.launch.bind s.launch? with
    | none => trapM ACCESS e
    | some y => do
      if y.count ≤ e.toNat then trapM ACCESS e
      let d ← myDie
      let home := y.home e.toNat
      releaseM (if home / 4 = d / 4 then 4 else 5)
      linkRoom home 3
      let l := x.origin.launch.getD 0
      let t : Task := { launch := l, elem := e.toNat, entry := target x.pc f.imm, prio := y.prio }
      let z := s.die home
      if (z.enter t).isNone || 8192 + 16777216 ≤ z.readyUsed + z.spill.length + z.postsHere then stall
      modS fun s => (s.modLaunch l fun z => { z with tasks := z.tasks + 1 }).send d home 3 (.post t) x.origin.owner
      retire) s

/-- Every earlier access of the thread has its status and its queued SSU commands are done, R191, R250. -/
def accessesDone : M Unit := do
  let x ← hartM
  let s ← get
  let h := s.ir.hart
  if !x.accesses.isEmpty then stall
  match s.coreOf h with
  | none => pure ()
  | some c =>
    let k := s.core c
    if k.wbuf.any (fun b => b.hart == h) || k.cmdSsu.any (fun q => q.hart == h) || k.ssu.any (fun q => q.hart == h) then stall

/-- The end of a handler, R260; a `done` in its trap routine ends it as faulted (09 R155). -/
def endHandler (isDone : Bool) : M Unit := do
  drained
  releaseM 4
  let x ← hartM
  let d ← myDie
  let v ← readReg 0
  countIssue
  match x.origin.reply with
  | some (pkg, cell) => modS fun s => s.sendFill d pkg cell v none x.origin.owner
  | none => pure ()
  let bad := isDone && x.trap.trapped
  modS fun s => s.stopWith s.ir.hart { cause := if bad then x.trap.xcause.toNat % 256 else 0, faulted := bad }

/-- R250. `done`; in a trap routine it ends the thread as faulted, with the code in XCAUSE (09 R155). The joins, the release and the fill of
the parent's cell follow as the thread ends. -/
def execDone (s : State) : Out :=
  runM 0x0C2 (do
    useClass .control
    let f ← ir
    names [f.a] []
    let h ← me
    match h with
    | .handler _ _ => endHandler true
    | h => do
      let v ← readReg f.a
      drained
      accessesDone
      let x ← hartM
      if x.matrix ≠ 0 then stall
      countIssue
      modS fun s => s.stopWith h { cause := if x.trap.trapped then x.trap.xcause.toNat % 256 else 0, faulted := x.trap.trapped, fill := some v }) s

/-- R253. `yield`. -/
def execYield (s : State) : Out :=
  runM 0x0C3 (do
    useClass .control
    retire
    modH fun y => { y with parked := true }) s

/-- R251. `fget`. -/
def execFget (s : State) : Out :=
  runM 0x0C4 (do
    useClass .task
    let f ← ir
    names [f.a] [f.d]
    let p ← ownCell (← readReg f.a)
    if p.2.full then do
      writeReg f.d (putInt f.ty.toNat (intVal f.ty.toNat p.2.value))
      acquireM 4
      modS (freeCell (← myCore) p.1)
      retire
    else stallWith fun s => s.suspend s.ir.hart (.future p.1)) s

/-- R251. `fput`. -/
def execFput (s : State) : Out :=
  runM 0x0C5 (do
    useClass .task
    let f ← ir
    names [f.a, f.b] []
    let a ← readReg f.a
    let b ← readReg f.b
    releaseM 4
    let h ← me
    let d ← myDie
    let x ← hartM
    let c := 1536 * (d / 4) + handleCore a % 1536
    linkRoom (dieOfCore c) 1
    modS fun s => s.sendFill d (d / 4) a b (some (h, s.accessOf h 0 a x.pc 1)) x.origin.owner
    retire) s

/-- R251. `fput.new`. -/
def execFputNew (s : State) : Out :=
  runM 0x0C5 (do
    useClass .task
    let f ← ir
    names [] [f.d]
    writeReg f.d ((← allocM).getD 0)
    retire) s

/-- R251. `fpoll`. -/
def execFpoll (s : State) : Out :=
  runM 0x0C6 (do
    useClass .task
    let f ← ir
    names [f.a] [f.d]
    let p ← ownCell (← readReg f.a)
    writeReg f.d (boolWord p.2.full)
    retire) s

/-! ### Barriers, R254 -/

/-- The scope instance that contains a core, and the die that keeps its barriers. -/
def scopeInst (scope : Nat) (c : CoreKey) : Nat :=
  match scope with
  | 1 => c
  | 2 => quadOfCore c
  | 3 => dieOfCore c
  | 4 => pkgOfCore c
  | _ => 0
def barrierRoot (scope inst : Nat) : DieKey :=
  match scope with
  | 1 => dieOfCore inst
  | 2 => dieOfQuad inst
  | 3 => inst
  | 4 => 4 * inst
  | _ => 0
def Barrier.same (b : Barrier) (launch scope inst id : Nat) : Bool :=
  b.launch == launch && b.scope == scope && b.inst == inst && b.id == id
/-- Counts an arrival: at the first instance that is not complete, or at a new one. -/
def arriveAt (launch scope inst id count serial : Nat) (h : HartId) : List Barrier → List Barrier
  | [] => [{ launch := launch, scope := scope, inst := inst, id := id, count := count, arrived := [h], total := 1, serial := serial }]
  | b :: r =>
    if b.same launch scope inst id && b.total < b.count then { b with arrived := b.arrived ++ [h], total := b.total + 1 } :: r
    else b :: arriveAt launch scope inst id count serial h r
/-- The number of the instance that an arrival joins. -/
def serialAt (launch scope inst id serial : Nat) (l : List Barrier) : Nat :=
  match l.find? (fun b => b.same launch scope inst id && decide (b.total < b.count)) with
  | some b => b.serial
  | none => serial
/-- A thread arrives at a barrier and waits for its instance. -/
def State.arrive (s : State) (h : HartId) (launch scope inst id count : Nat) : State :=
  let d := barrierRoot scope inst
  let n := s.free + 1
  let w := serialAt launch scope inst id n (s.die d).barriers
  ({ s with free := n }.modDie d fun x => { x with barriers := arriveAt launch scope inst id count n h x.barriers }).modHart h
    fun y => { y with wait := some (.barrier w) }

/-- R254. `bar`: the grant 5 marks a released arrival. -/
def execBar (s : State) : Out :=
  runM 0x0C7 (do
    useClass .task
    let f ← ir
    let count := f.imm.toNat % 2 ^ 24
    if count = 0 then trapM ACCESS
    let x ← hartM
    let scope := f.path.toNat
    if x.grant = some 5 then do
      acquireM scope
      retire
    else do
      releaseM scope
      let c ← myCore
      let h ← me
      let inst := scopeInst scope c
      stallWith fun s => s.arrive h (x.origin.launch.getD 0) scope inst f.misc.toNat count) s

/-! ### Messages, R255 to R263 -/

/-- The core and the die that a destination word names, R255. -/
def destDie (w : Word) : DieKey := 4 * (w.toNat / 2 ^ 24 % 256) + w.toNat / 2 ^ 20 % 4
def destCore (w : Word) : CoreKey := coreAt (destDie w) (w.toNat / 2 ^ 8 % 512)
/-- The ring that it names; 8 for a core above 383, which no interface has. -/
def destRing (w : Word) : Nat := if w.toNat / 2 ^ 8 % 512 ≤ 383 then w.toNat % 8 else 8
/-- The answer that the receiving interface gives to an enqueue before it leaves, R237. A core that does not exist, or a disabled
ring, gives none: the message is refused where it arrives. -/
def askRing (s : State) (w : Word) (m : Nat) : M Unit := do
  let c := destCore w
  let r := w.toNat % 8
  let g := s.ring c r
  if w.toNat / 2 ^ 8 % 512 ≤ 383 && g.cap ≠ 0 && !s.barred (dieOfHart s.ir.hart) (dieOfCore c) (← hartM).origin.owner then
    if g.cap < ringSlots m then trapM 0x0C (BitVec.ofNat 64 m)
    if !s.ringRoom c r (ringSlots m) && decide (16 ≤ (s.core c).waiting.length + (s.onTheWay c).length) then waitFor .enqueue
/-- Puts a packet into the send queue of the enqueue network, or a speculative one into the hold buffer. A message of any length up to 4,088
bytes counts as one packet of the 16 (DESIGN CHOICE, log entry 60). -/
def sendPacket (spec : Bool) (dst : DieKey) (m : Msg) (acked : Bool) : M Unit := do
  let c ← myCore
  let h ← me
  let d ← myDie
  let x ← hartM
  let s ← get
  let p : Packet := { src := d, dst := dst, vn := 2, owner := x.origin.owner, acked := acked, core := some c, msg := m }
  if spec then
    if 32 ≤ (s.core c).hold.length then trapM 0x0B
    modS fun s => s.modCore c fun k => { k with hold := k.hold ++ [(h, p)] }
  else do
    if 16 ≤ ((s.core c).sendq.toList.getD 2 []).length then trapM 0x0A 2
    modS fun s => s.modCore c fun k => { k with sendq := k.sendq.setIfInBounds 2 (k.sendq.toList.getD 2 [] ++ [p]) }
/-- The record that a message refused at its target leaves. -/
def refusal (w : Word) : M Access := do
  let x ← hartM
  let s ← get
  return s.accessOf s.ir.hart 0 w x.pc 1
/-- The bytes of a list of words. -/
def wordBytes (ws : List Word) : List Byte := ws.flatMap fun w => leBytes 8 w.toNat

/-- R256. `send`. -/
def execSend (s : State) : Out :=
  runM 0x0CC (do
    useClass .task
    let f ← ir
    names [f.b] []
    let n := f.misc.toNat % 8
    let ws ← readRange f.a.toNat n
    let w ← readReg f.b
    let spec := f.misc.getLsbD 4
    let h ← me
    let x ← hartM
    let a ← refusal w
    let s ← get
    sendPacket spec (destDie w) (.enqueue h (destCore w) (destRing w) (wordBytes ws) none x.origin.owner a (← myCore)) false
    askRing s w (8 * n)
    retire) s

/-- R257. `enq`. -/
def execEnq (s : State) : Out :=
  runM 0x0CB (do
    useClass .task
    let f ← ir
    let ack := f.misc.getLsbD 0
    names [f.a, f.b] (if ack then [f.d] else [])
    let e ← readReg f.a
    let w ← readReg f.b
    let m := f.imm.toNat % 2 ^ 13
    let d ← myDie
    let h ← me
    let x ← hartM
    checkSpan e m true false
    if 4088 < m then trapM 0x0C (BitVec.ofNat 64 m)
    let cell ← (if ack then allocM else pure none)
    if ack && cell.isNone then writeReg f.d 0
    else do
      let a ← refusal w
      match ← loadSpan e m with
      | none => pure ()
      | some bs => do
        let s ← get
        sendPacket false (destDie w) (.enqueue h (destCore w) (destRing w) bs (cell.map fun v => (d / 4, v)) x.origin.owner a (← myCore)) ack
        askRing s w m
      match cell with
      | some v => writeReg f.d v
      | none => pure ()
    retire) s

/-- `amsg` and `amsgr` send their message. -/
def sendActive (f : Slot) (spec : Bool) (reply : Option Word) : M Unit := do
  let args ← readRange f.a.toNat (f.misc.toNat % 8)
  let w ← readReg f.b
  let h ← me
  let x ← hartM
  let table := f.misc.getLsbD 3
  let a ← refusal w
  sendPacket spec (destDie w) (.active h x.pc (w.toNat % 256) table (if table then 0 else target x.pc f.imm) args reply x.origin.owner a (← myCore)) false

/-- R258. `amsg`. -/
def execAmsg (s : State) : Out :=
  runM 0x0C8 (do
    useClass .task
    let f ← ir
    names [f.b] []
    sendActive f (f.misc.getLsbD 4) none
    retire) s

/-- R258. `amsgr`. -/
def execAmsgr (s : State) : Out :=
  runM 0x0C9 (do
    useClass .task
    let f ← ir
    names [f.b] [f.d]
    match ← allocM with
    | none => writeReg f.d 0
    | some v => do
      sendActive f false (some v)
      writeReg f.d v
    retire) s

/-- R260. `hret`. -/
def execHret (s : State) : Out :=
  runM 0x0CA (do
    useClass .hret
    endHandler false) s

/-- R256. `recv`. -/
def execRecv (s : State) : Out :=
  runM 0x0CD (do
    useClass .task
    let f ← ir
    let n := f.misc.toNat % 8
    let r := f.imm.toNat % 8
    let c ← myCore
    let g ← enabledRing c r
    if g.filled = 0 then stall
    let s ← get
    let hd := leNat (getRing s c g g.head 0 8)
    let m := hd % 2 ^ 13
    let word := fun (i : Nat) => BitVec.ofNat 64 (leNat ((getRing s c g g.head (8 + 8 * i) 8).take (min 8 (m - 8 * i))))
    writeRange f.d.toNat (BitVec.ofNat 64 hd :: (List.range n).map word)
    modS fun s => s.setRing c r (g.freeHead (ringSlots m))
    retire) s

/-- A thread's held packets, R262. -/
def heldOf (k : Core) (h : HartId) : List Packet := (k.hold.filter (fun p => p.1 == h)).map (·.2)
/-- Moves the oldest k held packets of a hart into the send queue. -/
def moveHeld (c : CoreKey) (h : HartId) (n : Nat) (s : State) : State :=
  s.modCore c fun k =>
    let mine := (heldOf k h).take n
    let rest := ((heldOf k h).drop n).map fun p => (h, p)
    { k with sendq := k.sendq.setIfInBounds 2 (k.sendq.toList.getD 2 [] ++ mine)
             hold := k.hold.filter (fun p => p.1 ≠ h) ++ rest }

/-- R262. `commit`: the grant counts the packets that have moved while it stalls on a full queue. -/
def execCommit (s : State) : Out :=
  runM 0x0CE (do
    useClass .task
    let f ← ir
    names [] [f.d]
    let c ← myCore
    let h ← me
    let x ← hartM
    let s ← get
    let done := match x.grant with
      | some g => if 2 ^ 41 ≤ g.toNat then g.toNat - 2 ^ 41 else 0
      | none => 0
    let room := 16 - ((s.core c).sendq.toList.getD 2 []).length
    let n := (heldOf (s.core c) h).length
    if room < n then
      stallWith fun s => (moveHeld c h room s).modHart h fun y => { y with grant := some (BitVec.ofNat 64 (2 ^ 41 + done + room)) }
    else do
      modS (moveHeld c h n)
      writeReg f.d (BitVec.ofNat 64 (done + n))
      retire) s

/-- R262. `abort`. -/
def execAbort (s : State) : Out :=
  runM 0x0CF (do
    useClass .task
    let f ← ir
    names [] [f.d]
    let c ← myCore
    let h ← me
    let s ← get
    modS fun s => s.modCore c fun k => { k with hold := k.hold.filter (fun p => p.1 ≠ h) }
    writeReg f.d (BitVec.ofNat 64 (heldOf (s.core c) h).length)
    retire) s

/-! ### Engine commands, R265 to R267 -/

/-- R265. `kick`. -/
def execKick (s : State) : Out :=
  runM 0x0D0 (do
    useClass .task
    let f ← ir
    names [f.a, f.b] []
    let a ← readReg f.a
    let b ← readReg f.b
    releaseM 1
    let c ← myCore
    let x ← hartM
    let s ← get
    let k : Kick := { pc := a, arg := b, rev := x.revid, space := x.origin.space, launch := x.origin.launch, owner := x.origin.owner }
    if f.misc.getLsbD 0 then do
      if 2 ≤ (s.core c).cmdSt.length then stall
      modS fun s => s.modCore c fun y => { y with cmdSt := y.cmdSt ++ [k] }
    else do
      if 2 ≤ (s.core c).cmdLd.length then stall
      modS fun s => s.modCore c fun y => { y with cmdLd := y.cmdLd ++ [k] }
    retire) s

/-- R266. `mbwait`. -/
def execMbwait (s : State) : Out :=
  runM 0x0D1 (do
    useClass .task
    let f ← ir
    names [] [f.d]
    let c ← myCore
    let s ← get
    let k := scratchKey c (if f.misc.getLsbD 0 then 0x7FFF8 else 0x7FFF0)
    let w := s.word k
    if !w.getLsbD 63 then stall
    writeReg f.d w
    modS fun s => s.putWord k 0
    acquireM 1
    retire) s

/-- Whether a hart may execute `tagset` and `tagclr`, R261. -/
def tagHart : M Unit := do
  let x ← hartM
  let h ← me
  guardM (tagAllowed h x) illclass
/-- A pending queue of a route tag. -/
def Die.tagQueue (d : Die) (t : Nat) : List TagMsg := lookupD [] t d.tagq
def Die.setTagQueue (d : Die) (t : Nat) (l : List TagMsg) : Die :=
  { d with tagq := if l.isEmpty then eraseKey t d.tagq else setKey t l d.tagq }

/-- The priority of a route tag, 18 R314. -/
def State.tagPrio (s : State) (d : DieKey) (t : Nat) : Nat := (s.ctlGet d (0x300000 + 0x20 * t)).toNat / 2 ^ 56 % 8
/-- R261. `tagset`. -/
def execTagset (s : State) : Out :=
  runM 0x0D2 (do
    useClass .task
    tagHart
    let f ← ir
    names [f.a] []
    let t := (← readReg f.a).toNat % 256
    let d ← myDie
    let h ← me
    let x ← hartM
    if f.misc.getLsbD 0 then
      let m : TagMsg := { msg := .active h x.pc t true 0 [] none x.origin.owner { kind := 0, addr := 0, pc := x.pc, status := 1 } (← myCore), loc := true, prio := (← get).tagPrio d t }
      modS fun s => s.modDie d fun y => if (y.tagQueue t).isEmpty then y.setTagQueue t [m] else y
    else modS fun s => s.modDie d fun y => { y with tagen := y.tagen ||| (1#256 <<< t) }
    retire) s

/-- R261. `tagclr`. -/
def execTagclr (s : State) : Out :=
  runM 0x0D3 (do
    useClass .task
    tagHart
    let f ← ir
    names [f.a] []
    let t := (← readReg f.a).toNat % 256
    let d ← myDie
    if f.misc.getLsbD 0 then modS fun s => s.modDie d fun y => y.setTagQueue t ((y.tagQueue t).filter (fun m => !m.loc))
    else modS fun s => s.modDie d fun y => { y with tagen := y.tagen &&& ~~~(1#256 <<< t) }
    retire) s

/-- `gath` and `scat`. -/
def gatherInstr (op : Nat) (scatter : Bool) (s : State) : Out :=
  runM op (do
    useClass .task
    let f ← ir
    names [f.a] [f.d]
    let a ← readReg f.a
    let c ← myCore
    let h ← me
    let x ← hartM
    match ← allocM with
    | none => writeReg f.d 0
    | some v => do
      releaseM 1
      let s ← get
      if 2 ≤ (s.core c).cmdGe.length then stall
      let o := x.origin
      let g : GatCmd :=
        { hart := h, scatter := scatter, addr0 := a, cell := v, pc := x.pc, rev := x.revid, space := o.space, owner := o.owner, launch := o.launch, job := o.job
          acc := s.accessOf h 0 a x.pc 1 }
      modS fun s => s.modCore c fun k => { k with cmdGe := k.cmdGe ++ [g] }
      writeReg f.d v
    retire) s

/-- R267. `gath`. -/
def execGath (s : State) : Out := gatherInstr 0x0D4 false s
/-- R267. `scat`. -/
def execScat (s : State) : Out := gatherInstr 0x0D5 true s

end Sys2Proof.Machine
end

