-- ==== Sys2Proof/Machine/MessageEvents.lean ====
section
/-! DEFINITION. Messages, handlers, futures, barriers and the gather engine as events (15_task_message_instructions R246, R254 to R260,
R267, R268; 14_queues R236 to R241; 29_fabric_system R375; 26_program_remote_read R360). -/

namespace Sys2Proof.Machine

/-- An access refused far from its core completes with its status at its sender, R255: the record is on its way to the sender's core, or, if
the thread has ended, due there at once. -/
def State.refuseFor (s : State) (src : HartId) (a : Access) : State :=
  match s.hart? src with
  | some x => if x.since = a.born then s.addAccess src a else s.sfqGone src a
  | none => s.sfqGone src a
/-- The credit for an enqueue sent without `.ack`, R375. -/
def State.sendCredit (s : State) (d : DieKey) (sc : CoreKey) : State := s.send d (dieOfCore sc) 1 (.credit sc)
/-- A 48-bit counter of a core that wraps. -/
def State.count48 (s : State) (c : CoreKey) (off : Nat) : State :=
  let o := off + 16 * (c % 384)
  s.ctlPut (dieOfCore c) o (BitVec.ofNat 64 (((s.ctlGet (dieOfCore c) o).toNat + 1) % 2 ^ 48))

/-- An enqueue or `send` that is refused, R255, R257: the record at its sender, and its cell or its credit. -/
def State.refuseEnqueue (s : State) (d : DieKey) (src : HartId) (ack : Option (Nat × Word)) (owner : Nat) (acc : Access) (sc : CoreKey) : State :=
  let s := s.refuseFor src acc
  match ack with
  | some (pkg, cell) => s.sendFill d pkg cell 1 none owner
  | none => s.sendCredit d sc

/-! ### Enqueues, 14 R236, R237 -/

/-- What the receiving interface does with a message: 0 refuses it, 1 reserves at once, 2 lets it wait, 3 has no waiting slot left. -/
def State.ringAnswer (s : State) (c : CoreKey) (r m : Nat) : Nat :=
  let g := s.ring c r
  if 8 ≤ r || g.cap < ringSlots m then 0
  else if ringSlots m ≤ g.free && !(s.core c).waiting.any (fun l => l.ring == r) then 1
  else if (s.core c).waiting.length < 16 then 2 else 3
/-- The first enqueue that the interface can answer; one that waits holds back later messages to its ring. -/
def State.pickEnqueue (s : State) (blocked : List (CoreKey × Nat)) : List Msg → Option (Msg × List Msg)
  | [] => none
  | .enqueue src c r bs ack owner acc sc :: rest =>
    let m := Msg.enqueue src c r bs ack owner acc sc
    if blocked.contains (c, r) || s.ringAnswer c r bs.length = 3 then (s.pickEnqueue ((c, r) :: blocked) rest).map fun q => (q.1, m :: q.2)
    else some (m, rest)
  | m :: rest => (s.pickEnqueue blocked rest).map fun q => (q.1, m :: q.2)
/-- R237, R255. -/
def execEnqueueArrival (s : State) : Out :=
  event (fun e s =>
    let d := e.site
    match s.pickEnqueue [] (s.die d).inbox with
    | none => s
    | some (m, rest) =>
      let s := s.modDie d fun x => { x with inbox := rest }
      match m with
      | .enqueue src c r bs ack owner acc sc =>
        let l : Landing :=
          { ring := r, slots := ringSlots bs.length, bytes := leBytes 8 (ringHeader sc bs.length) ++ bs, ack := ack
            credit := if ack.isSome then none else some sc, owner := owner }
        match (if s.barred (dieOfCore sc) d owner then 0 else s.ringAnswer c r bs.length) with
        | 0 =>
          s.refuseEnqueue d src ack owner acc sc
        | 1 =>
          let g := s.ring c r
          (s.setRing c r { g with free := g.free - l.slots }).modCore c fun k => { k with landing := k.landing ++ [l] }
        | _ => s.modCore c fun k => { k with waiting := k.waiting ++ [l] }
      | _ => s) s
/-- R237. The oldest message that waits for a ring reserves once frees make room. -/
def execWaitingEnqueueReserve (s : State) : Out :=
  event (fun e s =>
    let c := e.site
    match (s.core c).waiting.find? (fun l => l.ring == e.n) with
    | none => s
    | some l =>
      let g := s.ring c e.n
      if g.free < l.slots then s
      else (s.setRing c e.n { g with free := g.free - l.slots }).modCore c fun k =>
        { k with waiting := k.waiting.erase l, landing := k.landing ++ [l] }) s
/-- R237. -/
def execEnqueueRetry (s : State) : Out :=
  event (fun e s => s.modHart e.hart fun x => if x.wait = some .enqueue then { x with wait := none } else x) s
/-- The message from elsewhere that lands next at a core: the oldest behind nothing at its own ring (R237). Which of several rings comes first
is the model's choice (DESIGN CHOICE, log entry 60). -/
def nextLanding : List Nat → List Landing → Option Landing
  | _, [] => none
  | rings, l :: r => if rings.contains l.ring || l.own then nextLanding (l.ring :: rings) r else some l
/-- R236. A landing completes; its sender is told, and the messages of the core's own behind it land. -/
def execMessageLanded (s : State) : Out :=
  event (fun e s =>
    let c := e.site
    match nextLanding [] (s.core c).landing with
    | none => s
    | some l =>
      let s := (s.modCore c fun k => { k with landing := k.landing.erase l }).landNow c l
      let s := s.landOwn c l.ring (s.core c).landing.length
      let s := match l.ack with
        | some (pkg, cell) => s.sendFill (dieOfCore c) pkg cell 0 none l.owner
        | none => s
      match l.credit with
      | some sc => s.sendCredit (dieOfCore c) sc
      | none => s) s
/-- R375. -/
def execEnqueueCredit (s : State) : Out :=
  event (fun e s => s.takeMsg e.site (fun m => match m with
    | .credit _ => true
    | _ => false) fun s m => match m with
    | .credit c => s.count48 c 0x3008
    | _ => s) s

/-! ### Futures and barriers -/

/-- R246. A fill needs an access window to reach a cell on another owner's stack (02 R30); it is discarded without one. -/
def execFutureFill (s : State) : Out :=
  event (fun e s =>
    let d := e.site
    s.takeMsg d (fun m => match m with
      | .fill .. => true
      | _ => false) fun s m => match m with
      | .fill v w fput owner =>
        let c := 1536 * (d / 4) + handleCore v
        let i := handleCell v
        let f := (s.core c).future i
        if v.toNat / 2 ^ 40 = 3 && handleCore v < 1536 && f.valid && !f.full && f.gen.toNat == handleGen v && !s.shut d owner (d / 4) then
          let s := s.modCore c fun k => { k with futures := setKey i { f with value := w, full := true } k.futures }
          match f.owner with
          | some h => s.modHart h fun x => if x.wait = some (.future i) then { x with wait := none } else x
          | none => s
        else
          let s := s.countDie d 0x41
          match fput with
          | some (h, a) => s.refuseFor h a
          | none => s
      | _ => s) s

/-- R254. A barrier instance that has its count releases its arrivals, each of which then acquires. -/
def execBarrierComplete (s : State) : Out :=
  event (fun e s =>
    let d := barrierRoot e.n e.k
    match (s.die d).barriers.find? (fun b => b.same e.site e.n e.k e.m) with
    | none => s
    | some b =>
      if b.total < b.count then s
      else
        let s := s.modDie d fun x => { x with barriers := x.barriers.erase b }
        b.arrived.foldl (fun s h => s.modHart h fun x => if x.wait = some (.barrier b.serial) then { x with wait := none, grant := some 5 } else x) s) s

/-! ### Active messages, 15 R258 to R260 -/

def tagOff (t : Nat) : Nat := 0x300000 + 0x20 * (t % 256)
def State.tagValid (s : State) (d : DieKey) (t : Nat) : Bool := (s.ctlGet d (tagOff t)).getLsbD 63
/-- The free handler context of a die. -/
def State.freeHandler (s : State) (d : DieKey) : Option Nat := (List.range Config.handlersPerDie).find? (fun n => (s.hart? (.handler d n)).isNone)
/-- Whether a message of a tag may enter a handler now, R259. -/
def State.mayEnter (s : State) (d : DieKey) (t p : Nat) : Bool :=
  let c := coreAt d ((s.ctlGet d (tagOff t)).toNat / 2 ^ 32 % 512)
  let busy := s.harts.any fun h => match h.1 with
    | .handler g _ => g == d && s.coreOf h.1 == some c && p ≤ h.2.prio
    | _ => false
  s.tagValid d t && (s.die d).tagen.getLsbD t && (s.freeHandler d).isSome && !busy && (s.die d).reset == .up
/-- The launch that a route-tag entry names: of its owner, started on this package and not complete. -/
def State.tagLaunch (s : State) (d : DieKey) (t : Nat) : Option (Nat × Launch) :=
  let owner := (s.ctlGet d (tagOff t)).toNat % 2 ^ 12
  let ident := (s.ctlGet d (tagOff t + 16)).toNat % 2 ^ 32
  s.launches.find? fun p => p.2.packet.identity.toNat == ident && p.2.packet.owner.toNat == owner && p.2.started && p.2.resident.contains (d / 4)
/-- A message that does not enter, R255: refused at its sender, and an `amsgr`'s reply cell filled with 0. -/
def State.refuseActive (s : State) (d : DieKey) (m : Msg) : State :=
  match m with
  | .active src _ _ _ _ _ reply owner acc sc =>
    let s := s.refuseFor src acc
    match reply with
    | some v => s.sendFill d (pkgOfCore sc) v 0 none owner
    | none => s
  | _ => s
/-- HANDLER ENTRY, R259, R360. -/
def State.enterHandler (s : State) (d : DieKey) (m : TagMsg) (bad : Bool) : State :=
  match m.msg with
  | .active _ _ t table entry args reply _ _ sc =>
    match s.tagLaunch d t, s.freeHandler d with
    | some (l, y), some n =>
      let c := coreAt d ((s.ctlGet d (tagOff t)).toNat / 2 ^ 32 % 512)
      let base := s.unitPa d y.space (s.imageVa (.handler d n))
      let o : Origin :=
        { launch := some l, owner := y.packet.owner.toNat, space := y.space, job := y.job.map (fun j => 8 * (d / 4) + j % 8)
          reply := reply.map fun v => (pkgOfCore sc, v), tag := some t }
      let pc := if table then s.ctlGet d (tagOff t + 8) else entry
      let x := s.startHart c (64 + n) o pc args (s.word (base + 0xE8), s.word (base + 0xF0)) m.prio
      let s := (s.placeHart (.handler d n) x).liveUp (some l)
      if bad || s.isPoisoned (base + 0xE8) 16 then s.endThread (.handler d n) CONTEXTLOST 0 else s
    | _, _ => if m.loc then s else s.refuseActive d m.msg
  | _ => s
/-- The tag of a message. -/
def tagOfMsg : Msg → Nat
  | .active _ _ t .. => t
  | _ => 0
def isActive : Msg → Bool
  | .active .. => true
  | _ => false
/-- R259, R241. A message whose tag's queue is full stays in the network. -/
def execActiveMessageArrival (s : State) : Out :=
  event (fun e s =>
    let d := e.site
    let room := fun (m : Msg) => isActive m && (!s.tagValid d (tagOfMsg m) || decide (((s.die d).tagQueue (tagOfMsg m)).length < 8))
    s.takeMsg d room fun s m =>
      let t := tagOfMsg m
      let p := s.tagPrio d t
      let w : TagMsg := { msg := m, prio := p }
      let q := (s.die d).tagQueue t
      let s := match m with
        | .active _ _ _ _ _ _ _ _ _ sc => s.sendCredit d sc
        | _ => s
      let out := match m with
        | .active _ _ _ _ _ _ _ owner _ sc => s.barred (dieOfCore sc) d owner
        | _ => false
      if out || !s.tagValid d t then s.refuseActive d m
      else if q.isEmpty && s.mayEnter d t p then s.enterHandler d w e.flag
      else s.modDie d fun x => x.setTagQueue t (q ++ [w])) s
/-- The pending message that enters next: the highest priority, then the lowest tag, then the oldest. -/
def State.nextTag (s : State) (d : DieKey) : Option (Nat × TagMsg) :=
  let heads := (List.range 256).filterMap fun t => match (s.die d).tagQueue t with
    | m :: _ => if s.mayEnter d t m.prio then some (t, m) else none
    | [] => none
  heads.foldl (fun b p => match b with
    | some q => if q.2.prio < p.2.prio then some p else b
    | none => some p) none
/-- R259. -/
def execHandlerEntry (s : State) : Out :=
  event (fun e s =>
    let d := e.site
    match s.nextTag d with
    | none => s
    | some (t, m) => (s.modDie d fun x => x.setTagQueue t ((x.tagQueue t).drop 1)).enterHandler d m e.flag) s

/-! ### The gather engine, R267, R268 -/

inductive GatStop where
  | wait
  | fail (status : Nat)
  | lease
/-- The engine at work: what it has done stands when it waits. -/
abbrev Gat (α : Type) := ExceptT GatStop (StateM State) α

/-- The address checks of an access of the issuing thread, and its translation by the TLB of the thread's quad (log entry 20). -/
def gatherAddr (c : CoreKey) (g : GatCmd) (e : Word) (n align kind : Nat) : Gat Nat := do
  if 3 < pathOf e || !layoutOk e n || e.toNat % align ≠ 0 then throw (.fail 1)
  if pathOf e = 3 then pure 0
  else do
    let s ← get
    let va := generalVa e
    if !s.leased { origin := { launch := g.launch } } va n (kind == 0) (kind == 1) then throw .lease
    let q := quadOfCore c
    let page := va / 2 ^ 16 % 2 ^ 41
    let parked := (s.die (dieOfQuad q)).parkedMiss.any fun m => m.quad == q && !m.loadPipe && m.space == g.space && m.page == page
    match s.translate q false g.space va kind with
    | .ok pa => if (s.metaWord pa 0).getLsbD 60 then throw .wait else pure pa
    | .miss => do
      if !parked then set (s.missFor (.gather (dieOfCore c)) q false g.space va kind)
      throw .wait
    | .noRight => do
      if !parked && !s.parkedFull q then set (s.pageFault (.gather (dieOfCore c)) q false g.space va kind)
      throw .wait
/-- A region access that revisions refuse leaves a record in the queue of the commanding core, 13 R220, R224. -/
def gatherRefused (g : GatCmd) (kind : Nat) (e : Word) : Gat α := do
  modify fun s => s.refuseFor g.hart { g.acc with kind := kind, addr := e }
  throw (.fail 1)
/-- A read of n bytes at a multiple of `align`, within a page. -/
def gatherRead (c : CoreKey) (g : GatCmd) (e : Word) (n align : Nat) : Gat Nat := do
  let pa ← gatherAddr c g e n align 0
  let s ← get
  if pathOf e = 3 then do
    let st := s.winStatus (dieOfCore c) g.owner e.toNat n false
    if st ≠ 0 then throw (.fail st)
    return s.winLoad (pkgOfCore c) e.toNat n
  let d := dieOfCore c
  set (s.touchPage (.gather d) pa)
  let st := s.ownerStatus d g.owner pa n false
  if st ≠ 0 then throw (.fail st)
  if s.isPoisoned pa n then throw (.fail 5)
  let j := s.regionOf g.job d (generalVa e)
  if g.rev ≠ 0 && j.isSome && homeOf pa / 4 ≠ d / 4 then gatherRefused g 1 e
  return leNat (s.homeBytes j (if j.isSome then g.rev else 0) pa n)
/-- A write of n bytes of a value that depends on what stood there. -/
def gatherWrite (c : CoreKey) (g : GatCmd) (e : Word) (n : Nat) (f : Nat → Nat) (reads : Bool) : Gat Unit := do
  let pa ← gatherAddr c g e n n 1
  let s ← get
  if pathOf e = 3 then do
    let r := s.winStoreBy (dieOfCore c) g.owner e.toNat n (f (s.winLoad (pkgOfCore c) e.toNat n))
    set r.1
    if r.2 ≠ 0 then throw (.fail r.2)
  else do
    let d := dieOfCore c
    set (s.touchPage (.gather d) pa)
    let s ← get
    let st := if s.granted pa then 1 else s.ownerStatus d g.owner pa n true
    if st ≠ 0 then throw (.fail st)
    if reads && s.isPoisoned pa n then throw (.fail 5)
    match s.regionOf g.job d (generalVa e) with
    | none => set (s.putNum pa n (f (s.num pa n)))
    | some j => do
      if g.rev ≠ 0 && homeOf pa / 4 ≠ d / 4 then gatherRefused g 0 e
      match s.firstWrite j g.rev (pa / 64) (generalVa e / 64) with
      | none => gatherRefused g 0 e
      | some t => set (t.writeRev (some j) g.rev (cellsAt pa (leBytes n (f (leNat (s.homeBytes (some j) g.rev pa n))))))

/-- The command the engine of a die works on. -/
def State.modGat (s : State) (d : DieKey) (f : GatCmd → GatCmd) : State :=
  s.modDie d fun x => { x with gather := x.gather.map fun p => (p.1, f p.2) }
/-- Whether a command block is well formed, R267. -/
def blockOk (g : GatCmd) (b : List Word) : Bool :=
  let w := (b.getD 0 0).toNat
  let op := w % 16
  let ty := w / 2 ^ 8 % 256
  w / 2 ^ 16 == 0 && w / 2 ^ 6 % 4 == 0 && (b.getD 2 0).toNat / 2 ^ 24 == 0 && b.getD 6 0 == 0 && (if g.scatter then op == 1 || op == 2 else op == 0) &&
    (op != 2 || (1 ≤ ty && ty ≤ 0x0C && typeWidth ty == 8 * 2 ^ (w / 2 ^ 4 % 4)))
/-- Reads the block, and the distribution it names. -/
def gatherBlock (c : CoreKey) (g : GatCmd) : Gat Unit := do
  if g.block.isEmpty then do
    let ws ← (List.range 7).mapM fun i => gatherRead c g (g.addr0 + BitVec.ofNat 64 (8 * i)) 8 8
    let b := ws.map (BitVec.ofNat 64)
    if !blockOk g b then throw (.fail 1)
    let dist := b.getD 3 0
    let bs ← (if dist = 0 then pure [] else do
      let h ← gatherRead c g dist 8 8
      let z ← gatherRead c g (dist + 8) 8 8
      if h = 0 || 1024 < h || z ≠ 0 then throw (.fail 1)
      (List.range h).mapM fun i => do
        let w ← (List.range 4).mapM fun j => gatherRead c g (dist + BitVec.ofNat 64 (16 + 32 * i + 8 * j)) 8 8
        let n := w.getD 1 0
        let t := w.getD 2 0
        if n = 0 || n / 2 ^ 40 ≠ 0 || t / 2 ^ 16 ≠ 0 || t / 4 % 2 ^ 6 ≠ 0 then throw (.fail 1)
        pure ({ first := w.getD 0 0, count := n, die := 4 * (t / 2 ^ 8 % 256) + t % 4, data := BitVec.ofNat 64 (w.getD 3 0) } : Block))
    if ((bs.zip (bs.drop 1)).any fun p => decide (p.2.first < p.1.first + p.1.count)) then throw (.fail 1)
    modify fun s => s.modGat (dieOfCore c) fun g => { g with block := b, dist := bs }
/-- The address of an index, R267, 18 R311; none when no block covers it. -/
def GatCmd.addr (g : GatCmd) (ix size : Nat) : Option Word :=
  if g.block.getD 3 0 = 0 then some (g.block.getD 4 0 + BitVec.ofNat 64 (ix * size))
  else (g.dist.find? fun b => b.first ≤ ix && ix < b.first + b.count).map fun b => b.data + BitVec.ofNat 64 ((ix - b.first) * size)
/-- One element. -/
def gatherElem (c : CoreKey) (g : GatCmd) (i : Nat) : Gat Unit := do
  let w := (g.block.getD 0 0).toNat
  let size := 2 ^ (w / 2 ^ 4 % 4)
  let slot := g.block.getD 5 0 + BitVec.ofNat 64 (i * size)
  let ix ← gatherRead c g (g.block.getD 1 0 + BitVec.ofNat 64 (8 * i)) 8 8
  match g.addr ix size with
  | none => throw (.fail 1)
  | some a =>
    if g.scatter then do
      let v ← gatherRead c g slot size size
      gatherWrite c g a size (fun old => if w % 16 = 2 then elemAdd (w / 2 ^ 8 % 256) old v else v) (w % 16 == 2)
    else do
      let v ← gatherRead c g a size size
      gatherWrite c g slot size (fun _ => v) false
/-- The elements that are left; a failed one is counted, and in a gather its slot is 0. -/
def gatherRest (c : CoreKey) : Nat → Gat Unit
  | 0 => pure ()
  | n + 1 => do
    let s ← get
    match (s.die (dieOfCore c)).gather with
    | [] => pure ()
    | (_, g) :: _ => do
      let i := g.next
      let size := 2 ^ ((g.block.getD 0 0).toNat / 2 ^ 4 % 4)
      tryCatch (gatherElem c g i) fun e => match e with
        | .fail st => do
          if !g.scatter then
            tryCatch (gatherWrite c g (g.block.getD 5 0 + BitVec.ofNat 64 (i * size)) size (fun _ => 0) false) fun e => match e with
              | .fail _ => pure ()
              | e => throw e
          modify fun s => s.modGat (dieOfCore c) fun g =>
            { g with failIndex := if g.failCount = 0 then i else g.failIndex, failCode := if g.failCount = 0 then st else g.failCode
                     failCount := g.failCount + 1 }
        | e => throw e
      modify fun s => s.modGat (dieOfCore c) fun g => { g with next := i + 1 }
      gatherRest c n
/-- A whole command, from where it stands. -/
def gatherRun (c : CoreKey) (g : GatCmd) : Gat Unit := do
  gatherBlock c g
  let s ← get
  match (s.die (dieOfCore c)).gather with
  | [] => pure ()
  | (_, g) :: _ => gatherRest c ((g.block.getD 2 0).toNat - g.next)
/-- R268. The engine goes on with its command; once every element has its status it fills the cell and takes the next. A lease that does
not cover an access ends the issuing thread (R175). -/
def execGatherComplete (s : State) : Out :=
  event (fun e s =>
    let d := e.site
    match (s.die d).gather with
    | [] => s
    | (c, g) :: _ =>
      let r := (gatherRun c g).run s
      let s := r.2
      let fin := fun (s : State) (v : Nat) =>
        (s.modDie d fun x => { x with gather := [] }).sendFill d (pkgOfCore c) g.cell (BitVec.ofNat 64 v) none g.owner
      match r.1 with
      | .ok _ => match (s.die d).gather with
        | (_, g) :: _ => fin s (g.failIndex * 2 ^ 32 + g.failCode * 2 ^ 24 + g.failCount)
        | [] => s
      | .error .wait => s
      | .error (.fail st) => fin s (st * 2 ^ 24)
      | .error .lease =>
        let s := s.modDie d fun x => { x with gather := [] }
        if (s.hart? g.hart).isSome && (s.hart g.hart).phase ≠ .ending then s.endThread g.hart LEASE 0 else s) s

end Sys2Proof.Machine
end

