-- ==== Sys2Proof/Machine/Revisions.lean ====
section
/-! DEFINITION. `fork`, `join`, `rdrop` and `rquery` (13_revisions R221 to R230), and the merge of a line (R226, R227). -/

namespace Sys2Proof.Machine

/-- The lowest free revision number of a job, R219. -/
def Job.freeNum (y : Job) : Option Nat := (List.range' 1 4095).find? (fun n => !(y.revs.any fun r => r.num == n))

/-- The job of a thread, and the state of its revisions. -/
def jobM : M (Option Nat) := do return (← hartM).origin.job

/-- R221. `fork`: the child starts, and d is written, once the four dies have registered it. -/
def execFork (s : State) : Out :=
  runM 0x0D6 (do
    useClass .task
    let f ← ir
    names [] [f.d]
    let n := f.misc.toNat % 32
    let args ← readRange f.a.toNat n
    releaseM 4
    let x ← hartM
    let h ← me
    let c ← myCore
    let s ← get
    match x.origin.job with
    | none => writeReg f.d 0
    | some j =>
      match (if s.quota j < (s.job j).use + 1 then none else (s.job j).freeNum) with
      | none => writeReg f.d 0
      | some r =>
        match (s.freeAmong [c]).orElse fun _ => s.freeAmong (quadCores (quadOfCore c)) with
        | none => writeReg f.d 1
        | some (k, slot) => do
          let o : Origin := { launch := x.origin.launch, owner := x.origin.owner, space := x.origin.space, job := some j }
          let hd := BitVec.ofNat 64 (2 ^ 40 + slot * 2 ^ 32 + lcoreOf k * 2 ^ 16 + r)
          let ws ← destReg f.d 0
          let tag ← freshTag
          result ws 0 none false tag
          let rev : Revision := { num := r, parent := x.revid, order := (s.job j).forks, owner := h, child := some (.ctx k slot), handle := hd }
          let tgt := target x.pc f.imm
          modS fun s =>
            let y := s.startHart k slot o tgt args (s.stackFor k slot (x.rsbase, x.rslim)) x.prio
            let s := s.placeHart (.ctx k slot) { y with revid := r, wait := some .request }
            let s := s.liveUp x.origin.launch
            let s := (s.modJob j fun z => { z with revs := z.revs ++ [rev], forks := z.forks + 1 }).recount j
            let d := dieOfHart h
            (List.range 4).foldl (fun s i => s.send d (4 * (d / 4) + i) 4 (.forkReg j r x.revid h tag)) s
    retire) s

/-- The unjoined child that a handle names, R225. -/
def childOf (v : Word) : M (Nat × Revision) := do
  let x ← hartM
  let h ← me
  let s ← get
  match x.origin.job with
  | none => trapM ACCESS v
  | some j => match ((s.job j).childrenOf h).find? (fun r => r.handle == v) with
    | none => trapM ACCESS v
    | some r => pure (j, r)

/-- What a finished join leaves for its thread: the result, with bit 40 set, and the merge's flags above. -/
def joinGrant (v : Nat) (f : Flags5) : Word := BitVec.ofNat 64 (2 ^ 40 + f.toNat * 2 ^ 41 + v % 2 ^ 40)

/-- R225. `join`: waits for the child's end and for the merge, as on an empty future; then it acquires and writes d. What it has been answered
outlasts a trap (R232). -/
def execJoin (s : State) : Out :=
  runM 0x0D7 (do
    useClass .task
    let f ← ir
    names [f.a] [f.d]
    let x ← hartM
    let a ← readReg f.a
    match x.joined with
    | some (hd, g) =>
      if hd = a then do
        acquireM 4
        writeReg f.d (BitVec.ofNat 64 (g.toNat % 2 ^ 40)) (BitVec.ofNat 5 (g.toNat / 2 ^ 41))
        modH fun y => { y with joined := none }
        retire
      else joinWait a
    | none => joinWait a) s
where
  /-- The wait for a child. -/
  joinWait (a : Word) : M Unit := do
    let p ← childOf a
    stallWith fun s => s.suspend s.ir.hart (.revision p.2.num)

/-- Whether a revision stands below another, or is it. -/
def Job.below (y : Job) (r : Nat) : Nat → Nat → Bool
  | 0, _ => false
  | fuel + 1, n => if n = r then true else match y.rev? n with
    | some x => y.below r fuel x.parent
    | none => false
/-- Frees revisions: their copies, the buffered stores and L1 lines tagged with their numbers, and their records. -/
def State.freeRevs (s : State) (j : Nat) (ns : List Nat) : State :=
  let pkg := j / 8
  let drop := fun (k : Core) =>
    { k with
      l1 := k.l1.filter (fun l => !ns.contains l.rev)
      wbuf := k.wbuf.filter (fun b => !(b.job == some j && ns.contains b.rev)) }
  let one := fun (p : CoreKey × Core) => if pkgOfCore p.1 = pkg then (p.1, drop p.2) else p
  let s := { s with cores := s.cores.map one }
  (s.modJob j fun y => { y with revs := y.revs.filter (fun r => !ns.contains r.num) }).recount j
/-- A revision and those below it, the deepest first. -/
def Job.tree (y : Job) (r : Nat) : List Revision := (y.revs.filter fun x => y.below r (y.revs.length + 1) x.num).reverse
/-- Their threads, stopped as a pre-emption stops them (R229, 09 R162): nothing of them issues. -/
def State.stopTree (s : State) (j r : Nat) : State :=
  ((s.job j).tree r).foldl (fun s x => match x.child with
    | some h => s.modHart h fun y => { y with stopping := true }
    | none => s) s
/-- Whether the results of those threads are written and their SSU commands done. -/
def State.treeQuiet (s : State) (j r : Nat) : Bool :=
  ((s.job j).tree r).all fun x => match x.child with
    | some h => (s.hart h).outstanding.isEmpty && !s.ssuBusy h
    | none => true
/-- Discards a revision and those below it, the deepest first, R229. -/
def State.dropRevision (s : State) (j r : Nat) : State :=
  let sub := (s.job j).tree r
  let stop := fun (s : State) (x : Revision) => match x.child with
    | some h => if (s.hart? h).isSome then s.threadGone h { cause := 0xFF } true else s
    | none => s
  (sub.foldl stop s).freeRevs j (sub.map (·.num))

/-- R229. `rdrop`. -/
def execRdrop (s : State) : Out :=
  runM 0x0D8 (do
    useClass .task
    let f ← ir
    names [f.a] [f.d]
    let p ← childOf (← readReg f.a)
    let st := if p.2.phase = 0 then 0xFF else p.2.status
    if !(← get).treeQuiet p.1 p.2.num then stallWith fun s => s.stopTree p.1 p.2.num
    modS fun s => s.dropRevision p.1 p.2.num
    writeReg f.d (BitVec.ofNat 64 st)
    retire) s

/-- R230. `rquery`. -/
def execRquery (s : State) : Out :=
  runM 0x0D9 (do
    useClass .task
    let f ← ir
    names [f.a] [f.d]
    let a ← readReg f.a
    let x ← hartM
    let h ← me
    let s ← get
    let v := match f.imm.toNat % 4, x.origin.job with
      | 0, some j => match ((s.job j).childrenOf h).find? (fun r => r.handle == a) with
        | some r => min 2 r.phase
        | none => 3
      | 0, none => 3
      | 1, some j => (s.job j).useCount
      | 2, some j => s.quota j
      | 3, _ => x.revid
      | _, none => 0
      | _, _ => 0
    writeReg f.d (BitVec.ofNat 64 v)
    retire) s

/-! ### The merge, R226, R227 -/

/-- The result where both parent and child changed an element, R218: the bits and the flags. -/
def mergeBoth (code a p c : Nat) : Nat × Flags5 :=
  let w := 8 * 2 ^ (code / 2 % 4)
  let fl := code % 2 = 1
  let m := match code / 2 % 4 with
    | 1 => f16
    | 2 => f32
    | _ => f64
  let sp := sext p w
  let sc := sext c w
  match code / 8 with
  | 0 => (c, 0)
  | 1 => (p, 0)
  | 2 =>
    if fl then
      let va := m.read a
      let vp := m.read p
      let vc := m.read c
      if va.isNaN || vp.isNaN || vc.isNaN then (m.canonNaN, if va.isSNaN || vp.isSNaN || vc.isSNaN then flagNV else 0)
      else if va.isInf || vp.isInf || vc.isInf then
        let ss := ([vp, vc, va.negate].filter (·.isInf)).map (·.neg?)
        if ss.all id then (m.infBits true, 0) else if ss.all (!·) then (m.infBits false, 0) else (m.canonNaN, flagNV)
      else match vp, vc, va.negate with
        | .fin s1 m1 e1, .fin s2 m2 e2, .fin s3 m3 e3 =>
          let q := exactSum s1 m1 e1 s2 m2 e2
          let r := exactSum q.1 q.2.1 q.2.2 s3 m3 e3
          let zs := m1 == 0 && m2 == 0 && m3 == 0 && s1 && s2 && s3
          let x := roundVal m false .rne zs r.1 r.2.1 r.2.2
          (x.bits, x.flags)
        | _, _, _ => (m.canonNaN, flagNV)
    else ((p + c + (2 ^ w - a)) % 2 ^ w, 0)
  | 3 => if fl then let x := fPick m true p c; (x.bits, x.flags) else (if sp < sc then c else p, 0)
  | 4 => if fl then let x := fPick m false p c; (x.bits, x.flags) else (if sc < sp then c else p, 0)
  | 5 => (max p c, 0)
  | 6 => (min p c, 0)
  | 7 => (p ||| c, 0)
  | 8 => (p &&& c, 0)
  | _ => (p, 0)

/-- One element's merge: its bits, its flags, and whether it is a conflict. -/
def mergeElement (code a p c : Nat) : Nat × Flags5 × Bool :=
  if c = a then (p, 0, false)
  else if p = a then (c, 0, false)
  else
    let r := mergeBoth code a p c
    (r.1, r.2, code / 8 == 9 && p != c)

/-- A merge-conflict record, R227, R242: written, or lost and counted. -/
def State.conflictRecord (s : State) (d : DieKey) (ws : List Nat) : State :=
  let c := (s.ctlGet d 0x130).toNat
  let head := c % 2 ^ 10
  let count := c / 2 ^ 10 % 2 ^ 11
  let ovf := c / 2 ^ 32 % 2 ^ 16
  if 1024 ≤ count then
    (s.ctlPut d 0x130 (BitVec.ofNat 64 (head + count * 2 ^ 10 + min 65535 (ovf + 1) * 2 ^ 32))).countDie d 0x43
  else
    let a := (s.ctlGet d 0x128).toNat % 2 ^ 56 + 64 * ((head + count) % 1024)
    let s := s.putCells (cellsAt a (ws.flatMap (leBytes 8)))
    s.ctlPut d 0x130 (BitVec.ofNat 64 (head + (count + 1) * 2 ^ 10 + ovf * 2 ^ 32))

/-- What a merge of a line gathers: the merged bytes, the flags, and the conflicts with their offset and three values. -/
def mergeLine (code : Nat) (a p c : List Byte) : List Byte × Flags5 × List (Nat × Nat × Nat × Nat) :=
  let k := 2 ^ (code / 2 % 4)
  (List.range (64 / k)).foldl (fun acc i =>
    let at3 := fun (l : List Byte) => leNat (sliceBytes l (i * k) k)
    let r := mergeElement code (at3 a) (at3 p) (at3 c)
    (acc.1 ++ leBytes k r.1, acc.2.1 ||| r.2.1, if r.2.2 then acc.2.2 ++ [(i * k, at3 a, at3 p, at3 c)] else acc.2.2)) ([], 0, [])

/-- Merges a line of a revision into its parent, at the line's home: a write that is never refused (R224). An error
uncorrectable in the child's copy leaves the parent's value and sets the join's status to 0x21 (R225). -/
def State.mergeRevLine (s : State) (j : Nat) (x : Revision) (line owner : Nat) (pc : Word) (bad : Bool) : State :=
  let y := s.job j
  let d := homeOf (64 * line)
  let va := lookupD 0 line y.vas
  match s.regionCode d j (64 * va), lookup? line x.copies with
  | some code, some c =>
    let p := s.view j x.parent line
    let a := match lookup? line x.ancestors with
      | some b => b.2
      | none => p
    let m := if bad then (p, 0, []) else mergeLine code a p c
    let s := if bad then s else (s.retain j x.parent line).writeRev (some j) x.parent (cellsAt (64 * line) m.1)
    let rec1 := fun (s : State) (q : Nat × Nat × Nat × Nat) =>
      s.conflictRecord d [64 * va + q.1 + code / 2 % 4 * 2 ^ 58, q.2.1, q.2.2.1, q.2.2.2, x.num + x.parent * 2 ^ 16 + owner * 2 ^ 32, pc.toNat, 0, 0]
    let s := m.2.2.foldl rec1 s
    let upd := fun (r : Revision) => if r.num = x.num then
        { r with merged := line :: r.merged, flags := r.flags ||| m.2.1, conflicts := min 65535 (r.conflicts + m.2.2.length), phase := 2, damaged := r.damaged || bad } else r
    s.modJob j fun y => { y with revs := y.revs.map upd }
  | _, _ =>
    s.modJob j fun y => { y with revs := y.revs.map fun (r : Revision) => if r.num = x.num then { r with merged := line :: r.merged, phase := 2 } else r }

end Sys2Proof.Machine
end

