-- ==== Sys2Proof/Machine/TaskEvents.lean ====
section
/-! DEFINITION. The dispatcher's events (16_dispatch R279 to R286, R385; 14_queues R244): posts, acquisitions, issue and the end of
tasks. -/

namespace Sys2Proof.Machine

/-- R244. A posted task enters its home's ready queues with the launch's arrival count (R283). -/
def execPostArrival (s : State) : Out :=
  event (fun e s =>
    let d := e.site
    let put := fun (s : State) (m : Msg) => match m with
      | .post t =>
        let n := lookupD 0 t.launch (s.die d).arrivals
        match (s.die d).enter { t with arrival := n } with
        | some x => s.modDie d fun _ => { x with arrivals := setKey t.launch ((n + 1) % 2 ^ 40) x.arrivals }
        | none => s.modDie d fun x => { x with inbox := m :: x.inbox }
      | _ => s
    s.takeMsg d (fun m => match m with
      | .post _ => true
      | _ => false) put) s

/-! ### Acquisition -/

/-- A launch's cores on a die, in ascending LCORE order, 23_program_star R356. -/
def Launch.coresOn (y : Launch) (d : DieKey) : List CoreKey :=
  (List.range 384).filterMap fun n =>
    let c := coreAt d n
    if y.packet.firstCore.toNat ≤ lcoreOf c ∧ lcoreOf c < y.packet.firstCore.toNat + y.packet.coreCount.toNat then some c else none
/-- The context that the next task of a launch is given: from the core after the one last reserved, wrapping (R280). -/
def State.reserve (s : State) (y : Launch) (d : DieKey) : Option (CoreKey × Nat) :=
  let cs := y.coresOn d
  match lookup? d y.rotation with
  | none => s.freeAmong (cs.take 1 ++ cs.drop 1)
  | some last => s.freeAmong (cs.filter (fun c => last < c) ++ cs.filter (fun c => c ≤ last))
/-- Each of a sorted list once. -/
def dedup [DecidableEq α] : List α → List α
  | [] => []
  | [a] => [a]
  | a :: b :: r => if a = b then dedup (b :: r) else a :: dedup (b :: r)
/-- Element numbers at an address of a space, as a dispatcher finds them (log entry 20). -/
def State.words (s : State) (d : DieKey) (space a n : Nat) : List Nat :=
  (List.range n).map fun i => (s.unitWord d space (a + 8 * i)).toNat
/-- A task's neighbourhood, R277, R310: its elements, and what R15 gives x1 and x2; none when it is malformed. -/
def State.hoodOf (s : State) (d : DieKey) (y : Launch) (e : Nat) : Option (List Nat × Word × Word) :=
  if y.radius = 0 then some ([e], 0, 0)
  else
    let a := y.rowOff.toNat + 8 * e
    let r0 := s.unitWord d y.space a
    let r1 := s.unitWord d y.space (a + 8)
    let n := (r1 - r0).toNat
    if 2 ^ 63 ≤ n then none
    else
      let base := y.neigh + r0 * 8
      let l := dedup ((e :: s.words d y.space base.toNat n).mergeSort (fun a b => decide (a ≤ b)))
      if l.any (fun i => y.count ≤ i) || 1048576 < l.length then none else some (l, base, r1 - r0)
/-- Elements as positions of their home dies, in ascending order of package, die and element. -/
def Launch.positions (y : Launch) (l : List Nat) : List (DieKey × Nat) :=
  (l.filterMap (elementAt y.blocks)).mergeSort (fun a b => decide (a.1 < b.1 ∨ a.1 = b.1 ∧ a.2 ≤ b.2))
/-- The task whose acquisition starts next: of the highest priority, first in first out, of a launch that is not held (R275) and whose
lease ranges its package has made resident (R273). -/
def State.nextTask (s : State) (d : DieKey) : Option Task :=
  let ok := (s.die d).ready.filter fun t => match s.launch? t.launch with
    | some y => !y.held && y.resident.contains (d / 4)
    | none => true
  ok.foldl (fun b t => match b with
    | some q => if q.prio < t.prio then some t else b
    | none => some t) none
/-- A task that ends before it issues, R277. -/
def State.badTask (s : State) (t : Task) : State :=
  s.modLaunch t.launch fun y => { y.fault ACCESS 0 (BitVec.ofNat 64 t.elem) with
    tasks := y.tasks - 1, causeCount := y.causeCount + 1, ends := y.ends ++ [(0, ACCESS, false)] }

/-- R280. A context is reserved, the neighbourhood is read and sorted, and the walk starts: as a husk when the retry count has reached
the launch's threshold (R282). The sets of husks come before those of ordinary acquisitions (R279). -/
def execAcquisitionStart (s : State) : Out :=
  event (fun e s =>
    let d := e.site
    if (s.die d).reset ≠ .up || (s.firstRestart d).isSome then s
    else match s.nextTask d with
    | none => s
    | some t =>
      let drop := fun (s : State) => s.modDie d fun x => { x with ready := x.ready.erase t }
      match s.launch? t.launch with
      | none => drop s
      | some y => match s.reserve y d with
        | none => s
        | some ctx => match s.hoodOf d y t.elem with
          | none => ((((drop s).modLaunch t.launch fun y => { y with rotation := setKey d ctx.1 y.rotation }).modDie d Die.unspill).badTask
              t).countDie d 0x49
          | some (l, first, count) =>
            let a := (s.die d).nextAcq
            let key : HuskKey := { order := y.order.toNat, arrival := t.arrival, pkg := d / 4, die := d % 4 }
            let husk := if y.threshold ≤ t.retry then some key else none
            let q : Acq := { task := t, ctx := ctx, hood := y.positions l, first := first, count := count, husk := husk }
            let s := (drop s).modLaunch t.launch fun y => { y with rotation := setKey d ctx.1 y.rotation }
            let s := (s.modDie d fun x => { x with acqs := x.acqs ++ [(a, q)], nextAcq := a + 1 }).countDie d 0x49
            (if husk.isSome then s.countDie d 0x4B else s).walkOn d a) s

/-- R281, R282. The owning die answers for a remote run. -/
def execExclusionRequest (s : State) : Out :=
  event (fun e s =>
    let d := e.site
    s.takeExcl d (fun m => match m with
      | .exclReq .. => true
      | _ => false) fun s m => match m with
      | .exclReq src a run husk incarn =>
        let reply := fun (s : State) (run : List Nat) (ok : Bool) (owned : List Nat) => s.send d src 3 (.exclReply d a run ok owned)
        let grant := fun (s : State) => s.modDie d fun x =>
          { x with grants := { die := src, incarn := incarn, acq := a, run := run } :: dropGrant src a run x.grants }
        if 8192 ≤ (s.die d).grants.length then reply s (run.take 1) false []
        else match husk with
          | none => match s.setRun d (src, a) run with
            | some s => reply (grant s) run true run
            | none => reply s [] false []
          | some key =>
            let r := s.huskRun d (src, a) key run
            match r.2.2 with
            | none => reply (grant r.1) run true r.2.1
            | some p => reply (grant r.1) [p] false r.2.1
      | _ => s) s

/-- R281, R282. A reply, or an element that passes, reaches the dispatcher. -/
def execExclusionReply (s : State) : Out :=
  event (fun e s =>
    let d := e.site
    s.takeExcl d (fun m => match m with
      | .exclReply .. | .exclPass .. => true
      | _ => false) fun s m => match m with
      | .exclReply t a run ok owned =>
        match s.acq? d a with
        | none => s.send d t 3 (.exclRelease d a run)
        | some q =>
          let asked := ((q.hood.drop q.next).takeWhile (fun e => e.1 == t)).map (·.2)
          let s := s.modAcq d a fun q => { q with asking := false }
          if q.stuck.isSome then s.send d t 3 (.exclRelease d a (run ++ owned))
          else if ok then
            let own := owned.map fun p => (t, p)
            let marks := (run.filter (fun p => !owned.contains p)).map fun p => (t, p)
            (s.modAcq d a fun q => { q with
              taken := q.taken ++ own.filter (fun e => !q.taken.contains e)
              marked := q.marked ++ marks.filter (fun e => !q.marked.contains e)
              next := q.next + run.length }).walkOn d a
          else match q.husk with
            | none => s.conflict d a q
            | some _ =>
              let stop := run.headD 0
              let seen := (asked.takeWhile (fun p => p != stop)).map fun p => (t, p)
              s.yieldHusk d a { q with marked := q.marked ++ seen } (t, stop)
      | .exclPass a t p =>
        match s.acq? d a with
        | none => s.send d t 3 (.exclRelease d a [p])
        | some q => if q.marked.contains (t, p) then s.modAcq d a (passTo t p) else s
      | _ => s) s

/-- R281. The owning die clears a remote run. -/
def execExclusionRelease (s : State) : Out :=
  event (fun e s =>
    let d := e.site
    s.takeExcl d (fun m => match m with
      | .exclRelease .. => true
      | _ => false) fun s m => match m with
      | .exclRelease src a run =>
        let s := s.modDie d fun x => { x with grants := dropGrant src a run x.grants }
        run.foldl (fun s p => s.releasePos d (src, a) p) s
      | _ => s) s

/-- R385. A husk learns of an older husk. -/
def execHuskYield (s : State) : Out :=
  event (fun e s =>
    let d := e.site
    s.takeExcl d (fun m => match m with
      | .huskYield .. => true
      | _ => false) fun s m => match m with
      | .huskYield a t p =>
        match s.acq? d a with
        | none => s
        | some q => if q.husk.isNone || q.issued || q.stuck.isSome then s else s.yieldHusk d a q (t, p)
      | _ => s) s

/-- R385. A husk that yielded walks again once the element is neither held nor husked under an older key: of several, the oldest first
(R279). -/
def execHuskRestart (s : State) : Out :=
  event (fun e s =>
    let d := e.site
    match s.acq? d e.n with
    | none => s
    | some _ =>
      if s.firstRestart d = some e.n then (s.modAcq d e.n fun q => { q with stuck := none, next := 0 }).walkOn d e.n else s) s

/-! ### Issue and end -/

/-- R281, R15. The task issues into its reserved context, with acquire. -/
def execTaskIssue (s : State) : Out :=
  event (fun e s =>
    let d := e.site
    match s.acq? d e.n with
    | none => s
    | some q =>
      match s.launch? q.task.launch with
      | none => s
      | some y =>
        if !q.complete then s
        else
          let c := q.ctx.1
          let n := q.ctx.2
          let o : Origin :=
            { launch := some q.task.launch, owner := y.packet.owner.toNat, space := y.space, job := y.job.map fun j => 8 * (d / 4) + j % 8
              element := some q.task.elem, acq := some (d, e.n) }
          let args := [BitVec.ofNat 64 q.task.elem, q.first, q.count]
          let x := s.startHart c n o q.task.entry args (s.stackFor c n (s.imageStack y)) y.prio
          let s := s.modAcq d e.n fun q => { q with issued := true }
          let s := (s.placeHart (.ctx c n) x).acquire (.ctx c n) 4
          (s.modDie d Die.unspill).countDie d 0x4C) s

/-- The end of a task in its launch's accounting, R284, R285, R290: an end by a cause stands open, under a number, while its re-post may still
succeed. -/
def Launch.taskEnd (y : Launch) (t : Task) (faulted : Bool) (cause : Nat) (again : Option Nat) : Launch :=
  let mine := fun (p : Nat × Nat × Bool) => t.reposted && p.1 == t.endNo && p.2.2
  { y with
    tasks := if again.isSome then y.tasks else y.tasks - 1
    doneCount := if faulted then y.doneCount else y.doneCount + 1
    causeCount := if faulted then y.causeCount + 1 else y.causeCount
    ends :=
      if faulted then (y.ends.map fun p => if mine p then (p.1, p.2.1, false) else p) ++ [(again.getD 0, cause, again.isSome)]
      else y.ends.filter (fun p => !mine p) }
/-- The number under which a faulted task may be posted once more. -/
def State.againFor (s : State) (t : Task) (faulted : Bool) : Option Nat :=
  match s.launch? t.launch with
  | some y => if faulted && y.repost && !t.reposted then some (s.free + 1) else none
  | none => none
/-- R284. The dispatcher accounts the task and clears its neighbourhood. -/
def execTaskEnd (s : State) : Out :=
  event (fun e s =>
    let d := e.site
    s.takeMsg d (fun m => match m with
      | .taskEnd .. => true
      | _ => false) fun s m => match m with
      | .taskEnd a faulted cause _ =>
        match s.acq? d a with
        | none => s
        | some q =>
          let again := s.againFor q.task faulted
          let s := s.modLaunch q.task.launch fun y => y.taskEnd q.task faulted cause again
          let s := s.releaseAll d a q.taken
          match again with
          | some n => { s with free := n }.modAcq d a fun q => { q with releasing := true, taken := [], task := { q.task with endNo := n } }
          | none => s.modDie d fun x => { x with acqs := eraseKey a x.acqs }
      | _ => s) s

/-- R285. The first faulted task whose release is complete is requeued, once, with retry count 0. -/
def execRePost (s : State) : Out :=
  event (fun e s =>
    let d := e.site
    match (s.die d).acqs.find? (fun a => a.2.releasing) with
    | none => s
    | some (a, q) =>
      match ({ s.die d with acqs := eraseKey a (s.die d).acqs } : Die).enter { q.task with retry := 0, reposted := true } with
      | some x => s.modDie d fun _ => x
      | none => s) s

end Sys2Proof.Machine
end

