-- ==== Sys2Proof/Machine/FabricEvents.lean ====
section
/-! DEFINITION. The fabric, die reset, power and hosts as events (29_fabric_system R371 to R384, 14_queues R233 and R243,
17_tables_translation R306 and R307, 21_order_cores_dies R341 to R343, 16_dispatch R286). -/

namespace Sys2Proof.Machine

/-! ### Packets -/

/-- A packet lost in the fabric. One of an acknowledged class is kept by its sender (R374); a marker is counted as flushed once those
have been delivered (R343), and waits for that beside them. -/
def State.losePacket (s : State) (p : Packet) : State :=
  match p.msg with
  | .marker .. => s.modDie p.src fun x => { x with kept := x.kept ++ [p] }
  | _ => s

/-- R241. A message whose tag's queue is full at its die, where the side buffer holds one of that tag already, stays behind; packets of other
tags pass it. The buffer is one for each die and tag (DESIGN CHOICE, log entry 60: R241 gives each link one). -/
def State.tagHeld (s : State) (p : Packet) : Bool :=
  match p.msg with
  | .active _ _ t .. =>
    let x := s.die p.dst
    s.tagValid p.dst t && decide (8 ≤ (x.tagQueue t).length) && (x.inbox ++ x.ports.map (·.2.msg)).any fun m => isActive m && tagOfMsg m == t
  | _ => false
/-- R255. A package without power is in no package of the pod (DESIGN CHOICE, log entry 60): a message to it is refused as it leaves its core. -/
def State.refusePacket (s : State) (d : DieKey) (p : Packet) : State :=
  match p.msg with
  | .enqueue src _ _ _ ack owner acc sc => s.refuseEnqueue d src ack owner acc sc
  | .active _ _ _ _ _ _ _ _ _ sc => (s.refuseActive d p.msg).sendCredit d sc
  | _ => s
/-- R233, R375. The network interface takes the oldest packet of a send queue that nothing holds; one that leaves the die needs room in a link
queue. -/
def execPacketSent (s : State) : Out :=
  event (fun e s =>
    let c := e.site
    let d := dieOfCore c
    let vn := e.n % 5
    let l := (s.core c).sendq.toList.getD vn []
    match l.find? (fun p => !s.tagHeld p) with
    | none => s
    | some p =>
      let x := s.die d
      let n := x.route d p * 5 + p.vn
      let out := p.dst ≠ d && (s.pkg (p.dst / 4)).off
      if p.dst ≠ d && !out && (x.outq.any (fun q => q.1 == n) || !x.hasRoom n p) then s
      else
        let s := s.modCore c fun k => { k with sendq := k.sendq.setIfInBounds vn (l.erase p) }
        let s := if p.acked then s else s.count48 c 0x3000
        if out then s.refusePacket d p else s.send d p.dst p.vn p.msg p.owner p.acked p.core) s
/-- R233. The first packet of a link queue that nothing holds leaves for its destination; a die in reset, or without power, takes nothing in. -/
def execFlitSent (s : State) : Out :=
  event (fun e s =>
    let d := e.site
    let n := e.n % 12 * 5 + e.k % 5
    let l := (s.die d).linkQueue n
    if (s.die d).downLinks.contains (e.n % 12) then s
    else match l.find? (fun p => !s.tagHeld p) with
    | none => s
    | some p =>
      let s := s.modDie d fun x => Die.settle n x.outq.length { x with links := x.links.setIfInBounds n (l.erase p) }
      if (s.die p.dst).reset ≠ .up || (s.pkg (p.dst / 4)).off then s.losePacket p
      else s.modDie p.dst fun x => { x with ports := x.ports ++ [(decide (3 ≤ e.n % 12), p)] }) s

/-- The record of a sender's incarnation against a packet's, R307: whether the packet is accepted. -/
def State.checkIncarn (s : State) (d src i : Nat) : State × Bool :=
  let fresh := fun (s : State) =>
    (s.setIncarnRecord d src i).modDie d fun x => { x with performed := x.performed.filter (fun t => t.1 ≠ src) }
  match s.incarnRecord d src with
  | none => (fresh s, true)
  | some r =>
    let k := (i + 65536 - r) % 65536
    if k = 0 then (s, true)
    else if k ≤ 32767 then ((fresh s).releaseOld d src i, true)
    else (s.countDie d 0x47, false)
/-- Whether a port accepts a packet's key tag, R306: it was made under one of the two valid keys of its domain. -/
def Die.keyOk (x : Die) (p : Packet) : Bool :=
  x.keyAccepts p.owner p.key
/-- R373, R374, R31. The oldest packet at the ports of a die: its key, where it came by a fabric port or from another partition; its incarnation; whether it is a duplicate.
The access table is looked up where the packet's access is performed. -/
def execPacketArrival (s : State) : Out :=
  event (fun e s =>
    let d := e.site
    match (s.die d).ports with
    | [] => s
    | (port, p) :: r =>
      let s := s.modDie d fun x => { x with ports := r }
      if (port || (s.die p.src).partition != (s.die d).partition) && !(s.die d).keyOk p then s.countDie d 0x48
      else match s.checkIncarn d p.src p.incarn with
        | (s, false) => s
        | (s, true) =>
          let t := (p.src, p.vn, p.seq)
          let take := fun (s : State) => s.modDie d fun x => { x with inbox := x.inbox ++ [p.msg] }
          if !p.acked then take s
          else
            let old := (s.die d).performed.contains t
            let s := s.send d p.src 1 (.packetAck d p.vn p.seq) p.owner false
            if old then s else (take s).modDie d fun x => { x with performed := t :: x.performed }) s
/-- R374, R342, R222, R163. An acknowledgement, or a reply on the management network, returns to the die that waits for it. -/
def execAcknowledgement (s : State) : Out :=
  event (fun e s =>
    let d := e.site
    s.takeMsg d (fun m => match m with
      | .packetAck .. | .markerAck .. | .forkAck .. | .ctxReply .. => true
      | _ => false) fun s m => match m with
      | .packetAck t vn q => s.modDie d fun x => { x with kept := x.kept.filter (fun p => !(p.dst == t && p.vn == vn && p.seq == q)) }
      | .markerAck h number => State.tryGone (h := h) <| s.modHart h fun x =>
          if x.flushNo ≠ number then x
          else if x.flush ≤ 1 then { x with flush := 0, wait := if x.wait = some .flush then none else x.wait, grant := some 2 }
          else { x with flush := x.flush - 1 }
      | .forkAck h tag j rev =>
        let n := match (s.job j).rev? rev with
          | some r => r.acks + 1
          | none => 0
        let s := s.modJob j fun y => { y with revs := y.revs.map fun (r : Revision) => if r.num = rev then { r with acks := n } else r }
        match (s.job j).rev? rev with
        | some r =>
          if n < 4 then s
          else
            let s := s.returnTag h tag r.handle
            match r.child with
            | some c => s.modHart c fun x => if x.wait = some .request then { x with wait := none } else x
            | none => s
        | none => s
      | .ctxReply h tag st => s.returnTag h tag (BitVec.ofNat 64 st)
      | _ => s) s
/-- R374, R343. The n-th kept packet goes again, on a live route; a marker only once no acknowledged packet to its destination is left. -/
def execRetransmit (s : State) : Out :=
  event (fun e s =>
    let d := e.site
    match (s.die d).kept[e.n]? with
    | none => s
    | some p =>
      match p.msg with
      | .marker .. =>
        if (s.die d).kept.any (fun q => q.acked && q.dst == p.dst) then s
        else (s.modDie d fun x => { x with kept := x.kept.eraseIdx e.n }).modDie d fun x => x.enqueueLink (x.route d p * 5 + p.vn) p
      | _ => s.enlink d p) s
/-- Whether a message is a packet that the homes of a die must have performed before a later marker is answered. -/
def needsHome : Msg → Bool
  | .atomic .. | .enqueue .. | .active .. => true
  | _ => false
/-- R342. A marker is gathered once the packets that reached the die before it are performed; the last of the 2n is acknowledged. -/
def execFlushMarker (s : State) : Out :=
  event (fun e s =>
    let d := e.site
    let isMarker := fun (m : Msg) => match m with
      | .marker .. => true
      | _ => false
    if ((s.die d).inbox.takeWhile (fun m => !isMarker m)).any needsHome then s
    else s.takeMsg d isMarker fun s m => match m with
      | .marker src h number n _ =>
        let mine := fun (t : DieKey × HartId × Nat × Nat) => t.1 == src && t.2.1 == h && t.2.2.1 == number
        let k := match (s.die d).markers.find? mine with
          | some t => t.2.2.2 + 1
          | none => 1
        let s := s.modDie d fun x =>
          { x with markers := if k < 2 * n then (src, h, number, k) :: x.markers.filter (fun t => !mine t) else x.markers.filter (fun t => !mine t) }
        if k < 2 * n then s else s.send d src 1 (.markerAck h number)
      | _ => s) s

/-! ### Spills, 14 R243, and links, 21 R343 -/

/-- R243. A link queue whose head has not moved spills its whole content; a full pond stalls it (R174). -/
def execLinkSpill (s : State) : Out :=
  event (fun e s =>
    let d := e.site
    let n := e.n % 12 * 5 + e.k % 5
    let l := (s.die d).linkQueue n
    if l.isEmpty then s
    else if pondFlits < flitsOf ((s.die d).pond.map (·.2)) + flitsOf l then s.countDie d 0x45
    else
      let go := fun (x : Die) => Die.settle n x.outq.length { x with links := x.links.setIfInBounds n [], pond := x.pond ++ l.map fun p => (n, p) }
      (s.modDie d go).countDie d 0x51) s
/-- R243. The oldest spilled packet of a queue returns to it, behind what the link still holds, when there is room. -/
def execLinkRefill (s : State) : Out :=
  event (fun e s =>
    let d := e.site
    let n := e.n % 12 * 5 + e.k % 5
    match (s.die d).pond.find? (fun q => q.1 == n) with
    | none => s
    | some q =>
      let l := (s.die d).linkQueue n
      if !l.isEmpty && 64 < flitsOf l + q.2.flits then s
      else s.modDie d fun x => Die.settle n x.outq.length { x with pond := x.pond.erase q, links := x.links.setIfInBounds n (l ++ [q.2]) }) s
/-- What was queued on a link, in the queues and the pond. -/
def Die.onLink (x : Die) (l : Nat) : List Packet :=
  (List.range 5).flatMap (fun vn => x.linkQueue (l * 5 + vn)) ++ (x.pond.filter (fun q => q.1 / 5 == l)).map (·.2)
/-- R343, R383. A link fails: what it had queued is lost, its route is down, and the black box records it. What still waited for room in its
queues takes another route. -/
def execLinkDown (s : State) : Out :=
  event (fun e s =>
    let d := e.site
    let l := e.n % 12
    if (s.die d).downLinks.contains l then s
    else
      let lost := (s.die d).onLink l
      let again := ((s.die d).outq.filter (fun q => q.1 / 5 == l)).map (·.2)
      let s := s.modDie d fun x => { x with
        downLinks := l :: x.downLinks, pond := x.pond.filter (fun q => q.1 / 5 != l), outq := x.outq.filter (fun q => q.1 / 5 != l)
        links := (List.range 5).foldl (fun v vn => v.setIfInBounds (l * 5 + vn) []) x.links }
      ((again.foldl (fun s p => s.enlink d p) s).blackBox d 0x81 0 0 l |> fun s => lost.foldl State.losePacket s)) s
/-- R383. -/
def execLinkUp (s : State) : Out :=
  event (fun e s =>
    let d := e.site
    let l := e.n % 12
    if (s.die d).downLinks.contains l then (s.modDie d fun x => { x with downLinks := x.downLinks.filter (· ≠ l) }).blackBox d 0x82 0 0 l
    else s) s

/-! ### Die reset, R379, R380, 16 R286, 13 R232 -/

/-- R379. A neighbour marks a die down. -/
def execDieDownNotice (s : State) : Out :=
  event (fun e s => s.takeMsg e.site (fun m => match m with
    | .downNotice _ => true
    | _ => false) fun s m => match m with
    | .downNotice t => s.modDie e.site fun x => { x with downDies := if x.downDies.contains t then x.downDies else t :: x.downDies }
    | _ => s) s
/-- R379. A neighbour marks a die up again. -/
def execDieAnnounce (s : State) : Out :=
  event (fun e s => s.takeMsg e.site (fun m => match m with
    | .upNotice _ => true
    | _ => false) fun s m => match m with
    | .upNotice t => s.modDie e.site fun x => { x with downDies := x.downDies.filter (· ≠ t) }
    | _ => s) s

/-- A ready-queue entry that a reset loses, R286. -/
def State.loseTask (s : State) (t : Task) : State :=
  s.modLaunch t.launch fun y => (y.fault CONTEXTLOST 0 (BitVec.ofNat 64 t.elem)).taskEnd t true CONTEXTLOST none
/-- A task that was running on a die in reset ends with CONTEXT-LOST; its re-post policy says whether it is queued again. -/
def State.resetTask (s : State) (t : Task) : State × List Task :=
  let again := s.againFor t true
  let s := s.modLaunch t.launch fun y => y.taskEnd t true CONTEXTLOST again
  match again with
  | some n => ({ s with free := n }, [{ t with retry := 0, reposted := true, endNo := n }])
  | none => (s, [])
/-- The launches whose tasks on other dies held locks on a die in reset carry CONTEXT-LOST, R286. -/
def State.loseLocks (s : State) (d : DieKey) : State :=
  let owners := (s.die d).locks.filterMap fun l => match l.held with
    | some w => if w.1 ≠ d then some w else none
    | none => none
  (owners.foldl (fun (l : List (DieKey × Nat)) w => if l.contains w then l else w :: l) []).foldl
    (fun s w => match s.acq? w.1 w.2 with
      | some q => s.modLaunch q.task.launch fun y => { y with ends := y.ends ++ [(0, CONTEXTLOST, false)] }
      | none => s) s
/-- The revisions of the jobs with lines homed on a die in reset end as by `rdrop`; a join that waits returns CONTEXT-LOST (13 R232). -/
def State.loseRevisions (s : State) (d : DieKey) : State :=
  (List.range 8).foldl (fun s i =>
    let j := 8 * (d / 4) + i
    let here := fun (l : Nat) => homeOf (64 * l) == d
    let touched := (s.job j).revs.any fun r => r.copies.any (fun c => here c.1) || r.ancestors.any (fun c => here c.1)
    if !touched then s
    else
      let waiters := s.harts.filter fun p => p.2.origin.job == some j && (match p.2.wait with
        | some (.revision _) => true
        | _ => false)
      let old := s.job j
      let handles := fun (n : Nat) => ((old.rev? n).map (·.handle)).getD 0
      let s := (old.revs.map (·.num)).reverse.foldl (fun s r => s.dropRevision j r) s
      let told := fun (s : State) (p : HartId × Hart) => match p.2.wait with
        | some (.revision n) => s.modHart p.1 fun x => { x with wait := none, joined := some (handles n, joinGrant 0x21 0) }
        | _ => s
      (((s.harts.filter fun p => p.2.phase == .ending && p.2.origin.job == some j).map (·.1)).foldl State.tryGone (waiters.foldl told s))) s
/-- Whether a message in a die's inbox outlives its reset: one of an acknowledged class is delivered again (R374). -/
def outlives : Msg → Bool
  | .enqueue _ _ _ _ ack _ _ _ => ack.isSome
  | .active .. | .miss .. | .taskEnd .. => false
  | _ => true
/-- What a die's reset clears: its harts, cores, quads, queues, tables and on-chip memories; the black box stays (R164). -/
def State.clearDie (s : State) (d : DieKey) : State :=
  let s := s.loseRevisions d
  let s := s.loseLocks d
  let mine := (s.harts.filter fun p => dieOfHart p.1 == d).map (·.1)
  let s := mine.foldl (fun s h => if isThread h then s.threadGone h { cause := CONTEXTLOST, faulted := true } else { s with harts := eraseKey h s.harts }) s
  let x := s.die d
  let gone := x.ready ++ x.spill ++ (x.acqs.filter (fun a => !a.2.issued || a.2.releasing)).map (·.2.task)
  let ran := (x.acqs.filter (fun a => a.2.issued && !a.2.releasing)).map (·.2.task)
  let s := gone.foldl State.loseTask s
  let r := ran.foldl (fun (p : State × List Task) t => let q := p.1.resetTask t; (q.1, p.2 ++ q.2)) (s, [])
  let s := (s.die d).locks.foldl (fun s l => s.lockBytes d { pos := l.pos }) r.1
  let new : Die :=
    { inbox := (s.die d).inbox.filter outlives, ready := r.2, markers := (s.die d).markers, starting := (s.die d).starting, downDies := (s.die d).downDies
      downLinks := (s.die d).downLinks, cxlDown := (s.die d).cxlDown, cxlBad := (s.die d).cxlBad, images := (s.die d).images, moving := (s.die d).moving, incarn := (s.die d).incarn
      config := (s.die d).config, partition := (s.die d).partition, reset := .clearing }
  let keep := fun (k : Nat) => k / 2 ^ 40 != d || k % 2 ^ 40 == 0x1A8 || (decide (0x600000 ≤ k % 2 ^ 40) && decide (k % 2 ^ 40 < 0x610000))
  { s with
    dies := setKey d new s.dies
    cores := s.cores.filter fun p => dieOfCore p.1 != d
    quads := s.quads.filter fun p => dieOfQuad p.1 != d
    mem := s.mem.filter fun c => c.1 / 2 ^ 48 != 12288 + d
    ctl := s.ctl.filter fun c => keep c.1 }
/-- R379. The drain ends: what is left in the die is lost, and its state is cleared. -/
def execDieResetDrainEnd (s : State) : Out :=
  event (fun e s => if (s.die e.site).reset = .draining then s.clearDie e.site else s) s
/-- The die comes up under an image that passes its check, R382. -/
def State.applyImage (s : State) (d : DieKey) (i : ConfigImage) (incarn : BitVec 16) : State :=
  (s.modDie d fun x => { x with incarn := incarn, config := i, reset := .up }).blackBox d 0x84 0 0 0
/-- R379, R382. INCARN rises and the die announces itself; an image that fails its check leaves the die in reset. -/
def execDieResetComplete (s : State) : Out :=
  event (fun e s =>
    let d := e.site
    if (s.die d).reset ≠ .clearing || !e.image.signed then s
    else
      let s := s.applyImage d e.image ((s.die d).incarn + 1)
      [0, 1, 2, 3].foldl (fun s i => let t := 4 * (d / 4) + i; if t = d then s else s.send d t 4 (.upNotice d)) s) s

/-! ### Power, R382, R384 -/

/-- A die without power: the contents of its memories and its black box are gone; what its memory then holds is the value that memory
nothing has written reads as (log entry 1). -/
def State.powerOff (s : State) (d : DieKey) : State :=
  let s := s.clearDie d
  { s with
    mem := s.mem.filter fun c => c.1 / 2 ^ 46 != d || isCxl c.1
    poisoned := s.poisoned.filter fun p => p.1 / 2 ^ 40 != d || isCxl (64 * p.1)
    ctl := s.ctl.filter fun c => c.1 / 2 ^ 40 != d
    launches := s.launches.filter fun l => l.2.die != d }
/-- R382. -/
def execPowerOn (s : State) : Out :=
  event (fun e s =>
    let d := e.site
    let s := (s.powerOff d).modPkg (d / 4) fun x => { x with off := false }
    if e.image.signed then s.applyImage d e.image e.image.incarn else s) s
/-- R384, R383. -/
def execThrottle (s : State) : Out :=
  event (fun e s =>
    let s := s.modPkg e.site fun x => { x with throttled := true }
    (List.range 4).foldl (fun s i => s.blackBox (4 * e.site + i) 0x85 0 0 0) s) s
/-- R384. The throttled cycles are counted; how many they were is left open (log entry 3). -/
def execThrottleEnd (s : State) : Out :=
  event (fun e s =>
    if !(s.pkg e.site).throttled then s
    else
      let n := (Config.freeWord s.free).toNat
      let s := { s with free := s.free + 1 }.modPkg e.site fun x => { x with throttled := false }
      (List.range 4).foldl (fun s i =>
        let d := 4 * e.site + i
        s.ctlPut d 0x1B0 (BitVec.ofNat 64 (min (2 ^ 64 - 1) ((s.ctlGet d 0x1B0).toNat + n)))) s) s
/-- R384. -/
def execPowerRemoved (s : State) : Out :=
  event (fun e s =>
    ((List.range 4).foldl (fun s i => s.powerOff (4 * e.site + i)) s).modPkg e.site fun x => { x with off := true }) s

end Sys2Proof.Machine
end

