-- ==== Sys2Proof/Machine/LaunchEvents.lean ====
section
/-! DEFINITION. The launch unit's events (16_dispatch R270 to R276, R288 to R290; 18_tables_work R309 to R311, R315). The launch
unit finds the image, the distribution, the record and the mailbox in the launch's space, and the descriptor, which names that space, in space 0
(log entry 20). -/

namespace Sys2Proof.Machine

/-- The package time counter read: it has run on by a time that the model leaves open (log entry 3). -/
def State.readTime (s : State) (p : Nat) : State × Word :=
  let t := (s.pkg p).time + Config.freeWord s.free
  ({ s with free := s.free + 1 }.modPkg p fun x => { x with time := t }, t)

/-- R233, R271. A launch packet enters the launch queue; a full queue leaves it in the fabric. The port drops, and counts, one whose key tag
was made under neither valid key of its domain (R271, 29_fabric_system R373); the event carries that key. -/
def execLaunchArrival (s : State) : Out :=
  event (fun e s =>
    let x := s.die e.site
    if !x.keyAccepts e.packet.owner.toNat (e.wide.extractLsb' 0 128) then s.countDie e.site 0x48
    else if 16 ≤ x.launchq.length || x.reset != .up then s else s.modDie e.site fun x => { x with launchq := x.launchq ++ [(e.packet, none)] }) s

/-! ### What the launch unit reads -/

/-- The lease entries of a kernel descriptor, 17 R304. -/
def State.leasesAt (s : State) (d : DieKey) (a : Nat) : List (Word × Word) :=
  (List.range 16).map fun i => (s.unitWord d 0 (a + 0x40 + 16 * i), s.unitWord d 0 (a + 0x48 + 16 * i))
def leaseOf (w : Word × Word) : Lease :=
  { base := w.1.toNat % 2 ^ 57, len := w.2.toNat % 2 ^ 48, r := w.2.getLsbD 48, w := w.2.getLsbD 49 }
def leaseBad (w : Word × Word) : Bool :=
  let l := leaseOf w
  w.1.toNat / 2 ^ 57 != 0 || w.2.toNat / 2 ^ 50 != 0 || (l.len != 0 && ((!l.r && !l.w) || 2 ^ 57 < l.base + l.len))
/-- The reserved bits and the radius of a kernel descriptor, R309. -/
def State.descriptorBad (s : State) (d : DieKey) (a : Nat) : Bool :=
  let w := (s.unitWord d 0 a).toNat
  w / 2 ^ 58 != 0 || w / 2 ^ 40 % 2 ^ 7 != 0 || w / 2 ^ 16 % 2 ^ 16 != 0 || w / 2 ^ 56 % 4 == 3 || (s.unitWord d 0 (a + 0x10)).toNat / 2 ^ 40 != 0 ||
    s.unitWord d 0 (a + 0x30) != 0 || s.unitWord d 0 (a + 0x38) != 0 || (s.leasesAt d a).any leaseBad
/-- The blocks of a distribution descriptor, R311; none when it is malformed. -/
def State.blocksAt (s : State) (d : DieKey) (space a : Nat) (element : Bool) : Option (List Block) :=
  let h := (s.unitWord d space a).toNat
  if h / 2 ^ 11 ≠ 0 || h = 0 || 1024 < h || s.unitWord d space (a + 8) ≠ 0 then none
  else
    let e := fun (i j : Nat) => s.unitWord d space (a + 16 + 32 * i + 8 * j)
    let bad := fun (i : Nat) =>
      (e i 1).toNat / 2 ^ 40 != 0 || e i 1 == 0 || (e i 2).toNat / 2 ^ 16 != 0 || (e i 2).toNat / 4 % 2 ^ 6 != 0 || (element && e i 3 != 0) ||
        (i + 1 < h && (e (i + 1) 0).toNat < (e i 0).toNat + (e i 1).toNat)
    if (List.range h).any bad then none
    else some ((List.range h).map fun i =>
      { first := (e i 0).toNat, count := (e i 1).toNat, die := 4 * ((e i 2).toNat / 2 ^ 8 % 256) + (e i 2).toNat % 4, data := e i 3 })
/-- Whether blocks cover 0 to n − 1 exactly. -/
def coversAll (n : Nat) : Nat → List Block → Bool
  | a, [] => a == n
  | a, b :: r => b.first == a && coversAll n (a + b.count) r
/-- The blocks of a launch's elements, R310 to R312, 23_program_star R356; none when they are malformed. -/
def State.elementBlocks (s : State) (d : DieKey) (y : Launch) (dist : Word) : Option (List Block) :=
  if y.count = 0 then some []
  else
    let bs := if dist = 0 then some [{ first := 0, count := y.count, die := d }] else s.blocksAt d y.space dist.toNat true
    bs.bind fun l =>
      let dies := distinct (l.map (·.die))
      let most := fun (t : DieKey) => 2 ^ 26 + (s.ctlGet t 0x180).toNat < ((l.filter (fun b => b.die == t)).map (·.count)).sum
      let lo := y.packet.firstCore.toNat
      let hi := lo + y.packet.coreCount.toNat
      let noCore := fun (t : DieKey) => hi ≤ 384 * (t % 4) || 384 * (t % 4) + 384 ≤ lo
      if coversAll y.count 0 l && !dies.any most && !dies.any noCore then some l else none

/-- The pages of a launch's lease ranges. -/
def Launch.pages (y : Launch) : List Nat :=
  distinct (y.leases.flatMap fun l => List.range' (l.base / 65536) ((l.base + l.len - 1) / 65536 - l.base / 65536 + 1))
/-- A page that is mapped and not absent. -/
def State.residentPage (s : State) (d : DieKey) (space pg : Nat) : Option Nat :=
  match s.pageOf d space (pg * 65536) with
  | none => none
  | some pa => if (s.metaWord pa 0).getLsbD 61 then none else some pa
/-- R271: a core, an element block or a resident lease page in another owner's partition. -/
def State.outside (s : State) (d : DieKey) (y : Launch) (bs : List Block) : Bool :=
  let who := y.packet.owner.toNat
  let cores := (List.range 4).filter fun i =>
    y.packet.firstCore.toNat < 384 * (i + 1) && 384 * i < y.packet.firstCore.toNat + y.packet.coreCount.toNat
  cores.any (fun i => s.foreignDie (4 * (d / 4) + i) who) || bs.any (fun b => s.foreignDie b.die who) ||
    y.pages.any fun pg => match s.residentPage d y.space pg with
      | some pa => s.foreignDie (homeOf pa) who
      | none => false

/-! ### LAUNCH START, R271 -/

/-- The launch that a packet or a slot makes, with its descriptor read and checked: `badStatus` is what ends it at once. -/
def State.makeLaunch (s : State) (d : DieKey) (p : LaunchPacket) (slot : Option Nat) : Launch :=
  let y : Launch := { packet := p, die := d, slotNo := slot }
  let first := p.firstCore.toNat
  let n := p.coreCount.toNat
  let a := p.descriptor.toNat
  if p.reserved ≠ 0 || p.kind ≠ 1 || p.descriptor.toNat % 64 ≠ 0 || n = 0 || 1536 < first + n then { y with badStatus := 0x40 }
  else if s.descriptorBad d a then { y with badStatus := 0x40 }
  else
    let w := (s.unitWord d 0 a).toNat
    let y : Launch := { y with
      radius := w / 2 ^ 56 % 4, repost := w.testBit 55, prio := w / 2 ^ 52 % 8, supervisor := w.testBit 51
      job := if w.testBit 50 then some (8 * (d / 4) + w / 2 ^ 47 % 8) else none
      threshold := if w / 2 ^ 32 % 256 = 0 then 8 else w / 2 ^ 32 % 256
      space := w % 2 ^ 16, entry := s.unitWord d 0 (a + 8), count := (s.unitWord d 0 (a + 0x10)).toNat % 2 ^ 40
      rowOff := s.unitWord d 0 (a + 0x20), neigh := s.unitWord d 0 (a + 0x28)
      leases := ((s.leasesAt d a).map leaseOf).filter (fun l => l.len ≠ 0)
      budget := match slot with
        | some k => (s.ctlGet d (0x380000 + 0x40 * k + 56)).toNat / 2 ^ 32
        | none => 0 }
    match s.elementBlocks d y (s.unitWord d 0 (a + 0x18)) with
    | none => { y with badStatus := 0x40 }
    | some bs =>
      if (y.supervisor && slot.isNone && p.owner ≠ 0) || s.outside d y bs then { y with badStatus := 0x41 } else { y with blocks := bs, toStart := List.range n }

def pinsOf (w : Word) : Nat := w.toNat / 2 ^ 40 % 2 ^ 16
def State.setPins (s : State) (pa n : Nat) : State :=
  let w := (s.metaWord pa 0).toNat
  let v := w - pinsOf (s.metaWord pa 0) * 2 ^ 40 + n * 2 ^ 40
  s.putMeta pa 0 (BitVec.ofNat 64 (if n = 0 ∧ w.testBit 59 then v - 2 ^ 59 else v))
/-- A launch's ranges are pinned once every page is resident; each page that is not raises one PAGE-FAULT (R273). -/
def State.pinLeases (s : State) (d : DieKey) (l : Nat) (y : Launch) : State × Bool :=
  let pas := y.pages.map fun pg => (pg, s.residentPage d y.space pg)
  let missing := (pas.filter (fun p => p.2.isNone)).map (·.1)
  if missing.isEmpty then
    if pas.any (fun p => decide (65535 ≤ pinsOf (s.metaWord (p.2.getD 0) 0))) then (s, false)
    else
      let s := s.modDie d fun x => { x with leaseFaults := x.leaseFaults.filter (fun f => f.1 ≠ l) }
      (pas.foldl (fun s p => s.setPins (p.2.getD 0) (pinsOf (s.metaWord (p.2.getD 0) 0) + 1)) s, true)
  else
    let raise1 := fun (s : State) (pg : Nat) =>
      if (s.die d).leaseFaults.contains (l, pg) then s
      else ((s.modDie d fun x => { x with leaseFaults := (l, pg) :: x.leaseFaults }).event d 0x31 (BitVec.ofNat 64 (pg * 65536))).countDie d 0x50
    (missing.foldl raise1 s, false)
/-- Whether a launch has a first thread that nothing delays, R271: its core has a free context. -/
def Launch.firstCoreAt (y : Launch) (i : Nat) : CoreKey := 1536 * (y.die / 4) + y.packet.firstCore.toNat + i
def State.mayStart (s : State) (y : Launch) : Bool := !y.held && y.toStart.any fun i => (s.freeSlot (y.firstCoreAt i)).isSome
/-- The launch that the unit is starting goes on: its leases, then its threads and its descriptor to other packages. The unit is done with it
once its first threads have started, but for those whose core has no free context (R271). -/
def State.launchGo (s : State) (d : DieKey) (l : Nat) : State :=
  match s.launch? l with
  | none => s.modDie d fun x => { x with starting := none }
  | some y =>
    if y.started then (if s.mayStart y then s else s.modDie d fun x => { x with starting := none })
    else match s.pinLeases d l y with
    | (s, false) => s
    | (s, true) =>
      let s := s.modLaunch l fun y => { y with started := true, resident := [d / 4] }
      let away := distinct ((y.blocks.map fun b => b.die / 4).filter (fun p => p ≠ d / 4))
      away.foldl (fun s p => s.send d (4 * p) 4 (.descriptor l)) s
/-- R271. The launch unit takes its next packet, or goes on with the launch whose leases it is making resident. -/
def execLaunchStart (s : State) : Out :=
  event (fun e s =>
    let d := e.site
    if (s.die d).reset ≠ .up then s
    else match (s.die d).starting with
    | some l => s.launchGo d l
    | none => match (s.die d).launchq with
      | [] => s
      | (p, slot) :: r =>
        let s := s.modDie d fun x => { x with launchq := r }
        let y := s.makeLaunch d p slot
        let l := s.free
        let (s, t) := { s with free := l + 1 }.readTime (d / 4)
        let s := { s with launches := setKey l { y with order := t } s.launches }
        if y.badStatus ≠ 0 then s
        else
          let s := s.modDie d fun x => { x with starting := some l, arrivals := eraseKey l x.arrivals }
          s.launchGo d l) s
/-- R273. -/
def execLaunchDescriptorRemote (s : State) : Out :=
  event (fun e s =>
    let d := e.site
    s.takeMsg d (fun m => match m with
      | .descriptor _ => true
      | _ => false) fun s m => match m with
      | .descriptor l =>
        match s.launch? l with
        | none => s
        | some y => match s.pinLeases d l y with
          | (s, true) => s.modLaunch l fun y => { y with resident := y.resident ++ [d / 4] }
          | (s, false) => s.modDie d fun x => { x with inbox := x.inbox ++ [m] }
      | _ => s) s

/-- R271, R80, R84, R70. The first of the threads to start whose core has a free context is filled from its image and starts. A core's free
context goes to the earliest launch whose thread waits for it. -/
def execFirstThreadStart (s : State) : Out :=
  event (fun e s =>
    let l := e.site
    match s.launch? l with
    | none => s
    | some y =>
      let core := y.firstCoreAt
      let before := fun (c : CoreKey) => s.launches.any fun p => p.1 < l && p.2.started && !p.2.held && p.2.toStart.any fun j => p.2.firstCoreAt j == c
      if !y.started || y.held then s
      else match y.toStart.find? (fun i => (s.freeSlot (core i)).isSome && !before (core i)) with
      | none => s
      | some i =>
        let c := core i
        let n := (s.freeSlot c).getD 0
        let image := y.packet.image.toNat + 0x4000 * (if y.packet.sharedImage then 0 else i)
        let w := fun (o : Nat) => s.unitWord y.die y.space (image + o)
        let o : Origin := { launch := some l, owner := y.packet.owner.toNat, space := y.space, job := y.job, first := true }
        let x := s.startHart c n o y.entry [] (w 0xE8, w 0xF0) y.prio
        let regs : Regs := { x := windowOf fun j => w (8 * j), g := Vector.ofFn fun (j : Fin 8) => w (0x80 + 8 * j.val) }
        let lost := (List.range 4).any fun k => s.isPoisoned (s.unitPa y.die y.space (image + 64 * k)) 64
        let s := s.modLaunch l fun y => { y with toStart := y.toStart.filter (· ≠ i), live := y.live + 1 }
        let s := s.placeHart (.ctx c n) { x with regs := regs, migratory := y.packet.migratory }
        if lost then s.endThread (.ctx c n) CONTEXTLOST 0 else s) s

/-! ### The time table, R275, R276 -/

def slotOff (n : Nat) : Nat := 0x380000 + 0x40 * (n % 256)
/-- The packet that a slot stands for. -/
def State.slotPacket (s : State) (d : DieKey) (n : Nat) (k : Int) : LaunchPacket :=
  let w := fun (i : Nat) => s.ctlGet d (slotOff n + 8 * i)
  { owner := (w 0).extractLsb' 32 12, migratory := (w 0).getLsbD 59, sharedImage := (w 0).getLsbD 60
    identity := BitVec.ofNat 32 (d % 4 * 2 ^ 30 + n % 256 * 2 ^ 22 + (k % 2 ^ 22).toNat)
    descriptor := w 1, image := w 2, coreCount := (w 3).extractLsb' 16 16, firstCore := (w 3).extractLsb' 0 16
    seed := w 4, record := w 5, mailbox := w 6 }
/-- The launch of a slot that has not written its record. -/
def State.slotLaunch (s : State) (d : DieKey) (n : Nat) : Option (Nat × Launch) :=
  s.launches.find? (fun p => p.2.die == d && p.2.slotNo == some (n % 256))
def State.slotBusy (s : State) (d : DieKey) (n : Nat) : Bool :=
  (s.slotLaunch d n).isSome || (s.die d).launchq.any (fun p => p.2 == some (n % 256))
def State.slotPending (s : State) (d : DieKey) (n : Nat) : Bool := (s.ctlGet d (slotOff n)).getLsbD 61
/-- Due times skipped: the slot's counter saturates, and the die counts them. -/
def State.skipSlot (s : State) (d : DieKey) (n times : Nat) : State :=
  if times = 0 then s
  else
    let w := (s.ctlGet d (slotOff n)).toNat
    (s.ctlPut d (slotOff n) (BitVec.ofNat 64 (w - w % 2 ^ 32 + min (2 ^ 32 - 1) (w % 2 ^ 32 + times)))).countDie d 0x4F times
/-- A launch held by its budget resumes: the threads that the launch unit pre-empted, not those of `ctxsave`. -/
def State.resumeLaunch (s : State) (l : Nat) (y : Launch) : State :=
  let one := fun (s : State) (h : HartId) => match h with
    | .ctx c n =>
      match s.hart? h with
      | some x =>
        if x.phase = .preempted then (s.ctxRequest h 0 true c n).1
        else if x.preemptBy.isEmpty then s.modHart h fun x => { x with preempt := false, stopping := false } else s
      | none => s
    | h => match s.hart? h with
      | some x => if x.phase = .preempted then (s.resumeImage h x).1 else s.modHart h fun x => { x with preempt := false, stopping := false }
      | none => s
  (y.heldHarts.foldl one s).modLaunch l fun y => { y with held := false, heldHarts := [] }
/-- Whether a slot's due time has passed already. -/
def Die.fired (x : Die) (n : Nat) (k : Int) : Bool :=
  match lookup? n x.nextDue with
  | some m => decide (k < m)
  | none => false
/-- R275, R276. The counter passes epoch + k × T + offset, k being any integer. A launch that finds the launch queue full falls due once it has
room (R233). -/
def execSlotDue (s : State) : Out :=
  event (fun e s =>
    let d := e.site
    let n := e.n % 256
    let w0 := s.ctlGet d (slotOff n)
    let T := (s.ctlGet d 0x160).toNat
    let off := (s.ctlGet d (slotOff n + 56)).toNat % 2 ^ 32
    let k := e.shift
    let due := Int.ofNat ((s.ctlGet d 0x168).toNat + off) + k * Int.ofNat T
    let busy := s.slotBusy d n || s.slotPending d n
    if !w0.getLsbD 63 || T = 0 || T ≤ off || (s.die d).fired n k || (s.die d).reset != .up || due < 0 || 2 ^ 64 ≤ due ||
        (!busy && 16 ≤ (s.die d).launchq.length) then s
    else
      let s := s.modPkg (d / 4) fun x => { x with time := if x.time.toNat < due.toNat then BitVec.ofNat 64 due.toNat else x.time }
      let s := s.modDie d fun x => { x with nextDue := setKey n (k + 1) x.nextDue }
      if busy then
        let s := match s.slotLaunch d n with
          | some (l, y) => if y.held then s.resumeLaunch l y else s
          | none => s
        if w0.getLsbD 62 && !w0.getLsbD 61 then
          (s.ctlPut d (slotOff n) (w0 ||| (1#64 <<< 61))).modDie d fun x => { x with pendingK := setKey n k x.pendingK }
        else s.skipSlot d n 1
      else s.modDie d fun x => { x with launchq := x.launchq ++ [(s.slotPacket d n k, some n)] }) s
/-- R275. Every thread of the launch is asked for, its handlers too (R288). -/
def execSlotBudgetExpiry (s : State) : Out :=
  event (fun e s =>
    match s.slotLaunch e.site e.n with
    | none => s
    | some (l, y) =>
      if !y.started || y.held || y.budget = 0 then s
      else
        let mine := (s.harts.filter fun p => isThread p.1 && p.2.origin.launch == some l && p.2.phase == .active && !p.2.preempt).map (·.1)
        let s := mine.foldl (fun s h => s.modHart h Hart.askPreempt) s
        s.modLaunch l fun y => { y with held := true, heldHarts := mine }) s
/-- R276. -/
def execPendingLaunchStart (s : State) : Out :=
  event (fun e s =>
    let d := e.site
    let n := e.n % 256
    if !s.slotPending d n || s.slotBusy d n || 16 ≤ (s.die d).launchq.length then s
    else
      let p := s.slotPacket d n (lookupD 0 n (s.die d).pendingK)
      let s := s.ctlPut d (slotOff n) (s.ctlGet d (slotOff n) &&& ~~~(1#64 <<< 61))
      s.modDie d fun x => { x with launchq := x.launchq ++ [(p, some n)], pendingK := eraseKey n x.pendingK }) s
/-- R274, R275: an offset below 1 ms is slewed, which only changes how fast the counter runs; a larger one steps it, and due times stepped
over are skipped. -/
def execTimeSyncMessage (s : State) : Out :=
  event (fun e s =>
    if e.shift.natAbs < 1000000 then s
    else
      let t0 := (s.pkg e.site).time
      let t1 := t0 + BitVec.ofInt 64 e.shift
      let s := s.modPkg e.site fun x => { x with time := t1 }
      let slot := fun (s : State) (d n : Nat) =>
        let T := (s.ctlGet d 0x160).toNat
        let off := (s.ctlGet d (slotOff n + 56)).toNat % 2 ^ 32
        let base := (s.ctlGet d 0x168).toNat + off
        let index := fun (t : Nat) => (Int.ofNat t - Int.ofNat base) / Int.ofNat T + 1
        if !(s.ctlGet d (slotOff n)).getLsbD 63 || T = 0 || T ≤ off || t1.toNat ≤ t0.toNat then s
        else
          let from0 := match lookup? n (s.die d).nextDue with
            | some m => max m (index t0.toNat)
            | none => index t0.toNat
          let to1 := index t1.toNat
          if to1 ≤ from0 then s
          else (s.skipSlot d n (to1 - from0).toNat).modDie d fun x => { x with nextDue := setKey n to1 x.nextDue }
      (List.range 4).foldl (fun s i => (List.range 256).foldl (fun s n => slot s (4 * e.site + i) n) s) s) s

/-! ### Completion, R288 to R290 -/

/-- The doublewords of a completion record. -/
def Launch.record (y : Launch) (stop : Word) : List Nat :=
  let st := if y.badStatus ≠ 0 then y.badStatus else match y.ends with
    | p :: _ => p.2.1
    | [] => 0
  [y.faults * 2 ^ 32 + y.firstCause * 2 ^ 24 + y.packet.owner.toNat * 2 ^ 12 + st,
   y.packet.descriptor.toNat,
   (match y.slotNo with
    | some n => 2 ^ 56 + n * 2 ^ 48
    | none => 0) + y.firstInner * 2 ^ 40 + y.packet.identity.toNat,
   y.order.toNat, stop.toNat, y.doneCount, y.causeCount, y.firstElem.toNat]
/-- Whether nothing of a launch remains anywhere. -/
def Launch.over (y : Launch) : Bool := y.badStatus != 0 || (y.started && y.toStart.isEmpty && y.live == 0 && y.tasks == 0)
/-- The leases of a launch are unpinned. -/
def State.unpin (s : State) (y : Launch) : State :=
  y.resident.foldl (fun s p =>
    let d := if p = y.die / 4 then y.die else 4 * p
    y.pages.foldl (fun s pg => match s.pageOf d y.space (pg * 65536) with
      | some pa => s.setPins pa (pinsOf (s.metaWord pa 0) - 1)
      | none => s) s) s
/-- Bytes that the launch unit writes at a general-path address of a launch. -/
def State.unitPut (s : State) (y : Launch) (va : Nat) (bs : List Byte) : State :=
  (s.performCells y.die false none y.packet.owner.toNat 0 va (cellsAt (s.unitPa y.die y.space va) bs)).1
/-- R288. -/
def execLaunchCompletion (s : State) : Out :=
  event (fun e s =>
    match s.launch? e.site with
    | none => s
    | some y =>
      if !y.over || (s.die y.die).reset != .up then s
      else
        let (s, t) := s.readTime (y.die / 4)
        let ws := y.record t
        let s := s.unitPut y y.packet.record.toNat (ws.flatMap (leBytes 8))
        let s := s.unpin y
        let s := s.unitPut y y.packet.mailbox.toNat (leBytes 8 (y.packet.identity.toNat * 2 ^ 32 + 2 ^ 31 + ws.headD 0 % 2 ^ 8))
        { s with launches := eraseKey e.site s.launches }) s

end Sys2Proof.Machine
end

