-- ==== Sys2Proof/Machine/RevisionEvents.lean ====
section
/-! DEFINITION. The revision unit's events (13_revisions R222 to R228): fork registration, first writes, and merges. -/

namespace Sys2Proof.Machine

/-- R222. A die records the fork, which fixes the ancestors of the lines homed there, and empties the write filters of its contexts. -/
def execForkRegistration (s : State) : Out :=
  event (fun e s =>
    let d := e.site
    s.takeMsg d (fun m => match m with
      | .forkReg .. => true
      | _ => false) fun s m => match m with
      | .forkReg j rev _ hart tag =>
        let note := fun (r : Revision) => if r.num = rev then { r with registered := d % 4 :: r.registered } else r
        let s := s.modJob j fun y => { y with revs := y.revs.map note }
        let empty := fun (p : HartId × Hart) => if dieOfHart p.1 = d then (p.1, { p.2 with filter := [] }) else p
        ({ s with harts := s.harts.map empty }).send d (dieOfHart hart) 4 (.forkAck hart tag j rev)
      | _ => s) s

/-- A line joins a thread's write filter, which replaces its oldest entry when full. -/
def addFilter (l : Nat) (f : List Nat) : List Nat := (if 64 ≤ f.length then f.drop 1 else f) ++ [l]
/-- R223. The home answers: nothing is needed, or the lines are taken now; or it refuses, at the quota. -/
def execFirstWrite (s : State) : Out :=
  event (fun e s =>
    let h := e.hart
    let x := s.hart h
    match x.wait, x.origin.job with
    | some (.firstWrite l), some j =>
      match s.firstWrite j x.revid l (lookupD l l ((s.job j).vas)) with
      | some s => s.modHart h fun x => { x with wait := none, filter := addFilter l x.filter, answered := l :: x.answered }
      | none => s.modHart h fun x => { x with wait := none, refused := some (BitVec.ofNat 64 (64 * lookupD l l ((s.job j).vas))) }
    | _, _ => s) s

/-- The ended child that a hart joins now: the one its `join` names, or the first of its children when it ends (R228). -/
def State.joining (s : State) (h : HartId) : Option (Nat × Revision) :=
  let x := s.hart h
  match x.origin.job with
  | none => none
  | some j =>
    let r := match x.wait, x.phase with
      | some (.revision n), _ => ((s.job j).childrenOf h).find? (fun (r : Revision) => r.num == n)
      | _, .ending => ((s.job j).childrenOf h).head?
      | _, _ => none
    match r with
    | some r => if r.phase = 0 then none else some (j, r)
    | none => none
/-- Whether a home may merge a line now: it takes its lines in ascending order, after the buffered stores of the child, and of the parent
to that line (log entry 22). -/
def State.mayMerge (s : State) (pkg : Nat) (r : Revision) (line : Nat) : Bool :=
  let left := (r.copies.map (·.1)).filter (fun l => !r.merged.contains l)
  let lines := fun (b : BufStore) => b.cells.map fun c => c.1 / 64
  left.contains line && !left.any (fun l => homeOf (64 * l) == homeOf (64 * line) && decide (l < line)) &&
    !s.cores.any fun c => pkgOfCore c.1 == pkg && c.2.wbuf.any fun b => b.rev == r.num || (b.rev == r.parent && (lines b).contains line)
/-- R225, R226. The flag says that the home reads the child's copy with an uncorrectable error. -/
def execMerge (s : State) : Out :=
  event (fun e s =>
    match s.joining e.hart with
    | none => s
    | some (j, r) =>
      if s.mayMerge (j / 8) r e.n then s.mergeRevLine j r e.n (s.hart e.hart).origin.owner (s.hart e.hart).pc e.flag else s) s
/-- R225. Every line is merged: the child is freed, and its join returns. The conflicts of a join at a thread's end count towards the
join that takes the thread (R228). A thread that ends and has no child left goes. -/
def execMergeComplete (s : State) : Out :=
  event (fun e s =>
    let h := e.hart
    match s.joining h with
    | none => s.tryGone h
    | some (j, r) =>
      if r.copies.any (fun c => !r.merged.contains c.1) || s.cores.any (fun c => pkgOfCore c.1 == j / 8 && c.2.wbuf.any fun b => b.rev == r.num) then s
      else
        let s := s.freeRevs j [r.num]
        if (s.hart h).phase = .ending then
          let note := fun (y : Revision) => if y.child = some h then { y with conflicts := min 65535 (y.conflicts + r.conflicts) } else y
          (s.modJob j fun y => { y with revs := y.revs.map note }).tryGone h
        else
          let v := r.conflicts * 2 ^ 16 + (if r.damaged then 0x21 else r.status)
          s.modHart h fun x => { x with wait := none, joined := some (r.handle, joinGrant v r.flags) }) s

end Sys2Proof.Machine
end

