-- ==== Sys2Proof/Machine/Choose.lean ====
section
/-! DEFINITION. What the machine may do next: the issue rule (16_dispatch R287), the events that its state makes due, and what each choice
does. -/

namespace Sys2Proof.Machine

/-! ### The issue rule, R287 -/

/-- The index of the first outstanding result that has returned. -/
def firstReturned : Nat → List Pending → Option Nat
  | _, [] => none
  | i, p :: r => if p.returned then some i else firstReturned (i + 1) r

/-- Since when a thread waits: its last issue, or, before its first, when it became ready. -/
def Hart.waitsFrom (x : Hart) : Nat := if x.stamp = 0 then x.since else x.stamp
/-- Of some threads, the one of the highest priority, the one that has waited longest, then the lowest slot. -/
def bestHart : List (HartId × Hart) → Option (HartId × Hart)
  | [] => none
  | p :: r => match bestHart r with
    | none => some p
    | some q =>
      if q.2.prio < p.2.prio || (p.2.prio == q.2.prio && (p.2.waitsFrom < q.2.waitsFrom ||
          (p.2.waitsFrom == q.2.waitsFrom && slotOf p.1 ≤ slotOf q.1))) then some p else some q
/-- The thread that issued last of some. -/
def lastIssued : List (HartId × Hart) → Option (HartId × Hart)
  | [] => none
  | p :: r => match lastIssued r with
    | none => if p.2.stamp = 0 then none else some p
    | some q => if q.2.stamp < p.2.stamp then some p else some q
/-- Whether a thread may issue now: one that stalled is not ready while a new try would only stall again. -/
def State.isReady (exec : Instr → State → Out) (s : State) (p : HartId × Hart) : Bool :=
  s.canIssue p.1 p.2 && (!p.2.stalled || match issueHart exec p.1 s with
    | .next t => t.ir.result != .stalled || (t.hart p.1).wait.isSome
    | _ => true)
/-- The thread that a core issues next of its own: the one that issued last, until it parks, stalls or waits, and then the best of those that
are ready. -/
def State.coreHart (exec : Instr → State → Out) (s : State) (l : List (HartId × Hart)) : Option (HartId × Hart) :=
  let best := bestHart (l.filter (s.isReady exec))
  match lastIssued l with
  | some p => if s.canIssue p.1 p.2 && !p.2.parked && !p.2.stalled then some p else best
  | none => best
/-- A hart's issue, and, with results of one cycle outstanding, its issue before they are written. -/
def issueChoices (p : HartId × Hart) : List Choice :=
  .issue p.1 :: (if p.2.outstanding.any (·.quick) then [.issueOld p.1] else [])
/-- The harts that may issue: one thread of each core, and the harts that are no threads. -/
def State.issues (exec : Instr → State → Out) (s : State) : List Choice :=
  let threads := s.harts.filter fun p => isThread p.1
  let cores := threads.foldl (fun (cs : List (Option CoreKey)) p => if cs.contains (s.coreOf p.1) then cs else cs ++ [s.coreOf p.1]) []
  (cores.filterMap fun c => s.coreHart exec (threads.filter fun p => s.coreOf p.1 == c)).flatMap issueChoices ++
  (s.harts.filter fun p => !isThread p.1 && s.canIssue p.1 p.2).flatMap issueChoices

/-- A message's event, 95_what_each_step_holds. -/
def msgEvent : Msg → Option Instr
  | .post _ => some .postArrival
  | .active .. => some .activeMessageArrival
  | .enqueue .. => some .enqueueArrival
  | .fill .. => some .futureFill
  | .exclReq .. => some .exclusionRequest
  | .exclReply .. => some .exclusionReply
  | .exclRelease .. => some .exclusionRelease
  | .exclPass .. => some .exclusionReply
  | .huskYield .. => some .huskYield
  | .taskEnd .. => some .taskEnd
  | .forkReg .. => some .forkRegistration
  | .forkAck .. => some .acknowledgement
  | .ctxReq .. => some .contextRequestRemote
  | .ctxReply .. => some .acknowledgement
  | .downNotice _ => some .dieDownNotice
  | .upNotice _ => some .dieAnnounce
  | .marker .. => some .flushMarker
  | .markerAck .. => some .acknowledgement
  | .packetAck .. => some .acknowledgement
  | .probe _ => some .incarnationProbeReply
  | .probeReply .. => some .incarnationProbeReply
  | .atomic .. => some .atomicHomePerform
  | .atomicReply .. => some .atomicHomePerform
  | .miss .. => some .tlbMiss
  | .descriptor _ => some .launchDescriptorRemote
  | .credit _ => some .enqueueCredit
  | .migrate .. => some .migrationArrival

/-- The events that a hart's state makes due. -/
def dueHart (s : State) (p : HartId × Hart) : List Choice :=
  let h := p.1
  let x := p.2
  let ev := fun (e : Instr) (n : Nat) => Choice.event e { hart := h, n := n }
  let back := match firstReturned 0 x.outstanding with
    | some i => [ev .resultWriteback i]
    | none => []
  let wait := match x.wait with
    | some (.frame n) => [Choice.event .contextBankWake { site := (s.coreOf h).getD 0, n := slotOf h % 16 }, ev .frameRefill n]
    | some (.fetch _ _) => [ev .instructionLineFill 0]
    | some (.firstWrite _) => [ev .firstWrite 0]
    | some .enqueue => [ev .enqueueRetry 0]
    | some (.revision r) => match x.origin.job with
      | some j => ((s.job j).revs.filter fun y => y.num == r).flatMap (fun y => y.copies.map fun c => ev .merge c.1) ++ [ev .mergeComplete 0]
      | none => []
    | _ => []
  let stop := if x.phase = .ending then
      (match (s.childrenOf h).head? with
      | some y => y.copies.map fun c => ev .merge c.1
      | none => []) ++ [ev .mergeComplete 0]
    else []
  back ++ wait ++ stop ++ (if x.accesses.isEmpty then [] else [ev .accessStatus 0]) ++ (if x.preempt then [ev .preEmption 0] else []) ++
    (if x.outstanding.any (fun p => 2 ^ 32 ≤ p.tag) then [ev .revokedEntryRead 0] else [])
/-- The events that a core's state makes due. -/
def dueCore (s : State) (p : CoreKey × Core) : List Choice :=
  let c := p.1
  let x := p.2
  let ev := fun (e : Instr) (n : Nat) => Choice.event e { site := c, n := n }
  let accept := fun (g : Engine) => Choice.event .engineAccept { site := c, engine := g }
  let mark := fun (b : Bool) (e : Choice) => if b then [e] else []
  let kick := fun (storer : Bool) => Choice.event .companionStart { site := c, flag := storer }
  mark (!x.ssu.isEmpty) (ev .ssuCommandExecute 0) ++ mark (x.ssu.isEmpty && !x.cmdSsu.isEmpty) (accept .ssu) ++
  mark (!x.cmdLd.isEmpty && x.kickLd.isNone) (accept .loader) ++ mark (!x.cmdSt.isEmpty && x.kickSt.isNone) (accept .storer) ++
  mark x.kickLd.isSome (kick false) ++ mark x.kickSt.isSome (kick true) ++ mark (!x.cmdOq.isEmpty) (accept .operandQueue) ++
  mark (!x.cmdGe.isEmpty && (s.die (dieOfCore c)).gather.isEmpty) (accept .gather) ++ mark (!x.wbuf.isEmpty) (ev .homeStorePerform 0) ++
  mark (x.landing.any fun l => !l.own) (ev .messageLanded 0) ++ x.waiting.map (fun l => ev .waitingEnqueueReserve l.ring) ++
  (List.range 5).flatMap (fun n => mark (!(x.sendq.toList.getD n []).isEmpty) (ev .packetSent n)) ++
  (List.range 4).flatMap (fun n => mark (!(x.meshOut.toList.getD n []).isEmpty) (ev .meshDelivery n)) ++
  x.lockq.map (fun l => Choice.event .lockGrant { site := c, n := l.1 / 8, k := l.1 % 8 })
/-- The events that a quad's matrix commands make due. -/
def dueQuad (p : QuadKey × Quad) : List Choice :=
  let head := fun (i : Nat) => match p.2.oq.toList.getD i [] with
    | [] => []
    | c :: _ =>
      let ev := fun (e : Instr) => Choice.event e { site := p.1, n := i }
      match c.phase with
      | 0 => [ev .gangOperationStart, ev .matrixCommandStart]
      | 1 => [ev .gangOperationStart, ev .matrixCommandStart, ev .contractionExpand]
      | 2 => [ev .loadPipeFailure]
      | _ => [ev .matrixCommandComplete]
  (List.range 4).flatMap head
/-- The events that a die's state makes due. -/
def dueDie (s : State) (p : DieKey × Die) : List Choice :=
  let d := p.1
  let x := p.2
  let ev := fun (e : Instr) (n k : Nat) => Choice.event e { site := d, n := n, k := k }
  let mark := fun (b : Bool) (e : Choice) => if b then [e] else []
  let msgs := (x.inbox.filterMap msgEvent).foldl (fun (l : List Instr) e => if l.contains e then l else l ++ [e]) []
  msgs.map (fun e => ev e 0 0) ++ mark (!x.launchq.isEmpty || x.starting.isSome) (ev .launchStart 0 0) ++
  mark (!x.ready.isEmpty) (ev .acquisitionStart 0 0) ++ x.acqs.flatMap (fun a => mark a.2.complete (ev .taskIssue a.1 0) ++
    mark (s.firstRestart d == some a.1) (ev .huskRestart a.1 0) ++ mark a.2.releasing (ev .rePost 0 0)) ++
  mark (!x.gather.isEmpty) (ev .gatherComplete 0 0) ++ mark (!x.tagq.isEmpty) (ev .handlerEntry 0 0) ++ mark x.scan.isSome (ev .codePageScanDone 0 0) ++
  mark (!x.ports.isEmpty) (ev .packetArrival 0 0) ++ x.moving.map (fun m => ev .pageMigrationComplete m.1 0) ++
  (List.range 12).flatMap (fun n => (List.range 5).flatMap fun k => mark (!(x.links.toList.getD (n * 5 + k) []).isEmpty) (ev .flitSent n k)) ++
  x.pond.map (fun q => ev .linkRefill (q.1 / 5) (q.1 % 5)) ++ x.pendingK.map (fun q => ev .pendingLaunchStart q.1 0) ++
  mark (x.reset == .draining) (ev .dieResetDrainEnd 0 0) ++
  (x.barriers.filter fun b => decide (b.count ≤ b.total)).map fun b => .event .barrierComplete { site := b.launch, n := b.scope, k := b.inst, m := b.id }
/-- The events that a launch makes due. -/
def dueLaunch (p : Nat × Launch) : List Choice :=
  (if p.2.toStart.isEmpty then [] else [.event .firstThreadStart { site := p.1 }]) ++
  (if p.2.badStatus ≠ 0 || (p.2.started && p.2.toStart.isEmpty && p.2.live = 0 && p.2.tasks = 0) then [.event .launchCompletion { site := p.1 }] else [])
/-- The frames that may leave the context cache: of the register stack below a window, and, where the cache is short of room, of a context. -/
def dueCache (s : State) (p : HartId × Hart) : List Choice :=
  match s.coreOf p.1 with
  | some c =>
    if isThread p.1 && decide (2048 < s.cacheUse c + 17) then
      (if p.2.below.isEmpty then [] else [.evictFrame p.1 64]) ++ ((framesOf p.2).filter fun n => !p.2.absent.contains n).map fun n => .evictFrame p.1 n
    else []
  | none => []
/-- What the machine may do of itself: harts that issue, and the events that its state makes due. -/
def State.due (exec : Instr → State → Out) (s : State) : List Choice :=
  s.harts.flatMap (dueHart s) ++ s.harts.flatMap (dueCache s) ++ s.issues exec ++ s.cores.flatMap (dueCore s) ++ s.quads.flatMap dueQuad ++ s.dies.flatMap (dueDie s) ++ s.launches.flatMap dueLaunch
/-- A turn's place among the choices, spread by a multiplication so that a loop of steps does not pass one choice over for ever (log
entry 8). -/
def spread (turn n : Nat) : Nat := turn * 0x9E3779B97F4A7C15 % 2 ^ 64 / 2 ^ 32 % n
/-- What the machine does next of itself: one of its choices, as the turn falls. -/
def State.nextChoice (exec : Instr → State → Out) (s : State) : Option Choice :=
  match s.due exec with
  | [] => none
  | l => l[spread s.turn l.length]?

/-- The supervisor loads a firmware image, which is scanned (03 R53): a refused one raises CODE-REJECT at the loading write; the hart's code
lies at the start of its image (log entry 4). -/
def State.loadFirmware (s : State) (h : HartId) (writer : Option HartId) (lines : List (BitVec 512)) : State :=
  match scanLines (fun i => lines.getD i 0) lines.length 0 with
  | some v => match writer with
    | some w => s.takeTrap w { cause := 0x10, xval := v, pc := (s.hart w).pc, second := false, unit := 3 }
    | none => s
  | none =>
    (s.putCells (cellsAt (imageKey h 0) (lines.flatMap fun (l : BitVec 512) => leBytes 64 l.toNat))).modDie (dieOfHart h) fun x =>
      { x with images := if x.images.contains h then x.images else h :: x.images }
/-- What a choice does. -/
def doChoice (exec : Instr → State → Out) (c : Choice) (s : State) : Out :=
  match c with
  | .issue h => issueHart exec h s
  | .issueOld h => issueHart exec h s true
  | .event e a => exec e { s with ev := a }
  | .evict core line => .next (s.modCore core fun k => { k with l1 := k.l1.filter (fun l => l.line != line) })
  | .evictFrame h n => .next (s.evictFrame h n)
  | .pipeErr h => match s.hart? h with
    | some x => .next (if s.canIssue h x && x.pendingTrap.isNone then s.pipeError h 0 false else s)
    | none => .next s
  | .upset q line wrong => .next (s.modQuad q fun y => { y with icache := y.icache.map fun l => if l.line = line then { l with data := l.data ^^^ wrong } else l })
  | .loadFirmware h writer lines => .next (s.loadFirmware h writer lines)
  | .grantStack d owner => .next (s.modDie d fun x => { x with partition := owner % 2 ^ 12 })

end Sys2Proof.Machine
end

