-- ==== Sys2Proof/Machine/Matrix.lean ====
section
/-! DEFINITION. The matrix instructions (12_matrix_instructions R195 to R210): issue into the core's operand-queue commands with the checks
of R201, gang issue (R198), and what the joint array does with each command, as far as its operands' pages let it. -/

namespace Sys2Proof.Machine

/-! ### Operand types, R199 -/

/-- A type pair: K, the bytes of an A row and element, of a B row and element, whether B is CB8, and the mode of the entry (0 integer,
1 Q43.20, 2 binary64). -/
structure MatTypes where
  ta : Nat
  tb : Nat
  k : Nat
  aRow : Nat
  aSize : Nat
  bRow : Nat
  bSize : Nat
  cb8 : Bool
  mode : Nat
  deriving DecidableEq, Repr
/-- The pair that an A type and the B type field name. -/
def matTypes (ta b : Nat) : Option MatTypes :=
  let plain := fun (mode : Nat) => some { ta := ta, tb := if b = 0 then ta else b, k := 64, aRow := 64, aSize := 1, bRow := 64, bSize := 1, cb8 := false, mode := mode : MatTypes }
  let cb := fun (mode : Nat) => some { ta := ta, tb := 14, k := 128, aRow := 128, aSize := 1, bRow := 32, bSize := 2, cb8 := true, mode := mode : MatTypes }
  match ta, b with
  | 1, 0 => plain 0
  | 1, 5 => plain 0
  | 5, 0 => plain 0
  | 5, 1 => plain 0
  | 1, 14 => cb 0
  | 13, 0 => plain 1
  | 13, 14 => cb 1
  | 11, 0 | 12, 0 => some { ta := ta, tb := ta, k := 32, aRow := 64, aSize := 2, bRow := 64, bSize := 2, cb8 := false, mode := 2 }
  | _, _ => none
/-- Row bytes and element size of a B type alone, as `oqld` loads it. -/
def bTypeRow (tb : Nat) : Nat := if tb = 14 then 32 else 64
def bTypeSize (tb : Nat) : Nat := if tb = 14 || tb = 11 || tb = 12 then 2 else 1

/-- One product added to an entry, R76: A as its bits, B as its bits or its CB8 weight. -/
def accumulate (t : MatTypes) (entry : Word) (a : Nat) (b : Int) : Word × Flags5 :=
  match t.mode with
  | 0 =>
    let y := if t.cb8 then b else intVal t.tb (BitVec.ofInt 64 b)
    (entry + BitVec.ofInt 64 (intVal t.ta (BitVec.ofNat 64 a) * y), 0)
  | 1 =>
    let y := if t.cb8 then FVal.fin (decide (b < 0)) b.natAbs (-1) else (fmtOf t.tb).read b.toNat
    match (fmtOf t.ta).read a, y with
    | .fin s1 m1 e1, .fin s2 m2 e2 =>
      let m : Int := (m1 * m2 * 2 ^ (e1 + e2 + 20).toNat : Nat)
      (entry + BitVec.ofInt 64 (if s1 != s2 then -m else m), 0)
    | _, _ => (entry, flagNV)
  | _ =>
    let r := fFma f64 .rne ((fmtOf t.ta).read a) ((fmtOf t.tb).read b.toNat) (f64.read entry.toNat)
    (BitVec.ofNat 64 r.bits, r.flags)
/-- A row's products added in ascending k, R77. -/
def accumulateRow (t : MatTypes) (entry : Word) (as : List Nat) (bs : List Int) : Word × Flags5 :=
  (as.zip bs).foldl (fun p q => let r := accumulate t p.1 q.1 q.2; (r.1, p.2 ||| r.2)) (entry, 0)

/-! ### Issue -/

/-- Whether n bytes from an address lie in the layout of its path. -/
def spanFits (e : Word) (n size : Nat) : Bool :=
  match pathOf e with
  | 0 | 1 | 2 => e.toNat / 2 ^ 57 % 8 == 0 && e.toNat % 2 ^ 57 + n ≤ 2 ^ 57
  | 3 => layoutOk e size && winOff e.toNat + n ≤ winSize (winRegion e.toNat)
  | 4 => true
  | _ => false
/-- An operand on the device-control path raises PRIV in user mode (09 R151, R152), before any ACCESS. -/
def privPaths (es : List Word) : M Unit := do
  let x ← hartM
  let h ← me
  if isThread h && !x.trap.mode && es.any (fun e => pathOf e = 6) then trapM PRIV
/-- R201 step 4 for an operand. -/
def spanCheck (e : Word) (lo n size stride : Nat) (view : Bool) : M Unit := do
  let p := pathOf e
  if !(p ≤ 3 || (p = 4 && view)) || e.toNat % size ≠ 0 || stride % size ≠ 0 || !spanFits (e + BitVec.ofNat 64 lo) n size then trapM ACCESS e
/-- R201 step 5: one leased range. -/
def spanLease (e : Word) (lo n : Nat) (r w : Bool) : M Unit := do
  let p := pathOf e
  if p = 3 then pure ()
  else do
    let x ← hartM
    let s ← get
    let a := e + BitVec.ofNat 64 lo
    let va := generalVa a
    let len := if p = 4 then generalVa (a + BitVec.ofNat 64 (n - 1)) + 2 - va else n
    if !s.leasedOne x va len r w then endM LEASE

/-- A matrix instruction. -/
def matInstr (op : Nat) (dest : Bool) (body : Slot → M Unit) (s : State) : Out :=
  runM op (do
    useClass .matrix
    let f ← ir
    names [] (if dest then [f.d] else [])
    body f
    retire) s
/-- A command of the issuing thread. -/
def matCmd (op : Nat) : M MatCmd := do
  let x ← hartM
  let f ← ir
  let h ← me
  let o := x.origin
  let s ← get
  return { hart := h, op := op, slot := f, pc := x.pc, inRegion := x.inRegion, rev := x.revid, space := o.space, owner := o.owner, job := o.job, launch := o.launch
           acc := s.accessOf h 1 0 x.pc 1 }
/-- The positions whose orders take a command of a quad's contraction expander: all four slices, but for one with a result, which is
position 0's (DESIGN CHOICE, log entry 59: R196 lets the expander issue, and does not say to which slices). -/
def expanderPos (c : MatCmd) : List Nat := if c.tag = 0 then List.range 4 else [0]
/-- Places a command into the core's command queue; the expander's goes to the array at once. -/
def queueMat (c : MatCmd) : M Unit := do
  let s ← get
  match c.hart with
  | .expander q => do
    let ps := expanderPos c
    if ps.any fun p => 8 ≤ ((s.quad q).oq.toList.getD p []).length then stall
    modS fun s => s.modQuad q fun y => { y with oq := ps.foldl (fun v p => v.setIfInBounds p (v.toList.getD p [] ++ [c])) y.oq }
    modH fun x => { x with matrix := x.matrix + ps.length }
  | _ => do
    let k ← myCore
    if 2 ≤ (s.core k).cmdOq.length then stall
    modS fun s => s.modCore k fun y => { y with cmdOq := y.cmdOq ++ [c] }
    modH fun x => { x with matrix := x.matrix + 1 }
/-- The row count and origin of a tile. -/
def tileM (f : Slot) : Nat := f.imm.toNat % 512
def tileRow (f : Slot) : Nat := f.imm.toNat / 2 ^ 16 % 256
def checkTile (f : Slot) : M Unit := do
  if tileM f = 0 || 256 < tileM f || 256 < tileRow f + tileM f then trapM ACCESS (immWord f)

/-! ### Gang issue, R198 -/

/-- Releases the round whose four arrivals stand. -/
def State.releaseGang (s : State) (q : QuadKey) : State :=
  let ms := (s.quad q).arrivals
  let n := s.free + 1
  let s := { s with free := n }.modQuad q fun y => { y with arrivals := [], rounds := y.rounds ++ [(n, ms)] }
  let one := fun (p : HartId × Hart) =>
    if p.2.wait = some .gang && s.quadOf p.1 = q then
      (p.1, { p.2 with wait := none, grant := if ms.any (fun m => m.2 == p.1) then some 4 else p.2.grant })
    else p
  { s with harts := s.harts.map one }
/-- R198. `gang`: the grant 4 marks a released arrival. After a region restart at a slice's RP the barrier is passed at once (R209), and by the
expander, which issues for the four slices. -/
def execGang (s : State) : Out :=
  matInstr 0x1A0 false (fun _ => do
    let c ← myCore
    let h ← me
    let x ← hartM
    let s ← get
    let q := quadOfCore c
    let p := posOfCore c
    let again := x.restartPc.isSome && x.restartPc = (s.quad q).restart.toList.getD p none
    let join := modH fun y => { y with gang := true, grant := none }
    if x.grant = some 4 || again || h = .expander q then join
    else
      let arr := (s.quad q).arrivals
      if arr.any (fun a => a.1 == p) then waitFor .gang
      else if arr.length < 3 then
        stallWith fun s => (s.modQuad q fun y => { y with arrivals := y.arrivals ++ [(p, h)] }).modHart h fun y => { y with wait := some .gang }
      else do
        modS fun s => (s.modQuad q fun y => { y with arrivals := y.arrivals ++ [(p, h)] }).releaseGang q
        join) s

/-- The first round that a hart has been released into and has issued no command of. -/
def Quad.roundOf (y : Quad) (h : HartId) : Option Nat := (y.rounds.find? (fun r => r.2.any (fun m => m.2 == h))).map (·.1)
/-- ILLCLASS without a `gang` (R198 step 7), but for a restart at RP. -/
def gangCheck : M Bool := do
  let c ← myCore
  let x ← hartM
  let s ← get
  let resume := x.restartPc = some x.pc && (s.quad (quadOfCore c)).restart.toList.getD (posOfCore c) none = some x.pc
  if !x.gang && !resume then illclass
  return resume
/-- Issues an accumulating command: it is the command of its thread's round. -/
def queueGang (c : MatCmd) (resume : Bool) : M Unit := do
  let k ← myCore
  let q := quadOfCore k
  let s ← get
  let r ← (if c.hart = .expander q then do return some (← freshTag) else pure ((s.quad q).roundOf c.hart))
  queueMat { c with round := r, resume := resume }
  modS fun s => s.modQuad q fun y => { y with rounds := y.rounds.map fun m => (m.1, m.2.filter (fun z => z.2 ≠ c.hart)) }
  modH fun x => { x with gang := false, restartPc := none }

/-- The type of the stationary operand as the commands queued before leave it (R201). -/
def State.statType (s : State) (c : CoreKey) : Nat :=
  let y := s.quad (quadOfCore c)
  let p := posOfCore c
  (y.oq.toList.getD p [] ++ (s.core c).cmdOq).foldl (fun t m => if m.op = 0x1A9 then m.slot.ty.toNat else t) (y.statTy.toList.getD p 0)
/-- The strides of register c, R200. -/
def strideA (t : MatTypes) (c : Word) : Nat := if c.toNat % 2 ^ 32 = 0 then t.aRow else c.toNat % 2 ^ 32
def strideB (row : Nat) (c : Word) : Nat := if c.toNat / 2 ^ 32 = 0 then row else c.toNat / 2 ^ 32
/-- The blocks of `mbmac`'s mask. -/
def blocksOf (f : Slot) : List Nat := (List.range 4).filter (fun q => f.imm.getLsbD q)
/-- `mmac` and `mbmac`, R200 to R202: rows lo to hi of A and lo2 to hi2 of B are read. -/
def gangMultiply (op : Nat) (block : Bool) (s : State) : Out :=
  matInstr op false (fun f => do
    names [f.a, f.b, f.c] []
    let a ← readReg f.a
    let b ← readReg f.b
    let c ← readReg f.c
    let core ← myCore
    let s ← get
    match matTypes f.ty.toNat (f.misc.toNat % 32) with
    | none => illclass
    | some t => do
      let resume ← gangCheck
      let own := f.b.toNat = 31
      privPaths (a :: if own then [] else [b])
      guardM (!block || !(blocksOf f).isEmpty) (trapM ACCESS (immWord f))
      if !block then checkTile f
      if own && s.statType core ≠ t.tb then trapM ACCESS 0
      let lo := if block then 16 * (blocksOf f).headD 0 else 0
      let hi := if block then 16 * (blocksOf f).getLastD 0 + 15 else tileM f - 1
      let lo2 := if block then lo else 0
      let hi2 := if block then hi else 63
      let sa := strideA t c
      let sb := strideB t.bRow c
      let na := (hi - lo) * sa + t.aRow
      let nb := (hi2 - lo2) * sb + t.bRow
      spanCheck a (lo * sa) na t.aSize sa false
      if !own then spanCheck b (lo2 * sb) nb t.bSize sb (t.ta = 1 && t.tb = 1)
      spanLease a (lo * sa) na true false
      if !own then spanLease b (lo2 * sb) nb true false
      let m ← matCmd op
      queueGang { m with a := a, b := b, c := c } resume) s

/-- R200. `mmac`. -/
def execMmac (s : State) : Out := gangMultiply 0x1A1 false s
/-- R202. `mbmac`. -/
def execMbmac (s : State) : Out := gangMultiply 0x1A2 true s
/-- R211. `contract`. -/
def execContract (s : State) : Out :=
  matInstr 0x1AD false (fun f => do
    names [f.a] []
    let a ← readReg f.a
    let resume ← gangCheck
    let m ← matCmd 0x1AD
    queueGang { m with a := a } resume) s

/-- R203. `mclr`. -/
def execMclr (s : State) : Out :=
  matInstr 0x1A3 false (fun f => do
    checkTile f
    queueMat (← matCmd 0x1A3)) s

/-- R204. `mscacc`: under `.sr` its 64 × M draws are taken at issue. -/
def execMscacc (s : State) : Out :=
  matInstr 0x1A4 false (fun f => do
    names [f.a, f.b, f.c] []
    let a ← readReg f.a
    let b ← readReg f.b
    let c ← readReg f.c
    privPaths ((if f.a.toNat = 31 then [] else [a]) ++ if f.b.toNat = 31 then [] else [b])
    checkTile f
    let n := 4 * tileM f
    if f.a.toNat ≠ 31 then spanCheck a 0 n 4 0 false
    if f.b.toNat ≠ 31 then spanCheck b 0 256 4 0 false
    if f.a.toNat ≠ 31 then spanLease a 0 n true false
    if f.b.toNat ≠ 31 then spanLease b 0 256 true false
    let code ← roundCode f
    let us ← (if code = 4 then draws 0x01 (64 * tileM f) else pure [])
    let m ← matCmd 0x1A4
    queueMat { m with a := a, b := b, c := c, mode := modeOf code 0, data := us.map fun u => u.toNat / 2 ^ 32 }) s

/-- The entry that `rdacc` and `wracc` name. -/
def entryOfAcc (f : Slot) : M Nat := do
  names [f.a] []
  let e := (← readReg f.a) + BitVec.ofNat 64 (f.imm.toNat % 2 ^ 14)
  if 16384 ≤ e.toNat then trapM ACCESS e
  return e.toNat
/-- A command whose result is outstanding until it completes. -/
def queueResult (f : Slot) (m : MatCmd) : M Unit := do
  let ws ← destReg f.d 0
  let tag ← freshTag
  queueMat { m with tag := tag }
  result ws 0 none false tag
/-- R203. `rdacc`. -/
def execRdacc (s : State) : Out :=
  matInstr 0x1A5 true (fun f => do
    let e ← entryOfAcc f
    let m ← matCmd 0x1A5
    queueResult f { m with a := BitVec.ofNat 64 e }) s
/-- R203. `wracc`. -/
def execWracc (s : State) : Out :=
  matInstr 0x1A6 false (fun f => do
    let e ← entryOfAcc f
    names [f.b] []
    let b ← readReg f.b
    let m ← matCmd 0x1A6
    queueMat { m with a := BitVec.ofNat 64 e, b := b }) s

/-- `ldacc` and `stacc`. -/
def accTransfer (op : Nat) (store : Bool) (s : State) : Out :=
  matInstr op false (fun f => do
    names [f.a] []
    let a ← readReg f.a
    privPaths [a]
    checkTile f
    if f.path.toNat ≠ pathOf a then trapM ACCESS a
    spanCheck a 0 (512 * tileM f) 8 0 false
    spanLease a 0 (512 * tileM f) (!store) store
    let m ← matCmd op
    queueMat { m with a := a }) s
/-- R203. `ldacc`. -/
def execLdacc (s : State) : Out := accTransfer 0x1A7 false s
/-- R203. `stacc`. -/
def execStacc (s : State) : Out := accTransfer 0x1A8 true s

/-- R206. `oqld`. -/
def execOqld (s : State) : Out :=
  matInstr 0x1A9 false (fun f => do
    names [f.a, f.c] []
    let a ← readReg f.a
    let c ← readReg f.c
    let row := bTypeRow f.ty.toNat
    let sb := strideB row c
    privPaths [a]
    spanCheck a 0 (63 * sb + row) (bTypeSize f.ty.toNat) sb (f.ty.toNat = 1)
    spanLease a 0 (63 * sb + row) true false
    let m ← matCmd 0x1A9
    queueMat { m with a := a, c := c }) s
/-- R206. `oqcfg`. -/
def execOqcfg (s : State) : Out := matInstr 0x1AA false (fun _ => do queueMat (← matCmd 0x1AA)) s
/-- R207. `mrow`. -/
def execMrow (s : State) : Out := matInstr 0x1AB true (fun f => do queueResult f (← matCmd 0x1AB)) s
/-- R205. `cbload`. -/
def execCbload (s : State) : Out :=
  matInstr 0x1AC false (fun f => do
    names [f.a] []
    let a ← readReg f.a
    privPaths [a]
    let first := f.imm.toNat % 256
    let n := f.imm.toNat / 256 % 512
    if n = 0 || 256 < first + n then trapM ACCESS (immWord f)
    spanCheck a 0 (4 * n) 4 0 false
    spanLease a 0 (4 * n) true false
    let m ← matCmd 0x1AC
    queueMat { m with a := a }) s
/-- MSTAT of a context slot, R195; the expander has one of its own (log entry 59). -/
def mstatSlot : HartId → Nat
  | .ctx _ n => n
  | _ => 64
def State.mstatOf (s : State) (c : CoreKey) (h : HartId) : BitVec 8 := Sparse.get 0 (s.core c).mstat (mstatSlot h)
def State.putMstat (s : State) (c : CoreKey) (h : HartId) (v : BitVec 8) : State :=
  s.modCore c fun k => { k with mstat := Sparse.put 0 (mstatSlot h) v k.mstat }
/-- R207. `mwait`: nothing of the thread issues before it. -/
def execMwait (s : State) : Out :=
  runM 0x1AE (do
    useClass .matrix
    let f ← ir
    names [] [f.d]
    let h ← me
    let x ← hartM
    let c ← myCore
    let s ← get
    if x.matrix ≠ 0 then stall
    writeReg f.d ((s.mstatOf c h).setWidth 64)
    modS fun s => s.putMstat c h 0
    retire) s

/-! ### The load pipes, R208, R210 -/

/-- What stops a command: a page it waits for, a failing access, or an address without a lease. -/
inductive PipeStop where
  | wait
  | fail (status : Nat) (addr : Word)
  | lease
/-- The array at work: what it has done stands when something stops it. -/
abbrev Pipe (α : Type) := ExceptT PipeStop (StateM State) α

/-- Translation by the load pipes' own TLB; a page that waits for `replay` is not asked for again. -/
def pipeTranslate (c : MatCmd) (va kind : Nat) : Pipe Nat := do
  let s ← get
  let q := s.quadOf c.hart
  let page := va / 2 ^ 16 % 2 ^ 41
  let parked := (s.die (dieOfQuad q)).parkedMiss.any fun m => m.quad == q && m.loadPipe && m.space == c.space && m.page == page
  match s.translate q true c.space va kind with
  | .ok pa => if (s.metaWord pa 0).getLsbD 60 then throw .wait else pure pa
  | .miss =>
    if parked then throw .wait
    else do
      set (s.missFor c.hart q true c.space va kind)
      throw .wait
  | .noRight =>
    if parked || s.parkedFull q then throw .wait
    else do
      set (s.pageFault c.hart q true c.space va kind)
      throw .wait

/-- A read of general memory inside a page. -/
def pipePiece (c : MatCmd) (e : Word) (va n : Nat) : Pipe (List Byte) := do
  let pa ← pipeTranslate c va 4
  modify fun s => s.touchPage c.hart pa
  let s ← get
  let d := dieOfHart c.hart
  let st := s.ownerStatus d c.owner pa n false
  if st ≠ 0 then throw (.fail st e)
  let j := s.regionOf c.job d va
  if c.rev ≠ 0 && j.isSome && homeOf pa / 4 ≠ d / 4 then throw (.fail 1 e)
  if s.isPoisoned pa n then throw (.fail 5 e)
  return s.homeBytes j (if j.isSome then c.rev else 0) pa n
/-- A byte of path 4: the weight that R169 decodes. -/
def pipeWeight (c : MatCmd) (e : Word) : Pipe Byte := do
  let p ← pipePiece c e (generalVa e) 2
  let s ← get
  let ix := leNat p
  return BitVec.ofInt 8 (cb8Weight ix (Sparse.get 0 (s.quad (s.quadOf c.hart)).shell (ix % 256)).toNat (e.toNat % 8))
/-- A read of n bytes. -/
def pipeRead (c : MatCmd) (e : Word) (n : Nat) : Pipe (List Byte) := do
  if 4 < pathOf e || !layoutOk e n then throw (.fail 1 e)
  let s ← get
  let pkg := dieOfHart c.hart / 4
  match pathOf e with
  | 3 => do
    let st := s.winStatus (dieOfHart c.hart) c.owner e.toNat n false
    if st ≠ 0 then throw (.fail st e)
    if winRegion e.toNat = 4 then return leBytes n (s.winLoad pkg e.toNat n)
    else return (List.range n).map fun i => BitVec.ofNat 8 (s.winLoad pkg (e.toNat + i) 1)
  | 4 => (List.range n).mapM fun i => pipeWeight c (e + BitVec.ofNat 64 i)
  | _ => do
    let ps ← (pagePieces (generalVa e) 3 0 n).mapM fun p => pipePiece c (e + BitVec.ofNat 64 p.1) (generalVa e + p.1) p.2
    return ps.flatten
/-- A write of a doubleword, at its home. -/
def pipeWrite (c : MatCmd) (e w : Word) : Pipe Unit := do
  let s ← get
  let d := dieOfHart c.hart
  if pathOf e = 3 then do
    let r := s.winStoreBy d c.owner e.toNat 8 w.toNat
    set r.1
    if r.2 ≠ 0 then throw (.fail r.2 e)
  else do
    let va := generalVa e
    let pa ← pipeTranslate c va 5
    modify fun s => s.touchPage c.hart pa
    let s ← get
    let st := if s.granted pa then 1 else s.ownerStatus d c.owner pa 8 true
    if st ≠ 0 then throw (.fail st e)
    match s.regionOf c.job d va with
    | none => set (s.putNum pa 8 w.toNat)
    | some j =>
      if c.rev ≠ 0 && homeOf pa / 4 ≠ d / 4 then throw (.fail 1 e)
      match s.firstWrite j c.rev (pa / 64) (va / 64) with
      | none => throw (.fail 1 e)
      | some t => set (t.writeRev (some j) c.rev (cellsAt pa (leBytes 8 w.toNat)))

/-! ### The array -/

def Quad.order (y : Quad) (pos : Nat) : List MatCmd := y.oq.toList.getD pos []
def State.headCmd (s : State) (q : QuadKey) (pos : Nat) : Option MatCmd := ((s.quad q).order pos).head?
/-- Changes the command at the head of a core's order. -/
def State.modCmd (s : State) (q : QuadKey) (pos : Nat) (f : MatCmd → MatCmd) : State :=
  s.modQuad q fun y => { y with oq := y.oq.setIfInBounds pos (match y.order pos with
    | [] => []
    | c :: r => f c :: r) }
def accKey (bank row pos j : Nat) : Nat := bank * 65536 + row * 256 + 64 * pos + j
def State.accGet (s : State) (q : QuadKey) (bank row pos j : Nat) : Word := Sparse.get 0 (s.quad q).acc (accKey bank row pos j)
def State.accPut (s : State) (q : QuadKey) (bank row pos j : Nat) (v : Word) : State :=
  s.modQuad q fun y => { y with acc := Sparse.put 0 (accKey bank row pos j) v y.acc }
def State.setRp (s : State) (q : QuadKey) (pos n : Nat) : State := s.modQuad q fun y => { y with rp := y.rp.setIfInBounds pos n }
/-- What a command has done so far, its flags with it. -/
def mark (q : QuadKey) (pos n : Nat) (fl : Flags5) : Pipe Unit :=
  modify fun s => s.modCmd q pos fun c => { c with start := n, flags := c.flags ||| fl }
/-- Runs a step for each of n numbers from a first. -/
def pipeFrom (step : Nat → Pipe Unit) : Nat → Nat → Pipe Unit
  | 0, _ => pure ()
  | n + 1, i => do
    step i
    pipeFrom step n (i + 1)

/-- Elements of an A row, and of a B row. -/
def elemsA (t : MatTypes) (bs : List Byte) : List Nat := (List.range t.k).map fun k => leNat (sliceBytes bs (k * t.aSize) t.aSize)
def elemsOfB (s : State) (q : QuadKey) (t : MatTypes) (bs : List Byte) : List Int :=
  (List.range t.k).map fun k =>
    if t.cb8 then
      let ix := leNat (sliceBytes bs (2 * (k / 8)) 2)
      cb8Weight ix (Sparse.get 0 (s.quad q).shell (ix % 256)).toNat (k % 8)
    else ((leNat (sliceBytes bs (k * t.bSize) t.bSize) : Nat) : Int)
/-- Row j of B: memory's, or the stationary operand's, whose rows stand packed. -/
def readB (q : QuadKey) (pos : Nat) (c : MatCmd) (t : MatTypes) (j : Nat) : Pipe (List Int) := do
  let bs ← (if c.slot.b.toNat = 31 then do
      let s ← get
      pure ((List.range t.bRow).map fun i => Sparse.get 0 (s.quad q).statData (pos * 4096 + j * t.bRow + i))
    else pipeRead c (c.b + BitVec.ofNat 64 (j * strideB t.bRow c.c)) t.bRow)
  let s ← get
  return elemsOfB s q t bs
/-- A command as it reads its A rows, R200. -/
def MatCmd.asLead (c : MatCmd) : MatCmd :=
  match c.lead with
  | some r => { c with hart := r.hart, rev := r.rev, space := r.space, owner := r.owner, job := r.job }
  | none => c
def readA (c : MatCmd) (t : MatTypes) (i : Nat) : Pipe (List Nat) := do
  return elemsA t (← pipeRead c.asLead (c.a + BitVec.ofNat 64 (i * strideA t c.c)) t.aRow)
/-- Accumulates one row of the slice over some columns, each with its B row. -/
def accRow (q : QuadKey) (pos bank row : Nat) (t : MatTypes) (as : List Nat) (cols : List (Nat × List Int)) : Pipe Flags5 := do
  let one := fun (p : State × Flags5) (c : Nat × List Int) =>
    let r := accumulateRow t (p.1.accGet q bank row pos c.1) as c.2
    (p.1.accPut q bank row pos c.1 r.1, p.2 ||| r.2)
  let s ← get
  let r := cols.foldl one (s, 0)
  set r.1
  return r.2

/-- `mmac`, R200, from the row it has come to. -/
def runMmac (q : QuadKey) (pos : Nat) (c : MatCmd) (t : MatTypes) : Pipe Unit := do
  let m := tileM c.slot
  let row0 := tileRow c.slot
  if c.start < m then do
    let _ ← readA c t c.start
    let bs ← (List.range 64).mapM (readB q pos c t)
    let cols := (List.range 64).zip bs
    pipeFrom (fun i => do
      let as ← readA c t i
      let fl ← accRow q pos (c.slot.d.toNat % 2) (row0 + i) t as cols
      modify fun s => s.setRp q pos (row0 + i + 1)
      mark q pos (i + 1) fl) (m - c.start) c.start
/-- `mbmac`, R202, from the block row it has come to. -/
def runMbmac (q : QuadKey) (pos : Nat) (c : MatCmd) (t : MatTypes) : Pipe Unit := do
  let blocks := blocksOf c.slot
  if c.start < 16 then do
    let _ ← readA c t (16 * blocks.headD 0 + c.start)
    let bs ← blocks.mapM fun b => (List.range 16).mapM fun j => readB q pos c t (16 * b + j)
    pipeFrom (fun i => do
      let as ← blocks.mapM fun b => readA c t (16 * b + i)
      let each := fun (p : Nat × List Nat × List (List Int)) =>
        accRow q pos (c.slot.d.toNat % 2) (16 * (4 * pos + p.1) + i) t p.2.1 ((List.range 16).map (fun j => 16 * p.1 + j) |>.zip p.2.2)
      let fls ← (blocks.zip (as.zip bs)).mapM each
      modify fun s => s.setRp q pos (i + 1)
      mark q pos (i + 1) (fls.foldl (· ||| ·) 0)) (16 - c.start) c.start

/-! ### The slice instructions -/

/-- The exact product of four values and its one rounding, R204. -/
def scaleEntry (mode : RMode) (v rs cs f : FVal) : FRes :=
  let vs := [v, rs, cs, f]
  let neg := (v.neg? != rs.neg?) != (cs.neg? != f.neg?)
  if vs.any (·.isNaN) then nanRes f64 (vs.any (·.isSNaN))
  else if vs.any (·.isInf) then (if vs.any (·.isZero) then nanRes f64 true else { bits := f64.infBits neg })
  else match v, rs, cs, f with
    | .fin _ m1 e1, .fin _ m2 e2, .fin _ m3 e3, .fin _ m4 e4 => roundVal f64 false mode neg neg (m1 * m2 * m3 * m4) (e1 + e2 + e3 + e4)
    | _, _, _, _ => nanRes f64 true
def oneF : FVal := .fin false 1 0
/-- The value that `mscacc` reads in an entry. -/
def entryVal (f : Slot) (w : Word) : FVal :=
  if f.ty.toNat = 9 then f64.read w.toNat
  else .fin (decide (w.toInt < 0)) w.toInt.natAbs (if f.misc.getLsbD 0 then -20 else 0)
/-- A binary32 in memory. -/
def readF32 (c : MatCmd) (base : Word) (i : Nat) : Pipe FVal := do
  return f32.read (leNat (← pipeRead c (base + BitVec.ofNat 64 (4 * i)) 4))
/-- The rounding of the n-th entry of `mscacc`. -/
def drawnMode (c : MatCmd) (n : Nat) : RMode :=
  match c.mode with
  | .sr _ => .sr (c.data.getD n 0)
  | m => m
/-- `mscacc`. -/
def runMscacc (q : QuadKey) (pos : Nat) (c : MatCmd) : Pipe Unit := do
  let f := c.slot
  let m := tileM f
  if c.start < m then do
    let rs := fun (i : Nat) => if f.a.toNat = 31 then pure oneF else readF32 c c.a i
    let _ ← rs c.start
    let cs ← (List.range 64).mapM fun j => if f.b.toNat = 31 then pure oneF else readF32 c c.b j
    let fac := if f.c.toNat = 31 then oneF else f64.read c.c.toNat
    pipeFrom (fun i => do
      let r ← rs i
      let one := fun (p : State × Flags5) (j : Nat) =>
        let bank := f.d.toNat % 2
        let row := tileRow f + i
        let x := scaleEntry (drawnMode c (64 * i + j)) (entryVal f (p.1.accGet q bank row pos j)) r (cs.getD j oneF) fac
        (p.1.accPut q bank row pos j (BitVec.ofNat 64 x.bits), p.2 ||| x.flags)
      let s ← get
      let r := (List.range 64).foldl one (s, 0)
      set r.1
      mark q pos (i + 1) r.2) (m - c.start) c.start
/-- A failing doubleword of `ldacc` and `stacc` is noted, and the command goes on; poisoned data and a page stop it. -/
def noting (q : QuadKey) (pos : Nat) (dflt : α) (p : Pipe α) : Pipe α :=
  tryCatch p fun e => match e with
    | .fail st a => do
      if st = 5 then throw (.fail st a)
      modify fun s => s.modCmd q pos fun c => if c.status = 0 then { c with status := st, failAddr := some a } else c
      pure dflt
    | e => throw e
/-- `ldacc`, R203: each row changes whole (R196). -/
def runLdacc (q : QuadKey) (pos : Nat) (c : MatCmd) : Pipe Unit := do
  let bank := c.slot.d.toNat % 2
  let m := tileM c.slot
  pipeFrom (fun i => do
    let ws ← (List.range 64).mapM fun j =>
      noting q pos (0 : Nat) (do return leNat (← pipeRead c (c.a + BitVec.ofNat 64 (512 * i + 8 * j)) 8))
    modify fun s => ((List.range 64).zip ws).foldl (fun s p => s.accPut q bank (tileRow c.slot + i) pos p.1 (BitVec.ofNat 64 p.2)) s
    mark q pos (i + 1) 0) (m - c.start) c.start
/-- `stacc`, R203, by doublewords. -/
def runStacc (q : QuadKey) (pos : Nat) (c : MatCmd) : Pipe Unit := do
  let bank := c.slot.d.toNat % 2
  let n := 64 * tileM c.slot
  pipeFrom (fun i => do
    let s ← get
    noting q pos () (pipeWrite c (c.a + BitVec.ofNat 64 (8 * i)) (s.accGet q bank (tileRow c.slot + i / 64) pos (i % 64)))
    mark q pos (i + 1) 0) (n - c.start) c.start
/-- `oqld`, R206: row by row into the packed buffer. -/
def runOqld (q : QuadKey) (pos : Nat) (c : MatCmd) : Pipe Unit := do
  let row := bTypeRow c.slot.ty.toNat
  modify fun s => s.modQuad q fun y => { y with statTy := y.statTy.setIfInBounds pos c.slot.ty.toNat }
  pipeFrom (fun j => do
    let bs ← pipeRead c (c.a + BitVec.ofNat 64 (j * strideB row c.c)) row
    let put := fun (d : Sparse Byte) (p : Nat × Byte) => Sparse.put 0 (pos * 4096 + j * row + p.1) p.2 d
    modify fun s => s.modQuad q fun y => { y with statData := ((List.range row).zip bs).foldl put y.statData }
    mark q pos (j + 1) 0) (64 - c.start) c.start
/-- `cbload`, R205: its words, which it writes when it completes. -/
def runCbload (q : QuadKey) (pos : Nat) (c : MatCmd) : Pipe Unit := do
  let ws ← (List.range (c.slot.imm.toNat / 256 % 512)).mapM fun i => pipeRead c (c.a + BitVec.ofNat 64 (4 * i)) 4
  modify fun s => s.modCmd q pos fun c => { c with data := ws.map leNat }

/-- What a started command does. -/
def runCmd (q : QuadKey) (pos : Nat) (c : MatCmd) : Pipe Unit := do
  let f := c.slot
  let bank := f.d.toNat % 2
  match c.op with
  | 0x1A1 => match matTypes f.ty.toNat (f.misc.toNat % 32) with
    | some t => runMmac q pos c t
    | none => pure ()
  | 0x1A2 => match matTypes f.ty.toNat (f.misc.toNat % 32) with
    | some t => runMbmac q pos c t
    | none => pure ()
  | 0x1A3 =>
    let rows := List.range' (tileRow f) (tileM f)
    modify fun s => rows.foldl (fun s r => (List.range 64).foldl (fun s j => s.accPut q bank r pos j 0) s) s
  | 0x1A4 => runMscacc q pos c
  | 0x1A5 => modify fun s => s.modCmd q pos fun y => { y with data := [(s.accGet q (f.c.toNat % 2) (c.a.toNat / 64) pos (c.a.toNat % 64)).toNat] }
  | 0x1A6 => modify fun s => s.accPut q bank (c.a.toNat / 64) pos (c.a.toNat % 64) c.b
  | 0x1A7 => runLdacc q pos c
  | 0x1A8 => runStacc q pos c
  | 0x1A9 => runOqld q pos c
  | 0x1AB =>
    let v := fun (y : Quad) => y.rp.toList.getD pos 0 + (if (y.restart.toList.getD pos none).isSome then 2 ^ 16 else 0)
    modify fun s => s.modCmd q pos fun y => { y with data := [v (s.quad q)] }
  | 0x1AC => runCbload q pos c
  | _ => pure ()
/-- Where a command stands once it has run; the first failure is the one reported (R208). -/
def State.settle (s : State) (q : QuadKey) (pos : Nat) (r : Except PipeStop Unit) : State :=
  s.modCmd q pos fun c => match r with
    | .ok _ => { c with phase := if c.status = 0 then 3 else 2 }
    | .error .wait => c
    | .error (.fail st a) =>
      if st = 5 then { c with phase := 2, poison := some a }
      else { c with phase := 2, status := if c.status = 0 then st else c.status, failAddr := if c.status = 0 then some a else c.failAddr }
    | .error .lease => { c with phase := 3, status := 1 }
def State.runHead (s : State) (q : QuadKey) (pos : Nat) : State :=
  match s.headCmd q pos with
  | none => s
  | some c => let r := (runCmd q pos c).run s; r.2.settle q pos r.1

/-! ### The array's events -/

def isGangOp (op : Nat) : Bool := op = 0x1A1 || op = 0x1A2 || op = 0x1AD
/-- The heads of the four orders. -/
def State.heads (s : State) (q : QuadKey) : List (Nat × MatCmd) := (List.range 4).filterMap fun p => (s.headCmd q p).map fun c => (p, c)
/-- Whether a round's commands have all arrived at the heads of their orders. -/
def State.roundReady (s : State) (q : QuadKey) (r : Nat) : Bool :=
  let y := s.quad q
  let mine := fun (c : MatCmd) => c.round = some r
  !(y.rounds.any fun m => m.1 == r && !m.2.isEmpty) &&
    (List.range 4).all fun p => !((y.order p).drop 1).any mine && !(s.core (coreOfQuad q p)).cmdOq.any mine
/-- The gang operation that can start: a lone command after a restart, or a round's. -/
def State.readyGang (s : State) (q : QuadKey) : List (Nat × MatCmd) :=
  let hs := (s.heads q).filter fun p => isGangOp p.2.op && p.2.phase == 0
  match hs.find? (fun p => p.2.round.isNone) with
  | some p => [p]
  | none => match hs.find? (fun p => match p.2.round with
      | some r => s.roundReady q r
      | none => false) with
    | some p => hs.filter (fun o => o.2.round == p.2.round)
    | none => []
/-- Whether the commands of a gang operation belong together, R198 steps 4 and 5, R211. -/
def gangAgrees (share : Bool) (cs : List (Nat × MatCmd)) : Bool :=
  match cs with
  | [] => false
  | p :: _ =>
    cs.all (fun o => o.2.op == p.2.op && (if p.2.op = 0x1AD then o.2.a == p.2.a else o.2.slot.ty == p.2.slot.ty && o.2.slot.misc == p.2.slot.misc)) &&
      (!share || cs.any (fun o => o.1 == 0))
/-- A command as it starts: its A operand under QSHARE, its place in the tile (R200, R209). -/
def startedCmd (y : Quad) (lead : Option MatCmd) (pos : Nat) (c : MatCmd) : MatCmd :=
  let back := c.resume && y.restart.toList.getD pos none == some c.pc
  let rp := y.rp.toList.getD pos 0
  let n := if !back then 0 else match c.op with
    | 0x1A1 => rp - tileRow c.slot
    | 0x1A2 => rp
    | _ => y.progress.toList.getD pos 0
  let c := match lead with
    | some l => if c.op = 0x1AD then c else { c with
        a := l.a, lead := some { hart := l.hart, rev := l.rev, space := l.space, owner := l.owner, job := l.job }, c := BitVec.ofNat 64 (c.c.toNat / 2 ^ 32 * 2 ^ 32 + l.c.toNat % 2 ^ 32) }
    | none => c
  { c with phase := 1, start := n }
/-- Starts a gang operation; a contraction starts the quad's expander (02_machine R20). -/
def State.startGang (s : State) (q : QuadKey) (cs : List (Nat × MatCmd)) : State :=
  let y := s.quad q
  if !gangAgrees y.qshare cs then cs.foldl (fun s p => s.modCmd q p.1 fun c => { c with phase := 3, status := 1 }) s
  else
    let lead := if y.qshare then (cs.find? (fun p => p.1 == 0)).map (·.2) else none
    let begin1 := fun (s : State) (p : Nat × MatCmd) =>
      let c := startedCmd y lead p.1 p.2
      let rp := if c.op = 0x1A1 then tileRow c.slot + c.start else if c.op = 0x1A2 then c.start else y.rp.toList.getD p.1 0
      ((s.modCmd q p.1 fun _ => c).setRp q p.1 rp).modQuad q fun z => { z with restart := z.restart.setIfInBounds p.1 none }
    let s := cs.foldl begin1 s
    match cs with
    | (_, c) :: _ =>
      if c.op = 0x1AD then
        let who := cs.map fun p => (p.2.hart, p.2.acc.born)
        (cs.foldl (fun s p => s.modCmd q p.1 fun c => { c with mates := who }) s).startFirmware (.expander q)
          { launch := c.launch, owner := c.owner, space := c.space, job := c.job }
      else s
    | [] => s
/-- R198. The array starts the operation that is ready, or goes on with slices that waited for a page. -/
def execGangOperationStart (s : State) : Out :=
  let q := s.ev.site
  let s := match s.readyGang q with
    | [] => s
    | cs => (s.startGang q cs).modQuad q fun y => { y with rounds := y.rounds.filter fun m => !(m.2.isEmpty && cs.any fun p => p.2.round == some m.1) }
  let go := fun (s : State) (p : Nat) => match s.headCmd q p with
    | some c => if (c.op = 0x1A1 || c.op = 0x1A2) && c.phase = 1 then s.runHead q p else s
    | none => s
  .next ((List.range 4).foldl go s)
/-- R196. A command at the head of its core's order starts, or goes on. -/
def execMatrixCommandStart (s : State) : Out :=
  let q := s.ev.site
  let p := s.ev.n
  match s.headCmd q p with
  | some c => if !isGangOp c.op && c.phase < 2 then .next ((s.modCmd q p fun c => { c with phase := 1 }).runHead q p) else .next s
  | none => .next s

/-- The flags of a completed command reach its thread: FFLAGS, or the image of a thread that is not resident (R207). -/
def State.matrixFlags (s : State) (h : HartId) (fl : Flags5) : State :=
  match h with
  | .ctx c n =>
    if (s.hart h).phase = .preempted then
      let a := s.ctxImage c n + 0xD8
      s.putWord a (s.word a ||| fl.setWidth 64)
    else s.modHart h fun x => { x with fflags := orFlags x.fflags fl }
  | _ => s
/-- MSTAT takes a status when it is 0, whether or not the thread is still there: it is its slot's (R195). -/
def State.setStatus (s : State) (c : CoreKey) (h : HartId) (st : Nat) : State :=
  if s.mstatOf c h = 0 then s.putMstat c h (BitVec.ofNat 8 st) else s
/-- What completion writes: a register, the shell table, QSHARE. -/
def State.completeCmd (s : State) (q : QuadKey) (c : MatCmd) : State :=
  match c.op with
  | 0x1A5 | 0x1AB => if c.gone then s else s.returnTag c.hart c.tag (BitVec.ofNat 64 (c.data.headD 0))
  | 0x1AC =>
    let first := c.slot.imm.toNat % 256
    let put := fun (t : Sparse (BitVec 32)) (p : Nat × Nat) => Sparse.put 0 (first + p.1) (BitVec.ofNat 32 p.2) t
    if c.status = 0 && c.poison.isNone then s.modQuad q fun y => { y with shell := ((List.range c.data.length).zip c.data).foldl put y.shell } else s
  | 0x1AA => s.modQuad q fun y => { y with qshare := c.slot.imm.getLsbD 0 }
  | _ => s
/-- R207. A command completes. -/
def execMatrixCommandComplete (s : State) : Out :=
  let q := s.ev.site
  let p := s.ev.n
  match s.headCmd q p with
  | none => .next s
  | some c =>
    if c.phase ≠ 3 then .next s
    else
      let s := s.modQuad q fun y => { y with oq := y.oq.setIfInBounds p ((y.order p).drop 1) }
      let s := s.completeCmd q c
      let s := if c.status = 0 then s else s.setStatus c.acc.core c.hart c.status
      if c.gone then .next s
      else .next ((s.matrixFlags c.hart c.flags).modHart c.hart fun x => { x with matrix := x.matrix - 1 })

/-- R208. A load-pipe access has failed: a status and its record, poisoned data consumed by the thread, or both. -/
def execLoadPipeFailure (s : State) : Out :=
  let q := s.ev.site
  let p := s.ev.n
  match s.headCmd q p with
  | none => .next s
  | some c =>
    if c.phase ≠ 2 then .next s
    else
      let s := s.modCmd q p fun c => { c with phase := 3 }
      let acc := { c.acc with kind := if c.op = 0x1A8 then 0 else 1, addr := c.failAddr.getD 0, status := c.status }
      let s := if c.status = 0 then s
        else (if c.gone then s.sfqGone c.hart acc else s.sfqFor c.hart acc).setStatus c.acc.core c.hart c.status
      match (if c.gone then none else c.poison) with
      | none => .next s
      | some a =>
        let restart := c.inRegion && decide ((s.hart c.hart).restarts < Config.maxRestarts)
        let s := if restart then
            (s.modQuad q fun y =>
              { y with restart := y.restart.setIfInBounds p (some c.pc), progress := y.progress.setIfInBounds p c.start }).modHart c.hart
              fun x => { x with restartPc := some c.pc }
          else s
        .next (s.consume c.hart a c.inRegion 5)

end Sys2Proof.Machine
end

