-- ==== Sys2Proof/Machine/Contract.lean ====
section
/-! DEFINITION. Contraction (12_matrix_instructions R211 to R215): the parameter block, its checks, the stored elements of an operand, and
the sum of R214 slice by slice. -/

namespace Sys2Proof.Machine

/-- An operand's descriptor, R213. -/
structure Operand where
  format : Nat
  block : Nat
  n : Nat
  letters : List Nat
  values : Word
  data : List Word
  deriving DecidableEq, Repr
/-- The descriptor whose first doubleword is number k of the block. -/
def operandAt (w : Nat → Nat) (k : Nat) : Operand :=
  { format := w k / 2 ^ 24 % 16
    block := w k / 2 ^ 20 % 16
    n := w k / 2 ^ 16 % 16
    letters := (List.range (min 4 (w k / 2 ^ 16 % 16))).map fun t => w k / 2 ^ (4 * t) % 16
    values := BitVec.ofNat 64 (w (k + 1))
    data := (List.range 4).map fun t => BitVec.ofNat 64 (w (k + 2 + t)) }
/-- The extent of a letter. -/
def extentOf (w : Nat → Nat) (l : Nat) : Nat := w (1 + l / 2) / 2 ^ (32 * (l % 2)) % 2 ^ 32
/-- The type pair of the header, R212. -/
def blockTypes (w : Nat → Nat) : Option MatTypes :=
  let ta := w 0 % 256
  let tb := w 0 / 2 ^ 8 % 256
  matTypes ta (if tb = ta then 0 else tb)
/-- The first doubleword of a descriptor that breaks R213 or R215, as its number in the block; e is the element size. What R213 lays down and R215
does not list (n of 0 or above 4, the Block field, letters above 7 and those of unused places, the strides of a dense or a CB8 operand) is
refused too, at its doubleword (DESIGN CHOICE, log entry 62). -/
def operandError (w : Nat → Nat) (k e : Nat) (cb8 : Bool) : Option Nat :=
  let o := operandAt w k
  let d := fun (t : Nat) => (o.data.getD t 0).toNat
  let stride := fun (t : Nat) => d t % e != 0 || (cb8 && t + 1 == o.n && d t != 2)
  let head := w k / 2 ^ 28 != 0 || 3 < o.format || (if o.format = 2 then decide (4 < o.block) else o.block != 0) || o.n == 0 || 4 < o.n ||
    o.letters.any (fun l => 7 < l) || (List.range 4).any (fun t => o.n ≤ t && w k / 2 ^ (4 * t) % 16 != 15) || !o.letters.Nodup ||
    (o.format != 0 && o.n != 2) || (cb8 && o.format != 0)
  let word := fun (t : Nat) => match o.format with
    | 0 => decide (t < o.n) && stride t
    | 1 => if t < 2 then d t % 4 != 0 else d t != 0
    | 2 => if t = 0 then d t % 4 != 0 else t ≥ 2 && d t != 0
    | _ => if t < 2 then d t % 4 != 0 else t == 3 && d t != 0
  if head then some k
  else if o.values.toNat % e ≠ 0 then some (k + 1)
  else match (List.range 4).find? word with
    | some t => some (k + 2 + t)
    | none => if w (k + 6) ≠ 0 then some (k + 6) else if w (k + 7) ≠ 0 then some (k + 7) else none
/-- The number of the first doubleword of a block that R215 refuses. -/
def blockError (w : Nat → Nat) : Option Nat :=
  let a := operandAt w 6
  let b := operandAt w 14
  let row := w 5 % 16
  let col := w 5 / 16 % 16
  let known := fun (l : Nat) => a.letters.contains l || b.letters.contains l
  match blockTypes w with
  | none => some 0
  | some t =>
    if w 0 / 2 ^ 16 ≠ 0 then some 0
    else if w 5 / 2 ^ 16 ≠ 0 || !known row || !known col then some 5
    else match operandError w 6 t.aSize false with
      | some k => some k
      | none => match operandError w 14 t.bSize t.cb8 with
        | some k => some k
        | none =>
          if a.format ≠ 0 && b.format ≠ 0 then some 14
          else if 256 - w 5 / 2 ^ 8 % 256 < extentOf w row then some (1 + row / 2)
          else if 256 < extentOf w col then some (1 + col / 2) else none

/-- A read of the expander for a slice's thread, with its lease (R211). -/
def expRead (c : MatCmd) (e : Word) (n : Nat) : Pipe (List Byte) := do
  let s ← get
  if 3 < pathOf e then throw (.fail 1 e)
  if pathOf e ≠ 3 && !(s.leased { origin := { launch := c.launch } } (generalVa e) n true false) then throw .lease
  pipeRead c e n
def expWord (c : MatCmd) (base : Word) (i : Nat) : Pipe (Nat × Word) := do
  let e := base + BitVec.ofNat 64 (4 * i)
  return (leNat (← expRead c e 4), e)

/-- One stored value of an operand: its bits, or its CB8 weight. -/
def storedValue (q : QuadKey) (c : MatCmd) (e : Word) (size : Nat) (cb8 : Bool) (m : Nat) : Pipe Int := do
  let n := leNat (← expRead c e size)
  let s ← get
  if cb8 then return cb8Weight n (Sparse.get 0 (s.quad q).shell (n % 256)).toNat (m % 8)
  else return (n : Int)
/-- The values that an operand stores for an assignment of the letters, in stored order (R213). -/
def storedValues (q : QuadKey) (c : MatCmd) (o : Operand) (size : Nat) (cb8 : Bool) (ext val : Nat → Nat) : Pipe (List Int) := do
  let d := fun (t : Nat) => o.data.getD t 0
  let i := val (o.letters.getD 0 0)
  let j := val (o.letters.getD 1 0)
  let at1 := fun (n : Nat) => o.values + BitVec.ofNat 64 (n * size)
  match o.format with
  | 0 =>
    let last := val (o.letters.getD (o.n - 1) 0)
    let part := fun (t : Nat) =>
      let v := val (o.letters.getD t 0)
      d t * BitVec.ofNat 64 (if cb8 && t + 1 == o.n then v / 8 else v)
    return [← storedValue q c ((List.range o.n).foldl (fun e t => e + part t) o.values) size cb8 last]
  | 1 =>
    let lo ← expWord c (d 0) i
    let hi ← expWord c (d 0) (i + 1)
    let vs ← (List.range' lo.1 (hi.1 - lo.1)).mapM fun p => do
      let col ← expWord c (d 1) p
      if ext (o.letters.getD 1 0) ≤ col.1 then throw (.fail 1 col.2)
      if col.1 = j then return [← storedValue q c (at1 p) size false 0] else return []
    return vs.flatten
  | 2 =>
    let b := 2 ^ o.block
    let w := (d 1).toNat
    let vs ← (List.range w).mapM fun k => do
      let v ← expWord c (d 0) (i / b * w + k)
      if v.1 ≠ 0xFFFFFFFF ∧ v.1 = j / b then
        return [← storedValue q c (at1 ((i / b * w + k) * (b * b) + i % b * b + j % b)) size false 0]
      else return []
    return vs.flatten
  | _ =>
    let vs ← (List.range (d 2).toNat).mapM fun p => do
      let r ← expWord c (d 0) p
      if ext (o.letters.getD 0 0) ≤ r.1 then throw (.fail 1 r.2)
      let col ← expWord c (d 1) p
      if ext (o.letters.getD 1 0) ≤ col.1 then throw (.fail 1 col.2)
      if r.1 = i ∧ col.1 = j then return [← storedValue q c (at1 p) size false 0] else return []
    return vs.flatten

/-- The n-th assignment of some letters, in ascending lexicographic order, the last of them fastest. -/
def assignment (ext : Nat → Nat) : List Nat → Nat → List (Nat × Nat)
  | [], _ => []
  | l :: r, n =>
    let k := (r.map ext).prod
    (l, if k = 0 then 0 else n / k % ext l) :: assignment ext r n
/-- The sum of R214 over one slice, from the first product not yet summed. RP is row0 plus the whole rows of the output that are summed (DESIGN
CHOICE, log entry 62: R195 lets its progress change RP, and does not say to what). -/
def runContract (q : QuadKey) (pos : Nat) (c : MatCmd) : Pipe Unit := do
  let w := fun (i : Nat) => c.data.getD i 0
  match blockTypes w with
  | none => pure ()
  | some t =>
    let a := operandAt w 6
    let b := operandAt w 14
    let row := w 5 % 16
    let col := w 5 / 16 % 16
    let row0 := w 5 / 2 ^ 8 % 256
    let ext := extentOf w
    let inner := (List.range 8).filter fun l => (a.letters.contains l || b.letters.contains l) && l != row && l != col
    let per := (inner.map ext).prod
    let cols := min 64 (ext col - 64 * pos)
    let total := ext row * cols * per
    modify fun s => s.setRp q pos (row0 + c.start / per / cols)
    pipeFrom (fun n => do
      let r := n / per / cols
      let k := 64 * pos + n / per % cols
      let vs := (row, r) :: (col, k) :: assignment ext inner (n % per)
      let val := fun (l : Nat) => lookupD 0 l vs
      let ga := storedValues q c a t.aSize false ext val
      let gb := storedValues q c b t.bSize t.cb8 ext val
      let fl ← (if row = col ∧ r ≠ k then pure 0 else do
        let p ← (if b.format ≠ 0 then do
            let bs ← gb
            let as ← (if bs.isEmpty then pure [] else ga)
            pure (as, bs)
          else do
            let as ← ga
            let bs ← (if as.isEmpty then pure [] else gb)
            pure (as, bs))
        let s ← get
        let bank := c.slot.d.toNat % 2
        let add := fun (x : Word × Flags5) (y : Int × Int) =>
          let z := accumulate t x.1 y.1.toNat y.2
          (z.1, x.2 ||| z.2)
        let z := (p.1.flatMap fun x => p.2.map fun y => (x, y)).foldl add (s.accGet q bank (row0 + r) pos (k % 64), (0 : Flags5))
        set (s.accPut q bank (row0 + r) pos (k % 64) z.1)
        pure z.2)
      modify fun s => s.setRp q pos (row0 + (n + 1) / per / cols)
      mark q pos (n + 1) fl) (total - c.start) c.start

/-- The expander reads the block once, for all its slices, and for each of their threads. A block that is misaligned or on no path of 0 to 3 ends
every slice with ACCESS at its address (DESIGN CHOICE, log entry 62: R212 gives no fault for it). -/
def readBlock (q : QuadKey) (cs : List (Nat × MatCmd)) (c : MatCmd) : Pipe Unit := do
  if c.a.toNat % 8 ≠ 0 then throw (.fail 1 c.a)
  let each ← cs.mapM fun p => expRead p.2 c.a 176
  let bs := each.headD []
  let ws := (List.range 22).map fun i => leNat (sliceBytes bs (8 * i) 8)
  match blockError (fun i => ws.getD i 0) with
  | some k => throw (.fail 1 (c.a + BitVec.ofNat 64 (8 * k)))
  | none => modify fun s => cs.foldl (fun s p => s.modCmd q p.1 fun y => { y with data := ws }) s
/-- A read without a lease ends the threads of all four slices, those whose slice is done with them. -/
def State.leaseAll (s : State) (q : QuadKey) (cs : List (Nat × MatCmd)) : State :=
  let s := cs.foldl (fun s p => s.modCmd q p.1 fun c => if c.op = 0x1AD ∧ c.phase = 1 then { c with phase := 3, status := 1 } else c) s
  let fin := fun (s : State) (m : HartId × Nat) => match s.hart? m.1 with
    | some x => if x.since = m.2 ∧ x.phase ≠ .ending then s.endThread m.1 LEASE 0 else s
    | none => s
  (match cs with
    | (_, c) :: _ => c.mates
    | [] => []).foldl fin s
/-- Runs the slices in turn. -/
def State.runContracts (s : State) (q : QuadKey) (all : List (Nat × MatCmd)) : List Nat → State
  | [] => s
  | p :: r => match s.headCmd q p with
    | none => s.runContracts q all r
    | some c =>
      let x := (runContract q p c).run s
      match x.1 with
      | .error .lease => x.2.leaseAll q all
      | e => (x.2.settle q p e).runContracts q all r
/-- R211. The contraction expander reads and checks the parameter block and performs the sum; a fault of its own raises FIRMWARE-FAULT. -/
def execContractionExpand (s : State) : Out :=
  let q := s.ev.site
  let cs := (s.heads q).filter fun p => p.2.op == 0x1AD && p.2.phase == 1
  match cs with
  | [] => .next s
  | p :: _ =>
    if s.ev.flag then
      let s := (s.event (dieOfQuad q) 0x32 (s.hart (.expander q)).pc).modHart (.expander q) fun x => { x with phase := .halted }
      .next (cs.foldl (fun s o => s.modCmd q o.1 fun c => { c with phase := 3, status := 1 }) s)
    else
      let r := (if p.2.data.isEmpty then readBlock q cs p.2 else pure () : Pipe Unit).run s
      match r.1 with
      | .ok _ => .next (r.2.runContracts q cs (cs.map (·.1)))
      | .error .lease => .next (r.2.leaseAll q cs)
      | e => .next (cs.foldl (fun s o => s.settle q o.1 e) r.2)

end Sys2Proof.Machine
end

