-- ==== Sys2Proof/Machine/Control.lean ====
section
/-! DEFINITION. Branches, jumps, calls, loops, the align hint, traps and their return, idempotent regions and halt
(06_scalar_instructions R104 to R112, 09_traps_contexts R156, R157, 11_memory_instructions R192). -/

namespace Sys2Proof.Machine

/-- A direct transfer: the scanner has checked a target in the same code page, any other is checked when its line is fetched (03 R40). -/
def checkDirect (tgt : Word) : M Unit := do
  let x ← hartM
  if x.pc.toNat / 2 ^ 16 = tgt.toNat / 2 ^ 16 then pure () else checkTarget tgt tgt

/-- A conditional branch, R104. -/
def branch (op : Nat) (cond : Int → Int → Bool) (s : State) : Out :=
  runM op (do
    useClass .base
    let f ← ir
    names [f.a, f.b] []
    let a ← readReg f.a
    let b ← readReg f.b
    let x ← hartM
    if cond (intVal f.ty.toNat a) (intVal f.ty.toNat b) then do
      let t := target x.pc f.imm
      checkDirect t
      retireTo t
    else retire) s

/-- R104. `beq`. -/
def execBeq (s : State) : Out := branch 0x060 (fun a b => decide (a = b)) s
/-- R104. `bne`. -/
def execBne (s : State) : Out := branch 0x061 (fun a b => decide (a ≠ b)) s
/-- R104. `blt`. -/
def execBlt (s : State) : Out := branch 0x062 (fun a b => decide (a < b)) s
/-- R104. `bge`. -/
def execBge (s : State) : Out := branch 0x063 (fun a b => decide (b ≤ a)) s

/-- R105. `jmp`. -/
def execJmp (s : State) : Out :=
  runM 0x064 (do
    useClass .base
    let f ← ir
    let x ← hartM
    let t := target x.pc f.imm
    checkDirect t
    retireTo t) s

/-- R105. `jmpr`. -/
def execJmpr (s : State) : Out :=
  runM 0x065 (do
    useClass .base
    let f ← ir
    names [f.a] []
    let t ← readReg f.a
    checkTarget t t
    retireTo t) s

/-- The slide and the frame pair of a call, R83, R106. -/
def callTo (t : Word) (n : Nat) : M Unit := do
  let x ← hartM
  landPair
  slideUp n
  modH fun y => (y.setX 14 x.wbase).setX 15 (succPc x.pc)
  retireTo t
  modS fun s => s.spillNow s.ir.hart

/-- R106. `call`. -/
def execCall (s : State) : Out :=
  runM 0x066 (do
    useClass .base
    let f ← ir
    drained
    let x ← hartM
    let t := target x.pc f.imm
    checkDirect t
    callTo t (4 * f.misc.toNat)) s

/-- R106. `callr`. -/
def execCallr (s : State) : Out :=
  runM 0x067 (do
    useClass .base
    let f ← ir
    names [f.a] []
    drained
    let t ← readReg f.a
    checkTarget t t
    callTo t (4 * f.misc.toNat)) s

/-- R83, R106. `ret`: the frame base in x14 and the return PC in x15. -/
def execRet (s : State) : Out :=
  runM 0x068 (do
    useClass .base
    drained
    needFrame 3
    let x ← hartM
    let base := x.xreg 14
    let d := (x.wbase - base).toNat
    if !((d = 32 || d = 64 || d = 96) && x.rsbase.toNat ≤ base.toNat) then trapM BADTARGET base
    checkTarget (x.xreg 15) (x.xreg 15)
    landPair
    slideDown (d / 8)
    retireTo (x.xreg 15)) s

/-- `Loop`, R108. -/
def loopTo (n count : Nat) (imm : Nat) : M Unit := do
  let x ← hartM
  let stop := (x.pc &&& ~~~0x3F#64) + BitVec.ofInt 64 (sext imm 24)
  if stop.toNat ≤ x.pc.toNat then trapM BADTARGET stop
  modH fun y => y.setLoop n fun _ =>
    { start := succPc x.pc, stop := stop, reload := BitVec.ofNat 24 count, count := BitVec.ofNat 24 count }
  if count = 0 then retireTo (succPc stop) else retire

/-- R108. `loop` with an immediate count. -/
def execLoopImm (s : State) : Out :=
  runM 0x069 (do
    useClass .base
    let f ← ir
    loopTo f.d.toNat (f.imm.toNat / 2 ^ 24) f.imm.toNat) s

/-- R108. `loop` with a count from a register. -/
def execLoopReg (s : State) : Out :=
  runM 0x06A (do
    useClass .base
    let f ← ir
    names [f.a] []
    let a ← readReg f.a
    loopTo f.d.toNat (a.toNat % 2 ^ 24) f.imm.toNat) s

/-- R111. `align`: holds the thread until its fellows have come or its time is out; the hold is past the instruction. -/
def execAlign (s : State) : Out :=
  runM 0x06B (do
    useClass .align
    let f ← ir
    let x ← hartM
    let p := x.pc
    retire
    if f.imm.toNat % 2 ^ 16 = 0 then pure ()
    else do
      let c ← myCore
      let q := quadOfCore c
      let st ← get
      if st.alignMet c x.origin.launch p then
        modS fun s => s.alignRelease q x.origin.launch p
      else do
        let mark := (posOfCore c, p, x.origin.launch)
        modS fun s => s.modQuad q fun y => { y with aligned := if y.aligned.contains mark then y.aligned else y.aligned ++ [mark] }
        modH fun y => { y with wait := some (.align p), stalled := true }) s

/-- R112. `nop`. -/
def execNop (s : State) : Out :=
  runM 0x06C (do
    useClass .base
    retire) s

/-- R156. `trap`: TRAP ENTRY with the operand, in either mode. -/
def execTrap (s : State) : Out :=
  runM 0x06D (do
    useClass .base
    let f ← ir
    trapM 0x0E (BitVec.ofNat 64 (f.imm.toNat % 2 ^ 16))) s

/-- R157. `xret`. -/
def execXret (s : State) : Out :=
  runM 0x06E (do
    useClass .xret
    let x ← hartM
    if !x.trap.mode then trapM PRIV
    if !x.trap.trapped then illclass
    drained
    countIssue
    trapReturnM) s

/-- R192. `region`. -/
def execRegion (s : State) : Out :=
  runM 0x06F (do
    useClass .regions
    modH fun x => { x with rpc := succPc x.pc, inRegion := true, restarts := 0 }
    retire) s

/-- R192. `regend`. -/
def execRegend (s : State) : Out :=
  runM 0x070 (do
    useClass .regions
    drained
    modH fun x => { x with inRegion := false, restarts := 0 }
    retire) s

/-- R112. `halt`: the hart stops until its next start event. -/
def execHalt (s : State) : Out :=
  runM 0x071 (do
    useClass .halt
    retire
    modH fun x => { x with phase := .halted, outstanding := [], parked := false }) s

end Sys2Proof.Machine
end

