-- ==== Sys2Proof/Machine/ScalarFloat.lean ====
section
/-! DEFINITION. The scalar floating instructions (06_scalar_instructions R99 to R103). -/

namespace Sys2Proof.Machine

/-- A floating result is written with its flags when it returns (R74). -/
def floatRR (op : Nat) (rounds : Bool) (g : Fmt → RMode → FVal → FVal → FRes) (s : State) : Out :=
  runM op (do
    useClass .float
    let f ← ir
    names [f.a, f.b] [f.d]
    let mode ← (if rounds then roundMode f else pure .rne)
    let a ← readReg f.a
    let b ← readReg f.b
    let ty := f.ty.toNat
    let r := g (fmtOf ty) mode (fval ty a) (fval ty b)
    writeReg f.d (putFloat r) r.flags
    retire) s
/-- A floating instruction on the bits of its operands. -/
def floatBits (op : Nat) (g : Fmt → Nat → Nat → FRes) (s : State) : Out :=
  runM op (do
    useClass .float
    let f ← ir
    names [f.a, f.b] [f.d]
    let a ← readReg f.a
    let b ← readReg f.b
    let m := fmtOf f.ty.toNat
    let r := g m (a.toNat % 2 ^ m.width) (b.toNat % 2 ^ m.width)
    writeReg f.d (putFloat r) r.flags
    retire) s
/-- A floating comparison. -/
def floatCmp (op : Nat) (g : FVal → FVal → Bool × Flags5) (s : State) : Out :=
  floatRR op false (fun _ _ a b => { bits := if (g a b).1 then 1 else 0, flags := (g a b).2 }) s
/-- A conversion: its source type is in miscellany bits 5:1 and `.sat` is bit 0 (R103). -/
def convert (op : Nat) (g : Nat → Nat → Bool → RMode → Word → Word × Flags5) (s : State) : Out :=
  runM op (do
    useClass .float
    let f ← ir
    names [f.a] [f.d]
    let mode ← roundMode f
    let a ← readReg f.a
    let r := g f.ty.toNat (f.misc.toNat / 2) (f.misc.getLsbD 0) mode a
    writeReg f.d r.1 r.2
    retire) s
/-- The bits below the sign of a format. -/
def magBits (m : Fmt) (n : Nat) : Nat := n % 2 ^ (m.width - 1)

/-- R100. `fadd`. -/
def execFadd (s : State) : Out := floatRR 0x040 true (fun m mode a b => fAdd m mode a b) s
/-- R100. `fsub`. -/
def execFsub (s : State) : Out := floatRR 0x041 true (fun m mode a b => fAdd m mode a b.negate) s
/-- R100. `fmul`. -/
def execFmul (s : State) : Out := floatRR 0x042 true (fun m mode a b => fMul m mode a b) s
/-- R100. `fdiv`. -/
def execFdiv (s : State) : Out := floatRR 0x043 true (fun m mode a b => fDiv m mode a b) s
/-- R100. `fsqrt`; field b is zero and is not read as an operand. -/
def execFsqrt (s : State) : Out :=
  runM 0x044 (do
    useClass .float
    let f ← ir
    names [f.a] [f.d]
    let mode ← roundMode f
    let a ← readReg f.a
    let r := fSqrt (fmtOf f.ty.toNat) mode (fval f.ty.toNat a)
    writeReg f.d (putFloat r) r.flags
    retire) s
/-- R100. `fma`, with a single rounding. -/
def execFma (s : State) : Out :=
  runM 0x045 (do
    useClass .float
    let f ← ir
    names [f.a, f.b, f.c] [f.d]
    let mode ← roundMode f
    let a ← readReg f.a
    let b ← readReg f.b
    let c ← readReg f.c
    let ty := f.ty.toNat
    let r := fFma (fmtOf ty) mode (fval ty a) (fval ty b) (fval ty c)
    writeReg f.d (putFloat r) r.flags
    retire) s
/-- R101. `fmin`. -/
def execFmin (s : State) : Out := floatBits 0x046 (fun m a b => fPick m false a b) s
/-- R101. `fmax`. -/
def execFmax (s : State) : Out := floatBits 0x047 (fun m a b => fPick m true a b) s
/-- A one-operand instruction on bits. -/
def floatOne (op : Nat) (g : Fmt → Nat → Nat) (s : State) : Out :=
  runM op (do
    useClass .float
    let f ← ir
    names [f.a] [f.d]
    let a ← readReg f.a
    let m := fmtOf f.ty.toNat
    writeReg f.d (BitVec.ofNat 64 (g m (a.toNat % 2 ^ m.width)))
    retire) s
/-- R101. `fabs`. -/
def execFabs (s : State) : Out := floatOne 0x048 (fun m a => magBits m a) s
/-- R101. `fneg`. -/
def execFneg (s : State) : Out := floatOne 0x049 (fun m a => magBits m a + m.signBit (!(m.signOf a))) s
/-- R101. `fsgnj`. -/
def execFsgnj (s : State) : Out := floatBits 0x04A (fun m a b => { bits := magBits m a + m.signBit (m.signOf b) }) s
/-- R102. `fcmpeq`. -/
def execFcmpeq (s : State) : Out := floatCmp 0x04B fCmpEq s
/-- R102. `fcmplt`. -/
def execFcmplt (s : State) : Out := floatCmp 0x04C fCmpLt s
/-- R102. `fcmple`. -/
def execFcmple (s : State) : Out := floatCmp 0x04D fCmpLe s
/-- R102. `fclass`. -/
def execFclass (s : State) : Out := floatOne 0x04E fClass s
/-- R103. `fcvt`. -/
def execFcvt (s : State) : Out :=
  convert 0x04F (fun dst src satBit mode a => let r := fConvert (fmtOf dst) satBit mode (fval src a); (putFloat r, r.flags)) s
/-- R103. `fcvti`. -/
def execFcvti (s : State) : Out :=
  convert 0x050 (fun dst src _ mode a => let r := floatToInt dst mode (fval src a); (putInt dst r.1, r.2)) s
/-- R103. `icvtf`. -/
def execIcvtf (s : State) : Out :=
  convert 0x051 (fun dst src satBit mode a => let r := intToFloat (fmtOf dst) satBit mode (intVal src a); (putFloat r, r.flags)) s

end Sys2Proof.Machine
end

