-- ==== Sys2Proof/Machine/ScalarInt.lean ====
section
/-! DEFINITION. The scalar integer instructions, register forms (06_scalar_instructions R92 to R98). -/

namespace Sys2Proof.Machine

/-- A two-operand register form: both sources are read before d is written (R92). -/
def aluRR (op : Nat) (g : Nat → Int → Int → Int) (s : State) : Out :=
  runM op (do
    useClass .base
    let f ← ir
    names [f.a, f.b] [f.d]
    let a ← readReg f.a
    let b ← readReg f.b
    let ty := f.ty.toNat
    writeAlu op f.d (putInt ty (g ty (intVal ty a) (intVal ty b)))
    retire) s

/-- A one-operand register form. -/
def aluR (op : Nat) (g : Nat → Int → Int) (s : State) : Out :=
  runM op (do
    useClass .base
    let f ← ir
    names [f.a] [f.d]
    let a ← readReg f.a
    let ty := f.ty.toNat
    writeAlu op f.d (putInt ty (g ty (intVal ty a)))
    retire) s

/-- A three-operand register form. -/
def aluRRR (op : Nat) (g : Nat → Int → Int → Int → Int) (s : State) : Out :=
  runM op (do
    useClass .base
    let f ← ir
    names [f.a, f.b, f.c] [f.d]
    let a ← readReg f.a
    let b ← readReg f.b
    let c ← readReg f.c
    let ty := f.ty.toNat
    writeAlu op f.d (putInt ty (g ty (intVal ty a) (intVal ty b) (intVal ty c)))
    retire) s

/-- The position and length of a bit field in a field source, R98. -/
def fieldPos (v : Nat) : Nat := v % 64
def fieldLen (v : Nat) : Nat := v / 256 % 64 + 1
/-- `bext`: signed for `.i64`. -/
def bextOf (ty : Nat) (a : Word) (p n : Nat) : Word :=
  if ty = 4 then BitVec.ofInt 64 (sext (bitField a p n) n) else BitVec.ofNat 64 (bitField a p n)
/-- `bins`. -/
def binsOf (d a : Word) (p n : Nat) : Word :=
  let m := BitVec.ofNat 64 ((2 ^ n - 1) * 2 ^ p)
  (d &&& ~~~m) ||| ((a <<< p) &&& m)

/-- R93. `add`, register form. -/
def execAdd (s : State) : Out := aluRR 0x000 (fun _ a b => a + b) s
/-- R93. `sub`, register form. -/
def execSub (s : State) : Out := aluRR 0x001 (fun _ a b => a - b) s
/-- R93. `mul`, register form. -/
def execMul (s : State) : Out := aluRR 0x002 (fun _ a b => a * b) s
/-- R93. `mulh`, register form. -/
def execMulh (s : State) : Out := aluRR 0x003 (fun ty a b => intMulh ty a b) s
/-- R94. `div`, register form. -/
def execDiv (s : State) : Out := aluRR 0x004 (fun ty a b => intDiv ty a b) s
/-- R94. `rem`, register form. -/
def execRem (s : State) : Out := aluRR 0x005 (fun _ a b => intRem a b) s
/-- R93. `and`, register form. -/
def execAnd (s : State) : Out := aluRR 0x006 (fun ty a b => intAnd ty a b) s
/-- R93. `or`, register form. -/
def execOr (s : State) : Out := aluRR 0x007 (fun ty a b => intOr ty a b) s
/-- R93. `xor`, register form. -/
def execXor (s : State) : Out := aluRR 0x008 (fun ty a b => intXor ty a b) s
/-- R93. `andn`, register form. -/
def execAndn (s : State) : Out := aluRR 0x009 (fun ty a b => intAndn ty a b) s
/-- R95. `shl`, register form. -/
def execShl (s : State) : Out := aluRR 0x00A (fun ty a b => intShl ty a b) s
/-- R95. `shr`, register form. -/
def execShr (s : State) : Out := aluRR 0x00B (fun ty a b => intShr ty a b) s
/-- R95. `sar`, register form. -/
def execSar (s : State) : Out := aluRR 0x00C (fun ty a b => intSar ty a b) s
/-- R95. `rol`, register form. -/
def execRol (s : State) : Out := aluRR 0x00D (fun ty a b => intRol ty a b) s
/-- R93. `min`, register form. -/
def execMin (s : State) : Out := aluRR 0x00E (fun _ a b => min a b) s
/-- R93. `max`, register form. -/
def execMax (s : State) : Out := aluRR 0x00F (fun _ a b => max a b) s
/-- R93. `addsat`, register form. -/
def execAddsat (s : State) : Out := aluRR 0x010 (fun ty a b => sat ty (a + b)) s
/-- R93. `subsat`, register form. -/
def execSubsat (s : State) : Out := aluRR 0x011 (fun ty a b => sat ty (a - b)) s
/-- R93. `slt`, register form. -/
def execSlt (s : State) : Out := aluRR 0x012 (fun _ a b => if a < b then 1 else 0) s
/-- R93. `seq`, register form. -/
def execSeq (s : State) : Out := aluRR 0x013 (fun _ a b => if a = b then 1 else 0) s
/-- R97. `sel`, register form. -/
def execSel (s : State) : Out := aluRRR 0x014 (fun _ a b c => if a ≠ 0 then b else c) s
/-- R97. `madd`, register form. -/
def execMadd (s : State) : Out := aluRRR 0x015 (fun _ a b c => a * b + c) s
/-- R98. `bext`, register form. -/
def execBext (s : State) : Out :=
  runM 0x016 (do
    useClass .base
    let f ← ir
    names [f.a, f.b] [f.d]
    let a ← readReg f.a
    let b ← readReg f.b
    writeAlu 0x016 f.d (bextOf f.ty.toNat a (fieldPos b.toNat) (fieldLen b.toNat))
    retire) s
/-- R98. `bins`, register form; it reads d as well. -/
def execBins (s : State) : Out :=
  runM 0x017 (do
    useClass .base
    let f ← ir
    names [f.a, f.b, f.d] [f.d]
    let a ← readReg f.a
    let b ← readReg f.b
    let d ← readReg f.d
    writeAlu 0x017 f.d (binsOf d a (fieldPos b.toNat) (fieldLen b.toNat))
    retire) s
/-- R93. `mov`, register form. -/
def execMov (s : State) : Out := aluR 0x018 (fun _ a => a) s
/-- R96. `clz`. -/
def execClz (s : State) : Out := aluR 0x019 (fun ty a => (leadingZeros (typeWidth ty) (bitsOf ty a) : Int)) s
/-- R96. `ctz`. -/
def execCtz (s : State) : Out := aluR 0x01A (fun ty a => (trailingZeros (typeWidth ty) (bitsOf ty a) : Int)) s
/-- R96. `popc`. -/
def execPopc (s : State) : Out := aluR 0x01B (fun ty a => (onesCount (typeWidth ty) (bitsOf ty a) : Int)) s
/-- R93. `bswap`. -/
def execBswap (s : State) : Out := aluR 0x01C (fun ty a => (byteReverse (typeWidth ty / 8) (bitsOf ty a) : Int)) s
/-- R93. `abs`; the minimum of the type gives itself. -/
def execAbs (s : State) : Out := aluR 0x01D (fun _ a => (a.natAbs : Int)) s

end Sys2Proof.Machine
end

