-- ==== Sys2Proof/Machine/ScalarImm.lean ====
section
/-! DEFINITION. The scalar integer instructions, immediate forms (06_scalar_instructions R92 to R98). -/

namespace Sys2Proof.Machine

/-- A two-operand immediate form: B is the immediate wrapped to the type (R92). -/
def aluRI (op : Nat) (g : Nat → Int → Int → Int) (s : State) : Out :=
  runM op (do
    useClass .base
    let f ← ir
    names [f.a] [f.d]
    let a ← readReg f.a
    let ty := f.ty.toNat
    writeAlu op f.d (putInt ty (g ty (intVal ty a) (immInt f)))
    retire) s

/-- The two 24-bit parts of an immediate, sign-extended, R97. -/
def immHigh (f : Slot) : Int := sext (f.imm.toNat / 2 ^ 24) 24
def immLow (f : Slot) : Int := sext f.imm.toNat 24

/-- R93. `add`, immediate form. -/
def execAddImm (s : State) : Out := aluRI 0x020 (fun _ a b => a + b) s
/-- R93. `sub`, immediate form. -/
def execSubImm (s : State) : Out := aluRI 0x021 (fun _ a b => a - b) s
/-- R93. `mul`, immediate form. -/
def execMulImm (s : State) : Out := aluRI 0x022 (fun _ a b => a * b) s
/-- R93. `mulh`, immediate form. -/
def execMulhImm (s : State) : Out := aluRI 0x023 (fun ty a b => intMulh ty a b) s
/-- R94. `div`, immediate form. -/
def execDivImm (s : State) : Out := aluRI 0x024 (fun ty a b => intDiv ty a b) s
/-- R94. `rem`, immediate form. -/
def execRemImm (s : State) : Out := aluRI 0x025 (fun _ a b => intRem a b) s
/-- R93. `and`, immediate form. -/
def execAndImm (s : State) : Out := aluRI 0x026 (fun ty a b => intAnd ty a b) s
/-- R93. `or`, immediate form. -/
def execOrImm (s : State) : Out := aluRI 0x027 (fun ty a b => intOr ty a b) s
/-- R93. `xor`, immediate form. -/
def execXorImm (s : State) : Out := aluRI 0x028 (fun ty a b => intXor ty a b) s
/-- R93. `andn`, immediate form. -/
def execAndnImm (s : State) : Out := aluRI 0x029 (fun ty a b => intAndn ty a b) s
/-- R95. `shl`, immediate form. -/
def execShlImm (s : State) : Out := aluRI 0x02A (fun ty a b => intShl ty a b) s
/-- R95. `shr`, immediate form. -/
def execShrImm (s : State) : Out := aluRI 0x02B (fun ty a b => intShr ty a b) s
/-- R95. `sar`, immediate form. -/
def execSarImm (s : State) : Out := aluRI 0x02C (fun ty a b => intSar ty a b) s
/-- R95. `rol`, immediate form. -/
def execRolImm (s : State) : Out := aluRI 0x02D (fun ty a b => intRol ty a b) s
/-- R93. `min`, immediate form. -/
def execMinImm (s : State) : Out := aluRI 0x02E (fun _ a b => min a b) s
/-- R93. `max`, immediate form. -/
def execMaxImm (s : State) : Out := aluRI 0x02F (fun _ a b => max a b) s
/-- R93. `addsat`, immediate form. -/
def execAddsatImm (s : State) : Out := aluRI 0x030 (fun ty a b => sat ty (a + b)) s
/-- R93. `subsat`, immediate form. -/
def execSubsatImm (s : State) : Out := aluRI 0x031 (fun ty a b => sat ty (a - b)) s
/-- R93. `slt`, immediate form. -/
def execSltImm (s : State) : Out := aluRI 0x032 (fun _ a b => if a < b then 1 else 0) s
/-- R93. `seq`, immediate form. -/
def execSeqImm (s : State) : Out := aluRI 0x033 (fun _ a b => if a = b then 1 else 0) s
/-- R97. `sel`, immediate form. -/
def execSelImm (s : State) : Out :=
  aluRI 0x034 (fun _ a _ => if a ≠ 0 then immHigh s.ir.slot else immLow s.ir.slot) s
/-- R97. `madd`, immediate form. -/
def execMaddImm (s : State) : Out := aluRI 0x035 (fun _ a _ => a * immHigh s.ir.slot + immLow s.ir.slot) s
/-- R98. `bext`, immediate form. -/
def execBextImm (s : State) : Out :=
  runM 0x036 (do
    useClass .base
    let f ← ir
    names [f.a] [f.d]
    let a ← readReg f.a
    writeAlu 0x036 f.d (bextOf f.ty.toNat a (fieldPos f.imm.toNat) (fieldLen f.imm.toNat))
    retire) s
/-- R98. `bins`, immediate form; it reads d as well. -/
def execBinsImm (s : State) : Out :=
  runM 0x037 (do
    useClass .base
    let f ← ir
    names [f.a, f.d] [f.d]
    let a ← readReg f.a
    let d ← readReg f.d
    writeAlu 0x037 f.d (binsOf d a (fieldPos f.imm.toNat) (fieldLen f.imm.toNat))
    retire) s
/-- R93. `mov`, immediate form. -/
def execMovImm (s : State) : Out :=
  runM 0x038 (do
    useClass .base
    let f ← ir
    names [] [f.d]
    writeAlu 0x038 f.d (putInt f.ty.toNat (immInt f))
    retire) s

end Sys2Proof.Machine
end

