-- ==== Sys2Proof/Machine/VecOps.lean ====
section
/-! DEFINITION. The shared parts of the vector instructions: elements and lanes (07_vector_instructions R117), masking (R118), and a
result computed element by element with its draws and flags in ascending order (R119, R122). -/

namespace Sys2Proof.Machine

/-- Elements of a width in a vector register, R117. -/
def elemCount (w : Nat) : Nat := 1024 / w
def vecElem (w : Nat) (v : VecReg) (i : Nat) : Nat := v.toNat / 2 ^ (w * i) % 2 ^ w
/-- A register from its elements, element 0 first. -/
def packNat (w : Nat) : List Nat → Nat
  | [] => 0
  | x :: r => x % 2 ^ w + 2 ^ w * packNat w r
def packVec (w : Nat) (l : List Nat) : VecReg := BitVec.ofNat 1024 (packNat w l)
/-- The bits of the elements that satisfy p. -/
def elemMask (w : Nat) (p : Nat → Bool) : VecReg := packVec w ((List.range (elemCount w)).map fun i => if p i then 2 ^ w - 1 else 0)

/-- `Active` of an instruction, R118. -/
def activeOf (f : Slot) (w : Nat) : M (Nat → Bool) := do
  if f.misc.getLsbD 3 then do
    let k ← readMask (f.misc.toNat % 8)
    pure fun i => k.getLsbD (w * i / 32)
  else pure fun _ => true

/-- What an instruction does to one element: its type, rounding mode and the elements of a, b and c, to a result and its flags. -/
abbrev ElemFn := Nat → RMode → Nat → Nat → Nat → Nat × Flags5

/-- An integer function of the elements read in the type's signedness. -/
def onInt (h : Nat → Int → Int → Int → Int) : ElemFn :=
  fun ty _ a b c =>
    let v := fun (n : Nat) => intVal ty (BitVec.ofNat 64 n)
    (bitsOf ty (h ty (v a) (v b) (v c)), 0)
/-- A floating function of the elements. -/
def onFloat (h : Fmt → RMode → FVal → FVal → FVal → FRes) : ElemFn :=
  fun ty mode a b c =>
    let m := fmtOf ty
    let r := h m mode (m.read a) (m.read b) (m.read c)
    (r.bits, r.flags)
/-- A floating function of the bits. -/
def onBits (h : Fmt → Nat → Nat → FRes) : ElemFn :=
  fun ty _ a b _ => let r := h (fmtOf ty) a b; (r.bits, r.flags)
/-- One for the integer types, one for the floating types. -/
def byType (i f : ElemFn) : ElemFn := fun ty => if isIntType ty then i ty else f ty

/-- Whether a hart may use the vector engine; the thread's vector part counts as used. -/
def vectorStart : M Slot := do
  useClass .vector
  useVector
  ir
/-- The element that an immediate form gives, R120. -/
def immElem (f : Slot) : Nat :=
  let ty := f.ty.toNat
  if isIntType ty then bitsOf ty (immInt f) else if ty = 9 then f.imm.toNat * 2 ^ 16 else f.imm.toNat % 2 ^ typeWidth ty

/-- Where B comes from, R120. -/
inductive BForm where
  | vector | broadcast | immediate
  deriving DecidableEq, Repr
/-- The elements of B. -/
def elemsB (form : BForm) (f : Slot) : M (Nat → Nat) := do
  let w := typeWidth f.ty.toNat
  match form with
  | .vector => do let v ← readVec f.b; pure (vecElem w v)
  | .broadcast => do
    names [f.b] []
    let b ← readReg f.b
    pure fun _ => b.toNat % 2 ^ w
  | .immediate => pure fun _ => immElem f

/-- The draws of a rounding instruction: one for each active element under `.sr` in a floating type (R122; DEDUCED, log entry 56: an
integer element is not rounded, so it takes no draw). -/
def elemDraws (f : Slot) (rounds : Bool) (acts : List Nat) : M (Nat → RMode) := do
  if !rounds then pure fun _ => .rne
  else do
    let c ← roundCode f
    if c = 4 && !(isIntType f.ty.toNat) then do
      let us ← draws 0x01 acts.length
      pure fun i => .sr ((us.getD (acts.idxOf i) 0).toNat / 2 ^ 32)
    else pure fun _ => modeOf c 0
/-- The flags of a list of results. -/
def orAll (l : List (Nat × Flags5)) : Flags5 := l.foldl (fun n p => n ||| p.2) 0
/-- A register with the elements that satisfy p replaced. -/
def mergeElems (old : VecReg) (w : Nat) (p : Nat → Bool) (val : Nat → Nat) : VecReg :=
  (old &&& ~~~(elemMask w p)) ||| (packVec w ((List.range (elemCount w)).map val) &&& elemMask w p)
/-- Writes the elements that satisfy p; the others it reads in d at issue (R118). -/
def putElems (f : Slot) (w : Nat) (p : Nat → Bool) (val : Nat → Nat) (flags : Flags5) (poison : Option Word := none) : M Unit := do
  let old ← readVec f.d
  result [.vec f.d.toNat (mergeElems old w p val) (BitVec.allOnes 1024)] flags poison
/-- Writes a mask register. -/
def putMask (f : Slot) (v : BitVec 32) (flags : Flags5) : M Unit := do
  needFrame 40
  result [.msk (f.d.toNat % 8) v 0xFFFFFFFF] flags

/-- An element-wise instruction, R121, R122. -/
def vecInstr (op : Nat) (form : BForm) (rounds : Bool) (cUsed : Bool) (g : ElemFn) (s : State) : Out :=
  runM op (do
    let f ← vectorStart
    let ty := f.ty.toNat
    let w := typeWidth ty
    let b ← elemsB form f
    let va ← readVec f.a
    let vc ← (if cUsed then readVec f.c else pure 0)
    let act ← activeOf f w
    let acts := (List.range (elemCount w)).filter act
    let mode ← elemDraws f rounds acts
    let rs := acts.map fun i => g ty (mode i) (vecElem w va i) (b i) (vecElem w vc i)
    putElems f w act (fun i => (rs.getD (acts.idxOf i) (0, 0)).1) (orAll rs)
    retire) s

/-- A comparison, R123: a mask of the active elements that satisfy it. -/
def vecCompare (op : Nat) (form : BForm) (i : Int → Int → Bool) (h : FVal → FVal → Bool × Flags5) (s : State) : Out :=
  runM op (do
    let f ← vectorStart
    let ty := f.ty.toNat
    let w := typeWidth ty
    let b ← elemsB form f
    let va ← readVec f.a
    let act ← activeOf f w
    let acts := (List.range (elemCount w)).filter act
    let one := fun (k : Nat) =>
      if isIntType ty then (i (intVal ty (BitVec.ofNat 64 (vecElem w va k))) (intVal ty (BitVec.ofNat 64 (b k))), (0 : Flags5))
      else h ((fmtOf ty).read (vecElem w va k)) ((fmtOf ty).read (b k))
    let holds := fun (k : Nat) => act k && (one k).1
    let bits := (List.range 32).foldl (fun n l => if holds (32 * l / w) then n + 2 ^ l else n) 0
    putMask f (BitVec.ofNat 32 bits) (orAll (acts.map fun k => (0, (one k).2)))
    retire) s

/-- `vsel`, R124. -/
def vecSelect (op : Nat) (form : BForm) (s : State) : Out :=
  runM op (do
    let f ← vectorStart
    let w := typeWidth f.ty.toNat
    let b ← elemsB form f
    let va ← readVec f.a
    let act ← activeOf f w
    putElems f w (fun _ => true) (fun i => if act i then vecElem w va i else b i) 0
    retire) s

/-! ### What each element-wise instruction computes, R121 -/

def elAdd : ElemFn := byType (onInt fun _ a b _ => a + b) (onFloat fun m r a b _ => fAdd m r a b)
def elSub : ElemFn := byType (onInt fun _ a b _ => a - b) (onFloat fun m r a b _ => fAdd m r a b.negate)
def elMul : ElemFn := byType (onInt fun _ a b _ => a * b) (onFloat fun m r a b _ => fMul m r a b)
def elMulh : ElemFn := onInt fun ty a b _ => intMulh ty a b
def elDiv : ElemFn := byType (onInt fun ty a b _ => intDiv ty a b) (onFloat fun m r a b _ => fDiv m r a b)
def elFma : ElemFn := byType (onInt fun _ a b c => a * b + c) (onFloat fun m r a b c => fFma m r a b c)
def elMin : ElemFn := byType (onInt fun _ a b _ => min a b) (onBits fun m a b => fPick m false a b)
def elMax : ElemFn := byType (onInt fun _ a b _ => max a b) (onBits fun m a b => fPick m true a b)
def elAddsat : ElemFn := onInt fun ty a b _ => sat ty (a + b)
def elSubsat : ElemFn := onInt fun ty a b _ => sat ty (a - b)
def elAnd : ElemFn := onInt fun ty a b _ => intAnd ty a b
def elOr : ElemFn := onInt fun ty a b _ => intOr ty a b
def elXor : ElemFn := onInt fun ty a b _ => intXor ty a b
def elAndn : ElemFn := onInt fun ty a b _ => intAndn ty a b
def elShl : ElemFn := onInt fun ty a b _ => intShl ty a b
def elShr : ElemFn := onInt fun ty a b _ => intShr ty a b
def elSar : ElemFn := onInt fun ty a b _ => intSar ty a b
def elSqrt : ElemFn := onFloat fun m r a _ _ => fSqrt m r a
def elAbs : ElemFn := byType (onInt fun _ a _ _ => (a.natAbs : Int)) (onBits fun m a _ => { bits := a % 2 ^ (m.width - 1) })
def elNeg : ElemFn :=
  byType (onInt fun _ a _ _ => -a) (onBits fun m a _ => { bits := a % 2 ^ (m.width - 1) + m.signBit (!(m.signOf a)) })
def elClass : ElemFn := onBits fun m a _ => { bits := fClass m a }
def elPopc : ElemFn := fun ty _ a _ _ => (onesCount (typeWidth ty) a, 0)
def elClz : ElemFn := fun ty _ a _ _ => (leadingZeros (typeWidth ty) a, 0)

end Sys2Proof.Machine
end

