-- ==== Sys2Proof/Machine/VecElem.lean ====
section
/-! DEFINITION. The element-wise vector instructions in their vector, broadcast and immediate forms (07_vector_instructions R120 to R124). -/

namespace Sys2Proof.Machine

/-- R121. -/
def execVadd (s : State) : Out := vecInstr 0x100 .vector true false elAdd s
/-- R121. -/
def execVsub (s : State) : Out := vecInstr 0x101 .vector true false elSub s
/-- R121. -/
def execVmul (s : State) : Out := vecInstr 0x102 .vector true false elMul s
/-- R121. -/
def execVmulh (s : State) : Out := vecInstr 0x103 .vector false false elMulh s
/-- R121. -/
def execVdiv (s : State) : Out := vecInstr 0x104 .vector true false elDiv s
/-- R121. -/
def execVfma (s : State) : Out := vecInstr 0x105 .vector true true elFma s
/-- R121. -/
def execVmin (s : State) : Out := vecInstr 0x106 .vector false false elMin s
/-- R121. -/
def execVmax (s : State) : Out := vecInstr 0x107 .vector false false elMax s
/-- R121. -/
def execVaddsat (s : State) : Out := vecInstr 0x108 .vector false false elAddsat s
/-- R121. -/
def execVsubsat (s : State) : Out := vecInstr 0x109 .vector false false elSubsat s
/-- R121. -/
def execVand (s : State) : Out := vecInstr 0x10A .vector false false elAnd s
/-- R121. -/
def execVor (s : State) : Out := vecInstr 0x10B .vector false false elOr s
/-- R121. -/
def execVxor (s : State) : Out := vecInstr 0x10C .vector false false elXor s
/-- R121. -/
def execVandn (s : State) : Out := vecInstr 0x10D .vector false false elAndn s
/-- R121. -/
def execVshl (s : State) : Out := vecInstr 0x10E .vector false false elShl s
/-- R121. -/
def execVshr (s : State) : Out := vecInstr 0x10F .vector false false elShr s
/-- R121. -/
def execVsar (s : State) : Out := vecInstr 0x110 .vector false false elSar s
/-- R123. -/
def execVcmpeq (s : State) : Out := vecCompare 0x111 .vector (fun a b => decide (a = b)) fCmpEq s
/-- R123. -/
def execVcmplt (s : State) : Out := vecCompare 0x112 .vector (fun a b => decide (a < b)) fCmpLt s
/-- R123. -/
def execVcmple (s : State) : Out := vecCompare 0x113 .vector (fun a b => decide (a ≤ b)) fCmpLe s
/-- R124. -/
def execVsel (s : State) : Out := vecSelect 0x114 .vector s
/-- R121. -/
def execVaddBcast (s : State) : Out := vecInstr 0x120 .broadcast true false elAdd s
/-- R121. -/
def execVsubBcast (s : State) : Out := vecInstr 0x121 .broadcast true false elSub s
/-- R121. -/
def execVmulBcast (s : State) : Out := vecInstr 0x122 .broadcast true false elMul s
/-- R121. -/
def execVmulhBcast (s : State) : Out := vecInstr 0x123 .broadcast false false elMulh s
/-- R121. -/
def execVdivBcast (s : State) : Out := vecInstr 0x124 .broadcast true false elDiv s
/-- R121. -/
def execVfmaBcast (s : State) : Out := vecInstr 0x125 .broadcast true true elFma s
/-- R121. -/
def execVminBcast (s : State) : Out := vecInstr 0x126 .broadcast false false elMin s
/-- R121. -/
def execVmaxBcast (s : State) : Out := vecInstr 0x127 .broadcast false false elMax s
/-- R121. -/
def execVaddsatBcast (s : State) : Out := vecInstr 0x128 .broadcast false false elAddsat s
/-- R121. -/
def execVsubsatBcast (s : State) : Out := vecInstr 0x129 .broadcast false false elSubsat s
/-- R121. -/
def execVandBcast (s : State) : Out := vecInstr 0x12A .broadcast false false elAnd s
/-- R121. -/
def execVorBcast (s : State) : Out := vecInstr 0x12B .broadcast false false elOr s
/-- R121. -/
def execVxorBcast (s : State) : Out := vecInstr 0x12C .broadcast false false elXor s
/-- R121. -/
def execVandnBcast (s : State) : Out := vecInstr 0x12D .broadcast false false elAndn s
/-- R121. -/
def execVshlBcast (s : State) : Out := vecInstr 0x12E .broadcast false false elShl s
/-- R121. -/
def execVshrBcast (s : State) : Out := vecInstr 0x12F .broadcast false false elShr s
/-- R121. -/
def execVsarBcast (s : State) : Out := vecInstr 0x130 .broadcast false false elSar s
/-- R123. -/
def execVcmpeqBcast (s : State) : Out := vecCompare 0x131 .broadcast (fun a b => decide (a = b)) fCmpEq s
/-- R123. -/
def execVcmpltBcast (s : State) : Out := vecCompare 0x132 .broadcast (fun a b => decide (a < b)) fCmpLt s
/-- R123. -/
def execVcmpleBcast (s : State) : Out := vecCompare 0x133 .broadcast (fun a b => decide (a ≤ b)) fCmpLe s
/-- R124. -/
def execVselBcast (s : State) : Out := vecSelect 0x134 .broadcast s
/-- R121. -/
def execVaddImm (s : State) : Out := vecInstr 0x1C0 .immediate true false elAdd s
/-- R121. -/
def execVsubImm (s : State) : Out := vecInstr 0x1C1 .immediate true false elSub s
/-- R121. -/
def execVmulImm (s : State) : Out := vecInstr 0x1C2 .immediate true false elMul s
/-- R121. -/
def execVmulhImm (s : State) : Out := vecInstr 0x1C3 .immediate false false elMulh s
/-- R121. -/
def execVdivImm (s : State) : Out := vecInstr 0x1C4 .immediate true false elDiv s
/-- R121. -/
def execVfmaImm (s : State) : Out := vecInstr 0x1C5 .immediate true true elFma s
/-- R121. -/
def execVminImm (s : State) : Out := vecInstr 0x1C6 .immediate false false elMin s
/-- R121. -/
def execVmaxImm (s : State) : Out := vecInstr 0x1C7 .immediate false false elMax s
/-- R121. -/
def execVaddsatImm (s : State) : Out := vecInstr 0x1C8 .immediate false false elAddsat s
/-- R121. -/
def execVsubsatImm (s : State) : Out := vecInstr 0x1C9 .immediate false false elSubsat s
/-- R121. -/
def execVandImm (s : State) : Out := vecInstr 0x1CA .immediate false false elAnd s
/-- R121. -/
def execVorImm (s : State) : Out := vecInstr 0x1CB .immediate false false elOr s
/-- R121. -/
def execVxorImm (s : State) : Out := vecInstr 0x1CC .immediate false false elXor s
/-- R121. -/
def execVandnImm (s : State) : Out := vecInstr 0x1CD .immediate false false elAndn s
/-- R121. -/
def execVshlImm (s : State) : Out := vecInstr 0x1CE .immediate false false elShl s
/-- R121. -/
def execVshrImm (s : State) : Out := vecInstr 0x1CF .immediate false false elShr s
/-- R121. -/
def execVsarImm (s : State) : Out := vecInstr 0x1D0 .immediate false false elSar s
/-- R123. -/
def execVcmpeqImm (s : State) : Out := vecCompare 0x1D1 .immediate (fun a b => decide (a = b)) fCmpEq s
/-- R123. -/
def execVcmpltImm (s : State) : Out := vecCompare 0x1D2 .immediate (fun a b => decide (a < b)) fCmpLt s
/-- R123. -/
def execVcmpleImm (s : State) : Out := vecCompare 0x1D3 .immediate (fun a b => decide (a ≤ b)) fCmpLe s
/-- R124. -/
def execVselImm (s : State) : Out := vecSelect 0x1D4 .immediate s

/-- A one-source instruction. -/
def vecUnary (op : Nat) (rounds : Bool) (g : ElemFn) (s : State) : Out :=
  runM op (do
    let f ← vectorStart
    let ty := f.ty.toNat
    let w := typeWidth ty
    let va ← readVec f.a
    let act ← activeOf f w
    let acts := (List.range (elemCount w)).filter act
    let mode ← elemDraws f rounds acts
    let rs := acts.map fun i => g ty (mode i) (vecElem w va i) 0 0
    putElems f w act (fun i => (rs.getD (acts.idxOf i) (0, 0)).1) (orAll rs)
    retire) s
/-- R121. -/
def execVsqrt (s : State) : Out := vecUnary 0x115 true elSqrt s
/-- R121. -/
def execVabs (s : State) : Out := vecUnary 0x116 false elAbs s
/-- R121. -/
def execVneg (s : State) : Out := vecUnary 0x117 false elNeg s
/-- R121. -/
def execVclass (s : State) : Out := vecUnary 0x119 false elClass s
/-- R121. -/
def execVpopc (s : State) : Out := vecUnary 0x11A false elPopc s
/-- R121. -/
def execVclz (s : State) : Out := vecUnary 0x11B false elClz s

end Sys2Proof.Machine
end

