-- ==== Sys2Proof/Machine/VecMem.lean ====
section
/-! DEFINITION. The vector memory instructions (11_memory_instructions R182). -/

namespace Sys2Proof.Machine

/-- Checks 1 to 4 of each active element, in ascending order. -/
def checkElems (path n : Nat) (r w : Bool) : List Word → M Unit
  | [] => pure ()
  | e :: es => do
    checkAccess (some path) e n n r w
    checkElems path n r w es
/-- Loads the elements: their values, and the address of the first poisoned datum. -/
def loadElems (ty : Nat) : List Word → M (List Nat × Option Word)
  | [] => pure ([], none)
  | e :: es => do
    let p ← loadAt e ty
    let q ← loadElems ty es
    pure (p.1.toNat :: q.1, if p.2 then some e else q.2)
/-- One record for a vector access, for its lowest-numbered failing element (R177). -/
def oneRecord (before kind : Nat) : M Unit := do
  modH fun x =>
    let late := (x.accesses.drop before).take 1
    { x with accesses := x.accesses.take before ++ late.map fun (a : Access) => { a with kind := kind } }

/-- A vector load. `addr` gives A(i). -/
def vecLoad (op : Nat) (addr : Slot → M (Nat → Word)) (s : State) : Out :=
  runM op (do
    let f ← vectorStart
    fenceM
    names [f.a] []
    let ty := f.ty.toNat
    let w := typeWidth ty
    let at1 ← addr f
    let act ← activeOf f w
    let acts := (List.range (elemCount w)).filter act
    let es := acts.map at1
    checkElems f.path.toNat (w / 8) true false es
    let before := (← hartM).accesses.length
    let p ← loadElems ty es
    oneRecord before 4
    let val := fun (i : Nat) => if p.2.isSome then 0 else p.1.getD (acts.idxOf i) 0
    putElems f w act val 0 p.2
    retire) s

/-- The cells of the elements of a store to general memory. -/
def elemCells (n : Nat) : List (Word × Nat) → M (List (Word × List Host.Cell))
  | [] => pure []
  | (e, v) :: r => do
    let va := generalVa e
    let pa ← translateM va 1
    unlocked pa
    settled pa n
    askFirst va pa n
    let h ← me
    modS fun s => s.touchPage h pa
    return (e, cellsAt pa (leBytes n v)) :: (← elemCells n r)
/-- A vector store. -/
def vecStore (op : Nat) (addr : Slot → M (Nat → Word)) (s : State) : Out :=
  runM op (do
    let f ← vectorStart
    fenceM
    names [f.a] []
    let w := typeWidth f.ty.toNat
    let n := w / 8
    let at1 ← addr f
    let act ← activeOf f w
    let v ← readVec f.d
    let acts := (List.range (elemCount w)).filter act
    let es := acts.map at1
    checkElems f.path.toNat n false true es
    let vals := acts.map (vecElem w v)
    if f.path.toNat = 3 then do
      es.forM winReach
      let s ← get
      let put := fun (p : State × Option (Word × Nat)) (q : Word × Nat) =>
        let r := p.1.winStoreFor s.ir.hart q.1.toNat n q.2
        (r.1, if r.2 ≠ 0 && p.2.isNone then some (q.1, r.2) else p.2)
      let r := (es.zip vals).foldl put (s, none)
      modS fun _ => r.1
      match r.2 with
      | some p => noteAccess 3 p.1 p.2
      | none => pure ()
    else do
      let gs ← elemCells n (es.zip vals)
      let tag ← freshTag
      if !gs.isEmpty then enterStores f.path.toNat 3 tag (groupLines gs)
    retire) s

/-- B + i·w/8. -/
def addrUnit (f : Slot) : M (Nat → Word) := do
  let b := (← readReg f.a) + immWord f
  pure fun i => b + BitVec.ofNat 64 (i * (typeWidth f.ty.toNat / 8))
/-- B + i·S. -/
def addrStride (f : Slot) : M (Nat → Word) := do
  names [f.b] []
  let b := (← readReg f.a) + immWord f
  let d ← readReg f.b
  pure fun i => b + BitVec.ofNat 64 i * d
/-- B + ZExt(b[i], w), scaled by w/8 under `.sc`. -/
def addrIndex (f : Slot) : M (Nat → Word) := do
  let w := typeWidth f.ty.toNat
  let b := (← readReg f.a) + immWord f
  let v ← readVec f.b
  pure fun i => b + BitVec.ofNat 64 (vecElem w v i * (if f.misc.getLsbD 4 then w / 8 else 1))

/-- R182. -/
def execVld (s : State) : Out := vecLoad 0x140 addrUnit s
/-- R182. -/
def execVst (s : State) : Out := vecStore 0x141 addrUnit s
/-- R182. -/
def execVlds (s : State) : Out := vecLoad 0x142 addrStride s
/-- R182. -/
def execVsts (s : State) : Out := vecStore 0x143 addrStride s
/-- R182. -/
def execVldx (s : State) : Out := vecLoad 0x144 addrIndex s
/-- R182. -/
def execVstx (s : State) : Out := vecStore 0x145 addrIndex s

end Sys2Proof.Machine
end

