-- ==== Sys2Proof/Machine/VecMove.lean ====
section
/-! DEFINITION. Vector conversions, permutes and moves, reductions and scans, CB8 decode, pruning, and the mask instructions
(07_vector_instructions R125 to R133). -/

namespace Sys2Proof.Machine

/-! ### Conversions, R125, R126 -/

/-- `Convert`. -/
def convertElem (dst src : Nat) (satBit : Bool) (mode : RMode) (n : Nat) : Nat × Flags5 :=
  if isIntType dst then
    if isIntType src then
      let v := intVal src (BitVec.ofNat 64 n)
      (bitsOf dst (if satBit then sat dst v else v), 0)
    else let r := floatToInt dst mode ((fmtOf src).read n); (bitsOf dst r.1, r.2)
  else if isIntType src then let r := intToFloat (fmtOf dst) satBit mode (intVal src (BitVec.ofNat 64 n)); (r.bits, r.flags)
  else let r := fConvert (fmtOf dst) satBit mode ((fmtOf src).read n); (r.bits, r.flags)

/-- R126. `vcvt`. -/
def execVcvt (s : State) : Out :=
  runM 0x118 (do
    let f ← vectorStart
    let dst := f.ty.toNat
    let src := f.b.toNat
    let wd := typeWidth dst
    let ws := typeWidth src
    let n := elemCount (max ws wd)
    let p := f.misc.toNat / 16
    let va ← readVec f.a
    let act ← activeOf f (max ws wd)
    let js := (List.range n).filter act
    let c ← roundCode f
    let drawn := c = 4 && !(isIntType dst && isIntType src)
    let us ← (if drawn then draws 0x01 js.length else pure [])
    let mode := fun (j : Nat) => if drawn then RMode.sr ((us.getD (js.idxOf j) 0).toNat / 2 ^ 32) else modeOf c 0
    let si := fun (j : Nat) => if ws < wd then p * n + j else j
    let di := fun (j : Nat) => if wd < ws then p * n + j else j
    let rs := js.map fun j => convertElem dst src (f.imm.getLsbD 0) (mode j) (vecElem ws va (si j))
    let at1 := fun (i : Nat) => js.find? (fun j => di j == i)
    putElems f wd (fun i => (at1 i).isSome) (fun i => match at1 i with
      | some j => (rs.getD (js.idxOf j) (0, 0)).1
      | none => 0) (orAll rs)
    retire) s

/-! ### Moves, R127, R128 -/

/-- A move of elements: D[i] as a function of A, for each active i. -/
def vecMove (op : Nat) (src : Slot → M (Nat → Nat)) (s : State) : Out :=
  runM op (do
    let f ← vectorStart
    let w := typeWidth f.ty.toNat
    let g ← src f
    let act ← activeOf f w
    putElems f w act g 0
    retire) s

/-- R127. `vperm`. -/
def execVperm (s : State) : Out :=
  vecMove 0x146 (fun f => do
    let w := typeWidth f.ty.toNat
    let a ← readVec f.a
    let b ← readVec f.b
    pure fun i => vecElem w a (vecElem w b i % elemCount w)) s
/-- R127. `vbcast`. -/
def execVbcast (s : State) : Out :=
  vecMove 0x147 (fun f => do
    let w := typeWidth f.ty.toNat
    if f.misc.getLsbD 4 then do
      let a ← readVec f.a
      pure fun _ => vecElem w a (f.imm.toNat % 128 % elemCount w)
    else do
      names [f.b] []
      let b ← readReg f.b
      pure fun _ => b.toNat % 2 ^ w) s
/-- R127. `vslide`. -/
def execVslide (s : State) : Out :=
  vecMove 0x148 (fun f => do
    let w := typeWidth f.ty.toNat
    let a ← readVec f.a
    let d := sext f.imm.toNat 48
    pure fun i => let k := (i : Int) + d; if 0 ≤ k ∧ k < elemCount w then vecElem w a k.toNat else 0) s
/-- R127. `vmv`. -/
def execVmv (s : State) : Out :=
  vecMove 0x156 (fun f => do
    let a ← readVec f.a
    pure fun i => vecElem (typeWidth f.ty.toNat) a i) s
/-- A scalar as R57 writes an element. -/
def elemWord (ty n : Nat) : Word := if isIntType ty then putInt ty n else BitVec.ofNat 64 n
/-- R127. `vext`. -/
def execVext (s : State) : Out :=
  runM 0x149 (do
    let f ← vectorStart
    names [] [f.d]
    let ty := f.ty.toNat
    let w := typeWidth ty
    let a ← readVec f.a
    writeReg f.d (elemWord ty (vecElem w a (f.imm.toNat % 128 % elemCount w)))
    retire) s
/-- R127. `vins`. -/
def execVins (s : State) : Out :=
  runM 0x14A (do
    let f ← vectorStart
    names [f.b] []
    let w := typeWidth f.ty.toNat
    let b ← readReg f.b
    let k := f.imm.toNat % 128 % elemCount w
    putElems f w (fun i => i == k) (fun _ => b.toNat % 2 ^ w) 0
    retire) s
/-- R128. `vcompress`. -/
def execVcompress (s : State) : Out :=
  runM 0x154 (do
    let f ← vectorStart
    let w := typeWidth f.ty.toNat
    let a ← readVec f.a
    let act ← activeOf f w
    let acts := (List.range (elemCount w)).filter act
    putElems f w (fun _ => true) (fun i => match acts[i]? with
      | some j => vecElem w a j
      | none => 0) 0
    retire) s
/-- R128. `vexpand`. -/
def execVexpand (s : State) : Out :=
  runM 0x155 (do
    let f ← vectorStart
    let w := typeWidth f.ty.toNat
    let a ← readVec f.a
    let act ← activeOf f w
    let acts := (List.range (elemCount w)).filter act
    putElems f w act (fun i => vecElem w a (acts.idxOf i)) 0
    retire) s

/-! ### Reductions and scans, R129, R130 -/

/-- `Combine`. -/
def combine (g : Nat → Nat → Nat × Flags5) (x y : Option (Nat × Flags5)) : Option (Nat × Flags5) :=
  match x, y with
  | none, y => y
  | x, none => x
  | some a, some b => let r := g a.1 b.1; some (r.1, a.2 ||| b.2 ||| r.2)
def pairUp (g : Nat → Nat → Nat × Flags5) : List (Option (Nat × Flags5)) → List (Option (Nat × Flags5))
  | a :: b :: r => combine g a b :: pairUp g r
  | l => l
/-- The fixed pairwise tree, by its levels. -/
def treeOf (g : Nat → Nat → Nat × Flags5) : Nat → List (Option (Nat × Flags5)) → Option (Nat × Flags5)
  | 0, l => l.headD none
  | k + 1, l => treeOf g k (pairUp g l)
/-- The rounding mode of a reduction: under `.dyn` with FRM 4 it is RNE (R129). -/
def reduceMode (f : Slot) : M RMode := do
  let c ← roundCode f
  pure (if c = 4 then .rne else modeOf c 0)
/-- A reduction. -/
def vecReduce (op : Nat) (rounds : Bool) (g : ElemFn) (s : State) : Out :=
  runM op (do
    let f ← vectorStart
    names [f.b] []
    let ty := f.ty.toNat
    let w := typeWidth ty
    let a ← readVec f.a
    let b ← readReg f.b
    let mode ← (if rounds then reduceMode f else pure .rne)
    let act ← activeOf f w
    let step := fun (x y : Nat) => g ty mode x y 0
    let l := (List.range (elemCount w)).map fun i => if act i then some (vecElem w a i, (0 : Flags5)) else none
    let r := (combine step (some (b.toNat % 2 ^ w, 0)) (treeOf step 7 l)).getD (0, 0)
    putElems f w (fun _ => true) (fun i => if i = 0 then r.1 else 0) r.2
    retire) s
/-- R129. -/
def execVredsum (s : State) : Out := vecReduce 0x14B true elAdd s
/-- R129. -/
def execVredmin (s : State) : Out := vecReduce 0x14C false elMin s
/-- R129. -/
def execVredmax (s : State) : Out := vecReduce 0x14D false elMax s
/-- R129. -/
def execVredand (s : State) : Out := vecReduce 0x14E false elAnd s
/-- R129. -/
def execVredor (s : State) : Out := vecReduce 0x14F false elOr s
/-- R129. -/
def execVredxor (s : State) : Out := vecReduce 0x150 false elXor s

/-- The running sums of R130. -/
def scanSums (g : Nat → Nat → Nat × Flags5) : Nat → List Nat → List (Nat × Flags5)
  | _, [] => []
  | acc, x :: r => let y := g acc x; y :: scanSums g y.1 r
/-- R130. `vscan`. -/
def execVscan (s : State) : Out :=
  runM 0x151 (do
    let f ← vectorStart
    names [f.b] []
    let ty := f.ty.toNat
    let w := typeWidth ty
    let a ← readVec f.a
    let b ← readReg f.b
    let mode ← reduceMode f
    let act ← activeOf f w
    let acts := (List.range (elemCount w)).filter act
    let rs := scanSums (fun x y => elAdd ty mode x y 0) (b.toNat % 2 ^ w) (acts.map (vecElem w a))
    putElems f w act (fun i => (rs.getD (acts.idxOf i) (0, 0)).1) (orAll rs)
    retire) s

/-! ### CB8 and pruning, R131, R132 -/

/-- R131. `vcbdec`. -/
def execVcbdec (s : State) : Out :=
  runM 0x152 (do
    let f ← vectorStart
    let ty := f.ty.toNat
    let w := typeWidth ty
    let a ← readVec f.a
    let act ← activeOf f w
    let s ← get
    let shell := (s.quad (s.quadOf s.ir.hart)).shell
    let p := f.imm.toNat % 8
    let val := fun (i : Nat) =>
      let ix := vecElem 16 a ((if w = 8 then 16 else 8) * p + i / 8)
      let d := cb8Weight ix (Sparse.get 0 shell (ix % 256)).toNat (i % 8)
      if w = 8 then (d % 256).toNat else (roundVal (fmtOf ty) false .rne false (decide (d < 0)) d.natAbs (-1)).bits
    putElems f w act val 0
    retire) s

/-- Whether τ is positive and finite. -/
def tauOk (t : FVal) : Bool :=
  match t with
  | .fin false (_ + 1) _ => true
  | _ => false
/-- One weight under `prune`: its bits and flags. -/
def pruneElem (m : Fmt) (scale : Bool) (tau : Nat) (u a : Nat) : Nat × Flags5 :=
  match m.read tau, m.read a with
  | _, .nan sg => (a, if sg then flagNV else 0)
  | _, .inf _ => (a, 0)
  | .fin _ m2 e2, .fin sg m1 e1 =>
    if !((FVal.fin false m1 e1).lt (.fin false m2 e2)) then (a, 0)
    else
      let e := e1 - e2 + 32
      let g := if 0 ≤ e then m1 * 2 ^ e.toNat / m2 else m1 / (m2 * 2 ^ (-e).toNat)
      if u < g then (if scale then m.signBit sg + tau % 2 ^ (m.width - 1) else a, 0) else (0, 0)
  | _, _ => (a, 0)
/-- R132. `prune`. -/
def execPrune (s : State) : Out :=
  runM 0x153 (do
    let f ← vectorStart
    names [f.b] []
    let ty := f.ty.toNat
    let w := typeWidth ty
    let m := fmtOf ty
    let a ← readVec f.a
    let b ← readReg f.b
    let tau := b.toNat % 2 ^ w
    let act ← activeOf f w
    let acts := (List.range (elemCount w)).filter act
    let us ← draws 0x02 acts.length
    let ok := tauOk (m.read tau)
    let one := fun (i : Nat) =>
      if ok then pruneElem m (f.misc.getLsbD 4) tau ((us.getD (acts.idxOf i) 0).toNat / 2 ^ 32) (vecElem w a i) else (vecElem w a i, 0)
    let rs := acts.map one
    putElems f w act (fun i => (rs.getD (acts.idxOf i) (0, 0)).1) (if ok then orAll rs else flagNV)
    retire) s

/-! ### Masks, R133 -/

/-- A mask instruction of two masks. -/
def maskInstr (op : Nat) (g : BitVec 32 → BitVec 32 → BitVec 32) (s : State) : Out :=
  runM op (do
    let f ← vectorStart
    let a ← readMask f.a.toNat
    let b ← readMask f.b.toNat
    putMask f (g a b) 0
    retire) s
/-- R133. -/
def execKand (s : State) : Out := maskInstr 0x160 (fun a b => a &&& b) s
/-- R133. -/
def execKor (s : State) : Out := maskInstr 0x161 (fun a b => a ||| b) s
/-- R133. -/
def execKxor (s : State) : Out := maskInstr 0x162 (fun a b => a ^^^ b) s
/-- R133. -/
def execKnot (s : State) : Out := maskInstr 0x163 (fun a _ => ~~~a) s
/-- R133. -/
def execKmov (s : State) : Out := maskInstr 0x164 (fun a _ => a) s
/-- A scalar from a mask. -/
def maskToScalar (op : Nat) (g : Nat → Nat) (s : State) : Out :=
  runM op (do
    let f ← vectorStart
    names [] [f.d]
    let a ← readMask f.a.toNat
    writeReg f.d (BitVec.ofNat 64 (g a.toNat))
    retire) s
/-- R133. -/
def execKpop (s : State) : Out := maskToScalar 0x165 (onesCount 32) s
/-- R133. -/
def execKfirst (s : State) : Out := maskToScalar 0x166 (trailingZeros 32) s
/-- R133. -/
def execKget (s : State) : Out := maskToScalar 0x168 id s
/-- R133. `kset`. -/
def execKset (s : State) : Out :=
  runM 0x167 (do
    let f ← vectorStart
    if f.misc.getLsbD 4 then putMask f (f.imm.setWidth 32) 0
    else do
      names [f.a] []
      putMask f ((← readReg f.a).setWidth 32) 0
    retire) s

end Sys2Proof.Machine
end

