-- ==== Sys2Proof/Machine/Dispatch.lean ====
section
/-! DEFINITION. One arm per operation and event: the meaning of each. The operands are the instruction register's (`ir`), an event's
are its arguments (`ev`). -/

namespace Sys2Proof.Machine

def exec (i : Instr) (s : State) : Host.Outcome State Fault Refusal :=
  match i with
  | .add => Sys2Proof.Machine.execAdd s
  | .sub => Sys2Proof.Machine.execSub s
  | .mul => Sys2Proof.Machine.execMul s
  | .mulh => Sys2Proof.Machine.execMulh s
  | .div => Sys2Proof.Machine.execDiv s
  | .rem => Sys2Proof.Machine.execRem s
  | .and => Sys2Proof.Machine.execAnd s
  | .or => Sys2Proof.Machine.execOr s
  | .xor => Sys2Proof.Machine.execXor s
  | .andn => Sys2Proof.Machine.execAndn s
  | .shl => Sys2Proof.Machine.execShl s
  | .shr => Sys2Proof.Machine.execShr s
  | .sar => Sys2Proof.Machine.execSar s
  | .rol => Sys2Proof.Machine.execRol s
  | .min => Sys2Proof.Machine.execMin s
  | .max => Sys2Proof.Machine.execMax s
  | .addsat => Sys2Proof.Machine.execAddsat s
  | .subsat => Sys2Proof.Machine.execSubsat s
  | .slt => Sys2Proof.Machine.execSlt s
  | .seq => Sys2Proof.Machine.execSeq s
  | .sel => Sys2Proof.Machine.execSel s
  | .madd => Sys2Proof.Machine.execMadd s
  | .bext => Sys2Proof.Machine.execBext s
  | .bins => Sys2Proof.Machine.execBins s
  | .mov => Sys2Proof.Machine.execMov s
  | .clz => Sys2Proof.Machine.execClz s
  | .ctz => Sys2Proof.Machine.execCtz s
  | .popc => Sys2Proof.Machine.execPopc s
  | .bswap => Sys2Proof.Machine.execBswap s
  | .abs => Sys2Proof.Machine.execAbs s
  | .addImm => Sys2Proof.Machine.execAddImm s
  | .subImm => Sys2Proof.Machine.execSubImm s
  | .mulImm => Sys2Proof.Machine.execMulImm s
  | .mulhImm => Sys2Proof.Machine.execMulhImm s
  | .divImm => Sys2Proof.Machine.execDivImm s
  | .remImm => Sys2Proof.Machine.execRemImm s
  | .andImm => Sys2Proof.Machine.execAndImm s
  | .orImm => Sys2Proof.Machine.execOrImm s
  | .xorImm => Sys2Proof.Machine.execXorImm s
  | .andnImm => Sys2Proof.Machine.execAndnImm s
  | .shlImm => Sys2Proof.Machine.execShlImm s
  | .shrImm => Sys2Proof.Machine.execShrImm s
  | .sarImm => Sys2Proof.Machine.execSarImm s
  | .rolImm => Sys2Proof.Machine.execRolImm s
  | .minImm => Sys2Proof.Machine.execMinImm s
  | .maxImm => Sys2Proof.Machine.execMaxImm s
  | .addsatImm => Sys2Proof.Machine.execAddsatImm s
  | .subsatImm => Sys2Proof.Machine.execSubsatImm s
  | .sltImm => Sys2Proof.Machine.execSltImm s
  | .seqImm => Sys2Proof.Machine.execSeqImm s
  | .selImm => Sys2Proof.Machine.execSelImm s
  | .maddImm => Sys2Proof.Machine.execMaddImm s
  | .bextImm => Sys2Proof.Machine.execBextImm s
  | .binsImm => Sys2Proof.Machine.execBinsImm s
  | .movImm => Sys2Proof.Machine.execMovImm s
  | .fadd => Sys2Proof.Machine.execFadd s
  | .fsub => Sys2Proof.Machine.execFsub s
  | .fmul => Sys2Proof.Machine.execFmul s
  | .fdiv => Sys2Proof.Machine.execFdiv s
  | .fsqrt => Sys2Proof.Machine.execFsqrt s
  | .fma => Sys2Proof.Machine.execFma s
  | .fmin => Sys2Proof.Machine.execFmin s
  | .fmax => Sys2Proof.Machine.execFmax s
  | .fabs => Sys2Proof.Machine.execFabs s
  | .fneg => Sys2Proof.Machine.execFneg s
  | .fsgnj => Sys2Proof.Machine.execFsgnj s
  | .fcmpeq => Sys2Proof.Machine.execFcmpeq s
  | .fcmplt => Sys2Proof.Machine.execFcmplt s
  | .fcmple => Sys2Proof.Machine.execFcmple s
  | .fclass => Sys2Proof.Machine.execFclass s
  | .fcvt => Sys2Proof.Machine.execFcvt s
  | .fcvti => Sys2Proof.Machine.execFcvti s
  | .icvtf => Sys2Proof.Machine.execIcvtf s
  | .beq => Sys2Proof.Machine.execBeq s
  | .bne => Sys2Proof.Machine.execBne s
  | .blt => Sys2Proof.Machine.execBlt s
  | .bge => Sys2Proof.Machine.execBge s
  | .jmp => Sys2Proof.Machine.execJmp s
  | .jmpr => Sys2Proof.Machine.execJmpr s
  | .call => Sys2Proof.Machine.execCall s
  | .callr => Sys2Proof.Machine.execCallr s
  | .ret => Sys2Proof.Machine.execRet s
  | .loopImm => Sys2Proof.Machine.execLoopImm s
  | .loopReg => Sys2Proof.Machine.execLoopReg s
  | .align => Sys2Proof.Machine.execAlign s
  | .nop => Sys2Proof.Machine.execNop s
  | .trap => Sys2Proof.Machine.execTrap s
  | .xret => Sys2Proof.Machine.execXret s
  | .region => Sys2Proof.Machine.execRegion s
  | .regend => Sys2Proof.Machine.execRegend s
  | .halt => Sys2Proof.Machine.execHalt s
  | .ld => Sys2Proof.Machine.execLd s
  | .st => Sys2Proof.Machine.execSt s
  | .ldx => Sys2Proof.Machine.execLdx s
  | .stx => Sys2Proof.Machine.execStx s
  | .ldlk => Sys2Proof.Machine.execLdlk s
  | .stul => Sys2Proof.Machine.execStul s
  | .amo => Sys2Proof.Machine.execAmo s
  | .amor => Sys2Proof.Machine.execAmor s
  | .cas => Sys2Proof.Machine.execCas s
  | .casr => Sys2Proof.Machine.execCasr s
  | .fence => Sys2Proof.Machine.execFence s
  | .drainst => Sys2Proof.Machine.execDrainst s
  | .pf => Sys2Proof.Machine.execPf s
  | .ldacq => Sys2Proof.Machine.execLdacq s
  | .strel => Sys2Proof.Machine.execStrel s
  | .sysr => Sys2Proof.Machine.execSysr s
  | .sysw => Sys2Proof.Machine.execSysw s
  | .tlbw => Sys2Proof.Machine.execTlbw s
  | .tlbinv => Sys2Proof.Machine.execTlbinv s
  | .replay => Sys2Proof.Machine.execReplay s
  | .l1inv => Sys2Proof.Machine.execL1inv s
  | .ecrd => Sys2Proof.Machine.execEcrd s
  | .ecset => Sys2Proof.Machine.execEcset s
  | .ecclr => Sys2Proof.Machine.execEcclr s
  | .ctxsave => Sys2Proof.Machine.execCtxsave s
  | .ctxload => Sys2Proof.Machine.execCtxload s
  | .wfm => Sys2Proof.Machine.execWfm s
  | .spawn => Sys2Proof.Machine.execSpawn s
  | .post => Sys2Proof.Machine.execPost s
  | .done => Sys2Proof.Machine.execDone s
  | .yield => Sys2Proof.Machine.execYield s
  | .fget => Sys2Proof.Machine.execFget s
  | .fput => Sys2Proof.Machine.execFput s
  | .fputNew => Sys2Proof.Machine.execFputNew s
  | .fpoll => Sys2Proof.Machine.execFpoll s
  | .bar => Sys2Proof.Machine.execBar s
  | .amsg => Sys2Proof.Machine.execAmsg s
  | .amsgr => Sys2Proof.Machine.execAmsgr s
  | .hret => Sys2Proof.Machine.execHret s
  | .enq => Sys2Proof.Machine.execEnq s
  | .send => Sys2Proof.Machine.execSend s
  | .recv => Sys2Proof.Machine.execRecv s
  | .commit => Sys2Proof.Machine.execCommit s
  | .abort => Sys2Proof.Machine.execAbort s
  | .kick => Sys2Proof.Machine.execKick s
  | .mbwait => Sys2Proof.Machine.execMbwait s
  | .tagset => Sys2Proof.Machine.execTagset s
  | .tagclr => Sys2Proof.Machine.execTagclr s
  | .gath => Sys2Proof.Machine.execGath s
  | .scat => Sys2Proof.Machine.execScat s
  | .fork => Sys2Proof.Machine.execFork s
  | .join => Sys2Proof.Machine.execJoin s
  | .rdrop => Sys2Proof.Machine.execRdrop s
  | .rquery => Sys2Proof.Machine.execRquery s
  | .rnginit => Sys2Proof.Machine.execRnginit s
  | .rngput => Sys2Proof.Machine.execRngput s
  | .rngget => Sys2Proof.Machine.execRngget s
  | .rngpeek => Sys2Proof.Machine.execRngpeek s
  | .rngadv => Sys2Proof.Machine.execRngadv s
  | .rngfree => Sys2Proof.Machine.execRngfree s
  | .rngfill => Sys2Proof.Machine.execRngfill s
  | .freq => Sys2Proof.Machine.execFreq s
  | .fresp => Sys2Proof.Machine.execFresp s
  | .vadd => Sys2Proof.Machine.execVadd s
  | .vsub => Sys2Proof.Machine.execVsub s
  | .vmul => Sys2Proof.Machine.execVmul s
  | .vmulh => Sys2Proof.Machine.execVmulh s
  | .vdiv => Sys2Proof.Machine.execVdiv s
  | .vfma => Sys2Proof.Machine.execVfma s
  | .vmin => Sys2Proof.Machine.execVmin s
  | .vmax => Sys2Proof.Machine.execVmax s
  | .vaddsat => Sys2Proof.Machine.execVaddsat s
  | .vsubsat => Sys2Proof.Machine.execVsubsat s
  | .vand => Sys2Proof.Machine.execVand s
  | .vor => Sys2Proof.Machine.execVor s
  | .vxor => Sys2Proof.Machine.execVxor s
  | .vandn => Sys2Proof.Machine.execVandn s
  | .vshl => Sys2Proof.Machine.execVshl s
  | .vshr => Sys2Proof.Machine.execVshr s
  | .vsar => Sys2Proof.Machine.execVsar s
  | .vcmpeq => Sys2Proof.Machine.execVcmpeq s
  | .vcmplt => Sys2Proof.Machine.execVcmplt s
  | .vcmple => Sys2Proof.Machine.execVcmple s
  | .vsel => Sys2Proof.Machine.execVsel s
  | .vsqrt => Sys2Proof.Machine.execVsqrt s
  | .vabs => Sys2Proof.Machine.execVabs s
  | .vneg => Sys2Proof.Machine.execVneg s
  | .vcvt => Sys2Proof.Machine.execVcvt s
  | .vclass => Sys2Proof.Machine.execVclass s
  | .vpopc => Sys2Proof.Machine.execVpopc s
  | .vclz => Sys2Proof.Machine.execVclz s
  | .vaddBcast => Sys2Proof.Machine.execVaddBcast s
  | .vsubBcast => Sys2Proof.Machine.execVsubBcast s
  | .vmulBcast => Sys2Proof.Machine.execVmulBcast s
  | .vmulhBcast => Sys2Proof.Machine.execVmulhBcast s
  | .vdivBcast => Sys2Proof.Machine.execVdivBcast s
  | .vfmaBcast => Sys2Proof.Machine.execVfmaBcast s
  | .vminBcast => Sys2Proof.Machine.execVminBcast s
  | .vmaxBcast => Sys2Proof.Machine.execVmaxBcast s
  | .vaddsatBcast => Sys2Proof.Machine.execVaddsatBcast s
  | .vsubsatBcast => Sys2Proof.Machine.execVsubsatBcast s
  | .vandBcast => Sys2Proof.Machine.execVandBcast s
  | .vorBcast => Sys2Proof.Machine.execVorBcast s
  | .vxorBcast => Sys2Proof.Machine.execVxorBcast s
  | .vandnBcast => Sys2Proof.Machine.execVandnBcast s
  | .vshlBcast => Sys2Proof.Machine.execVshlBcast s
  | .vshrBcast => Sys2Proof.Machine.execVshrBcast s
  | .vsarBcast => Sys2Proof.Machine.execVsarBcast s
  | .vcmpeqBcast => Sys2Proof.Machine.execVcmpeqBcast s
  | .vcmpltBcast => Sys2Proof.Machine.execVcmpltBcast s
  | .vcmpleBcast => Sys2Proof.Machine.execVcmpleBcast s
  | .vselBcast => Sys2Proof.Machine.execVselBcast s
  | .vaddImm => Sys2Proof.Machine.execVaddImm s
  | .vsubImm => Sys2Proof.Machine.execVsubImm s
  | .vmulImm => Sys2Proof.Machine.execVmulImm s
  | .vmulhImm => Sys2Proof.Machine.execVmulhImm s
  | .vdivImm => Sys2Proof.Machine.execVdivImm s
  | .vfmaImm => Sys2Proof.Machine.execVfmaImm s
  | .vminImm => Sys2Proof.Machine.execVminImm s
  | .vmaxImm => Sys2Proof.Machine.execVmaxImm s
  | .vaddsatImm => Sys2Proof.Machine.execVaddsatImm s
  | .vsubsatImm => Sys2Proof.Machine.execVsubsatImm s
  | .vandImm => Sys2Proof.Machine.execVandImm s
  | .vorImm => Sys2Proof.Machine.execVorImm s
  | .vxorImm => Sys2Proof.Machine.execVxorImm s
  | .vandnImm => Sys2Proof.Machine.execVandnImm s
  | .vshlImm => Sys2Proof.Machine.execVshlImm s
  | .vshrImm => Sys2Proof.Machine.execVshrImm s
  | .vsarImm => Sys2Proof.Machine.execVsarImm s
  | .vcmpeqImm => Sys2Proof.Machine.execVcmpeqImm s
  | .vcmpltImm => Sys2Proof.Machine.execVcmpltImm s
  | .vcmpleImm => Sys2Proof.Machine.execVcmpleImm s
  | .vselImm => Sys2Proof.Machine.execVselImm s
  | .vld => Sys2Proof.Machine.execVld s
  | .vst => Sys2Proof.Machine.execVst s
  | .vlds => Sys2Proof.Machine.execVlds s
  | .vsts => Sys2Proof.Machine.execVsts s
  | .vldx => Sys2Proof.Machine.execVldx s
  | .vstx => Sys2Proof.Machine.execVstx s
  | .vperm => Sys2Proof.Machine.execVperm s
  | .vbcast => Sys2Proof.Machine.execVbcast s
  | .vslide => Sys2Proof.Machine.execVslide s
  | .vext => Sys2Proof.Machine.execVext s
  | .vins => Sys2Proof.Machine.execVins s
  | .vredsum => Sys2Proof.Machine.execVredsum s
  | .vredmin => Sys2Proof.Machine.execVredmin s
  | .vredmax => Sys2Proof.Machine.execVredmax s
  | .vredand => Sys2Proof.Machine.execVredand s
  | .vredor => Sys2Proof.Machine.execVredor s
  | .vredxor => Sys2Proof.Machine.execVredxor s
  | .vscan => Sys2Proof.Machine.execVscan s
  | .vcbdec => Sys2Proof.Machine.execVcbdec s
  | .prune => Sys2Proof.Machine.execPrune s
  | .vcompress => Sys2Proof.Machine.execVcompress s
  | .vexpand => Sys2Proof.Machine.execVexpand s
  | .vmv => Sys2Proof.Machine.execVmv s
  | .kand => Sys2Proof.Machine.execKand s
  | .kor => Sys2Proof.Machine.execKor s
  | .kxor => Sys2Proof.Machine.execKxor s
  | .knot => Sys2Proof.Machine.execKnot s
  | .kmov => Sys2Proof.Machine.execKmov s
  | .kpop => Sys2Proof.Machine.execKpop s
  | .kfirst => Sys2Proof.Machine.execKfirst s
  | .kset => Sys2Proof.Machine.execKset s
  | .kget => Sys2Proof.Machine.execKget s
  | .qgen => Sys2Proof.Machine.execQgen s
  | .qand => Sys2Proof.Machine.execQand s
  | .qxnor => Sys2Proof.Machine.execQxnor s
  | .qmin => Sys2Proof.Machine.execQmin s
  | .qmax => Sys2Proof.Machine.execQmax s
  | .qmux => Sys2Proof.Machine.execQmux s
  | .qregen => Sys2Proof.Machine.execQregen s
  | .qcount => Sys2Proof.Machine.execQcount s
  | .qsum => Sys2Proof.Machine.execQsum s
  | .qtob => Sys2Proof.Machine.execQtob s
  | .btoq => Sys2Proof.Machine.execBtoq s
  | .vbtoq => Sys2Proof.Machine.execVbtoq s
  | .qnot => Sys2Proof.Machine.execQnot s
  | .qmov => Sys2Proof.Machine.execQmov s
  | .qld => Sys2Proof.Machine.execQld s
  | .qst => Sys2Proof.Machine.execQst s
  | .qcfg => Sys2Proof.Machine.execQcfg s
  | .qseed => Sys2Proof.Machine.execQseed s
  | .gang => Sys2Proof.Machine.execGang s
  | .mmac => Sys2Proof.Machine.execMmac s
  | .mbmac => Sys2Proof.Machine.execMbmac s
  | .mclr => Sys2Proof.Machine.execMclr s
  | .mscacc => Sys2Proof.Machine.execMscacc s
  | .rdacc => Sys2Proof.Machine.execRdacc s
  | .wracc => Sys2Proof.Machine.execWracc s
  | .ldacc => Sys2Proof.Machine.execLdacc s
  | .stacc => Sys2Proof.Machine.execStacc s
  | .oqld => Sys2Proof.Machine.execOqld s
  | .oqcfg => Sys2Proof.Machine.execOqcfg s
  | .mrow => Sys2Proof.Machine.execMrow s
  | .cbload => Sys2Proof.Machine.execCbload s
  | .contract => Sys2Proof.Machine.execContract s
  | .mwait => Sys2Proof.Machine.execMwait s
  | .resultWriteback => Sys2Proof.Machine.execResultWriteback s
  | .preEmption => Sys2Proof.Machine.execPreEmption s
  | .instructionLineFill => Sys2Proof.Machine.execInstructionLineFill s
  | .frameRefill => Sys2Proof.Machine.execFrameRefill s
  | .contextBankWake => Sys2Proof.Machine.execContextBankWake s
  | .migrationArrival => Sys2Proof.Machine.execMigrationArrival s
  | .deposit => Sys2Proof.Machine.execDeposit s
  | .meshDelivery => Sys2Proof.Machine.execMeshDelivery s
  | .engineAccept => Sys2Proof.Machine.execEngineAccept s
  | .ssuCommandExecute => Sys2Proof.Machine.execSsuCommandExecute s
  | .gangOperationStart => Sys2Proof.Machine.execGangOperationStart s
  | .matrixCommandStart => Sys2Proof.Machine.execMatrixCommandStart s
  | .matrixCommandComplete => Sys2Proof.Machine.execMatrixCommandComplete s
  | .loadPipeFailure => Sys2Proof.Machine.execLoadPipeFailure s
  | .contractionExpand => Sys2Proof.Machine.execContractionExpand s
  | .companionStart => Sys2Proof.Machine.execCompanionStart s
  | .executeGrantRequest => Sys2Proof.Machine.execExecuteGrantRequest s
  | .codePageScanDone => Sys2Proof.Machine.execCodePageScanDone s
  | .executeGrantClear => Sys2Proof.Machine.execExecuteGrantClear s
  | .tentryWrite => Sys2Proof.Machine.execTentryWrite s
  | .stackPoolWrite => Sys2Proof.Machine.execStackPoolWrite s
  | .ringDescriptorWrite => Sys2Proof.Machine.execRingDescriptorWrite s
  | .sfqControlWrite => Sys2Proof.Machine.execSfqControlWrite s
  | .mcqControlWrite => Sys2Proof.Machine.execMcqControlWrite s
  | .accessTableWrite => Sys2Proof.Machine.execAccessTableWrite s
  | .revokedEntryRead => Sys2Proof.Machine.execRevokedEntryRead s
  | .timeSlotWrite => Sys2Proof.Machine.execTimeSlotWrite s
  | .mergeTableWrite => Sys2Proof.Machine.execMergeTableWrite s
  | .eventCounterWrite => Sys2Proof.Machine.execEventCounterWrite s
  | .ownerKeyWrite => Sys2Proof.Machine.execOwnerKeyWrite s
  | .keyPromote => Sys2Proof.Machine.execKeyPromote s
  | .controlBlockWrite => Sys2Proof.Machine.execControlBlockWrite s
  | .dieReset => Sys2Proof.Machine.execDieReset s
  | .dieDownNotice => Sys2Proof.Machine.execDieDownNotice s
  | .dieResetDrainEnd => Sys2Proof.Machine.execDieResetDrainEnd s
  | .dieResetComplete => Sys2Proof.Machine.execDieResetComplete s
  | .powerOn => Sys2Proof.Machine.execPowerOn s
  | .throttle => Sys2Proof.Machine.execThrottle s
  | .powerRemoved => Sys2Proof.Machine.execPowerRemoved s
  | .launchArrival => Sys2Proof.Machine.execLaunchArrival s
  | .launchStart => Sys2Proof.Machine.execLaunchStart s
  | .launchDescriptorRemote => Sys2Proof.Machine.execLaunchDescriptorRemote s
  | .firstThreadStart => Sys2Proof.Machine.execFirstThreadStart s
  | .slotDue => Sys2Proof.Machine.execSlotDue s
  | .slotBudgetExpiry => Sys2Proof.Machine.execSlotBudgetExpiry s
  | .pendingLaunchStart => Sys2Proof.Machine.execPendingLaunchStart s
  | .launchCompletion => Sys2Proof.Machine.execLaunchCompletion s
  | .timeSyncMessage => Sys2Proof.Machine.execTimeSyncMessage s
  | .postArrival => Sys2Proof.Machine.execPostArrival s
  | .acquisitionStart => Sys2Proof.Machine.execAcquisitionStart s
  | .exclusionRequest => Sys2Proof.Machine.execExclusionRequest s
  | .exclusionReply => Sys2Proof.Machine.execExclusionReply s
  | .taskIssue => Sys2Proof.Machine.execTaskIssue s
  | .huskYield => Sys2Proof.Machine.execHuskYield s
  | .huskRestart => Sys2Proof.Machine.execHuskRestart s
  | .taskEnd => Sys2Proof.Machine.execTaskEnd s
  | .rePost => Sys2Proof.Machine.execRePost s
  | .activeMessageArrival => Sys2Proof.Machine.execActiveMessageArrival s
  | .handlerEntry => Sys2Proof.Machine.execHandlerEntry s
  | .futureFill => Sys2Proof.Machine.execFutureFill s
  | .barrierComplete => Sys2Proof.Machine.execBarrierComplete s
  | .enqueueArrival => Sys2Proof.Machine.execEnqueueArrival s
  | .waitingEnqueueReserve => Sys2Proof.Machine.execWaitingEnqueueReserve s
  | .enqueueRetry => Sys2Proof.Machine.execEnqueueRetry s
  | .messageLanded => Sys2Proof.Machine.execMessageLanded s
  | .enqueueCredit => Sys2Proof.Machine.execEnqueueCredit s
  | .lockGrant => Sys2Proof.Machine.execLockGrant s
  | .gatherComplete => Sys2Proof.Machine.execGatherComplete s
  | .tlbMiss => Sys2Proof.Machine.execTlbMiss s
  | .pageMigrationComplete => Sys2Proof.Machine.execPageMigrationComplete s
  | .forkRegistration => Sys2Proof.Machine.execForkRegistration s
  | .firstWrite => Sys2Proof.Machine.execFirstWrite s
  | .merge => Sys2Proof.Machine.execMerge s
  | .mergeComplete => Sys2Proof.Machine.execMergeComplete s
  | .homeStorePerform => Sys2Proof.Machine.execHomeStorePerform s
  | .accessStatus => Sys2Proof.Machine.execAccessStatus s
  | .atomicHomePerform => Sys2Proof.Machine.execAtomicHomePerform s
  | .incarnationProbeReply => Sys2Proof.Machine.execIncarnationProbeReply s
  | .linklostTimeout => Sys2Proof.Machine.execLinklostTimeout s
  | .routeDownReport => Sys2Proof.Machine.execRouteDownReport s
  | .flushMarker => Sys2Proof.Machine.execFlushMarker s
  | .packetArrival => Sys2Proof.Machine.execPacketArrival s
  | .acknowledgement => Sys2Proof.Machine.execAcknowledgement s
  | .retransmit => Sys2Proof.Machine.execRetransmit s
  | .linkSpill => Sys2Proof.Machine.execLinkSpill s
  | .linkRefill => Sys2Proof.Machine.execLinkRefill s
  | .cxlerrTimeout => Sys2Proof.Machine.execCxlerrTimeout s
  | .cxlLinkDown => Sys2Proof.Machine.execCxlLinkDown s
  | .scrub => Sys2Proof.Machine.execScrub s
  | .scrubLate => Sys2Proof.Machine.execScrubLate s
  | .alignTimeout => Sys2Proof.Machine.execAlignTimeout s
  | .contextRequestRemote => Sys2Proof.Machine.execContextRequestRemote s
  | .exclusionRelease => Sys2Proof.Machine.execExclusionRelease s
  | .packetSent => Sys2Proof.Machine.execPacketSent s
  | .flitSent => Sys2Proof.Machine.execFlitSent s
  | .linkDown => Sys2Proof.Machine.execLinkDown s
  | .linkUp => Sys2Proof.Machine.execLinkUp s
  | .cxlLinkUp => Sys2Proof.Machine.execCxlLinkUp s
  | .dieAnnounce => Sys2Proof.Machine.execDieAnnounce s
  | .contextBankGate => Sys2Proof.Machine.execContextBankGate s
  | .throttleEnd => Sys2Proof.Machine.execThrottleEnd s
  | .tokenBlockAgeOut => Sys2Proof.Machine.execTokenBlockAgeOut s

end Sys2Proof.Machine
end

