-- ==== Sys2Proof/Machine/Step.lean ====
section
/-! DEFINITION. One step of the machine: what the agenda says, or, where it says nothing, what the machine does of itself. Fetching and
issuing follow 03_instruction_lines R33 to R54 and the issue rule of 16_dispatch R287. -/

namespace Sys2Proof.Machine

/-- One step: the agenda's first entry, which names what happens when the outside world or another agent chooses; where it is empty, one of
the things the machine may do of itself (a hart that issues by the issue rule, or a due event; log entry 8). With nothing to do it stays as it
is. -/
def step (s : State) : Host.Outcome State Fault Refusal :=
  match s.agenda with
  | c :: r => doChoice exec c { s with agenda := r }
  | [] => match s.nextChoice exec with
    | some c => doChoice exec c { s with turn := s.turn + 1 }
    | none => .next s

/-- The machine with an instruction stored where the next step fetches and runs it: a bound thread of context 0 of core 0 whose line at
0x40_0000 holds the instruction in slot 0, with its translation, its page's execute grant and its line in the quad instruction cache
(log entry 5 says how a program comes to run from reset). -/
def State.withFetchWord (s : State) (nbits w : Nat) : State := placeProgram s (BitVec.ofNat 96 (w % 2 ^ nbits))

end Sys2Proof.Machine
end

