-- ==== Sys2Proof/Safety.lean ====
section
/-! DEFINITION. What a safe state and a safe step are, and the terms the statements use: when an instruction may run, what its results and
its retirement leave. -/

namespace Sys2Proof.Machine

/-- What every step keeps: memory and the control blocks in their canonical form. -/
structure State.Inv (s : State) : Prop where
  mem : Memory.wf s.mem
  ctl : Sparse.wfFrom (0 : Word) 0 s.ctl = true

/-- What an instruction that must wait leaves: nothing of it but what it waits for (20_order_agent_core R327). -/
def State.stalledBy (s : State) (f : State → State) : State :=
  ({ f s.go with ir := { s.ir with result := .stalled } } : State).modHart s.ir.hart Hart.stall
/-- A step that neither faults nor is refused. -/
def Goes (o : Host.Outcome State Fault Refusal) : Prop := ∃ t, o = .next t

/-- The issuing hart exists and may use a class of instructions (02_machine R20). -/
structure Ready (s : State) (x : Hart) (c : Cls) : Prop where
  found : s.hart? s.ir.hart = some x
  class_ok : mayUse s.ir.hart x.migratory c = true
  /-- No fence is open that the instruction would wait for (11_memory_instructions R189). -/
  open_fence : c.ordered = true → x.fence = none
/-- The registers an instruction names are ones its hart may name, as sources and as destinations (02_machine R23, 05_registers R81). -/
def Named (s : State) (x : Hart) (srcs dsts : List (BitVec 5)) : Prop :=
  srcs.all (fun v => mayName s.ir.hart x.migratory false v.toNat) = true ∧ dsts.all (fun v => mayName s.ir.hart x.migratory true v.toNat) = true

/-- A result added to the outstanding ones of the issuing hart (03_instruction_lines R41). -/
def State.owe (s : State) (ws : List RegWrite) (flags : Flags5 := 0) (poison : Option Word := none) (returned : Bool := true)
    (tag : Nat := 0) (quick : Bool := false) : State :=
  s.modHart s.ir.hart fun x => { x with outstanding := x.outstanding ++
    [{ writes := ws, flags := flags, returned := returned, poison := poison, inRegion := x.inRegion, second := s.ir.second, tag := tag, quick := quick }] }
/-- The issue counted and the hart at a PC past the instruction: parked where it carries the marker (R41). -/
def State.passTo (s : State) (loops : Vector Loop 3) (pc : Word) : State :=
  s.counted.modHart s.ir.hart fun y => { y with loops := loops }.past pc s.ir.marker
/-- What the retirement of an instruction that is no taken transfer leaves: the next slot (03 R34), or, where the PC ends loops, what
LOOP END says (06_scalar_instructions R109), with a back edge to a marked slot of a line the hart can fetch. -/
def Passes (s t : State) : Prop :=
  ∃ x, s.hart? s.ir.hart = some x ∧
    match endingLoops x x.pc with
    | [] => t = s.passTo x.loops (succPc x.pc)
    | ls => match loopEnd x ls [] with
      | (y, none) => t = s.passTo y.loops (succPc x.pc)
      | (y, some tgt) => t = s.passTo y.loops tgt ∧ pcOk tgt = true ∧ ∃ l, s.fetchLine s.ir.hart tgt = .line l ∧ markedIn l tgt = true

/-- Scalar registers read in order, with their ports and rings (05_registers R81). -/
def readRegs : List (BitVec 5) → M (List Word)
  | [] => pure []
  | f :: r => do return (← readReg f) :: (← readRegs r)
/-- A value written to a scalar register as an outstanding result, and the instruction retired. -/
def Gives (s : State) (d : BitVec 5) (v : Word) (t : State) (flags : Flags5 := 0) (quick : Bool := false) : Prop :=
  ∃ ws s', destReg d v s = .ok (ws, s') ∧ Passes (s'.owe ws flags (quick := quick)) t

/-- What a taken transfer leaves: the issue counted and the hart at the target (03 R41). -/
def State.taken (s : State) (pc : Word) : State := s.counted.modHart s.ir.hart fun y => y.past pc s.ir.marker
/-- A PC that a checked transfer may go to: it satisfies 03 R34, its line can be fetched, and its slot is marked as a target (R35, R40). -/
def GoodTarget (s : State) (pc : Word) : Prop :=
  pcOk pc = true ∧ ∃ l, s.fetchLine s.ir.hart pc = .line l ∧ markedIn l pc = true
/-- A direct target: in the same code page the scanner has checked it (R40). -/
def DirectTarget (s : State) (x : Hart) (pc : Word) : Prop := x.pc.toNat / 2 ^ 16 = pc.toNat / 2 ^ 16 ∨ GoodTarget s pc
/-- The issuing thread has no outstanding result, and the instruction is not the second of a pair (20_order_agent_core R327). -/
def Drained (s : State) (x : Hart) : Prop := s.ir.second = false ∧ x.outstanding = []
/-- The earlier loads and atomics of the issuing hart have returned, and its stream loads and stores are done (11_memory_instructions R189). -/
def LoadsDone (s : State) (x : Hart) : Prop :=
  x.outstanding.any (fun p => !p.returned) = false ∧ s.ssuMemory s.ir.hart = false
/-- A release of the issuing hart at a scope has nothing to wait for: the stores it covers are performed, and at `.pkg` and `.pod` its markers
are acknowledged or there is nowhere to send one (R189, 21 R342). -/
def ReleaseDone (s : State) (x : Hart) (scope : Nat) : Prop :=
  LoadsDone s x ∧ s.releaseOpen s.ir.hart scope = false ∧ (4 ≤ scope → x.grant ≠ some 2 → s.releaseDests s.ir.hart scope = [])
/-- The interface of the core that a destination word names takes a message of m bytes: its ring has room, or a place to wait; or it will
refuse it where it arrives (14_queues R237). -/
def RingTakes (s : State) (x : Hart) (w : Word) (m : Nat) : Prop :=
  let c := destCore w
  let r := w.toNat % 8
  383 < w.toNat / 2 ^ 8 % 512 ∨ (s.ring c r).cap = 0 ∨ s.barred (dieOfHart s.ir.hart) (dieOfCore c) x.origin.owner = true ∨
    ringSlots m ≤ (s.ring c r).cap ∧ (s.ringRoom c r (ringSlots m) = true ∨ (s.core c).waiting.length + (s.onTheWay c).length < 16)
/-- No packet of a network waits for room on the way to a die (14_queues R240). -/
def LinkFree (s : State) (dst : DieKey) (vn : Nat) : Prop :=
  (s.die (dieOfHart s.ir.hart)).outq.any (fun q => q.1 % 5 == vn && q.2.dst == dst) = false
/-- A word goes to the register stack of the issuing hart: through the context cache, to scratchpad, or to private SRAM (05 R83, R85, 06
R114). -/
def State.stackPut (s : State) (va v : Word) : State :=
  match s.ir.hart with
  | .loader c => s.putWord (windowKey (pkgOfCore c) va.toNat) v
  | .storer c => s.putWord (windowKey (pkgOfCore c) va.toNat) v
  | .tsc c n => s.modHart (.tsc c n) fun x => { x with sram := Sparse.put 0 va.toNat v x.sram }
  | .gather c => s.modHart (.gather c) fun x => { x with sram := Sparse.put 0 va.toNat v x.sram }
  | .expander c => s.modHart (.expander c) fun x => { x with sram := Sparse.put 0 va.toNat v x.sram }
  | h => s.modHart h fun x => { x with below := (va.toNat, v) :: x.below.filter (fun p => p.1 ≠ va.toNat) }
/-- The word of the register stack that the issuing hart x reads at an address: none while its frame is out of the context cache. -/
def State.stackGet (s : State) (x : Hart) (va : Word) : Option Word :=
  match s.ir.hart with
  | .loader c => some (s.word (windowKey (pkgOfCore c) va.toNat))
  | .storer c => some (s.word (windowKey (pkgOfCore c) va.toNat))
  | .tsc _ _ | .gather _ | .expander _ => some (Sparse.get 0 x.sram va.toNat)
  | _ => lookup? va.toNat x.below
/-- The n words that a slide upward sends to the stack, from register i on. -/
def State.pushed (s : State) (x : Hart) : Nat → Nat → State
  | 0, _ => s
  | n + 1, i => (s.stackPut (x.wbase + BitVec.ofNat 64 (8 * i)) (x.xreg i)).pushed x n (i + 1)
/-- The window slid up by n registers: the registers that come in read as zero (05 R83). -/
def Hart.slidUp (y x : Hart) (n : Nat) : Hart :=
  { y with regs := { y.regs with x := windowOf fun i => if i + n < 16 then x.xreg (i + n) else 0 }
           wbase := x.wbase + BitVec.ofNat 64 (8 * n) }
/-- The issuing hart x slid up by n registers, whose values are in the stack. -/
def State.slidUp (s : State) (x : Hart) (n : Nat) : State := (s.pushed x n 0).modHart s.ir.hart fun y => y.slidUp x n
/-- The window slid down by m registers, whose values come back from the stack. -/
def Hart.slidDown (x : Hart) (m : Nat) (vs : List Word) : Hart :=
  { x with regs := { x.regs with x := windowOf fun i => if m ≤ i then x.xreg (i - m) else vs.getD i 0 }
           wbase := x.wbase - BitVec.ofNat 64 (8 * m), below := x.below.filter fun p => p.1 < (x.wbase - BitVec.ofNat 64 (8 * m)).toNat }
/-- No frame of the window is out of the context cache. -/
def Hart.windowIn (x : Hart) : Prop := x.absent.find? (· < 4) = none
/-- The m words below the window, which a slide downward brings back: their frames are in the context cache. -/
def StackHolds (s : State) (x : Hart) (m : Nat) (vs : List Word) : Prop :=
  vs.length = m ∧ ∀ i < m, s.stackGet x (x.wbase - BitVec.ofNat 64 (8 * m) + BitVec.ofNat 64 (8 * i)) = some (vs.getD i 0)

/-- What `call` leaves once the hart x has slid up by n: the frame pair in x14 and x15, the PC at the target, and the stack frames written
back that can be (05 R83). -/
def State.called (s : State) (x : Hart) (n : Nat) (t : Word) : State :=
  (((s.slidUp x n).modHart s.ir.hart fun y => (y.setX 14 x.wbase).setX 15 (succPc x.pc)).taken t).spillNow s.ir.hart

/-- The instruction of the issuing hart has ended in a trap. -/
def State.trapping (s : State) (h : HartId) : State := { s with ir := { s.ir with hart := h, result := .trapped } }
/-- A thread y, slid up, after TRAP ENTRY of the thread x, 09_traps_contexts R153. -/
def Hart.entered (y x : Hart) (t : TrapReq) (handler : Word) : Hart :=
  { y with
    trap := { xcause := xcauseOf t, xpc := if t.cause = 0x0E then succPc t.pc else t.pc, xval := t.xval, mode := true, pmode := x.trap.mode,
              trapped := true }
    pc := handler, pendingTrap := none, parked := t.marker, wait := none, grant := none, answered := [], refused := none }
/-- What TRAP ENTRY of the thread x leaves: the window slid up by 12, the trap registers, the stack frames written back that can be, and the
fault's records (09 R153, 16 R289). -/
def State.trapEntered (s : State) (h : HartId) (x : Hart) (t : TrapReq) : State :=
  let u := (((s.trapping h).slidUp x 12).modHart h fun y => y.entered x t (s.ctlGet (dieOfHart h) 0x100)).spillNow h
  let v := u.recordFault h t.cause t.xval
  if t.precise then v.faultOf h t.cause 0 else v

/-- What `xret` leaves: the thread back in its window and mode at XPC, the refused deposits told, parked at a marker. -/
def State.returned (s : State) (x : Hart) (vs : List Word) : State :=
  ((s.modHart s.ir.hart fun _ => (x.slidDown 12 vs).restored).refuseHeld s.ir.hart x).modHart s.ir.hart fun y =>
    { y with parked := s.ir.marker, stopping := y.stopping || (y.preempt && s.ir.marker) }

/-- The port of the die that a window address names passes the issuing hart's packets (02_machine R31). -/
def WinReaches (s : State) (e : Word) : Prop :=
  s.keyPasses (dieOfHart s.ir.hart) (4 * (dieOfHart s.ir.hart / 4) + e.toNat / 2 ^ 48 % 4) (s.hart s.ir.hart).origin.owner = true
/-- What an atomic at its home finds and leaves, 11_memory_instructions R185: in the on-chip window, or in main memory. -/
def AtomicStep (f : Slot) (e : Word) (isCas : Bool) (c d : Word) (s : State) (r : Word × Flags5 × Bool) (t : State) : Prop :=
  if pathOf e = 3 then
    let old := s.winLoad (dieOfHart s.ir.hart / 4) e.toNat (sizeOf8 f.ty.toNat)
    let new := atomicNew isCas (f.misc.toNat % 16) f.ty.toNat old c.toNat d.toNat
    let q := s.winStoreFor s.ir.hart e.toNat (sizeOf8 f.ty.toNat) new.1
    WinReaches s e ∧ s.winPoisoned (dieOfHart s.ir.hart / 4) e.toNat (sizeOf8 f.ty.toNat) = false ∧ q.2 = 0 ∧ t = q.1 ∧
      r = (BitVec.ofNat 64 old, new.2, false)
  else atomicMain f e isCas c d s = .ok (r, t)
/-- The home of n bytes at a physical address can be reached: its page is not on the move (10_memories R174), its port passes the owner's
packets (02_machine R31), and no atomic of the hart is under way on the bytes (R173). -/
structure Reaches (s : State) (x : Hart) (pa n : Nat) : Prop where
  settled : (s.metaWord pa 0).getLsbD 60 = false
  keys : s.keyPasses (dieOfHart s.ir.hart) (homeOf pa) x.origin.owner = true
  alone : (s.die (dieOfHart s.ir.hart)).asked.any (fun r => r.hart == s.ir.hart && r.pa < pa + n && pa < r.pa + typeWidth r.ty / 8) = false
/-- Where a token atomic goes: the key in the window, or the translated address of a page that is not on the move. -/
def TokenTarget (s : State) (x : Hart) (e : Word) (n pa : Nat) : Prop :=
  if pathOf e = 3 then pa = windowKey (dieOfHart s.ir.hart / 4) e.toNat
  else s.translate (s.quadOf s.ir.hart) false x.origin.space (generalVa e) 3 = .ok pa ∧ Reaches s x pa n ∧
    x.migratory = false ∧ s.regionFor s.ir.hart (generalVa e) = none

/-! ### The tables of 06_scalar_instructions -/

/-- R93 to R95: the opcode of the register form (the immediate form's is 0x20 above), the two forms, and the result from the type, A and B. -/
def twoOperand : List (Nat × Instr × Instr × (Nat → Int → Int → Int)) :=
  [(0x000, .add, .addImm, fun _ a b => a + b), (0x001, .sub, .subImm, fun _ a b => a - b), (0x002, .mul, .mulImm, fun _ a b => a * b),
   (0x003, .mulh, .mulhImm, intMulh), (0x004, .div, .divImm, intDiv), (0x005, .rem, .remImm, fun _ a b => intRem a b),
   (0x006, .and, .andImm, intAnd), (0x007, .or, .orImm, intOr), (0x008, .xor, .xorImm, intXor), (0x009, .andn, .andnImm, intAndn),
   (0x00A, .shl, .shlImm, intShl), (0x00B, .shr, .shrImm, intShr), (0x00C, .sar, .sarImm, intSar), (0x00D, .rol, .rolImm, intRol),
   (0x00E, .min, .minImm, fun _ a b => min a b), (0x00F, .max, .maxImm, fun _ a b => max a b),
   (0x010, .addsat, .addsatImm, fun ty a b => sat ty (a + b)), (0x011, .subsat, .subsatImm, fun ty a b => sat ty (a - b)),
   (0x012, .slt, .sltImm, fun _ a b => if a < b then 1 else 0), (0x013, .seq, .seqImm, fun _ a b => if a = b then 1 else 0)]
/-- R93, R96: the one-source instructions, on the type and A. -/
def oneOperand : List (Nat × Instr × (Nat → Int → Int)) :=
  [(0x018, .mov, fun _ a => a), (0x019, .clz, fun ty a => (leadingZeros (typeWidth ty) (bitsOf ty a) : Int)),
   (0x01A, .ctz, fun ty a => (trailingZeros (typeWidth ty) (bitsOf ty a) : Int)),
   (0x01B, .popc, fun ty a => (onesCount (typeWidth ty) (bitsOf ty a) : Int)),
   (0x01C, .bswap, fun ty a => (byteReverse (typeWidth ty / 8) (bitsOf ty a) : Int)), (0x01D, .abs, fun _ a => (a.natAbs : Int))]
/-- R100, R102: the two-operand floating instructions, whether they round, and the result from the format, the rounding mode and the values. -/
def floatTwo : List (Nat × Instr × Bool × (Fmt → RMode → FVal → FVal → FRes)) :=
  [(0x040, .fadd, true, fAdd), (0x041, .fsub, true, fun m r a b => fAdd m r a b.negate), (0x042, .fmul, true, fMul),
   (0x043, .fdiv, true, fDiv), (0x04B, .fcmpeq, false, fun _ _ a b => { bits := if (fCmpEq a b).1 then 1 else 0, flags := (fCmpEq a b).2 }),
   (0x04C, .fcmplt, false, fun _ _ a b => { bits := if (fCmpLt a b).1 then 1 else 0, flags := (fCmpLt a b).2 }),
   (0x04D, .fcmple, false, fun _ _ a b => { bits := if (fCmpLe a b).1 then 1 else 0, flags := (fCmpLe a b).2 })]
/-- R101: the instructions on the bits of two floating operands. -/
def floatBitsTwo : List (Nat × Instr × (Fmt → Nat → Nat → FRes)) :=
  [(0x046, .fmin, fun m a b => fPick m false a b), (0x047, .fmax, fun m a b => fPick m true a b),
   (0x04A, .fsgnj, fun m a b => { bits := magBits m a + m.signBit (m.signOf b) })]
/-- R101, R102: on the bits of one. -/
def floatBitsOne : List (Nat × Instr × (Fmt → Nat → Nat)) :=
  [(0x048, .fabs, fun m a => magBits m a), (0x049, .fneg, fun m a => magBits m a + m.signBit (!(m.signOf a))), (0x04E, .fclass, fClass)]
/-- R103: the conversions: from the destination type, the source type, `.sat`, the rounding mode and the source register. -/
def conversions : List (Nat × Instr × (Nat → Nat → Bool → RMode → Word → Word × Flags5)) :=
  [(0x04F, .fcvt, fun d e st m a => (putFloat (fConvert (fmtOf d) st m (fval e a)), (fConvert (fmtOf d) st m (fval e a)).flags)),
   (0x050, .fcvti, fun d e _ m a => (putInt d (floatToInt d m (fval e a)).1, (floatToInt d m (fval e a)).2)),
   (0x051, .icvtf, fun d e st m a => (putFloat (intToFloat (fmtOf d) st m (intVal e a)), (intToFloat (fmtOf d) st m (intVal e a)).flags))]
/-- R104: the branches and their conditions. -/
def branches : List (Nat × Instr × (Int → Int → Bool)) :=
  [(0x060, .beq, fun a b => decide (a = b)), (0x061, .bne, fun a b => decide (a ≠ b)), (0x062, .blt, fun a b => decide (a < b)),
   (0x063, .bge, fun a b => decide (b ≤ a))]

/-! ### Vectors, 07_vector_instructions -/

/-- The frames that an instruction needs are in the context: all of them, unless the thread has migrated and not fetched them (13 R232). -/
def Here (x : Hart) (ns : List Nat) : Prop := ∀ n ∈ ns, x.absent.contains n = false
/-- A hart whose vector part counts as used. -/
def Hart.vec (x : Hart) : Hart := { x with vused := true }
/-- The state in which a vector instruction reads its operands: the thread has a register set of its core's vector engine (05 R85). -/
def State.vec (s : State) : State :=
  let u := s.go.modHart s.ir.hart Hart.vec
  match u.coreOf s.ir.hart with
  | some c => u.modCore c fun k => { k with vsets := takeSet s.ir.hart k.vsets }
  | none => u
def Hart.vreg (x : Hart) (n : BitVec 5) : VecReg := x.regs.v.toList.getD n.toNat 0
def Hart.mask (x : Hart) (n : Nat) : BitVec 32 := x.regs.k.toList.getD (n % 8) 0
/-- `Active`, R118. -/
def Hart.active (x : Hart) (f : Slot) (w i : Nat) : Bool := !(f.misc.getLsbD 3) || (x.mask (f.misc.toNat % 8)).getLsbD (w * i / 32)
/-- The active elements in ascending order. -/
def Hart.actives (x : Hart) (f : Slot) (w : Nat) : List Nat := (List.range (elemCount w)).filter (x.active f w)
/-- The frames of the vector registers named, and of the mask where masking is enabled. -/
def VecHere (x : Hart) (f : Slot) (vs : List (BitVec 5)) : Prop :=
  Here x (vs.map fun v => 8 + v.toNat) ∧ (f.misc.getLsbD 3 = true → Here x [40])
/-- The elements of B in the three forms of R120, and the state after a scalar source is read. -/
def BFrom (form : BForm) (s : State) (x : Hart) (b : Nat → Nat) (t : State) : Prop :=
  let f := s.ir.slot
  let w := typeWidth f.ty.toNat
  match form with
  | .vector => Here x [8 + f.b.toNat] ∧ b = vecElem w (x.vreg f.b) ∧ t = s
  | .broadcast => Named s x [f.b] [] ∧ ∃ v, readReg f.b s = .ok (v, t) ∧ b = fun _ => v.toNat % 2 ^ w
  | .immediate => (b = fun _ => immElem f) ∧ t = s
/-- A vector result with its element values at those that satisfy p, and the others as they are in d at issue (R118). -/
def State.oweVec (s : State) (d : BitVec 5) (w : Nat) (p : Nat → Bool) (val : Nat → Nat) (flags : Flags5 := 0) (poison : Option Word := none) : State :=
  s.owe [.vec d.toNat (mergeElems ((s.hart s.ir.hart).vreg d) w p val) (BitVec.allOnes 1024)] flags poison
/-- A mask result. -/
def State.oweMask (s : State) (d : BitVec 5) (m : BitVec 32) (flags : Flags5 := 0) : State := s.owe [.msk (d.toNat % 8) m 0xFFFFFFFF] flags

/-- R121: an element-wise instruction in its vector, broadcast and immediate forms, whether it rounds, whether it reads c, and the result of
one element with its flags, from the type, the mode and the bits of A, B and C. -/
def elementwise : List ((Instr × Instr × Instr) × Bool × Bool × ElemFn) :=
  [((.vadd, .vaddBcast, .vaddImm), true, false, byType (onInt fun _ a b _ => a + b) (onFloat fun m r a b _ => fAdd m r a b)),
   ((.vsub, .vsubBcast, .vsubImm), true, false, byType (onInt fun _ a b _ => a - b) (onFloat fun m r a b _ => fAdd m r a b.negate)),
   ((.vmul, .vmulBcast, .vmulImm), true, false, byType (onInt fun _ a b _ => a * b) (onFloat fun m r a b _ => fMul m r a b)),
   ((.vmulh, .vmulhBcast, .vmulhImm), false, false, onInt fun ty a b _ => intMulh ty a b),
   ((.vdiv, .vdivBcast, .vdivImm), true, false, byType (onInt fun ty a b _ => intDiv ty a b) (onFloat fun m r a b _ => fDiv m r a b)),
   ((.vfma, .vfmaBcast, .vfmaImm), true, true, byType (onInt fun _ a b c => a * b + c) (onFloat fun m r a b c => fFma m r a b c)),
   ((.vmin, .vminBcast, .vminImm), false, false, byType (onInt fun _ a b _ => min a b) (onBits fun m a b => fPick m false a b)),
   ((.vmax, .vmaxBcast, .vmaxImm), false, false, byType (onInt fun _ a b _ => max a b) (onBits fun m a b => fPick m true a b)),
   ((.vaddsat, .vaddsatBcast, .vaddsatImm), false, false, onInt fun ty a b _ => sat ty (a + b)),
   ((.vsubsat, .vsubsatBcast, .vsubsatImm), false, false, onInt fun ty a b _ => sat ty (a - b)),
   ((.vand, .vandBcast, .vandImm), false, false, onInt fun ty a b _ => intAnd ty a b),
   ((.vor, .vorBcast, .vorImm), false, false, onInt fun ty a b _ => intOr ty a b),
   ((.vxor, .vxorBcast, .vxorImm), false, false, onInt fun ty a b _ => intXor ty a b),
   ((.vandn, .vandnBcast, .vandnImm), false, false, onInt fun ty a b _ => intAndn ty a b),
   ((.vshl, .vshlBcast, .vshlImm), false, false, onInt fun ty a b _ => intShl ty a b),
   ((.vshr, .vshrBcast, .vshrImm), false, false, onInt fun ty a b _ => intShr ty a b),
   ((.vsar, .vsarBcast, .vsarImm), false, false, onInt fun ty a b _ => intSar ty a b)]
/-- R121: the one-source instructions. -/
def elementwiseOne : List (Instr × Bool × ElemFn) :=
  [(.vsqrt, true, onFloat fun m r a _ _ => fSqrt m r a),
   (.vabs, false, byType (onInt fun _ a _ _ => (a.natAbs : Int)) (onBits fun m a _ => { bits := magBits m a })),
   (.vneg, false, byType (onInt fun _ a _ _ => -a) (onBits fun m a _ => { bits := magBits m a + m.signBit (!(m.signOf a)) })),
   (.vclass, false, onBits fun m a _ => { bits := fClass m a }),
   (.vpopc, false, fun ty _ a _ _ => (onesCount (typeWidth ty) a, 0)),
   (.vclz, false, fun ty _ a _ _ => (leadingZeros (typeWidth ty) a, 0))]
/-- R123: the comparisons, on two values of an integer type and on two floating values. -/
def comparisons : List ((Instr × Instr × Instr) × (Int → Int → Bool) × (FVal → FVal → Bool × Flags5)) :=
  [((.vcmpeq, .vcmpeqBcast, .vcmpeqImm), fun a b => decide (a = b), fCmpEq), ((.vcmplt, .vcmpltBcast, .vcmpltImm), fun a b => decide (a < b), fCmpLt),
   ((.vcmple, .vcmpleBcast, .vcmpleImm), fun a b => decide (a ≤ b), fCmpLe)]
/-- The three forms of an instruction. -/
def formsOf (p : Instr × Instr × Instr) : List (BForm × Instr) := [(.vector, p.1), (.broadcast, p.2.1), (.immediate, p.2.2)]
/-- R129: the reductions, whether they round, and Combine. -/
def reductions : List (Instr × Bool × ElemFn) :=
  [(.vredsum, true, byType (onInt fun _ a b _ => a + b) (onFloat fun m r a b _ => fAdd m r a b)),
   (.vredmin, false, byType (onInt fun _ a b _ => min a b) (onBits fun m a b => fPick m false a b)),
   (.vredmax, false, byType (onInt fun _ a b _ => max a b) (onBits fun m a b => fPick m true a b)),
   (.vredand, false, onInt fun ty a b _ => intAnd ty a b), (.vredor, false, onInt fun ty a b _ => intOr ty a b),
   (.vredxor, false, onInt fun ty a b _ => intXor ty a b)]

/-! ### Streams, 08_stream_registers -/

/-- The state in which a stream instruction issues: the thread's stream part counts as used, and it has a register set of the core's SSU. -/
def State.ssu (s : State) (k : CoreKey) : State :=
  (s.go.modHart s.ir.hart fun x => { x with qused := true }).modCore k fun z => { z with qsets := takeSet s.ir.hart z.qsets }
/-- The rules for lengths and class masks of R143, over the core's copies. -/
def StreamsAgree (op : Nat) (f : Slot) (t : Nat → QCopy) : Prop :=
  let a := t f.a.toNat
  let b := t f.b.toNat
  let c := t f.c.toNat
  (op = 0x181 ∨ op = 0x182 → a.len = b.len ∧ a.cls &&& b.cls = 0) ∧ (op = 0x183 ∨ op = 0x184 → a.len = b.len ∧ a.cls = b.cls) ∧
  (op = 0x185 → a.len = b.len ∧ c.len = a.len ∧ c.cls &&& (a.cls ||| b.cls) = 0)
/-- A command in the SSU's queue. -/
def State.queueSsu (s : State) (k : CoreKey) (c : SsuCmd) : State := s.modCore k fun z => { z with cmdSsu := z.cmdSsu ++ [c] }

/-! ### The matrix array, 12_matrix_instructions -/

/-- A command of the issuing hart x, before its operands. -/
def State.matCmd (s : State) (x : Hart) (op : Nat) : MatCmd :=
  { hart := s.ir.hart, op := op, slot := s.ir.slot, pc := x.pc, inRegion := x.inRegion, rev := x.revid, space := x.origin.space
    owner := x.origin.owner, job := x.origin.job, launch := x.origin.launch, acc := s.accessOf s.ir.hart 1 0 x.pc 1 }
/-- A command in the core's command queue, counted for its thread. The contraction expander's goes into the orders of the four slices at once,
and one with a result into position 0's alone (log entry 59). -/
def State.queueMat (s : State) (k : CoreKey) (c : MatCmd) : State :=
  match s.ir.hart with
  | .expander q =>
    (s.modQuad q fun y => { y with oq := Vector.ofFn fun i => if c.tag = 0 ∨ i.val = 0 then y.oq[i] ++ [c] else y.oq[i] }).modHart s.ir.hart
      fun x => { x with matrix := x.matrix + if c.tag = 0 then 4 else 1 }
  | _ => (s.modCore k fun z => { z with cmdOq := z.cmdOq ++ [c] }).modHart s.ir.hart fun x => { x with matrix := x.matrix + 1 }
/-- There is room for it (14_queues R233). -/
def State.matRoom (s : State) (k : CoreKey) (result : Bool := false) : Prop :=
  match s.ir.hart with
  | .expander q => ∀ i : Fin 4, (result = false ∨ i.val = 0) → (s.quad q).oq[i].length < 8
  | _ => (s.core k).cmdOq.length < 2
/-- An accumulating command: it belongs to the thread's round, and the thread's `gang` is used up (R198). Each of the expander's is a round of
its own. -/
def State.queueGang (s : State) (k : CoreKey) (c : MatCmd) (resume : Bool) : State :=
  let q := quadOfCore k
  let u : State := if isCtx s.ir.hart then s else { s with free := s.free + 1 }
  let r := if isCtx s.ir.hart then (s.quad q).roundOf s.ir.hart else some (s.free + 1)
  (((u.queueMat k { c with round := r, resume := resume }).modQuad q fun y =>
    { y with rounds := y.rounds.map fun m => (m.1, m.2.filter (fun z => z.2 ≠ s.ir.hart)) }).modHart s.ir.hart fun x => { x with gang := false, restartPc := none })
/-- A matrix instruction of a hart of core k may issue: a bound thread's or the expander's (R195, R196). -/
def MatrixHart (s : State) (k : CoreKey) : Prop :=
  s.coreOf s.ir.hart = some k ∧ (isCtx s.ir.hart = true ∨ ∃ q, s.ir.hart = .expander q)
/-- A tile inside the bank, R200. -/
def TileOk (f : Slot) : Prop := 1 ≤ tileM f ∧ tileM f ≤ 256 ∧ tileRow f + tileM f ≤ 256
/-- An operand that passes steps 4 and 5 of R201: path, alignment, layout, and one leased range. -/
def SpanOk (s : State) (x : Hart) (e : Word) (lo n size stride : Nat) (view r w : Bool) : Prop :=
  let a := e + BitVec.ofNat 64 lo
  (pathOf e ≤ 3 ∨ pathOf e = 4 ∧ view = true) ∧ e.toNat % size = 0 ∧ stride % size = 0 ∧ spanFits a n size = true ∧
  (pathOf e ≠ 3 → s.leasedOne x (generalVa a) (if pathOf e = 4 then generalVa (a + BitVec.ofNat 64 (n - 1)) + 2 - generalVa a else n) r w = true)

/-! ### Messages and table stores -/

/-- A die's first message of a kind, and the state in which it has been taken. -/
def State.Takes (s : State) (d : DieKey) (P : Msg → Prop) (m : Msg) (t : State) : Prop :=
  ∃ l r, (s.die d).inbox = l ++ m :: r ∧ (∀ y ∈ l, ¬P y) ∧ P m ∧ t = s.modDie d fun x => { x with inbox := l ++ r }
/-- A supervisor's store in an event: the doubleword at an offset of a die control block, and its value. -/
def Puts (s : State) (off : Nat) (v : Word) : Prop := off % 8 = 0 ∧ s.ev.n = off ∧ s.ev.value = v

end Sys2Proof.Machine
end

