-- ==== Sys2Proof/WellFormed.lean ====
section
/-! DEFINITION. Which operations are well formed: a slot the code-page scanner accepts (03_instruction_lines R52) for its instruction,
and the ranges of an event's arguments (02_machine R16 to R20). -/

namespace Sys2Proof

/-- A slot that the scanner accepts as instruction i. -/
def Slot.wellFormed (i : Instr) (f : Slot) : Bool :=
  match opcodeOf i with
  | none => false
  | some op => slotReason op f == none && (match opRow op with
    | some r => r.instrOf f == i
    | none => false)

/-- A hart that the pod can hold, R16, R20. -/
def HartId.inPod : HartId → Bool
  | .ctx c n => c < 256 * 1536 && n < 64
  | .handler d n => d < 1024 && n < 16
  | .loader c => c < 256 * 1536
  | .storer c => c < 256 * 1536
  | .tsc d n => d < 1024 && n < 8
  | .gather d => d < 1024
  | .expander q => q < 98304

/-- The arguments of an event are in the pod's ranges. -/
def EventArg.wellFormed (e : Instr) (a : EventArg) : Bool :=
  (opcodeOf e).isNone && a.hart.inPod && (match a.writer with
    | none => true
    | some h => h.inPod) && a.packet.owner.toNat < 4096 && a.packet.coreCount.toNat < 65536

end Sys2Proof
end

