-- ==== Sys2Proof/Certificates/Slice0/Obligations.lean ====
section
/-! DEFINITION. The statements of this model. Each says which rules of the spec it formalises; those that rest on a choice of the model say so. -/


open Sys2Proof Sys2Proof.Machine

/-- Every two-operand integer instruction, in its register form, writes Wrap of its result over A and B, read in the type, into d, and goes
on; sources through ports and rings and d = zero included, at the end of a loop too.

The immediate forms: B is Wrap(SExt(imm, 48), w); `sel` and `madd` take the two 24-bit parts of the immediate; `mov` writes B.

The one-source instructions, and `sel` and `madd` in their register forms. -/
def Obligations.IntegerForms : Prop :=
  (∀ row ∈ twoOperand, ∀ (s s2 t : State) (x : Hart) (a b : Word),
    Ready s x .base → Named s x [s.ir.slot.a, s.ir.slot.b] [s.ir.slot.d] →
    readRegs [s.ir.slot.a, s.ir.slot.b] s.go = .ok ([a, b], s2) →
    Gives s2 s.ir.slot.d (putInt s.ir.slot.ty.toNat (row.2.2.2 s.ir.slot.ty.toNat (intVal s.ir.slot.ty.toNat a) (intVal s.ir.slot.ty.toNat b))) t
      (quick := oneCycle row.1) →
    exec row.2.1 s = .next t) ∧
  (∀ (s : State) (x : Hart), Ready s x .base →
    (∀ row ∈ twoOperand, ∀ (s1 t : State) (a : Word), Named s x [s.ir.slot.a] [s.ir.slot.d] →
      readRegs [s.ir.slot.a] s.go = .ok ([a], s1) →
      Gives s1 s.ir.slot.d (putInt s.ir.slot.ty.toNat (row.2.2.2 s.ir.slot.ty.toNat (intVal s.ir.slot.ty.toNat a)
        (wrap s.ir.slot.ty.toNat (sext s.ir.slot.imm.toNat 48)))) t (quick := oneCycle (0x20 + row.1)) →
      exec row.2.2.1 s = .next t) ∧
    (∀ (s1 t : State) (a : Word), Named s x [s.ir.slot.a] [s.ir.slot.d] → readRegs [s.ir.slot.a] s.go = .ok ([a], s1) →
      (Gives s1 s.ir.slot.d (putInt s.ir.slot.ty.toNat (if intVal s.ir.slot.ty.toNat a ≠ 0 then sext (s.ir.slot.imm.toNat / 2 ^ 24) 24
          else sext s.ir.slot.imm.toNat 24)) t (quick := true) → exec .selImm s = .next t) ∧
      (Gives s1 s.ir.slot.d (putInt s.ir.slot.ty.toNat (intVal s.ir.slot.ty.toNat a * sext (s.ir.slot.imm.toNat / 2 ^ 24) 24 +
          sext s.ir.slot.imm.toNat 24)) t → exec .maddImm s = .next t)) ∧
    (∀ t : State, Named s x [] [s.ir.slot.d] →
      Gives s.go s.ir.slot.d (putInt s.ir.slot.ty.toNat (wrap s.ir.slot.ty.toNat (sext s.ir.slot.imm.toNat 48))) t (quick := true) →
      exec .movImm s = .next t)) ∧
  ((∀ row ∈ oneOperand, ∀ (s s1 t : State) (x : Hart) (a : Word),
    Ready s x .base → Named s x [s.ir.slot.a] [s.ir.slot.d] → readRegs [s.ir.slot.a] s.go = .ok ([a], s1) →
    Gives s1 s.ir.slot.d (putInt s.ir.slot.ty.toNat (row.2.2 s.ir.slot.ty.toNat (intVal s.ir.slot.ty.toNat a))) t (quick := true) →
    exec row.2.1 s = .next t) ∧
  (∀ (s s3 t : State) (x : Hart) (a b c : Word),
    Ready s x .base → Named s x [s.ir.slot.a, s.ir.slot.b, s.ir.slot.c] [s.ir.slot.d] →
    readRegs [s.ir.slot.a, s.ir.slot.b, s.ir.slot.c] s.go = .ok ([a, b, c], s3) →
    (Gives s3 s.ir.slot.d (putInt s.ir.slot.ty.toNat (if intVal s.ir.slot.ty.toNat a ≠ 0 then intVal s.ir.slot.ty.toNat b
      else intVal s.ir.slot.ty.toNat c)) t (quick := true) → exec .sel s = .next t) ∧
    (Gives s3 s.ir.slot.d (putInt s.ir.slot.ty.toNat (intVal s.ir.slot.ty.toNat a * intVal s.ir.slot.ty.toNat b +
      intVal s.ir.slot.ty.toNat c)) t → exec .madd s = .next t)))

/-- `bext` and `bins`: position bits 5:0 and length minus one bits 13:8 of the field source; bit i of a `bext` result is bit p + i of a below
n and, above, zero or the field's sign; bit i of a `bins` result is bit i − p of a inside the field and bit i of d outside it.

Division: `div` truncates toward zero, `rem` gives A − B × Q with the sign of A, and the two cases without a true result give the values of
the table. -/
def Obligations.BitFieldsAndDivision : Prop :=
  ((∀ (d a : Word) (p n i : Nat), p < 64 → 1 ≤ n → n ≤ 64 → i < 64 →
    ((bextOf 8 a p n).getLsbD i = (decide (i < n) && a.getLsbD (p + i))) ∧
    ((bextOf 4 a p n).getLsbD i = a.getLsbD (p + min i (n - 1))) ∧
    ((binsOf d a p n).getLsbD i = (if p ≤ i ∧ i < p + n then a.getLsbD (i - p) else d.getLsbD i))) ∧
  (∀ (s : State) (x : Hart), Ready s x .base →
    (∀ (s2 t : State) (a b : Word), Named s x [s.ir.slot.a, s.ir.slot.b] [s.ir.slot.d] →
      readRegs [s.ir.slot.a, s.ir.slot.b] s.go = .ok ([a, b], s2) →
      Gives s2 s.ir.slot.d (bextOf s.ir.slot.ty.toNat a (b.toNat % 64) (b.toNat / 256 % 64 + 1)) t (quick := true) → exec .bext s = .next t) ∧
    (∀ (s3 t : State) (a b d : Word), Named s x [s.ir.slot.a, s.ir.slot.b, s.ir.slot.d] [s.ir.slot.d] →
      readRegs [s.ir.slot.a, s.ir.slot.b, s.ir.slot.d] s.go = .ok ([a, b, d], s3) →
      Gives s3 s.ir.slot.d (binsOf d a (b.toNat % 64) (b.toNat / 256 % 64 + 1)) t (quick := true) → exec .bins s = .next t) ∧
    (∀ (s1 t : State) (a : Word), Named s x [s.ir.slot.a] [s.ir.slot.d] → readRegs [s.ir.slot.a] s.go = .ok ([a], s1) →
      Gives s1 s.ir.slot.d (bextOf s.ir.slot.ty.toNat a (s.ir.slot.imm.toNat % 64) (s.ir.slot.imm.toNat / 256 % 64 + 1)) t (quick := true) →
      exec .bextImm s = .next t) ∧
    (∀ (s2 t : State) (a d : Word), Named s x [s.ir.slot.a, s.ir.slot.d] [s.ir.slot.d] →
      readRegs [s.ir.slot.a, s.ir.slot.d] s.go = .ok ([a, d], s2) →
      Gives s2 s.ir.slot.d (binsOf d a (s.ir.slot.imm.toNat % 64) (s.ir.slot.imm.toNat / 256 % 64 + 1)) t (quick := true) →
      exec .binsImm s = .next t))) ∧
  (∀ (s s2 t : State) (x : Hart) (a b : Word), Ready s x .base → Named s x [s.ir.slot.a, s.ir.slot.b] [s.ir.slot.d] →
    readRegs [s.ir.slot.a, s.ir.slot.b] s.go = .ok ([a, b], s2) → isIntType s.ir.slot.ty.toNat = true →
    let ty := s.ir.slot.ty.toNat
    let A := intVal ty a
    let B := intVal ty b
    let w := typeWidth ty
    let corner := isSignedType ty = true ∧ A = -(2 ^ (w - 1) : Int) ∧ B = -1
    let Q : Int := if B = 0 then (if isSignedType ty = true then -1 else 2 ^ w - 1) else if corner then A else A.tdiv B
    let R : Int := if B = 0 then A else if corner then 0 else A - B * A.tdiv B
    (Gives s2 s.ir.slot.d (putInt ty Q) t → exec .div s = .next t) ∧ (Gives s2 s.ir.slot.d (putInt ty R) t → exec .rem s = .next t) ∧
    (R = 0 ∨ R.sign = A.sign))

/-- The floating instructions on two, one and three operands and the conversions: the rounding mode is fixed at issue, with its one draw
under `.sr`; the result and its flags return together.

The rounding mode: `.dyn` takes FRM; under `.sr` exactly one draw, whose upper half decides, and the counter rises by one; no other mode
draws. -/
def Obligations.FloatingForms : Prop :=
  (∀ (s : State) (x : Hart), Ready s x .float →
    (∀ row ∈ floatTwo, ∀ (s0 s2 t : State) (a b : Word) (mode : RMode), Named s x [s.ir.slot.a, s.ir.slot.b] [s.ir.slot.d] →
      (if row.2.2.1 then roundMode s.ir.slot else pure .rne) s.go = .ok (mode, s0) →
      readRegs [s.ir.slot.a, s.ir.slot.b] s0 = .ok ([a, b], s2) →
      (let r := row.2.2.2 (fmtOf s.ir.slot.ty.toNat) mode (fval s.ir.slot.ty.toNat a) (fval s.ir.slot.ty.toNat b)
       Gives s2 s.ir.slot.d (BitVec.ofNat 64 r.bits) t r.flags) → exec row.2.1 s = .next t) ∧
    (∀ row ∈ floatBitsTwo, ∀ (s2 t : State) (a b : Word), Named s x [s.ir.slot.a, s.ir.slot.b] [s.ir.slot.d] →
      readRegs [s.ir.slot.a, s.ir.slot.b] s.go = .ok ([a, b], s2) →
      (let m := fmtOf s.ir.slot.ty.toNat
       let r := row.2.2 m (a.toNat % 2 ^ m.width) (b.toNat % 2 ^ m.width)
       Gives s2 s.ir.slot.d (BitVec.ofNat 64 r.bits) t r.flags) → exec row.2.1 s = .next t) ∧
    (∀ row ∈ floatBitsOne, ∀ (s1 t : State) (a : Word), Named s x [s.ir.slot.a] [s.ir.slot.d] →
      readRegs [s.ir.slot.a] s.go = .ok ([a], s1) →
      (let m := fmtOf s.ir.slot.ty.toNat
       Gives s1 s.ir.slot.d (BitVec.ofNat 64 (row.2.2 m (a.toNat % 2 ^ m.width))) t) → exec row.2.1 s = .next t) ∧
    (∀ row ∈ conversions, ∀ (s0 s1 t : State) (a : Word) (mode : RMode), Named s x [s.ir.slot.a] [s.ir.slot.d] →
      roundMode s.ir.slot s.go = .ok (mode, s0) → readRegs [s.ir.slot.a] s0 = .ok ([a], s1) →
      (let r := row.2.2 s.ir.slot.ty.toNat (s.ir.slot.misc.toNat / 2) (s.ir.slot.misc.getLsbD 0) mode a
       Gives s1 s.ir.slot.d r.1 t r.2) → exec row.2.1 s = .next t) ∧
    (∀ (s0 s1 t : State) (a : Word) (mode : RMode), Named s x [s.ir.slot.a] [s.ir.slot.d] → roundMode s.ir.slot s.go = .ok (mode, s0) →
      readRegs [s.ir.slot.a] s0 = .ok ([a], s1) →
      (let r := fSqrt (fmtOf s.ir.slot.ty.toNat) mode (fval s.ir.slot.ty.toNat a)
       Gives s1 s.ir.slot.d (BitVec.ofNat 64 r.bits) t r.flags) → exec .fsqrt s = .next t) ∧
    (∀ (s0 s3 t : State) (a b c : Word) (mode : RMode), Named s x [s.ir.slot.a, s.ir.slot.b, s.ir.slot.c] [s.ir.slot.d] →
      roundMode s.ir.slot s.go = .ok (mode, s0) → readRegs [s.ir.slot.a, s.ir.slot.b, s.ir.slot.c] s0 = .ok ([a, b, c], s3) →
      (let ty := s.ir.slot.ty.toNat
       let r := fFma (fmtOf ty) mode (fval ty a) (fval ty b) (fval ty c)
       Gives s3 s.ir.slot.d (BitVec.ofNat 64 r.bits) t r.flags) → exec .fma s = .next t)) ∧
  (∀ (s : State) (x : Hart) (f : Slot), s.hart? s.ir.hart = some x → isThread s.ir.hart = true →
    let c := if f.rm.toNat = 7 then x.frm.toNat else f.rm.toNat
    (c = 4 → roundMode f s = .ok (.sr ((drawOf x.gen.gseed x.gen.gctr 0x01).toNat / 2 ^ 32),
      s.modHart s.ir.hart fun y => { y with gen := { y.gen with gctr := x.gen.gctr + 1 } })) ∧
    (c ≠ 4 → ∃ m, roundMode f s = .ok (m, s) ∧ (c = 0 → m = .rne) ∧ (c = 1 → m = .rtz) ∧ (c = 2 → m = .rdn) ∧ (c = 3 → m = .rup)))

/-- Branches and jumps: a taken one goes to a target that the scanner has checked or that is marked in its line; a branch not taken passes
on.

A checked transfer to a PC that breaks R34 or whose slot is not marked raises BADTARGET with XVAL the target; `jmpr` shows it. -/
def Obligations.BranchesAndJumps : Prop :=
  ((∀ row ∈ branches, ∀ (s s2 t : State) (x : Hart) (a b : Word), Ready s x .base → Named s x [s.ir.slot.a, s.ir.slot.b] [] →
    readRegs [s.ir.slot.a, s.ir.slot.b] s.go = .ok ([a, b], s2) → s2.hart? s2.ir.hart = some x →
    (if row.2.2 (intVal s.ir.slot.ty.toNat a) (intVal s.ir.slot.ty.toNat b)
      then DirectTarget s2 x (target x.pc s.ir.slot.imm) ∧ t = s2.taken (target x.pc s.ir.slot.imm) else Passes s2 t) →
    exec row.2.1 s = .next t) ∧
  (∀ (s : State) (x : Hart), Ready s x .base → DirectTarget s.go x (target x.pc s.ir.slot.imm) →
    exec .jmp s = .next (s.go.taken (target x.pc s.ir.slot.imm))) ∧
  (∀ (s s1 : State) (x : Hart) (a : Word), Ready s x .base → Named s x [s.ir.slot.a] [] → readRegs [s.ir.slot.a] s.go = .ok ([a], s1) →
    GoodTarget s1 a → exec .jmpr s = .next (s1.taken a))) ∧
  (∀ (s s1 : State) (x : Hart) (a : Word), Ready s x .base → Named s x [s.ir.slot.a] [] → readRegs [s.ir.slot.a] s.go = .ok ([a], s1) →
    (pcOk a = false ∨ ∃ l, s1.fetchLine s1.ir.hart a = .line l ∧ markedIn l a = false) →
    exec .jmpr s = .next (s.go.takeTrap s.ir.hart { cause := 0x03, xval := a, pc := x.pc, second := s.ir.second, unit := 0 }))

/-- A slide goes through the context cache: upward each register that leaves the window goes to its stack address, and a slide back brings
it from there; what a slide up by n has stored a slide down by n finds. Memory is met only when a frame below the window is written back:
that needs the lease and a right to write, and puts the frame's words at their translated addresses.

`call` and `callr`, of a drained thread with room on its register stack, slide the window up and write the frame pair: x14 the caller's
frame base, x15 the return PC. `ret` slides back by the distance to the frame base, 32, 64 or 96, and goes to the return PC.

A slide that would leave the register stack raises RSTACK-OVF or RSTACK-UNF and changes nothing; `call` shows the one, and `ret` with a
frame pair that `call` could not have written raises BADTARGET. -/
def Obligations.CallsAndReturns : Prop :=
  ((∀ (s : State) (x : Hart) (n : Nat), s.hart? s.ir.hart = some x → x.windowIn →
    (x.wbase.toNat + 8 * n + 128 ≤ x.rslim.toNat → slideUp n s = .ok ((), s.slidUp x n) ∧
      (isThread s.ir.hart = true → n ≤ 16 → ∃ y, (s.slidUp x n).hart? s.ir.hart = some y ∧
        (∀ i, i + n < 16 → y.xreg i = x.xreg (i + n)) ∧ StackHolds (s.slidUp x n) y n ((List.range n).map x.xreg))) ∧
    (∀ vs, x.rsbase.toNat + 8 * n ≤ x.wbase.toNat → StackHolds s x n vs →
      slideDown n s = .ok ((), s.modHart s.ir.hart fun _ => x.slidDown n vs))) ∧
  (∀ (s : State) (h : HartId) (x : Hart) (frame pa : Nat), s.hart? h = some x →
    let words := x.below.filter fun p => p.1 / 32 = frame
    ((∃ w ∈ words, s.leased x w.1 8 false true = false) → s.spill h frame = .lease) ∧
    ((∀ w ∈ words, s.leased x w.1 8 false true = true) →
      (s.translate (s.quadOf h) false x.origin.space (32 * frame) 1 = .noRight → s.spill h frame = .lost) ∧
      (s.translate (s.quadOf h) false x.origin.space (32 * frame) 1 = .ok pa → (s.metaWord pa 0).getLsbD 60 = false →
        s.spill h frame = .done ((s.writeFrame h pa words).modHart h fun y =>
          { y with below := y.below.filter fun p => p.1 / 32 ≠ frame }))))) ∧
  (∀ (s : State) (x : Hart), Ready s x .base → Drained s x → x.windowIn →
    (x.wbase.toNat + 8 * (4 * s.ir.slot.misc.toNat) + 128 ≤ x.rslim.toNat → DirectTarget s.go x (target x.pc s.ir.slot.imm) →
      exec .call s = .next (s.go.called x (4 * s.ir.slot.misc.toNat) (target x.pc s.ir.slot.imm))) ∧
    (∀ s1 a, Named s x [s.ir.slot.a] [] → readRegs [s.ir.slot.a] s.go = .ok ([a], s1) → GoodTarget s1 a →
      x.wbase.toNat + 8 * (4 * s.ir.slot.misc.toNat) + 128 ≤ x.rslim.toNat →
      exec .callr s = .next (s1.called x (4 * s.ir.slot.misc.toNat) a)) ∧
    (∀ d vs, (x.wbase - x.xreg 14).toNat = d → d = 32 ∨ d = 64 ∨ d = 96 →
      x.rsbase.toNat ≤ (x.xreg 14).toNat → x.rsbase.toNat + d ≤ x.wbase.toNat → GoodTarget s.go (x.xreg 15) →
      StackHolds s.go x (d / 8) vs →
      exec .ret s = .next ((s.go.modHart s.ir.hart fun _ => x.slidDown (d / 8) vs).taken (x.xreg 15)))) ∧
  ((∀ (s : State) (x : Hart) (n : Nat), s.hart? s.ir.hart = some x →
    (x.rslim.toNat < x.wbase.toNat + 8 * n + 128 → slideUp n s = .error (.trap 0x05 (x.wbase + BitVec.ofNat 64 (8 * n)))) ∧
    (x.wbase.toNat < x.rsbase.toNat + 8 * n → slideDown n s = .error (.trap 0x06 (x.wbase - BitVec.ofNat 64 (8 * n))))) ∧
  (∀ (s : State) (x : Hart), Ready s x .base → Drained s x →
    (x.rslim.toNat < x.wbase.toNat + 8 * (4 * s.ir.slot.misc.toNat) + 128 → DirectTarget s.go x (target x.pc s.ir.slot.imm) →
      exec .call s = .next (s.go.takeTrap s.ir.hart { cause := 0x05, xval := x.wbase + BitVec.ofNat 64 (8 * (4 * s.ir.slot.misc.toNat)),
                                                      pc := x.pc, second := false, unit := 0 })) ∧
    (x.absent.contains 3 = false → ¬ ((x.wbase - x.xreg 14).toNat ∈ [32, 64, 96] ∧ x.rsbase.toNat ≤ (x.xreg 14).toNat) →
      exec .ret s = .next (s.go.takeTrap s.ir.hart { cause := 0x03, xval := x.xreg 14, pc := x.pc, second := false, unit := 0 }))))

/-- `loop` sets its counter; with a count of zero the body is skipped; an end that is not above the PC raises BADTARGET.

LOOP END, which `nop` shows. With no active counter at the PC the next slot. With counters that end there, the greatest START first: one
whose count lasts goes back to its marked START, one whose count ends gives way to the next, and is reloaded where that one goes back. A
back edge to an unmarked START raises BADTARGET after the instruction's full effect, with XPC and XVAL the START.

`trap` takes TRAP ENTRY with its operand, in either mode; `region` and `regend` open and close an idempotent region; `halt` stops a
companion or firmware hart; `align` with no time passes on; otherwise it passes on and, where the launch's threads on the other cores of the
quad are held at it, releases them, and else holds its thread past itself. -/
def Obligations.LoopsHintsAndRegions : Prop :=
  (∀ (s : State) (x : Hart), Ready s x .base →
    let stop := (x.pc &&& ~~~0x3F#64) + BitVec.ofInt 64 (sext s.ir.slot.imm.toNat 24)
    let sets := fun (u : State) (n count : Nat) => u.modHart u.ir.hart fun y => y.setLoop n fun _ =>
      { start := succPc x.pc, stop := stop, reload := BitVec.ofNat 24 count, count := BitVec.ofNat 24 count }
    (∀ t, x.pc.toNat < stop.toNat →
      (let c := s.ir.slot.imm.toNat / 2 ^ 24
       if c = 0 then t = (sets s.go s.ir.slot.d.toNat c).taken (succPc stop) else Passes (sets s.go s.ir.slot.d.toNat c) t) →
      exec .loopImm s = .next t) ∧
    (∀ s1 t a, Named s x [s.ir.slot.a] [] → readRegs [s.ir.slot.a] s.go = .ok ([a], s1) → s1.hart? s1.ir.hart = some x → x.pc.toNat < stop.toNat →
      (let c := a.toNat % 2 ^ 24
       if c = 0 then t = (sets s1 s.ir.slot.d.toNat c).taken (succPc stop) else Passes (sets s1 s.ir.slot.d.toNat c) t) →
      exec .loopReg s = .next t) ∧
    (stop.toNat ≤ x.pc.toNat →
      exec .loopImm s = .next (s.go.takeTrap s.ir.hart { cause := 0x03, xval := stop, pc := x.pc, second := s.ir.second, unit := 0 }))) ∧
  (∀ (s : State) (x : Hart), Ready s x .base →
    let h := s.ir.hart
    let loop := fun (n : Nat) => x.loops.toList.getD n {}
    let less := fun (n : Nat) => { loop n with count := (loop n).count - 1 }
    let edge := fun (l : Vector Loop 3) (tgt : Word) => exec .nop s = .next (s.go.passTo l tgt)
    (endingLoops x x.pc = [] → exec .nop s = .next (s.go.passTo x.loops (succPc x.pc))) ∧
    (∀ n r, n < 3 → endingLoops x x.pc = n :: r → (loop n).count ≠ 1 →
      (GoodTarget s.go (loop n).start → edge (x.loops.setIfInBounds n (less n)) (loop n).start) ∧
      (∀ l, s.go.fetchLine h (loop n).start = .line l → markedIn l (loop n).start = false →
        exec .nop s = .next ((s.go.passTo (x.loops.setIfInBounds n (less n)) (loop n).start).takeTrap h
          { cause := 0x03, xval := (loop n).start, pc := (loop n).start, second := s.ir.second, unit := unitOf s.ir.op }))) ∧
    (∀ n, n < 3 → endingLoops x x.pc = [n] → (loop n).count = 1 → edge (x.loops.setIfInBounds n { loop n with count := 0 }) (succPc x.pc)) ∧
    (∀ n m r, n < 3 → m < 3 → n ≠ m → endingLoops x x.pc = n :: m :: r → (loop n).count = 1 → (loop m).count ≠ 1 → GoodTarget s.go (loop m).start →
      edge ((x.loops.setIfInBounds n { loop n with count := (loop n).reload }).setIfInBounds m (less m)) (loop m).start)) ∧
  (∀ (s : State) (x : Hart), s.hart? s.ir.hart = some x →
    (Ready s x .base → exec .trap s = .next (s.go.takeTrap s.ir.hart
      { cause := 0x0E, xval := BitVec.ofNat 64 (s.ir.slot.imm.toNat % 2 ^ 16), pc := x.pc, second := s.ir.second, unit := 0, marker := s.ir.marker })) ∧
    (∀ t, Ready s x .regions → Passes (s.go.modHart s.ir.hart fun y => { y with rpc := succPc y.pc, inRegion := true, restarts := 0 }) t →
      exec .region s = .next t) ∧
    (∀ t, Ready s x .regions → Drained s x → Passes (s.go.modHart s.ir.hart fun y => { y with inRegion := false, restarts := 0 }) t →
      exec .regend s = .next t) ∧
    (∀ t, Ready s x .halt → Passes s.go t →
      exec .halt s = .next (t.modHart s.ir.hart fun y => { y with phase := .halted, outstanding := [], parked := false })) ∧
    (∀ t, Ready s x .align → s.ir.slot.imm.toNat % 2 ^ 16 = 0 → Passes s.go t → exec .align s = .next t) ∧
    (∀ t c, Ready s x .align → s.ir.slot.imm.toNat % 2 ^ 16 ≠ 0 → Passes s.go t → t.coreOf s.ir.hart = some c →
      let mark := (posOfCore c, x.pc, x.origin.launch)
      (t.alignMet c x.origin.launch x.pc = true → exec .align s = .next (t.alignRelease (quadOfCore c) x.origin.launch x.pc)) ∧
      (t.alignMet c x.origin.launch x.pc = false →
        exec .align s = .next ((t.modQuad (quadOfCore c) fun y =>
          { y with aligned := if y.aligned.contains mark then y.aligned else y.aligned ++ [mark] }).modHart s.ir.hart fun y =>
            { y with wait := some (.align x.pc), stalled := true }))))

/-- TRAP ENTRY of a drained thread with a handler and room on its register stack: the slide by 12, XCAUSE, XPC, XVAL, PMODE, supervisor
mode, TRAPPED, and the PC at TENTRY; after `trap` XPC is the next slot.

A trap that waits for the thread's results, a second trap, one without a handler and one without room on the stack. -/
def Obligations.TrapEntry : Prop :=
  (∀ (s : State) (h : HartId) (x : Hart) (t : TrapReq), isThread h = true → s.hart? h = some x → x.outstanding = [] → x.windowIn →
    x.trap.trapped = false → s.ctlGet (dieOfHart h) 0x100 ≠ 0 → x.wbase.toNat + 96 + 128 ≤ x.rslim.toNat →
    let y := (x.slidUp x 12).entered x t (s.ctlGet (dieOfHart h) 0x100)
    s.takeTrap h t = s.trapEntered h x t ∧
    y.trap = { xcause := xcauseOf t, xpc := if t.cause = 0x0E then succPc t.pc else t.pc, xval := t.xval, mode := true,
               pmode := x.trap.mode, trapped := true } ∧
    y.pc = s.ctlGet (dieOfHart h) 0x100 ∧ y.wbase = x.wbase + 96 ∧ y.parked = t.marker ∧ (∀ i < 4, y.xreg i = x.xreg (i + 12)) ∧
    (∀ i, 4 ≤ i → i < 16 → y.xreg i = 0)) ∧
  (∀ (s : State) (h : HartId) (x : Hart) (t : TrapReq), isThread h = true → s.hart? h = some x →
    (x.outstanding ≠ [] → ∃ y, (s.takeTrap h t).hart? h = some y ∧ y.pendingTrap = some t ∧ y.pc = x.pc ∧ y.regs = x.regs ∧ y.trap = x.trap) ∧
    (x.outstanding = [] → x.trap.trapped = true → s.takeTrap h t = (s.trapping h).endThread h 0x22 t.cause) ∧
    (x.outstanding = [] → x.trap.trapped = false → s.ctlGet (dieOfHart h) 0x100 = 0 → s.takeTrap h t = (s.trapping h).endThread h t.cause 0) ∧
    (x.outstanding = [] → x.trap.trapped = false → s.ctlGet (dieOfHart h) 0x100 ≠ 0 → x.rslim.toNat < x.wbase.toNat + 96 + 128 →
      s.takeTrap h t = (s.trapping h).endThread h 0x22 t.cause))

/-- `xret`: PRIV in user mode, ILLCLASS without a trap; it waits for the thread's results; then it slides back, restores the mode and goes
to XPC unchecked; an XPC that breaks R34, or a window that cannot slide back, ends the thread with NESTED. -/
def Obligations.TrapReturn : Prop :=
  ∀ (s : State) (x : Hart), Ready s x .xret →
    (x.trap.mode = false → exec .xret s = .next (s.go.takeTrap s.ir.hart { cause := 0x02, xval := 0, pc := x.pc, second := s.ir.second, unit := 0 })) ∧
    (x.trap.mode = true → x.trap.trapped = false →
      exec .xret s = .next (s.go.takeTrap s.ir.hart { cause := 0x01, xval := 0, pc := x.pc, second := s.ir.second, unit := 0 })) ∧
    (∀ vs, x.trap.mode = true → x.trap.trapped = true → Drained s x → x.windowIn → pcOk x.trap.xpc = true → x.rsbase.toNat + 96 ≤ x.wbase.toNat →
      StackHolds s.go.counted x 12 vs →
      let y := (x.slidDown 12 vs).restored
      exec .xret s = .next (s.go.counted.returned x vs) ∧
      y.pc = x.trap.xpc ∧ y.trap = { x.trap with mode := x.trap.pmode, trapped := false } ∧ y.wbase = x.wbase - 96 ∧
      (x.deposits = [] → (∀ i, i < 4 → y.xreg (i + 12) = x.xreg i) ∧ ∀ i, i < 12 → y.xreg i = vs.getD i 0)) ∧
    (x.trap.mode = true → x.trap.trapped = true → s.ir.second = false → x.outstanding ≠ [] → ∃ t, exec .xret s = .next t ∧ t.ir.result = .stalled) ∧
    (x.trap.mode = true → x.trap.trapped = true → Drained s x → isThread s.ir.hart = true →
      (pcOk x.trap.xpc = false → exec .xret s = .next (s.go.endThread s.ir.hart 0x22 0x03)) ∧
      (pcOk x.trap.xpc = true → x.wbase.toNat < x.rsbase.toNat + 96 → exec .xret s = .next (s.go.endThread s.ir.hart 0x22 0x06)))

/-- The loads `ld`, `ldx` and `ldacq`: address, checks, the value read and its register write; `ldacq` acquires at its scope.

The register write of a load: the value in its type; poisoned data of a thread becomes an outstanding result that is consumed at its
return; a read of a revoked access-table entry returns later.

A stream load of main memory by a thread: the bytes at the translated address under the core's own buffered stores, little-endian; L1 is
as it was. -/
def Obligations.Loads : Prop :=
  (∀ (s s2 s3 s4 : State) (x : Hart) (a b : Word) (r : Word × Bool),
    let f := s.ir.slot
    let n := sizeOf8 f.ty.toNat
    (∀ s1 t, Ready s x .mem → Named s x [f.a] [f.d] → readRegs [f.a] s.go = .ok ([a], s1) →
      checkAccess (some f.path.toNat) (a + f.imm.signExtend 64) n n true false s1 = .ok ((), s2) →
      loadAt (a + f.imm.signExtend 64) f.ty.toNat s2 = .ok (r, s3) → loadResult f (a + f.imm.signExtend 64) r s3 = .ok ((), s4) →
      Passes s4 t → exec .ld s = .next t) ∧
    (∀ s1 t, let e := a + (b <<< (f.misc.toNat % 4)) + f.imm.signExtend 64
      Ready s x .mem → Named s x [f.a, f.b] [f.d] → readRegs [f.a, f.b] s.go = .ok ([a, b], s1) →
      checkAccess (some f.path.toNat) e n n true false s1 = .ok ((), s2) →
      loadAt e f.ty.toNat s2 = .ok (r, s3) → loadResult f e r s3 = .ok ((), s4) → Passes s4 t → exec .ldx s = .next t) ∧
    (∀ s1 s5 t, let e := a + f.imm.signExtend 64
      Ready s x .acqrel → Named s x [f.a] [f.d] → readRegs [f.a] s.go = .ok ([a], s1) →
      checkAccess (some f.path.toNat) e n n true false s1 = .ok ((), s2) →
      loadAt e f.ty.toNat s2 = .ok (r, s3) → loadResult f e r s3 = .ok ((), s4) → acquireM (f.misc.toNat % 8) s4 = .ok ((), s5) →
      Passes s5 t → exec .ldacq s = .next t)) ∧
  (∀ (s s1 : State) (f : Slot) (e v : Word) (ws : List RegWrite), isThread s.ir.hart = true →
    destReg f.d (if isIntType f.ty.toNat then putInt f.ty.toNat v.toNat else BitVec.ofNat 64 v.toNat) s = .ok (ws, s1) →
    (pathOf e ≠ 6 → loadResult f e (v, false) s = .ok ((), s1.owe ws) ∧ loadResult f e (v, true) s = .ok ((), s1.owe ws (poison := some e))) ∧
    (pathOf e = 6 → inAperture e = false → e.toNat % 2 ^ 40 / 32 * 32 = e.toNat % 2 ^ 40 → 0x180000 ≤ e.toNat % 2 ^ 40 →
      e.toNat % 2 ^ 40 < 0x188000 → v.getLsbD 62 = true → ∃ tag, loadResult f e (v, false) s = .ok ((), s1.owe ws (returned := false) (tag := tag)))) ∧
  (∀ (s : State) (x : Hart) (c : CoreKey) (e : Word) (ty pa : Nat), s.hart? s.ir.hart = some x → x.migratory = false → pathOf e = 1 →
    s.translate (s.quadOf s.ir.hart) false x.origin.space (e.toNat % 2 ^ 57) 0 = .ok pa → Reaches s x pa (sizeOf8 ty) →
    s.homeStatus s.ir.hart pa (sizeOf8 ty) false = 0 → s.regionFor s.ir.hart (e.toNat % 2 ^ 57) = none → s.coreOf s.ir.hart = some c →
    ∃ t, loadAt e ty s = .ok ((BitVec.ofNat 64 (leNat (overlay (s.core c).wbuf 0 pa (s.bytes pa (sizeOf8 ty)))), s.isPoisoned pa (sizeOf8 ty)), t) ∧
      (t.core c).l1 = (s.core c).l1 ∧ t.harts = s.harts ∧ (homeOf pa = dieOfHart s.ir.hart → t.mem = s.mem))

/-- The stores `st`, `stx` and `strel`; `strel` releases at its scope before it stores.

The expander only loads: its stores raise ILLCLASS.

A store of main memory by a thread enters its core's write-through buffer: the bytes at the translated address, nothing in memory. -/
def Obligations.Stores : Prop :=
  (∀ (s s2 s3 s4 : State) (x : Hart) (a b v : Word),
    let f := s.ir.slot
    let n := sizeOf8 f.ty.toNat
    (∀ s1 t, let e := a + f.imm.signExtend 64
      Ready s x .mem → (∀ q, s.ir.hart ≠ .expander q) → Named s x [f.a, f.d] [] → readRegs [f.a] s.go = .ok ([a], s1) →
      checkAccess (some f.path.toNat) e n n false true s1 = .ok ((), s2) → readReg f.d s2 = .ok (v, s3) →
      storeAt e f.ty.toNat v s3 = .ok ((), s4) → Passes s4 t → exec .st s = .next t) ∧
    (∀ s1 t, let e := a + (b <<< (f.misc.toNat % 4)) + f.imm.signExtend 64
      Ready s x .mem → (∀ q, s.ir.hart ≠ .expander q) → Named s x [f.a, f.b, f.d] [] → readRegs [f.a, f.b] s.go = .ok ([a, b], s1) →
      checkAccess (some f.path.toNat) e n n false true s1 = .ok ((), s2) → readReg f.d s2 = .ok (v, s3) →
      storeAt e f.ty.toNat v s3 = .ok ((), s4) → Passes s4 t → exec .stx s = .next t) ∧
    (∀ s1 s5 t, let e := a + f.imm.signExtend 64
      Ready s x .acqrel → Named s x [f.a, f.d] [] → readRegs [f.a] s.go = .ok ([a], s1) →
      checkAccess (some f.path.toNat) e n n false true s1 = .ok ((), s2) → readReg f.d s2 = .ok (v, s3) →
      releaseM (f.misc.toNat % 8) s3 = .ok ((), s4) → storeAt e f.ty.toNat v s4 = .ok ((), s5) → Passes s5 t → exec .strel s = .next t)) ∧
  (∀ (s : State) (x : Hart) (q : QuadKey), s.ir.hart = .expander q → Ready s x .mem → ∀ i ∈ [Instr.st, Instr.stx],
    exec i s = .next (s.go.takeTrap (.expander q) { cause := 0x01, xval := 0, pc := x.pc, second := s.ir.second, unit := 3 })) ∧
  (∀ (s : State) (x : Hart) (c : CoreKey) (e v : Word) (ty pa : Nat), s.hart? s.ir.hart = some x → x.migratory = false → pathOf e ≤ 1 →
    s.translate (s.quadOf s.ir.hart) false x.origin.space (e.toNat % 2 ^ 57) 1 = .ok pa → Reaches s x pa (sizeOf8 ty) →
    s.regionFor s.ir.hart (e.toNat % 2 ^ 57) = none → s.coreOf s.ir.hart = some c → dieOfHart s.ir.hart = homeOf pa →
    (s.core c).wbuf.length < Config.writeBufferSize →
    ∃ t b, storeAt e ty v s = .ok ((), t) ∧ (t.core c).wbuf = (s.core c).wbuf ++ [b] ∧ b.hart = s.ir.hart ∧ b.va = e ∧ b.pc = x.pc ∧
      b.cells = cellsAt pa (leBytes (sizeOf8 ty) v.toNat) ∧ b.rev = 0 ∧ t.mem = s.mem ∧ t.harts = s.harts)

/-- The checks of a thread's access: user mode on path 6 is PRIV; another path than the field's, a bad layout and a misaligned address are
ACCESS with the address; a general address that the leases do not cover ends the thread with LEASE; what passes them changes nothing. -/
def Obligations.AccessChecks : Prop :=
  ∀ (s : State) (x : Hart) (p : Nat) (e : Word) (n align : Nat) (r w : Bool), s.hart? s.ir.hart = some x → isThread s.ir.hart = true →
    let general := pathOf e = 0 ∨ pathOf e = 1 ∨ pathOf e = 2 ∨ pathOf e = 4
    let leased := s.leased x (generalVa e) (if pathOf e = 4 then 2 else n) r w
    (pathOf e = 6 → x.trap.mode = false → checkAccess (some p) e n align r w s = .error (.trap 0x02 0)) ∧
    ((pathOf e = 6 → x.trap.mode = true) →
      (p ≠ pathOf e ∨ layoutOk e n = false ∨ e.toNat % align ≠ 0 → checkAccess (some p) e n align r w s = .error (.trap 0x04 e)) ∧
      (p = pathOf e → layoutOk e n = true → e.toNat % align = 0 →
        (general → leased = false → checkAccess (some p) e n align r w s = .error (.endThread 0x20 0)) ∧
        ((general → leased = true) → checkAccess (some p) e n align r w s = .ok ((), s))))

/-- Loads and stores of the on-chip window by a thread: the scratchpad bytes of the core that the address names, and every other byte of
memory as before; one that the owner of another partition has opened no window to gives zero, or stores nothing, with its status; `ld` and
`st` show them whole.

A scratchpad lock, of a thread with an aligned scratchpad address on path 3: `ldlk` takes a free one, or the one that the bank has granted
it, with its load; where it is held it waits in the bank's queue; a thread that holds one already raises ACCESS; `stul` stores and frees the
lock that its thread holds, and raises ACCESS without it. -/
def Obligations.Scratchpad : Prop :=
  ((∀ (s : State) (x : Hart) (e v : Word) (ty : Nat), s.hart? s.ir.hart = some x → WinReaches s e → pathOf e = 3 → winRegion e.toNat = 0 →
    let k := windowKey (dieOfHart s.ir.hart / 4) e.toNat
    let n := sizeOf8 ty
    let src := dieOfHart s.ir.hart
    let noted := fun (kind st : Nat) => s.addAccess s.ir.hart { kind := kind, addr := e, pc := x.pc, status := st }
    (s.winStatus src x.origin.owner e.toNat n false = 0 → loadAt e ty s = .ok ((BitVec.ofNat 64 (s.num k n), s.isPoisoned k n), s)) ∧
    (∀ st, s.winStatus src x.origin.owner e.toNat n false = st → st ≠ 0 → loadAt e ty s = .ok ((0, false), noted 1 st)) ∧
    (s.winStatus src x.origin.owner e.toNat n true = 0 → storeAt e ty v s = .ok ((), s.putNum k n (v.toNat % 2 ^ (8 * n)))) ∧
    (∀ st, s.winStatus src x.origin.owner e.toNat n true = st → st ≠ 0 → storeAt e ty v s = .ok ((), noted 0 st)) ∧
    (∀ a, ¬(k ≤ a ∧ a < k + n) → (s.putNum k n (v.toNat % 2 ^ (8 * n))).byte a = s.byte a)) ∧
  (∀ (s s1 : State) (x : Hart) (a : Word),
    let f := s.ir.slot
    let n := sizeOf8 f.ty.toNat
    let e := a + f.imm.signExtend 64
    let k := windowKey (dieOfHart s.ir.hart / 4) e.toNat
    Ready s x .mem → isThread s.ir.hart = true → readRegs [f.a] s.go = .ok ([a], s1) → f.path.toNat = 3 → pathOf e = 3 →
    winRegion e.toNat = 0 → layoutOk e n = true → e.toNat % n = 0 →
    (∀ t, Named s x [f.a] [f.d] → WinReaches s1 e → s1.winStatus (dieOfHart s.ir.hart) x.origin.owner e.toNat n false = 0 →
      s1.isPoisoned k n = false → Gives s1 f.d (loadValue f.ty.toNat (BitVec.ofNat 64 (s1.num k n)).toNat) t → exec .ld s = .next t) ∧
    (∀ s2 t v, Named s x [f.a, f.d] [] → readReg f.d s1 = .ok (v, s2) → WinReaches s2 e →
      s2.winStatus (dieOfHart s.ir.hart) x.origin.owner e.toNat n true = 0 →
      Passes (s2.putNum k n (v.toNat % 2 ^ (8 * n))) t → exec .st s = .next t))) ∧
  (∀ (s s1 : State) (x : Hart) (a : Word),
    let f := s.ir.slot
    let h := s.ir.hart
    let n := sizeOf8 f.ty.toNat
    let e := a + f.imm.signExtend 64
    let k := windowKey (dieOfHart h / 4) e.toNat
    let c := winCore (dieOfHart h / 4) e.toNat
    let b := 8 * (e.toNat / 2 ^ 14 % 32) + (e.toNat / 2 ^ 6 % 8 ^^^ e.toNat / 2 ^ 9 % 8)
    let traps := s.go.takeTrap h { cause := 0x04, xval := e, pc := x.pc, second := s.ir.second, unit := 3 }
    let holds := (s1.modCore c fun k => { k with locks := (b, h) :: k.locks.filter (fun l => l.1 ≠ b) }).modHart h
      fun z => { z with lock := some (c, b / 8, b % 8), grant := none }
    let free := (s1.core c).locks.any (fun l => l.1 == b) = false ∧ (s1.core c).lockq.any (fun l => l.1 == b) = false
    Ready s x .lock → readRegs [f.a] s.go = .ok ([a], s1) → f.path.toNat = 3 → pathOf e = 3 → winRegion e.toNat = 0 →
    layoutOk e n = true → e.toNat % n = 0 →
    (∀ t, Named s x [f.a] [f.d] → x.grant = some 6 ∨ x.lock = none ∧ free → WinReaches s1 e →
      s1.winStatus (dieOfHart h) x.origin.owner e.toNat n false = 0 →
      s1.isPoisoned k n = false → Gives holds f.d (loadValue f.ty.toNat (BitVec.ofNat 64 (s1.num k n)).toNat) t → exec .ldlk s = .next t) ∧
    (Named s x [f.a] [f.d] → x.lock = none → x.grant ≠ some 6 → WinReaches s1 e → s1.winStatus (dieOfHart h) x.origin.owner e.toNat n false = 0 → ¬free →
      exec .ldlk s = .next (s.stalledBy fun s =>
        (s.modCore c fun k => { k with lockq := if k.lockq.contains (b, h) then k.lockq else k.lockq ++ [(b, h)] }).modHart h
          fun y => { y with wait := some (.lock c (b / 8) (b % 8)) })) ∧
    (Named s x [f.a] [f.d] → x.lock ≠ none → x.grant ≠ some 6 → exec .ldlk s = .next traps) ∧
    (∀ s2 v t, Named s x [f.a, f.d] [] → x.lock = some (c, b / 8, b % 8) → readReg f.d s1 = .ok (v, s2) → WinReaches s2 e →
      s2.winStatus (dieOfHart h) x.origin.owner e.toNat n true = 0 →
      Passes (((s2.putNum k n (v.toNat % 2 ^ (8 * n))).modCore c fun k => { k with locks := k.locks.filter (fun l => l.1 ≠ b) }).modHart h
        fun z => { z with lock := none }) t → exec .stul s = .next t) ∧
    (Named s x [f.a, f.d] [] → x.lock ≠ some (c, b / 8, b % 8) → exec .stul s = .next traps))

/-- `amo` and `cas`: a release where the ordering asks, the atomic at its home, d given the old value in its type, an acquire where asked.

An atomic in main memory by a thread, outside every region and page on the move: the old value returned, the new one at its bytes and
nowhere else; off paths 0, 1 and 3 it is ACCESS, or PRIV on path 6 in user mode. -/
def Obligations.Atomics : Prop :=
  (∀ (s s1 s2 s3 s4 s5 s6 s7 s8 t : State) (x : Hart) (a c d : Word) (r : Word × Flags5 × Bool) (v : Word × Option Word) (ws : List RegWrite),
    let f := s.ir.slot
    let n := sizeOf8 f.ty.toNat
    let e := a + f.imm.signExtend 64
    let rel := if f.misc.toNat / 32 = 1 then releaseM f.path.toNat else pure ()
    let acq := if f.misc.toNat / 16 % 2 = 1 then acquireM f.path.toNat else pure ()
    Ready s x .amo → pathOf e ≠ 2 → pathOf e ≠ 4 → pathOf e ≠ 6 → readRegs [f.a] s.go = .ok ([a], s1) →
    checkAccess none e n n true true s1 = .ok ((), s2) → poisonFor 2 e r.2.2 (loadValue f.ty.toNat r.1.toNat) s5 = .ok (v, s6) →
    destReg f.d v.1 s6 = .ok (ws, s7) → acq (s7.owe ws r.2.1 v.2) = .ok ((), s8) → Passes s8 t →
    (Named s x [f.a, f.c] [f.d] → readRegs [f.c] s2 = .ok ([c], s3) → rel s3 = .ok ((), s4) → AtomicStep f e false c 0 s4 r s5 →
      exec .amo s = .next t) ∧
    (Named s x [f.a, f.c, f.d] [f.d] → readRegs [f.c, f.d] s2 = .ok ([c, d], s3) → rel s3 = .ok ((), s4) → AtomicStep f e true c d s4 r s5 →
      exec .cas s = .next t)) ∧
  ((∀ (s : State) (x : Hart) (f : Slot) (e c d : Word) (isCas : Bool) (pa : Nat) (k : CoreKey), s.hart? s.ir.hart = some x → x.migratory = false →
    s.coreOf s.ir.hart = some k → (s.core k).wbuf = [] →
    s.translate (s.quadOf s.ir.hart) false x.origin.space (generalVa e) 3 = .ok pa → Reaches s x pa (sizeOf8 f.ty.toNat) →
    homeOf pa = dieOfHart s.ir.hart → s.regionFor s.ir.hart (generalVa e) = none → s.granted pa = false →
    s.homeStatus s.ir.hart pa (sizeOf8 f.ty.toNat) true = 0 → s.isPoisoned pa (sizeOf8 f.ty.toNat) = false →
    let old := leNat (s.bytes pa (sizeOf8 f.ty.toNat))
    let new := atomicNew isCas (f.misc.toNat % 16) f.ty.toNat old c.toNat d.toNat
    ∃ t, atomicMain f e isCas c d s = .ok ((BitVec.ofNat 64 old, new.2, false), t) ∧
      t.mem = (s.putCells (cellsAt pa (leBytes (sizeOf8 f.ty.toNat) new.1))).mem) ∧
  (∀ (s s1 : State) (x : Hart) (a : Word), let f := s.ir.slot
    let e := a + f.imm.signExtend 64
    Ready s x .amo → Named s x [f.a, f.c] [f.d] → isThread s.ir.hart = true → readRegs [f.a] s.go = .ok ([a], s1) →
    (pathOf e = 2 ∨ pathOf e = 4 ∨ pathOf e = 6) →
    (let priv := pathOf e = 6 ∧ x.trap.mode = false
     exec .amo s = .next (s.go.takeTrap s.ir.hart
      { cause := (if priv then 0x02 else 0x04), xval := (if priv then 0 else e), pc := x.pc, second := s.ir.second, unit := 3 }))))

/-- `amor` and `casr` put their request on its way to the home of the address, under the token's serial, and leave d and b outstanding under
one tag.

`fence` with nothing to wait for releases and acquires as its bits say; with something, it stays open, and the thread goes on to the next
instruction that it orders, which waits. `drainst` gives and clears the count of store faults once the thread's stores have their status;
`pf` passes on whatever the address. -/
def Obligations.TokenAtomicsAndFences : Prop :=
  (∀ (s s1 s2 s3 s4 s5 s6 : State) (x y : Hart) (a b c d : Word) (pa : Nat) (dw bw : List RegWrite),
    let f := s.ir.slot
    let n := sizeOf8 f.ty.toNat
    let e := a + f.imm.signExtend 64
    let rel := if f.misc.toNat / 32 = 1 then releaseM f.path.toNat else pure ()
    let done := fun (isCas : Bool) (newVal : Word) (t : State) =>
      ∃ z p r, t.ir.result = .issued ∧ t.hart? s.ir.hart = some z ∧ z.pc = succPc y.pc ∧
        z.outstanding = y.outstanding ++ [p] ∧ p.returned = false ∧ p.writes = dw ++ bw ∧
        r ∈ (t.die (dieOfHart s.ir.hart)).asked ∧ r.tag = p.tag ∧ r.hart = s.ir.hart ∧ r.pa = pa ∧ r.isCas = isCas ∧ r.op = f.misc.toNat % 16 ∧
        r.operand = c ∧ r.newVal = newVal ∧ r.token = b.toNat % 2 ^ 16 ∧ r.retry = (b.toNat / 2 ^ 16 % 256 = 3)
    Ready s x .amoTok → isCtx s.ir.hart = true → pathOf e ≠ 2 → pathOf e ≠ 4 → pathOf e ≠ 6 → readRegs [f.a] s.go = .ok ([a], s1) →
    checkAccess none e n n true true s1 = .ok ((), s2) → rel s3 = .ok ((), s4) → s4.ir = s.go.ir → s4.hart? s.ir.hart = some y →
    TokenTarget s4 y e n pa → (∀ k, s.coreOf s.ir.hart = some k → (s4.core k).wbuf = []) →
    destReg f.d 0 (match s.coreOf s.ir.hart with
      | some k => s4.modCore k fun z => { z with l1 := z.l1.filter (fun l => l.line != pa / 64) }
      | none => s4) = .ok (dw, s5) → destReg f.b 0 s5 = .ok (bw, s6) → endingLoops y y.pc = [] →
    (Named s x [f.a, f.b, f.c] [f.d, f.b] → readRegs [f.b, f.c] s2 = .ok ([b, c], s3) → ∃ t, exec .amor s = .next t ∧ done false 0 t) ∧
    (Named s x [f.a, f.b, f.c, f.d] [f.d, f.b] → readRegs [f.b, f.c, f.d] s2 = .ok ([b, c, d], s3) → ∃ t, exec .casr s = .next t ∧ done true d t)) ∧
  (∀ (s : State) (x : Hart), s.hart? s.ir.hart = some x →
    let h := s.ir.hart
    let scope := s.ir.slot.path.toNat
    let kind := s.ir.slot.misc.toNat % 4
    (∀ t, Ready s x .fence → x.outstanding.any (fun p => !p.returned) = false → s.go.ssuMemory h = false → s.go.releaseOpen h scope = false →
      (4 ≤ scope → s.go.releaseDests h scope = []) → Passes (if kind % 2 = 1 then s.go.acquire h scope else s.go) t → exec .fence s = .next t) ∧
    (∀ t, Ready s x .fence → kind ≠ 0 → x.outstanding.any (fun p => !p.returned) = true →
      Passes (s.go.modHart h fun y => { y with fence := some (kind, scope) }) t → exec .fence s = .next t) ∧
    (∀ k sc, x.fence = some (k, sc) → k % 4 ≠ 0 → x.outstanding.any (fun p => !p.returned) = true → mayUse h x.migratory .mem = true →
      ∃ t, exec .ld s = .next t ∧ t.ir.result = .stalled) ∧
    (∀ ws s1 t, Ready s x .drain → Named s x [] [s.ir.slot.d] → x.accesses = [] → x.outstanding.any (fun p => !p.returned) = false →
      s.go.ssuMemory h = false → (∀ c, s.coreOf h = some c → (s.core c).wbuf.any (fun b => b.hart == h) = false) →
      destReg s.ir.slot.d (x.sfc.setWidth 64) s.go = .ok (ws, s1) → s1.ir = s.go.ir →
      Passes ((s1.owe ws).modHart h fun y => { y with sfc := 0 }) t → exec .drainst s = .next t) ∧
    (∀ s1 a, Ready s x .prefetch → Named s x [s.ir.slot.a] [] → readRegs [s.ir.slot.a] s.go = .ok ([a], s1) → s1.hart? h = some x →
      s1.ir = s.go.ir → endingLoops x x.pc = [] →
      ∃ t, exec .pf s = .next t ∧ t.mem = s1.mem ∧ t.hart? h = some (x.past (succPc x.pc) s.ir.marker)))

/-- `sysr` writes the register that its number names to d; `sysw` writes it.

What reading a system register gives: each number's register, and the trap registers only in supervisor mode. -/
def Obligations.SystemRegisterReads : Prop :=
  (∀ (s : State) (x : Hart), Ready s x .sys →
    (∀ s1 v t, Named s x [] [s.ir.slot.d] → readSys (s.ir.slot.imm.toNat % 256) s.go = .ok (v, s1) → Gives s1 s.ir.slot.d v t → exec .sysr s = .next t) ∧
    (∀ s1 s2 a t, Named s x [s.ir.slot.a] [] → sysWritable (s.ir.slot.imm.toNat % 256) s.go = .ok ((), s.go) →
      readRegs [s.ir.slot.a] s.go = .ok ([a], s1) → writeSys (s.ir.slot.imm.toNat % 256) a s1 = .ok ((), s2) →
      Passes s2 t → exec .sysw s = .next t)) ∧
  (∀ (s : State) (x : Hart), s.hart? s.ir.hart = some x →
    (x.trap.mode = true → readSys 0x00 s = .ok (x.trap.xcause.setWidth 64, s) ∧ readSys 0x01 s = .ok (x.trap.xpc, s) ∧
      readSys 0x02 s = .ok (x.trap.xval, s)) ∧
    (x.trap.mode = false → ∀ n < 3, readSys n s = .error (.trap 0x02 0)) ∧
    readSys 0x03 s = .ok (x.rpc, s) ∧ readSys 0x04 s = .ok (x.fflags.setWidth 64, s) ∧ readSys 0x05 s = .ok (x.frm.setWidth 64, s) ∧
    readSys 0x06 s = .ok (x.gen.gseed, s) ∧ readSys 0x07 s = .ok (x.gen.gctr, s) ∧ readSys 0x08 s = .ok (x.live.setWidth 64, s) ∧
    readSys 0x09 s = .ok (if x.migratory then 0 else x.depmask.setWidth 64, s) ∧
    readSys 0x0A s = .ok (x.rsbase, s) ∧ readSys 0x0B s = .ok (x.rslim, s) ∧ readSys 0x0C s = .ok (x.wbase, s) ∧ readSys 0x0D s = .ok (x.jobid, s) ∧
    (∀ c, s.coreOf s.ir.hart = some c → readSys 0x0E s = .ok (BitVec.ofNat 64 (lcoreOf c), s)) ∧
    readSys 0x0F s = .ok ((s.die (dieOfHart s.ir.hart)).incarn.setWidth 64, s) ∧
    (x.trap.mode = true → ∀ n, 0x10 ≤ n → n ≤ 0x13 → readSys n s = .ok ((s.die (dieOfHart s.ir.hart)).tagen.extractLsb' (64 * (n - 0x10)) 64, s)) ∧
    (∀ n, 0x18 ≤ n → readSys n s = .error (.trap 0x01 0)))

/-- What writing a system register does: the fields it keeps, PRIV in user mode for the trap and window registers, ILLCLASS for the registers
that cannot be written, and for RSBASE and RSLIM in a migratory thread, which has no DEPMASK. RSBASE and RSLIM are multiples of 32 and WBASE
one of 8 between them; the faults of a write that would break this are the model's choice (log entry 58). -/
def Obligations.SystemRegisterWrite : Prop :=
  ∀ (s : State) (x : Hart) (v : Word), s.hart? s.ir.hart = some x →
    let put := fun (f : Hart → Hart) => Except.ok (ε := Stop) ((), s.modHart s.ir.hart f)
    (x.trap.mode = true →
      writeSys 0x00 v s = put (fun y => { y with trap := { y.trap with xcause := v.setWidth 32 &&& 0xC0FF00FF } }) ∧
      writeSys 0x01 v s = put (fun y => { y with trap := { y.trap with xpc := v } }) ∧
      writeSys 0x02 v s = put (fun y => { y with trap := { y.trap with xval := v } }) ∧
      (x.migratory = false → v.toNat % 32 = 0 → v.toNat ≤ x.wbase.toNat → x.wbase.toNat ≤ x.rslim.toNat →
        writeSys 0x0A v s = put (fun y => { y with rsbase := v })) ∧
      (x.migratory = false → v.toNat % 32 = 0 → x.rsbase.toNat ≤ x.wbase.toNat → x.wbase.toNat ≤ v.toNat →
        writeSys 0x0B v s = put (fun y => { y with rslim := v })) ∧
      (v.toNat % 8 = 0 → x.rsbase.toNat ≤ v.toNat → v.toNat ≤ x.rslim.toNat → writeSys 0x0C v s = put (fun y => { y with wbase := v })) ∧
      (v.toNat % 8 ≠ 0 → writeSys 0x0C v s = .error (.trap 0x04 v)) ∧
      (v.toNat % 8 = 0 → v.toNat < x.rsbase.toNat → writeSys 0x0C v s = .error (.trap 0x06 v)) ∧
      (v.toNat % 8 = 0 → x.rsbase.toNat ≤ v.toNat → x.rslim.toNat < v.toNat → writeSys 0x0C v s = .error (.trap 0x05 v)) ∧
      (∀ n, 0x10 ≤ n → n ≤ 0x13 → writeSys n v s = .ok ((), s.modDie (dieOfHart s.ir.hart) fun d => { d with tagen := putTagWord d.tagen (n - 0x10) v }))) ∧
    (x.trap.mode = false → (∀ n ∈ [0x00, 0x01, 0x02, 0x0C], writeSys n v s = .error (.trap 0x02 0)) ∧
      (x.migratory = false → ∀ n ∈ [0x0A, 0x0B], writeSys n v s = .error (.trap 0x02 0)) ∧
      (isCtx s.ir.hart = true → ∀ n ∈ [0x10, 0x11, 0x12, 0x13], writeSys n v s = .error (.trap 0x02 0))) ∧
    (x.migratory = true → writeSys 0x0A v s = .error (.trap 0x01 0) ∧ writeSys 0x0B v s = .error (.trap 0x01 0) ∧ writeSys 0x09 v s = .ok ((), s)) ∧
    writeSys 0x04 v s = put (fun y => { y with fflags := BitVec.ofNat 32 (v.toNat % 32) }) ∧
    writeSys 0x05 v s = put (fun y => { y with frm := if 4 < v.toNat % 8 then 0 else BitVec.ofNat 3 (v.toNat % 8) }) ∧
    writeSys 0x06 v s = put (fun y => { y with gen := { y.gen with gseed := v } }) ∧
    writeSys 0x07 v s = put (fun y => { y with gen := { y.gen with gctr := v } }) ∧
    writeSys 0x08 v s = put (fun y => { y with live := v.setWidth 16 }) ∧
    (x.migratory = false → writeSys 0x09 v s = put (fun y => { y with depmask := v.setWidth 16 })) ∧
    (∀ n ∈ [0x03, 0x0D, 0x0E, 0x0F, 0x14, 0x15, 0x16, 0x17, 0x18], writeSys n v s = .error (.trap 0x01 0))

/-- `tlbw`: a good entry for one of the die's TLBs is written, the misses it answers are gone and their harts retry; with the fault bit the
misses become page faults; a bad target or entry is ACCESS.

A TLB lookup: an entry of the address's page and space gives the frame with the offset, the 64 KiB one before the 512 MiB one, when it has
the right; a new entry is found at once.

The system instructions that a thread in user mode may not run raise PRIV; `ctxsave` and `ctxload` of the thread's own context raise
ILLCLASS, in either mode.

`tlbinv`, `replay`, `l1inv` and `wfm`: entries of the package removed at once, and the thread goes on once the package's accesses are
done; the parked accesses of the die, or of the package, retried; the core's L1 emptied; a miss message taken by a translation service core,
which waits where there is none. -/
def Obligations.TlbAndTranslation : Prop :=
  (∀ (s s1 : State) (x : Hart) (w0 w1 w : Word), Ready s x .tlb → (isThread s.ir.hart = false ∨ x.trap.mode = true) →
    readRange s.ir.slot.a.toNat 3 s.go = .ok ([w0, w1, w], s1) → s1.ir = s.go.ir →
    let d := dieOfHart s.ir.hart
    let e := entryOf w0 w1
    (∀ q pipe t, tlbTarget d (w.toNat % 256) = some (q, pipe) → entryOk w0 w1 = true →
      (let mine := fun (m : Miss) => m.quad == q && m.loadPipe == pipe && e.covers m.space m.page
       let ms := (s1.die d).misses.filter mine
       let s2 := s1.modDie d fun y => { y with misses := y.misses.filter fun m => !mine m, walking := y.walking.filter fun w => !mine w.2.1 }
       (w.toNat < 256 → Passes ((s2.modQuad q fun z => z.tlbWrite pipe e).wake q pipe e) t → exec .tlbw s = .next t) ∧
       (256 ≤ w.toNat → w.toNat < 512 → (s1.die d).parkedMiss.length + ms.length ≤ 4096 →
        Passes (ms.foldl (fun s m => s.pageFault (m.waiters.headD (.ctx 0 0)) q pipe m.space (m.page * 2 ^ 16) m.kind m.waiters) s2) t →
        exec .tlbw s = .next t))) ∧
    (tlbTarget d (w.toNat % 256) = none ∨ 512 ≤ w.toNat ∨ entryOk w0 w1 = false →
      exec .tlbw s = .next (s.go.takeTrap s.ir.hart { cause := 0x04, xval := w, pc := x.pc, second := s.ir.second, unit := 0 }))) ∧
  (∀ (s : State) (q : QuadKey) (pipe : Bool) (e : TlbEntry) (space va kind : Nat), e.hits space va = true → e.big = false →
    ((s.modQuad q fun z => z.tlbWrite pipe e).translate q pipe space va kind =
      if e.allows kind then .ok (e.frame * 2 ^ 16 + va % 2 ^ 16) else .noRight) ∧
    (e.allows 0 = e.r ∧ e.allows 1 = e.w ∧ e.allows 2 = e.x ∧ e.allows 3 = e.w)) ∧
  (∀ (s : State) (x : Hart), s.hart? s.ir.hart = some x → isThread s.ir.hart = true → x.migratory = false →
    let traps := fun cause => s.go.takeTrap s.ir.hart { cause := cause, xval := 0, pc := x.pc, second := s.ir.second, unit := 0 }
    (x.trap.mode = false →
      (∀ i ∈ [Instr.tlbw, .tlbinv, .replay, .ecclr, .wfm], exec i s = .next (traps 0x02)) ∧
      (Named s x [s.ir.slot.a] [] → exec .ecset s = .next (traps 0x02))) ∧
    (∀ s1 a, Named s x [s.ir.slot.a] [s.ir.slot.d] → readRegs [s.ir.slot.a] s.go = .ok ([a], s1) →
      let named := HartId.ctx (1536 * (dieOfHart s.ir.hart / 4) + a.toNat % 2 ^ 11) (a.toNat / 2 ^ 16 % 64)
      ∀ i ∈ [Instr.ctxsave, .ctxload],
        (s.ir.hart = named → exec i s = .next (traps 0x01)) ∧ (s.ir.hart ≠ named → x.trap.mode = false → exec i s = .next (traps 0x02)))) ∧
  (∀ (s : State) (x : Hart), s.hart? s.ir.hart = some x → (isThread s.ir.hart = false ∨ x.trap.mode = true) →
    let pkg := dieOfHart s.ir.hart / 4
    let kill := fun (k va space : Nat) (e : TlbEntry) => if invHits k va space e then { e with dead := true } else e
    let removed := fun (k va space : Nat) (u : State) => { u with quads := u.quads.map fun p => if dieOfQuad p.1 / 4 = pkg then
      (p.1, { p.2 with tlb := p.2.tlb.map (kill k va space), pipeTlb := p.2.pipeTlb.map (kill k va space) }) else p }
    (∀ s1 va space t, Ready s x .tlb → s.ir.slot.imm.toNat % 4 < 2 → readRange s.ir.slot.a.toNat 2 s.go = .ok ([va, space], s1) → s1.ir = s.go.ir →
      (s1.accessesLeft pkg = false → Passes (removed (s.ir.slot.imm.toNat % 4) va.toNat space.toNat s1) t → exec .tlbinv s = .next t) ∧
      (s1.accessesLeft pkg = true → exec .tlbinv s = .next (s.stalledBy (removed (s.ir.slot.imm.toNat % 4) va.toNat space.toNat)))) ∧
    (∀ t, Ready s x .tlb → s.ir.slot.imm.toNat % 4 = 2 → s.go.accessesLeft pkg = false →
      Passes { s.go with quads := s.quads.map fun p => if dieOfQuad p.1 / 4 = pkg then
        (p.1, { p.2 with tlb := p.2.tlb.map fun e => { e with dead := true }, pipeTlb := p.2.pipeTlb.map fun e => { e with dead := true } }) else p } t →
      exec .tlbinv s = .next t) ∧
    (∀ t, Ready s x .sys → (if s.ir.slot.imm.getLsbD 0 then Passes ((List.range 4).foldl (fun u i => u.replayDie (4 * pkg + i)) s.go) t
      else Passes (s.go.replayDie (dieOfHart s.ir.hart)) t) → exec .replay s = .next t) ∧
    (∀ c t, Ready s x .sys → s.coreOf s.ir.hart = some c → Passes (s.go.modCore c fun k => { k with l1 := [] }) t → exec .l1inv s = .next t) ∧
    (∀ d n, s.ir.hart = .tsc d n →
      (∀ m r s1 t, (s.die d).missq.toList.getD n [] = m :: r →
        writeRange s.ir.slot.d.toNat m.words (s.go.modDie d fun y =>
          { y with missq := y.missq.setIfInBounds n r, walking := setKey n (m, x.pc) y.walking }) = .ok ((), s1) → Passes s1 t →
        exec .wfm s = .next t) ∧
      ((s.die d).missq.toList.getD n [] = [] →
        exec .wfm s = .next (s.stalledBy fun s => s.modHart (.tsc d n) fun y => { y with wait := some .request }))))

/-- `ctxsave` and `ctxload` leave d outstanding until the target core answers: 1 where no thread is, 2 where its state does not fit, at once;
a save of a live thread asks it to be pre-empted, a load brings a pre-empted one back.

The event-counter instructions: `ecrd` reads the count, `ecset` selects and clears, `ecclr` clears the count and the overflow bit; an
unassigned selection is ACCESS. -/
def Obligations.ContextsAndCounters : Prop :=
  (∀ (s s1 s2 : State) (x : Hart) (a : Word) (ws : List RegWrite), Ready s x .sys → (isThread s.ir.hart = false ∨ x.trap.mode = true) →
    Named s x [s.ir.slot.a] [s.ir.slot.d] → readRegs [s.ir.slot.a] s.go = .ok ([a], s1) → s1.ir = s.go.ir →
    let d := dieOfHart s.ir.hart
    let c := 1536 * (d / 4) + a.toNat % 2 ^ 11
    let slot := a.toNat / 2 ^ 16 % 64
    let sent := ({ s2 with free := s2.free + 1 }).owe ws (returned := false) (tag := s2.free + 1)
    s.ir.hart ≠ .ctx c slot → destReg s.ir.slot.d 0 s1 = .ok (ws, s2) → s2.ir = s.go.ir →
    ∀ load, ∀ i, (i, load) ∈ [(Instr.ctxsave, false), (Instr.ctxload, true)] → ∀ t,
      (1535 < a.toNat % 2 ^ 11 → Passes (sent.returnTag s.ir.hart (s2.free + 1) 1) t → exec i s = .next t) ∧
      (a.toNat % 2 ^ 11 ≤ 1535 → dieOfCore c = d →
        (let r := sent.ctxRequest s.ir.hart (s2.free + 1) load c slot
         Passes (match r.2 with
          | some v => r.1.returnTag s.ir.hart (s2.free + 1) (BitVec.ofNat 64 v)
          | none => r.1) t) → exec i s = .next t) ∧
      (a.toNat % 2 ^ 11 ≤ 1535 → dieOfCore c ≠ d → Passes (sent.send d (dieOfCore c) 4 (.ctxReq s.ir.hart (s2.free + 1) load c slot)) t →
        exec i s = .next t)) ∧
  (∀ (s : State) (x : Hart) (c : CoreKey), Ready s x .sys → x.trap.mode = true → s.coreOf s.ir.hart = some c →
    let k := s.ir.slot.imm.toNat % 64
    let o := counterOff c k
    let d := dieOfCore c
    (∀ t, Named s x [] [s.ir.slot.d] → Gives s.go s.ir.slot.d (s.ctlGet d (o + 8)) t → exec .ecrd s = .next t) ∧
    (∀ s1 a t, Named s x [s.ir.slot.a] [] → readRegs [s.ir.slot.a] s.go = .ok ([a], s1) → s1.coreOf s1.ir.hart = some c →
      (let w := a &&& ~~~(1#64 <<< 62)
       (counterBad (32 ≤ k) w = false → Passes ((s1.ctlPut d o w).ctlPut d (o + 8) 0) t → exec .ecset s = .next t) ∧
       (counterBad (32 ≤ k) w = true → exec .ecset s = .next (s.go.takeTrap s.ir.hart { cause := 0x04, xval := a, pc := x.pc, second := s.ir.second, unit := 0 })))) ∧
    (∀ t, Passes ((s.go.ctlPut d (o + 8) 0).ctlPut d o (s.ctlGet d o &&& ~~~(1#64 <<< 62))) t → exec .ecclr s = .next t))

/-- `spawn` and `post`: a handle where the child starts, 1 where no context is free and 0 where no cell is; a task sent to the home of its
element and counted in its launch, and ACCESS for an element that the launch has not. In a revision other than the root both raise ILLCLASS. -/
def Obligations.SpawnAndPost : Prop :=
  ∀ (s : State) (x : Hart), Ready s x .task →
    let f := s.ir.slot
    let traps := fun cause v => s.go.takeTrap s.ir.hart { cause := cause, xval := v, pc := x.pc, second := s.ir.second, unit := 0 }
    (x.revid ≠ 0 → ∀ i ∈ [Instr.spawn, .post], exec i s = .next (traps 0x01 0)) ∧
    (x.revid = 0 → Named s x [f.b] [f.d] → ∀ args s1 c, readRange f.a.toNat (f.misc.toNat % 32) s.go = .ok (args, s1) →
      s1.coreOf s1.ir.hart = some c →
      (∀ t, (∀ j < 256, ((s1.core c).future j).valid = true) → Gives s1 f.d 0 t → exec .spawn s = .next t) ∧
      (∀ s2 t, (∃ j < 256, ((s1.core c).future j).valid = false) → spawnPlace f.b s1 = .ok (none, s2) → Gives s2 f.d 1 t → exec .spawn s = .next t) ∧
      (∀ hd k slot s2 s3 y t, (∃ j < 256, ((s1.core c).future j).valid = false) → spawnPlace f.b s1 = .ok (some (k, slot), s2) →
        allocM s2 = .ok (some hd, s3) → s3.hart? s3.ir.hart = some y →
        (let o : Origin := { launch := y.origin.launch, owner := y.origin.owner, space := y.origin.space, job := y.origin.job, parent := some hd }
         let child := s3.startHart k slot o (target y.pc f.imm) args (s3.stackFor k slot (y.rsbase, y.rslim)) y.prio
         Gives ((s3.placeHart (.ctx k slot) { child with migratory := f.misc.getLsbD 5 }).liveUp y.origin.launch) f.d hd t) →
        exec .spawn s = .next t)) ∧
    (x.revid = 0 → Named s x [f.a] [] → ∀ e s1, readRegs [f.a] s.go = .ok ([e], s1) → s1.hart? s1.ir.hart = some x →
      (∀ l launch t, x.origin.launch = some l → s1.launch? l = some launch → e.toNat < launch.count →
        (let home := launch.home e.toNat
         let d := dieOfHart s1.ir.hart
         let task : Task := { launch := l, elem := e.toNat, entry := target x.pc f.imm, prio := launch.prio }
         let z := s1.die home
         ReleaseDone s1 x (if home / 4 = d / 4 then 4 else 5) → LinkFree s1 home 3 → (z.enter task).isSome = true →
         z.readyUsed + z.spill.length + z.postsHere < 8192 + 16777216 →
         Passes ((s1.modLaunch l fun z => { z with tasks := z.tasks + 1 }).send d home 3 (.post task) x.origin.owner) t →
         exec .post s = .next t)) ∧
      ((∀ l launch, x.origin.launch = some l → s1.launch? l = some launch → launch.count ≤ e.toNat) → exec .post s = .next (traps 0x04 e)))

/-- `yield` parks the thread; `fget` of a full cell takes the value, acquires and frees the cell, and of an empty one suspends the thread;
`fput` sends the fill; `fput.new` allocates; `fpoll` tells whether the cell is full; a handle that names no cell of the thread is ACCESS.

A future cell: the lowest free one of the core, with its count of uses raised by one, empty, and owned by the thread. -/
def Obligations.Futures : Prop :=
  (∀ (s : State) (x : Hart), s.hart? s.ir.hart = some x →
    let f := s.ir.slot
    let h := s.ir.hart
    (∀ t, Ready s x .control → Passes s.go t → exec .yield s = .next (t.modHart h fun y => { y with parked := true })) ∧
    (∀ a s1 i cell, Ready s x .task → Named s x [f.a] [f.d] → readRegs [f.a] s.go = .ok ([a], s1) → ownCell a s1 = .ok ((i, cell), s1) →
      (∀ ws s2 c t, cell.full = true → LoadsDone s.go x → destReg f.d (putInt f.ty.toNat (intVal f.ty.toNat cell.value)) s1 = .ok (ws, s2) →
        s.coreOf h = some c → Passes (freeCell c i ((s2.owe ws).acquire h 4)) t → exec .fget s = .next t) ∧
      (cell.full = false → exec .fget s = .next (s.stalledBy fun s => s.suspend h (.future i))) ∧
      (∀ t, Gives s1 f.d (if cell.full then 1 else 0) t → exec .fpoll s = .next t)) ∧
    (∀ a s1 c, Ready s x .task → Named s x [f.a] [f.d] → readRegs [f.a] s.go = .ok ([a], s1) → s1.coreOf s1.ir.hart = some c →
      let cell := (s1.core c).future (handleCell a)
      let own := a.toNat / 2 ^ 40 = 3 ∧ handleCore a = lcoreOf c ∧ cell.valid = true ∧ cell.gen.toNat = handleGen a ∧ cell.owner = some h
      (own → ownCell a s1 = .ok ((handleCell a, cell), s1)) ∧
      (¬own → ∀ i ∈ [Instr.fget, .fpoll],
        exec i s = .next (s.go.takeTrap h { cause := 0x04, xval := a, pc := x.pc, second := s.ir.second, unit := 0 }))) ∧
    (∀ a b s1 t, Ready s x .task → Named s x [f.a, f.b] [] → readRegs [f.a, f.b] s.go = .ok ([a, b], s1) → ReleaseDone s1 x 4 →
      LinkFree s1 (dieOfCore (1536 * (dieOfHart h / 4) + handleCore a % 1536)) 1 →
      Passes (s1.sendFill (dieOfHart h) (dieOfHart h / 4) a b (some (h, s1.accessOf h 0 a x.pc 1)) x.origin.owner) t →
      exec .fput s = .next t) ∧
    (∀ v s1 t, Ready s x .task → Named s x [] [f.d] → allocM s.go = .ok (v, s1) → Gives s1 f.d (v.getD 0) t → exec .fputNew s = .next t)) ∧
  (∀ (s : State) (c : CoreKey) (i : Nat), s.coreOf s.ir.hart = some c → i < 256 → ((s.core c).future i).valid = false →
    (∀ j < i, ((s.core c).future j).valid = true) →
    ∃ t, allocM s = .ok (some (mkHandle (lcoreOf c) i (((s.core c).future i).gen + 1).toNat), t) ∧
      (t.core c).future i = { value := 0, full := false, owner := some s.ir.hart, valid := true, gen := ((s.core c).future i).gen + 1 } ∧
      (∀ j, j ≠ i → (t.core c).future j = (s.core c).future j) ∧ t.harts = s.harts ∧ t.mem = s.mem)

/-- `done` of a thread, drained and with its accesses and engine work done, stops the thread with its value for its parent, or as faulted with
the trap's cause where it is in a trap; `done` and `hret` of a handler release at the package and end it, and its reply goes to its cell. A
thread that stops with nothing to wait for leaves its context free.

`bar`: a count of zero is ACCESS; an arrival releases at the scope, is counted at the first instance that is not complete, and waits for
that instance; a released arrival acquires and goes on. -/
def Obligations.ThreadEndAndBarriers : Prop :=
  ((∀ (s s1 : State) (x : Hart) (v : Word), Ready s x .control → isCtx s.ir.hart = true → Named s x [s.ir.slot.a] [] →
    readRegs [s.ir.slot.a] s.go = .ok ([v], s1) → s1.ir = s.go.ir → s1.hart? s.ir.hart = some x → Drained s x → x.accesses = [] → x.matrix = 0 →
    (∀ c, s.coreOf s.ir.hart = some c → (s1.core c).wbuf.any (fun b => b.hart == s.ir.hart) = false ∧
      (s1.core c).cmdSsu.any (fun q => q.hart == s.ir.hart) = false ∧ (s1.core c).ssu.any (fun q => q.hart == s.ir.hart) = false) →
    exec .done s = .next (s1.counted.stopWith s.ir.hart
      { cause := if x.trap.trapped then x.trap.xcause.toNat % 256 else 0, faulted := x.trap.trapped, fill := some v })) ∧
  (∀ (s : State) (x : Hart) (d : DieKey) (n : Nat), s.ir.hart = .handler d n → s.hart? (.handler d n) = some x → Drained s x → x.migratory = false →
    ReleaseDone s.go x 4 → x.absent.contains 0 = false →
    let sent := match x.origin.reply with
      | some (pkg, cell) => s.go.counted.sendFill d pkg cell (x.xreg 0) none x.origin.owner
      | none => s.go.counted
    (Named s x [s.ir.slot.a] [] → exec .done s = .next (sent.stopWith (.handler d n)
      { cause := if x.trap.trapped then x.trap.xcause.toNat % 256 else 0, faulted := x.trap.trapped })) ∧
    exec .hret s = .next (sent.stopWith (.handler d n) { cause := 0, faulted := false })) ∧
  (∀ (s : State) (h : HartId) (x : Hart) (e : Ending), s.hart? h = some x → e.fill = none → s.childrenOf h = [] →
    (∀ c, s.coreOf h = some c → (s.core c).ssu.any (fun q => q.hart == h) = false) → (s.stopWith h e).hart? h = none)) ∧
  (∀ (s : State) (x : Hart), Ready s x .task →
    let h := s.ir.hart
    let n := s.ir.slot.imm.toNat % 2 ^ 24
    let scope := s.ir.slot.path.toNat
    (n = 0 → exec .bar s = .next (s.go.takeTrap h { cause := 0x04, xval := 0, pc := x.pc, second := s.ir.second, unit := 0 })) ∧
    (∀ t, n ≠ 0 → x.grant = some 5 → LoadsDone s.go x → Passes (s.go.acquire h scope) t → exec .bar s = .next t) ∧
    (∀ c, n ≠ 0 → x.grant ≠ some 5 → ReleaseDone s.go x scope → s.coreOf h = some c →
      let root := barrierRoot scope (scopeInst scope c)
      exec .bar s = .next (s.stalledBy fun s => s.arrive h (x.origin.launch.getD 0) scope (scopeInst scope c) s.ir.slot.misc.toNat n) ∧
      ((s.arrive h (x.origin.launch.getD 0) scope (scopeInst scope c) s.ir.slot.misc.toNat n).die root).barriers =
        arriveAt (x.origin.launch.getD 0) scope (scopeInst scope c) s.ir.slot.misc.toNat n (s.free + 1) h (s.die root).barriers))

/-- `send`, `enq`, `amsg` and `amsgr`: the message built from its registers or memory, to the die, core and ring that the destination word
names; an acknowledged or answered one has a future cell, and its handle goes to d, or 0 where no cell is free.

A packet of a message instruction: into the send queue of 16, where a full one is SENDFULL, or, speculative, into the hold buffer of 32. -/
def Obligations.Messages : Prop :=
  (∀ (s : State) (x : Hart) (c : CoreKey), Ready s x .task → s.coreOf s.ir.hart = some c →
    let f := s.ir.slot
    let h := s.ir.hart
    let o := x.origin.owner
    let refused := fun (u : State) (w : Word) => u.accessOf h 0 w x.pc 1
    let active := fun (u : State) (w : Word) (args : List Word) (reply : Option Word) =>
      Msg.active h x.pc (w.toNat % 256) (f.misc.getLsbD 3) (if f.misc.getLsbD 3 then 0 else target x.pc f.imm) args reply o (refused u w) c
    (∀ ws w s1 s2 s3 t, Named s x [f.b] [] → readRange f.a.toNat (f.misc.toNat % 8) s.go = .ok (ws, s1) → readReg f.b s1 = .ok (w, s2) →
      sendPacket (f.misc.getLsbD 4) (destDie w) (.enqueue h (destCore w) (destRing w) (wordBytes ws) none o (refused s2 w) c) false s2 = .ok ((), s3) →
      RingTakes s2 x w (8 * (f.misc.toNat % 8)) → Passes s3 t → exec .send s = .next t) ∧
    (∀ e w s1 s2, let m := f.imm.toNat % 2 ^ 13
      readRegs [f.a, f.b] s.go = .ok ([e, w], s1) → checkSpan e m true false s1 = .ok ((), s2) → m ≤ 4088 →
      (∀ s3 s4 bs t, f.misc.getLsbD 0 = false → Named s x [f.a, f.b] [] → s2.hart? s2.ir.hart = some x → s2.ir = s.go.ir →
        loadSpan e m s2 = .ok (some bs, s3) →
        sendPacket false (destDie w) (.enqueue h (destCore w) (destRing w) bs none o (refused s2 w) c) false s3 = .ok ((), s4) →
        s3.ir = s.go.ir → (∃ y, s3.hart? h = some y ∧ RingTakes s3 y w m) → Passes s4 t → exec .enq s = .next t) ∧
      (∀ v s3 s4 s5 bs t, f.misc.getLsbD 0 = true → Named s x [f.a, f.b] [f.d] → allocM s2 = .ok (some v, s3) → s3.ir = s.go.ir →
        loadSpan e m s3 = .ok (some bs, s4) → s4.ir = s.go.ir → (∃ y, s4.hart? h = some y ∧ RingTakes s4 y w m) →
        sendPacket false (destDie w) (.enqueue h (destCore w) (destRing w) bs (some (dieOfHart h / 4, v)) o (refused s3 w) c) true s4 = .ok ((), s5) →
        Gives s5 f.d v t → exec .enq s = .next t) ∧
      (∀ s3 t, f.misc.getLsbD 0 = true → Named s x [f.a, f.b] [f.d] → allocM s2 = .ok (none, s3) → Gives s3 f.d 0 t → exec .enq s = .next t)) ∧
    (∀ w args s1 s2 s3 t, Named s x [f.b] [] → readRange f.a.toNat (f.misc.toNat % 8) s.go = .ok (args, s1) → readReg f.b s1 = .ok (w, s2) →
      sendPacket (f.misc.getLsbD 4) (destDie w) (active s2 w args none) false s2 = .ok ((), s3) → Passes s3 t → exec .amsg s = .next t) ∧
    (Named s x [f.b] [f.d] →
      (∀ s1 t, allocM s.go = .ok (none, s1) → Gives s1 f.d 0 t → exec .amsgr s = .next t) ∧
      (∀ v w args s1 s2 s3 s4 t, allocM s.go = .ok (some v, s1) → readRange f.a.toNat (f.misc.toNat % 8) s1 = .ok (args, s2) →
        readReg f.b s2 = .ok (w, s3) → sendPacket false (destDie w) (active s3 w args (some v)) false s3 = .ok ((), s4) →
        Gives s4 f.d v t → exec .amsgr s = .next t))) ∧
  (∀ (s : State) (x : Hart) (c : CoreKey) (dst : DieKey) (m : Msg) (acked : Bool), s.hart? s.ir.hart = some x → s.coreOf s.ir.hart = some c →
    let p : Packet := { src := dieOfHart s.ir.hart, dst := dst, vn := 2, owner := x.origin.owner, acked := acked, core := some c, msg := m }
    let q := (s.core c).sendq.toList.getD 2 []
    (16 ≤ q.length → sendPacket false dst m acked s = .error (.trap 0x0A 2)) ∧
    (q.length < 16 → sendPacket false dst m acked s =
      .ok ((), s.modCore c fun k => { k with sendq := k.sendq.setIfInBounds 2 (k.sendq.toList.getD 2 [] ++ [p]) })) ∧
    (32 ≤ (s.core c).hold.length → sendPacket true dst m acked s = .error (.trap 0x0B 0)) ∧
    ((s.core c).hold.length < 32 → sendPacket true dst m acked s = .ok ((), s.modCore c fun k => { k with hold := k.hold ++ [(s.ir.hart, p)] })))

/-- `recv` takes the head message of a ring: its header and its first words, zero beyond its length, and frees its slots; an empty ring
stalls it. `commit` moves the held packets to the send queue and counts them; `abort` drops and counts them.

`tagset` and `tagclr` by a handler or a supervisor: they enable or disable a route tag, or set and clear its local message. -/
def Obligations.ReceiveCommitAndTags : Prop :=
  (∀ (s : State) (x : Hart) (c : CoreKey), Ready s x .task → s.coreOf s.ir.hart = some c →
    let f := s.ir.slot
    let g := s.ring c (f.imm.toNat % 8)
    (g.cap ≠ 0 → g.filled = 0 → ∃ t, exec .recv s = .next t ∧ t.ir.result = .stalled) ∧
    (∀ s1 t, g.cap ≠ 0 → g.filled ≠ 0 →
      (let hd := leNat (getRing s c g g.head 0 8)
       let m := hd % 2 ^ 13
       let words := (List.range (f.misc.toNat % 8)).map fun i => BitVec.ofNat 64 (leNat ((getRing s c g g.head (8 + 8 * i) 8).take (min 8 (m - 8 * i))))
       writeRange f.d.toNat (BitVec.ofNat 64 hd :: words) s.go = .ok ((), s1) →
       Passes (s1.setRing c (f.imm.toNat % 8) (g.freeHead ((8 + m + 63) / 64))) t → exec .recv s = .next t)) ∧
    (let n := (heldOf (s.core c) s.ir.hart).length
     (∀ t, Named s x [] [f.d] → x.grant = none → n + ((s.core c).sendq.toList.getD 2 []).length ≤ 16 →
       Gives (moveHeld c s.ir.hart n s.go) f.d (BitVec.ofNat 64 n) t → exec .commit s = .next t) ∧
     (∀ t, Named s x [] [f.d] →
       Gives (s.go.modCore c fun k => { k with hold := k.hold.filter (fun p => p.1 ≠ s.ir.hart) }) f.d (BitVec.ofNat 64 n) t → exec .abort s = .next t))) ∧
  (∀ (s s1 : State) (x y : Hart) (a : Word), Ready s x .task → Named s x [s.ir.slot.a] [] → readRegs [s.ir.slot.a] s.go = .ok ([a], s1) →
    s1.ir = s.go.ir → s1.hart? s.ir.hart = some y →
    let n := a.toNat % 256
    let d := dieOfHart s.ir.hart
    (tagAllowed s.ir.hart x = false → ∀ i ∈ [Instr.tagset, .tagclr],
      exec i s = .next (s.go.takeTrap s.ir.hart { cause := 0x01, xval := 0, pc := x.pc, second := s.ir.second, unit := 0 })) ∧
    (tagAllowed s.ir.hart x = true → s.ir.slot.misc.getLsbD 0 = false → ∀ t,
      (Passes (s1.modDie d fun z => { z with tagen := z.tagen ||| (1#256 <<< n) }) t → exec .tagset s = .next t) ∧
      (Passes (s1.modDie d fun z => { z with tagen := z.tagen &&& ~~~(1#256 <<< n) }) t → exec .tagclr s = .next t)) ∧
    (tagAllowed s.ir.hart x = true → s.ir.slot.misc.getLsbD 0 = true →
      (∀ c t, s.coreOf s.ir.hart = some c →
         (let a : Access := { kind := 0, addr := 0, pc := y.pc, status := 1 }
          let m : TagMsg := { msg := .active s.ir.hart y.pc n true 0 [] none y.origin.owner a c, loc := true, prio := s1.tagPrio d n }
          Passes (s1.modDie d fun z => if (z.tagQueue n).isEmpty then z.setTagQueue n [m] else z) t) → exec .tagset s = .next t) ∧
      (∀ t, Passes (s1.modDie d fun z => z.setTagQueue n ((z.tagQueue n).filter fun m => !m.loc)) t → exec .tagclr s = .next t)))

/-- `kick` releases at the core and queues a companion's start; `mbwait` takes a full mailbox, clears it and acquires, and waits while it is
empty; `gath` and `scat` queue a gather command with a future cell.

`freq` performs a request of the gather engine, under its command's owner, with the lowest free tag, and `fresp` takes the oldest answer:
tag and status, then the datum in the next register; with no free tag, or no answer, each waits. -/
def Obligations.EngineCommands : Prop :=
  (∀ (s : State) (x : Hart) (c : CoreKey), Ready s x .task → s.coreOf s.ir.hart = some c →
    let f := s.ir.slot
    (∀ a b s1 t, Named s x [f.a, f.b] [] → readRegs [f.a, f.b] s.go = .ok ([a, b], s1) → ReleaseDone s1 x 1 →
      (let k : Kick := { pc := a, arg := b, rev := x.revid, space := x.origin.space, launch := x.origin.launch, owner := x.origin.owner }
       (f.misc.getLsbD 0 = false → (s1.core c).cmdLd.length < 2 → Passes (s1.modCore c fun z => { z with cmdLd := z.cmdLd ++ [k] }) t →
         exec .kick s = .next t) ∧
       (f.misc.getLsbD 0 = true → (s1.core c).cmdSt.length < 2 → Passes (s1.modCore c fun z => { z with cmdSt := z.cmdSt ++ [k] }) t →
         exec .kick s = .next t))) ∧
    (let k := scratchKey c (if f.misc.getLsbD 0 then 0x7FFF8 else 0x7FFF0)
     (∀ ws s1 t, Named s x [] [f.d] → (s.word k).getLsbD 63 = true → LoadsDone s.go x → destReg f.d (s.word k) s.go = .ok (ws, s1) →
       Passes (((s1.owe ws).putWord k 0).acquire s.ir.hart 1) t → exec .mbwait s = .next t) ∧
     (Named s x [] [f.d] → (s.word k).getLsbD 63 = false → ∃ t, exec .mbwait s = .next t ∧ t.ir.result = .stalled)) ∧
    (∀ i ∈ [Instr.gath, .scat], ∀ a s1, Named s x [f.a] [f.d] → readRegs [f.a] s.go = .ok ([a], s1) →
      (∀ s2 t, allocM s1 = .ok (none, s2) → Gives s2 f.d 0 t → exec i s = .next t) ∧
      (∀ v s2 t, allocM s1 = .ok (some v, s2) → ReleaseDone s2 x 1 → (s2.core c).cmdGe.length < 2 →
        (let o := x.origin
         let g : GatCmd :=
          { hart := s.ir.hart, scatter := i == .scat, addr0 := a, cell := v, pc := x.pc, rev := x.revid, space := o.space, owner := o.owner
            launch := o.launch, job := o.job, acc := s2.accessOf s.ir.hart 0 a x.pc 1 }
         Gives (s2.modCore c fun k => { k with cmdGe := k.cmdGe ++ [g] }) f.d v t) →
        exec i s = .next t))) ∧
  (∀ (s : State) (x : Hart) (d : DieKey), Ready s x .freq → s.ir.hart = .gather d →
    let f := s.ir.slot
    (∀ a b s1, readRegs [f.a, f.b] s.go = .ok ([a, b], s1) →
      let used := fun (j : Nat) => ((s1.die d).freq.map (·.1)).contains j
      (∀ tag t, tag < 64 → used tag = false → (∀ j < tag, used j = true) →
        (let r := s1.request d x.origin.owner (f.misc.toNat % 4) f.ty.toNat a b
         Gives (r.1.modDie d fun z => { z with freq := z.freq ++ [(tag, r.2.1, r.2.2)] }) f.d (BitVec.ofNat 64 tag) t) → exec .freq s = .next t) ∧
      ((∀ j < 64, used j = true) → ∃ t, exec .freq s = .next t ∧ t.ir.result = .stalled)) ∧
    (∀ tag v st r ws s1 t, (s.die d).freq = (tag, v, st) :: r →
      destReg f.d (BitVec.ofNat 64 (tag + st * 2 ^ 8)) (s.go.modDie d fun z => { z with freq := r }) = .ok (ws, s1) →
      Gives (s1.owe ws) (BitVec.ofNat 5 (f.d.toNat + 1)) v t → exec .fresp s = .next t) ∧
    ((s.die d).freq = [] → ∃ t, exec .fresp s = .next t ∧ t.ir.result = .stalled))

/-- The ring instructions: `rnginit` sets an idle ring up, or is ACCESS; `rngput` and `rngget` move one word; `rngpeek` reads a doubleword of
the head message, zero beyond it; `rngadv` copies it out and frees it; `rngfree` frees it; `rngfill` lands a message from memory. -/
def Obligations.RingInstructions : Prop :=
  ∀ (s : State) (x : Hart) (c : CoreKey), Ready s x .ring → s.coreOf s.ir.hart = some c →
    let f := s.ir.slot
    let r := f.imm.toNat % 8
    let len := fun (u : State) (g : Ring) => leNat (getRing u c g g.head 0 8) % 2 ^ 13
    (∀ a s1, Named s x [f.a] [] → readRegs [f.a] s.go = .ok ([a], s1) → s1.ir = s.go.ir →
      let g := s1.ring c r
      (let cap := a.toNat / 2 ^ 16 % 2 ^ 14
       let base := a.toNat % 2 ^ 13
       (∀ t, s1.ringIdle c r = true → s1.ringBad c r cap base = false → Passes (s1.ringSet c r cap base) t → exec .rnginit s = .next t) ∧
       (s1.ringIdle c r = false ∨ s1.ringBad c r cap base = true →
         exec .rnginit s = .next (s.go.takeTrap s.ir.hart { cause := 0x04, xval := 0, pc := x.pc, second := s.ir.second, unit := 0 }))) ∧
      (∀ t, g.cap ≠ 0 → s1.ringRoom c r 1 = true → Passes ((s1.reserveOwn c r 1).landWord c r (s1.free + 1) a) t → exec .rngput s = .next t) ∧
      (∀ t, Named s x [f.a] [f.d] → g.cap ≠ 0 → g.filled ≠ 0 →
        (let o := 8 * (BitVec.ofNat 64 (f.imm.toNat / 8 % 512) + a).toNat
         let n := 8 + len s1 g
         Gives s1 f.d (if n ≤ o then 0 else BitVec.ofNat 64 (leNat ((getRing s1 c g g.head o 8).take (n - o)))) t) → exec .rngpeek s = .next t) ∧
      (∀ s2 s3 t, g.cap ≠ 0 → g.filled ≠ 0 → checkSpan a (8 + len s1 g) false true s1 = .ok ((), s2) →
        storeSpan a (getRing s1 c g g.head 0 (8 + len s1 g)) s2 = .ok ((), s3) →
        Passes (s3.setRing c r ((s3.ring c r).freeHead (ringSlots (len s1 g)))) t → exec .rngadv s = .next t) ∧
      (∀ s2 s3 bs t, let m := f.imm.toNat / 2 ^ 12 % 2 ^ 13
        g.cap ≠ 0 → checkSpan a m true false s1 = .ok ((), s2) → m ≤ 4088 → ringSlots m ≤ g.cap → s2.ringRoom c r (ringSlots m) = true →
        loadSpan a m s2 = .ok (some bs, s3) →
        Passes ((s3.reserveOwn c r (ringSlots m)).landTicket c r (s3.free + 1) (leBytes 8 (ringHeader c m) ++ bs)) t → exec .rngfill s = .next t)) ∧
    (∀ v s1 t, Named s x [] [f.d] → popRing r s.go = .ok (v, s1) → Gives s1 f.d v t → exec .rngget s = .next t) ∧
    (∀ t, let g := s.ring c r
      g.cap ≠ 0 → g.filled ≠ 0 → Passes (s.go.setRing c r (g.freeHead (ringSlots (len s g)))) t → exec .rngfree s = .next t)

/-- `fork`, `join`, `rdrop` and `rquery`: 0 where the job has no room, 1 where no context is free, else a pending handle while the dies
register the child; the result of a joined child, once the merge has answered, and before that a wait like that on an empty future; the
status of a dropped one, with the child and those below it gone once their results are written; and the answers of `rquery`. -/
def Obligations.RevisionInstructions : Prop :=
  ∀ (s : State) (x : Hart), Ready s x .task → s.hart? s.ir.hart = some x →
    let f := s.ir.slot
    let h := s.ir.hart
    (Named s x [] [f.d] → ∀ args s1 c, readRange f.a.toNat (f.misc.toNat % 32) s.go = .ok (args, s1) → ReleaseDone s1 x 4 → s1.ir = s.go.ir →
      s1.coreOf h = some c → s1.hart? h = some x →
      (∀ t, x.origin.job = none → Gives s1 f.d 0 t → exec .fork s = .next t) ∧
      (∀ j t, x.origin.job = some j → (s1.quota j < (s1.job j).use + 1 ∨ (s1.job j).freeNum = none) → Gives s1 f.d 0 t → exec .fork s = .next t) ∧
      (∀ j r t, x.origin.job = some j → (s1.job j).use + 1 ≤ s1.quota j → (s1.job j).freeNum = some r → s1.freeAmong [c] = none →
        s1.freeAmong (quadCores (quadOfCore c)) = none → Gives s1 f.d 1 t → exec .fork s = .next t) ∧
      (∀ j r k slot ws s3, x.origin.job = some j → (s1.job j).use + 1 ≤ s1.quota j → (s1.job j).freeNum = some r →
        s1.freeAmong [c] = some (k, slot) → destReg f.d 0 s1 = .ok (ws, s3) → .ctx k slot ≠ h → endingLoops x x.pc = [] →
        ∃ t w v, exec .fork s = .next t ∧ t.hart? (.ctx k slot) = some w ∧ w.revid = r ∧ w.pc = target x.pc f.imm ∧
          (∀ i, i < 16 → w.xreg i = args.getD i 0) ∧ w.wait = some .request ∧ v ∈ (t.job j).revs ∧ v.num = r ∧ v.parent = x.revid ∧
          v.owner = h ∧ v.child = some (.ctx k slot) ∧ v.phase = 0 ∧ t.mem = s3.mem)) ∧
    (∀ a s1, Named s x [f.a] [f.d] → readRegs [f.a] s.go = .ok ([a], s1) →
      (∀ g ws s2 t, x.joined = some (a, g) → LoadsDone s1 x →
        destReg f.d (BitVec.ofNat 64 (g.toNat % 2 ^ 40)) (s1.acquire h 4) = .ok (ws, s2) →
        Passes ((s2.owe ws (BitVec.ofNat 5 (g.toNat / 2 ^ 41))).modHart h fun y => { y with joined := none }) t → exec .join s = .next t) ∧
      (∀ j r, (∀ g, x.joined ≠ some (a, g)) → childOf a s1 = .ok ((j, r), s1) →
        exec .join s = .next (s.stalledBy fun s => s.suspend h (.revision r.num))) ∧
      (∀ j r, childOf a s1 = .ok ((j, r), s1) →
        (∀ t, s1.treeQuiet j r.num = true → Gives (s1.dropRevision j r.num) f.d (BitVec.ofNat 64 (if r.phase = 0 then 0xFF else r.status)) t →
          exec .rdrop s = .next t) ∧
        (s1.treeQuiet j r.num = false → exec .rdrop s = .next (s.stalledBy fun s => s.stopTree j r.num))) ∧
      (∀ t j, x.origin.job = some j → (let q := f.imm.toNat % 4
        Gives s1 f.d (BitVec.ofNat 64 (if q = 0 then (match ((s1.job j).childrenOf h).find? (fun r => r.handle == a) with
            | some r => min 2 r.phase
            | none => 3) else if q = 1 then (s1.job j).useCount else if q = 2 then s1.quota j else x.revid)) t) → exec .rquery s = .next t))

/-- The element-wise instructions in all three forms, and the one-source ones: each active element gets the result of its own elements, the
others of d keep theirs, the flags are those of the active elements together.

A vector result: an element that the instruction works on has its value, every other one that of d at issue; when it is written the register
is the result and every other register as before. Under `.sr` a rounding instruction in a floating type takes one draw for each active element in ascending order; no
other takes any. -/
def Obligations.VectorElementwise : Prop :=
  (∀ (s s1 s2 t : State) (x z : Hart) (b : Nat → Nat) (mode : Nat → RMode),
    let f := s.ir.slot
    let ty := f.ty.toNat
    let w := typeWidth ty
    let results := fun (g : ElemFn) (c : VecReg) (bs : Nat → Nat) (i : Nat) => g ty (mode i) (vecElem w (x.vreg f.a) i) (bs i) (vecElem w c i)
    let ends := fun (one : Nat → Nat × Flags5) =>
      Passes (s2.oweVec f.d w (x.active f w) (fun i => if x.active f w i then (one i).1 else 0) (orAll ((x.actives f w).map one))) t
    Ready s x .vector → VecHere x f [f.a] → s2.ir = s.go.ir → s2.hart? s.ir.hart = some z → Here z [8 + f.d.toNat] →
    (∀ row ∈ elementwise, ∀ p ∈ formsOf row.1, BFrom p.1 s.vec x b s1 → (row.2.2.1 = true → Here x [8 + f.c.toNat]) →
      elemDraws f row.2.1 (x.actives f w) s1 = .ok (mode, s2) →
      ends (results row.2.2.2 (if row.2.2.1 then x.vreg f.c else 0) b) → exec p.2 s = .next t) ∧
    (∀ row ∈ elementwiseOne, elemDraws f row.2.1 (x.actives f w) s.vec = .ok (mode, s2) →
      ends (results row.2.2 0 fun _ => 0) → exec row.1 s = .next t)) ∧
  ((∀ (w : Nat) (old : VecReg) (p : Nat → Bool) (val : Nat → Nat), w = 8 ∨ w = 16 ∨ w = 32 ∨ w = 64 →
    ∀ i < elemCount w, vecElem w (mergeElems old w p val) i = if p i then val i % 2 ^ w else vecElem w old i) ∧
  (∀ (s : State) (h : HartId) (x : Hart) (n : Nat) (v : VecReg), s.hart? h = some x → n < 32 →
    ∃ y, (s.performWrite h (.vec n v (BitVec.allOnes 1024))).hart? h = some y ∧ y.regs.v.toList.getD n 0 = v ∧
      (∀ m, m ≠ n → y.regs.v.toList.getD m 0 = x.regs.v.toList.getD m 0) ∧ y.regs.x = x.regs.x ∧ y.regs.k = x.regs.k) ∧
  (∀ (s : State) (x : Hart) (f : Slot) (acts : List Nat), s.hart? s.ir.hart = some x → isThread s.ir.hart = true → acts.Nodup →
    (let code := if f.rm.toNat = 7 then x.frm.toNat else f.rm.toNat
     (code = 4 → isIntType f.ty.toNat = false → ∃ mode t y, elemDraws f true acts s = .ok (mode, t) ∧ t.hart? s.ir.hart = some y ∧
       y.gen = { x.gen with gctr := x.gen.gctr + BitVec.ofNat 64 acts.length } ∧ t.mem = s.mem ∧
       ∀ k, (hk : k < acts.length) → mode acts[k] = .sr ((drawOf x.gen.gseed (x.gen.gctr + BitVec.ofNat 64 k) 0x01).toNat / 2 ^ 32)) ∧
     (code ≠ 4 → elemDraws f true acts s = .ok (fun _ => modeOf code 0, s)) ∧ elemDraws f false acts s = .ok (fun _ => .rne, s))))

/-- The moves of elements, with the frames they need in the context: `vperm`, `vbcast`, `vslide`, `vmv`, `vext`, `vins`, `vcompress`,
`vexpand`.

The comparisons set bit l of the mask where the element in lane l is active and satisfies them, and clear it elsewhere; `vsel` takes A
where active and B elsewhere. -/
def Obligations.VectorMovesAndCompares : Prop :=
  (∀ (s t : State) (x : Hart),
    let f := s.ir.slot
    let w := typeWidth f.ty.toNat
    let n := elemCount w
    let act := x.active f w
    let el := fun (v : BitVec 5) (i : Nat) => vecElem w (x.vreg v) i
    Ready s x .vector →
    (VecHere x f [f.a, f.b, f.d] → Passes (s.vec.oweVec f.d w act fun i => el f.a (el f.b i % n)) t → exec .vperm s = .next t) ∧
    (VecHere x f [f.a, f.d] →
      (f.misc.getLsbD 4 = true → Passes (s.vec.oweVec f.d w act fun _ => el f.a (f.imm.toNat % 128 % n)) t → exec .vbcast s = .next t) ∧
      (Passes (s.vec.oweVec f.d w act fun i =>
        if 0 ≤ (i : Int) + sext f.imm.toNat 48 ∧ (i : Int) + sext f.imm.toNat 48 < n then el f.a ((i : Int) + sext f.imm.toNat 48).toNat else 0) t →
        exec .vslide s = .next t) ∧
      (Passes (s.vec.oweVec f.d w act fun i => el f.a i) t → exec .vmv s = .next t) ∧
      (Passes (s.vec.oweVec f.d w (fun _ => true) fun i => match (x.actives f w)[i]? with
        | some j => el f.a j
        | none => 0) t → exec .vcompress s = .next t) ∧
      (Passes (s.vec.oweVec f.d w act fun i => el f.a ((x.actives f w).idxOf i)) t → exec .vexpand s = .next t)) ∧
    (∀ v s1 z, VecHere x f [] → Named s x [f.b] [] → readReg f.b s.vec = .ok (v, s1) → s1.ir = s.go.ir → s1.hart? s.ir.hart = some z →
      VecHere z f [f.d] → z.regs.k = x.regs.k →
      (f.misc.getLsbD 4 = false → Passes (s1.oweVec f.d w act fun _ => v.toNat % 2 ^ w) t → exec .vbcast s = .next t) ∧
      (Passes (s1.oweVec f.d w (fun i => i == f.imm.toNat % 128 % n) fun _ => v.toNat % 2 ^ w) t → exec .vins s = .next t)) ∧
    (Here x [8 + f.a.toNat] → Named s x [] [f.d] →
      Gives s.vec f.d (elemWord f.ty.toNat (el f.a (f.imm.toNat % 128 % n))) t → exec .vext s = .next t)) ∧
  (∀ (s s1 t : State) (x z : Hart) (b : Nat → Nat),
    let f := s.ir.slot
    let ty := f.ty.toNat
    let w := typeWidth ty
    let a := vecElem w (x.vreg f.a)
    Ready s x .vector → VecHere x f [f.a] → s1.ir = s.go.ir → s1.hart? s.ir.hart = some z →
    (∀ row ∈ comparisons, ∀ p ∈ formsOf row.1, BFrom p.1 s.vec x b s1 → Here z [40] → ∀ m : BitVec 32,
      (let holds := fun (i : Nat) => if isIntType ty then row.2.1 (intVal ty (BitVec.ofNat 64 (a i))) (intVal ty (BitVec.ofNat 64 (b i)))
        else (row.2.2 ((fmtOf ty).read (a i)) ((fmtOf ty).read (b i))).1
       let flags := fun (i : Nat) => if isIntType ty then (0 : Flags5) else (row.2.2 ((fmtOf ty).read (a i)) ((fmtOf ty).read (b i))).2
       (∀ l < 32, m.getLsbD l = (x.active f w (32 * l / w) && holds (32 * l / w))) →
       Passes (s1.oweMask f.d m (orAll ((x.actives f w).map fun i => (0, flags i)))) t) → exec p.2 s = .next t) ∧
    (∀ p ∈ formsOf (.vsel, .vselBcast, .vselImm), BFrom p.1 s.vec x b s1 → Here z [8 + f.d.toNat] →
      Passes (s1.oweVec f.d w (fun _ => true) fun i => if x.active f w i then a i else b i) t → exec p.2 s = .next t))

/-- `vcvt` converts element by element between the part and the whole; `vcbdec` decodes CB8 indices through the quad's shells; `prune` takes
one draw for each active element and keeps, rescales or drops it. -/
def Obligations.VectorConversions : Prop :=
  ∀ (s s1 t : State) (x z : Hart),
    let f := s.ir.slot
    let ty := f.ty.toNat
    let w := typeWidth ty
    Ready s x .vector → VecHere x f [f.a] → s1.ir = s.go.ir → s1.hart? s.ir.hart = some z → Here z [8 + f.d.toNat] →
    (∀ mode, let ws := typeWidth f.b.toNat
      let n := elemCount (max ws w)
      let js := x.actives f (max ws w)
      let part := f.misc.toNat / 16
      let from_ := fun (j : Nat) => if ws < w then part * n + j else j
      let into := fun (j : Nat) => if w < ws then part * n + j else j
      let one := fun (j : Nat) => convertElem ty f.b.toNat (f.imm.getLsbD 0) (mode j) (vecElem ws (x.vreg f.a) (from_ j))
      elemDraws { f with ty := if isIntType ty then f.b else f.ty } true js s.vec = .ok (mode, s1) →
      (∀ val : Nat → Nat, (∀ j ∈ js, val (into j) = (one j).1) → (∀ i, (∀ j ∈ js, into j ≠ i) → val i = 0) →
        Passes (s1.oweVec f.d w (fun i => js.any fun j => into j == i) val (orAll (js.map one))) t) →
      exec .vcvt s = .next t) ∧
    (s1 = s.vec → (let table := (s.quad (s.quadOf s.ir.hart)).shell
      let index := fun (i : Nat) => vecElem 16 (x.vreg f.a) ((if w = 8 then 16 else 8) * (f.imm.toNat % 8) + i / 8)
      let weight := fun (i : Nat) => cb8Weight (index i) (Sparse.get 0 table (index i % 256)).toNat (i % 8)
      Passes (s.vec.oweVec f.d w (x.active f w) fun i => if w = 8 then (weight i % 256).toNat
        else (roundVal (fmtOf ty) false .rne false (decide (weight i < 0)) (weight i).natAbs (-1)).bits) t) → exec .vcbdec s = .next t) ∧
    (∀ tau s0 us, Named s x [f.b] [] → readReg f.b s.vec = .ok (tau, s0) → draws 0x02 (x.actives f w).length s0 = .ok (us, s1) →
      (let m := fmtOf ty
       let a := vecElem w (x.vreg f.a)
       let ok := tauOk (m.read (tau.toNat % 2 ^ w))
       let one := fun (i : Nat) => if ok then
           pruneElem m (f.misc.getLsbD 4) (tau.toNat % 2 ^ w) ((us.getD ((x.actives f w).idxOf i) 0).toNat / 2 ^ 32) (a i) else (a i, 0)
       Passes (s1.oweVec f.d w (x.active f w) (fun i => if x.active f w i then (one i).1 else 0)
         (if ok then orAll ((x.actives f w).map one) else flagNV)) t) → exec .prune s = .next t)

/-- The reductions combine the active elements by the fixed pairwise tree and then with the initial value, into element 0, with zero above;
`vscan` leaves the running values. They take no draw.

The mask instructions. -/
def Obligations.VectorReductionsAndMasks : Prop :=
  (∀ (s s1 t : State) (x z : Hart) (v : Word),
    let f := s.ir.slot
    let ty := f.ty.toNat
    let w := typeWidth ty
    let code := if f.rm.toNat = 7 then x.frm.toNat else f.rm.toNat
    let mode := fun (rounds : Bool) => if rounds && code != 4 then modeOf code 0 else .rne
    let a := vecElem w (x.vreg f.a)
    Ready s x .vector → isThread s.ir.hart = true → VecHere x f [f.a] → Named s x [f.b] [] → readReg f.b s.vec = .ok (v, s1) → s1.ir = s.go.ir →
    s1.hart? s.ir.hart = some z → VecHere z f [f.d] → z.frm = x.frm → z.regs.k = x.regs.k →
    (∀ row ∈ reductions,
      (let op := fun (p q : Nat) => row.2.2 ty (mode row.2.1) p q 0
       let r := combine op (some (v.toNat % 2 ^ w, 0))
         (treeOf op 7 ((List.range (elemCount w)).map fun i => if x.active f w i then some (a i, 0) else none))
       ∀ res, r = some res → Passes (s1.oweVec f.d w (fun _ => true) (fun i => if i = 0 then res.1 else 0) res.2) t) →
      exec row.1 s = .next t) ∧
    ((let sums := scanSums (fun p q => byType (onInt fun _ a b _ => a + b) (onFloat fun m r a b _ => fAdd m r a b) ty (mode true) p q 0)
        (v.toNat % 2 ^ w) ((x.actives f w).map a)
      Passes (s1.oweVec f.d w (x.active f w) (fun i => (sums.getD ((x.actives f w).idxOf i) (0, 0)).1) (orAll sums)) t) →
      exec .vscan s = .next t)) ∧
  (∀ (s t : State) (x : Hart), Ready s x .vector → Here x [40] →
    let f := s.ir.slot
    let ka := x.mask f.a.toNat
    let kb := x.mask f.b.toNat
    (∀ p ∈ [(Instr.kand, ka &&& kb), (.kor, ka ||| kb), (.kxor, ka ^^^ kb), (.knot, ~~~ka), (.kmov, ka)],
      Passes (s.vec.oweMask f.d p.2) t → exec p.1 s = .next t) ∧
    (∀ p ∈ [(Instr.kpop, ((List.range 32).filter fun i => ka.getLsbD i).length), (.kget, ka.toNat)],
      Named s x [] [f.d] → Gives s.vec f.d (BitVec.ofNat 64 p.2) t → exec p.1 s = .next t) ∧
    (∀ n ≤ 32, (∀ i < n, ka.getLsbD i = false) → (n < 32 → ka.getLsbD n = true) → Named s x [] [f.d] →
      Gives s.vec f.d (BitVec.ofNat 64 n) t → exec .kfirst s = .next t) ∧
    (f.misc.getLsbD 4 = true → Passes (s.vec.oweMask f.d (f.imm.setWidth 32)) t → exec .kset s = .next t) ∧
    (∀ v s1, f.misc.getLsbD 4 = false → Named s x [f.a] [] → readReg f.a s.vec = .ok (v, s1) → (∃ z, s1.hart? s1.ir.hart = some z ∧ Here z [40]) →
      Passes (s1.oweMask f.d (v.setWidth 32)) t → exec .kset s = .next t))

/-- The vector loads and stores by their address forms: every active element checked, in ascending order; then each loaded, all zero where one
is poisoned, with the first poisoned address; a store of the window element by element, a store of main memory as one group in the
write-through buffer. -/
def Obligations.VectorMemory : Prop :=
  ∀ (s s1 s2 t : State) (x y z : Hart) (a o : Word) (v : VecReg) (addr : Nat → Word) (load store : Instr),
    let f := s.ir.slot
    let w := typeWidth f.ty.toNat
    let es := (x.actives f w).map addr
    let vals := (x.actives f w).map (vecElem w (x.vreg f.d))
    Ready s x .vector → x.fence = none → VecHere x f [] → Named s x [f.a] [] → y.regs.v = x.regs.v → y.regs.k = x.regs.k →
    (load, store) ∈ [(Instr.vld, Instr.vst), (.vlds, .vsts), (.vldx, .vstx)] →
    (load = .vld → readReg f.a s.vec = .ok (a, s1) ∧ addr = fun i => a + f.imm.signExtend 64 + BitVec.ofNat 64 (i * (w / 8))) →
    (load = .vlds → Named s x [f.b] [] ∧ (∃ s0, readReg f.a s.vec = .ok (a, s0) ∧ readReg f.b s0 = .ok (o, s1)) ∧
      addr = fun i => a + f.imm.signExtend 64 + BitVec.ofNat 64 i * o) →
    (load = .vldx → Here y [8 + f.b.toNat] ∧ readReg f.a s.vec = .ok (a, s1) ∧ v = x.vreg f.b ∧
      addr = fun i => a + f.imm.signExtend 64 + BitVec.ofNat 64 (vecElem w v i * (if f.misc.getLsbD 4 then w / 8 else 1))) →
    s1.ir = s.go.ir → s1.hart? s.ir.hart = some y → VecHere y f [f.d] →
    (∀ s3 p u, checkElems f.path.toNat (w / 8) true false es s1 = .ok ((), s2) → s2.ir = s.go.ir → s2.hart? s.ir.hart = some u →
      loadElems f.ty.toNat es s2 = .ok (p, s3) → s3.ir = s.go.ir → s3.hart? s.ir.hart = some z → Here z [8 + f.d.toNat] → z.accesses = u.accesses →
      Passes (s3.oweVec f.d w (x.active f w) (fun i => if p.2.isSome then 0 else p.1.getD ((x.actives f w).idxOf i) 0) 0 p.2) t → exec load s = .next t) ∧
    (f.path.toNat = 3 → checkElems 3 (w / 8) false true es s1 = .ok ((), s2) → s2.ir = s.go.ir →
      (∀ e ∈ es, winRegion e.toNat = 0 ∧ WinReaches s2 e ∧ s2.winStatus (dieOfHart s.ir.hart) (s2.hart s.ir.hart).origin.owner e.toNat (w / 8) true = 0) →
      Passes ((es.zip vals).foldl (fun (u : State) (q : Word × Nat) => u.putNum (windowKey (dieOfHart s.ir.hart / 4) q.1.toNat) (w / 8) q.2) s2) t →
      exec store s = .next t) ∧
    (∀ s3 s4 gs, f.path.toNat ≠ 3 → checkElems f.path.toNat (w / 8) false true es s1 = .ok ((), s2) → elemCells (w / 8) (es.zip vals) s2 = .ok (gs, s3) →
      (if gs.isEmpty then pure () else enterStores f.path.toNat 3 (s3.free + 1) (groupLines gs)) { s3 with free := s3.free + 1 } =
        .ok ((), s4) → Passes s4 t → exec store s = .next t)

/-- Every stream instruction, with its sources not pending, its frames in the context, its checks satisfied and room in the SSU's queue, enters
the queue with the operands it reads at issue; a scalar result is outstanding until the command returns it; `qseed` takes its draw at issue.

LENGTH where the lengths differ, and else CORRELATED where the masks break their rule, with the lengths or masks in XVAL; a source that a
`qld` has not returned makes the instruction wait. -/
def Obligations.StreamIssue : Prop :=
  (∀ (s s0 s1 t : State) (x z : Hart) (k : CoreKey) (v : Word) (ws : List RegWrite),
    let f := s.ir.slot
    let here := fun (op : Nat) => ∀ n ∈ ssuReads op f ++ ssuWrites op f, Here x [48 + n]
    let ok := fun (op : Nat) => (∀ n ∈ ssuReads op f, (s.copies s.ir.hart n).pending = false) ∧ here op ∧ StreamsAgree op f (s.copies s.ir.hart)
    let cmd := fun (op : Nat) (v : Word) (w : VecReg) (us : List Word) (tag : Nat) =>
      ({ hart := s.ir.hart, op := op, slot := f, pc := x.pc, scalar := v, vec := w, draws := us, tag := tag, inRegion := x.inRegion
         second := s.ir.second, rev := x.revid } : SsuCmd)
    let owes := fun (u : State) => ({ u with free := u.free + 1 } : State).owe ws (returned := false) (tag := u.free + 1)
    Ready s x .ssu → s.coreOf s.ir.hart = some k → (s.core k).cmdSsu.length < 2 →
    (∀ p ∈ [(Instr.qgen, 0x180), (.qand, 0x181), (.qxnor, 0x182), (.qmin, 0x183), (.qmax, 0x184), (.qmux, 0x185), (.qregen, 0x186), (.qnot, 0x18C),
      (.qmov, 0x18D), (.qcfg, 0x190)], ok p.2 → Passes ((s.ssu k).queueSsu k (cmd p.2 0 0 [] 0)) t → exec p.1 s = .next t) ∧
    (here 0x18B → Here x [8 + f.a.toNat] → Passes ((s.ssu k).queueSsu k (cmd 0x18B 0 (x.vreg f.a) [] 0)) t → exec .vbtoq s = .next t) ∧
    (Passes (((s.ssu k).modHart s.ir.hart fun y => { y with gen := { y.gen with gctr := x.gen.gctr + 1 } }).queueSsu k
        (cmd 0x191 0 0 [drawOf x.gen.gseed x.gen.gctr (0x20 + f.misc.toNat % 16)] 0)) t → exec .qseed s = .next t) ∧
    (∀ p ∈ [(Instr.qcount, 0x187), (.qtob, 0x189)], ok p.2 → Named s x [] [f.d] → destReg f.d 0 (s.ssu k) = .ok (ws, s1) →
      Passes ((owes s1).queueSsu k (cmd p.2 0 0 [] (s1.free + 1))) t → exec p.1 s = .next t) ∧
    (s0.ir = s.go.ir → s0.hart? s.ir.hart = some z → z.pc = x.pc → z.inRegion = x.inRegion → z.revid = x.revid →
      (ok 0x188 → Named s x [f.b] [] → Named s x [] [f.d] → readReg f.b (s.ssu k) = .ok (v, s0) → destReg f.d 0 s0 = .ok (ws, s1) →
        Passes ((owes s1).queueSsu k (cmd 0x188 v 0 [] (s1.free + 1))) t → exec .qsum s = .next t) ∧
      (here 0x18A → Named s x [f.a] [] → readReg f.a (s.ssu k) = .ok (v, s0) → Passes (s0.queueSsu k (cmd 0x18A v 0 [] 0)) t → exec .btoq s = .next t) ∧
      (∀ p ∈ [(Instr.qld, 0x18E, false), (.qst, 0x18F, true)], ∀ s2, ok p.2.1 → Named s x [f.a] [] → readReg f.a (s.ssu k) = .ok (v, s0) →
        ssuAccessCheck p.2.2 f (v + f.imm.signExtend 64) s0 = .ok ((), s2) → s2.ir = s.go.ir → s2.hart? s.ir.hart = some z →
        Passes (s2.queueSsu k (cmd p.2.1 (v + f.imm.signExtend 64) 0 [] 0)) t → exec p.1 s = .next t))) ∧
  (∀ (s : State) (x : Hart) (k : CoreKey),
    let f := s.ir.slot
    let copy := s.copies s.ir.hart
    let trap := fun (cause v : Nat) =>
      s.go.takeTrap s.ir.hart { cause := cause, xval := BitVec.ofNat 64 v, pc := x.pc, second := s.ir.second, unit := 2 }
    Ready s x .ssu → s.coreOf s.ir.hart = some k →
    (∀ p ∈ [(Instr.qand, 0x181), (.qxnor, 0x182), (.qmin, 0x183), (.qmax, 0x184), (.qmux, 0x185)],
      (∀ n ∈ ssuReads p.2 f, (copy n).pending = false) → (∀ n ∈ ssuReads p.2 f ++ ssuWrites p.2 f, Here x [48 + n]) →
      (let a := copy f.a.toNat
       let b := copy f.b.toNat
       let c := if p.2 = 0x185 then copy f.c.toNat else {}
       let short := a.len ≠ b.len ∨ (p.2 = 0x185 ∧ c.len ≠ a.len)
       (short → exec p.1 s = .next (trap 0x08 (c.len * 16 + b.len * 4 + a.len))) ∧
       (¬ short → ¬ StreamsAgree p.2 f copy → exec p.1 s = .next (trap 0x09 (c.cls * 2 ^ 32 + b.cls * 2 ^ 16 + a.cls))))) ∧
    (∀ p ∈ [(Instr.qand, 0x181), (.qmux, 0x185), (.qregen, 0x186), (.qcount, 0x187), (.qnot, 0x18C), (.qst, 0x18F)],
      Named s x [] [f.d] → (∃ n ∈ ssuReads p.2 f, (copy n).pending = true) → ∃ t, exec p.1 s = .next t ∧ t.ir.result = .stalled))

/-- The generated bits of R139 in each mode, and the counter after them.

The SSU executes its command: a generating one writes its stream and its generators; a combining one its stream; a counting one returns its
scalar; `qcfg` and `qseed` set a generator; `qld` and `qst` move the image. The command is over. -/
def Obligations.StreamExecution : Prop :=
  (∀ (g : Gen) (c p l : Nat), c < 16 → (l = 16 ∨ l = 256 ∨ l = 1024 ∨ l = 4096) → ∀ mode seed ctr, g.cmode.toList.getD c 0 = mode →
    g.cseed.toList.getD c 0 = seed → g.cctr.toList.getD c 0 = ctr →
    (∀ i, (genBits g c p l).1.testBit i = (decide (i < l) &&
      (if mode.toNat = 0 then decide ((mix (seed ^^^ (ctr + BitVec.ofNat 64 (i / 4)))).toNat / 2 ^ (16 * (i % 4)) % 2 ^ 16 < p)
       else if mode.toNat = 1 then decide (i * 65536 < p * l)
       else decide (bitRev i l.log2 * 65536 < p * l)))) ∧
    (genBits g c p l).2 = if mode.toNat = 0 then { g with cctr := g.cctr.setIfInBounds c (ctr + BitVec.ofNat 64 (l / 4)) } else g) ∧
  (∀ (s : State) (x : Hart) (c : SsuCmd) (r : List SsuCmd), (s.core s.ev.site).ssu = c :: r → s.ev.flag = false → s.hart? c.hart = some x →
    let k := s.ev.site
    let f := c.slot
    let cls := f.misc.toNat % 16
    let ends := fun (u : State) => (u.ssuDone k).tryGone c.hart
    let writes := fun (u : State) (bits : Nat) (q : QCopy) => u.modHart c.hart fun y => y.setStream f.d.toNat (mkStream q bits)
    let s0 : State := { s with ir := { s.ir with hart := c.hart } }
    let L := fun (n : Nat) => lenOf (x.stream n).len.toNat
    ((c.op = 0x180 ∨ c.op = 0x186 ∨ c.op = 0x18A ∨ c.op = 0x18B) →
      (let g := genBits x.gen cls (genP c x) (lenOf (f.misc.toNat / 16))
       exec .ssuCommandExecute s = .next (ends (writes (s.modHart c.hart fun y => { y with gen := g.2 }) g.1
         { cls := 2 ^ cls, len := f.misc.toNat / 16, bipolar := if c.op = 0x186 then (x.stream f.a.toNat).bipolar else f.imm.getLsbD 20 })))) ∧
    (∀ op ∈ [0x181, 0x182, 0x183, 0x184, 0x185, 0x18C, 0x18D], c.op = op → ∀ q, destCopy op f (fun n => copyOf (x.stream n)) = some q →
      exec .ssuCommandExecute s = .next (ends (writes s
        (combineBits op (x.stream f.a.toNat).val (x.stream f.b.toNat).val (x.stream f.c.toNat).val (L f.a.toNat)) q))) ∧
    (let q := x.stream f.a.toNat
     (c.op = 0x187 → exec .ssuCommandExecute s = .next (ends (s.returnTag c.hart c.tag (BitVec.ofNat 64 q.ones)))) ∧
     (c.op = 0x188 → exec .ssuCommandExecute s = .next (ends (s.returnTag c.hart c.tag (c.scalar + BitVec.ofNat 64 q.ones)))) ∧
     (c.op = 0x189 → exec .ssuCommandExecute s = .next (ends (s.returnTag c.hart c.tag (if q.bipolar
       then BitVec.ofInt 64 ((2 * (q.ones : Int) - (lenOf q.len.toNat : Int)) * ((65536 / lenOf q.len.toNat : Nat) : Int))
       else BitVec.ofNat 64 (q.ones * (65536 / lenOf q.len.toNat))))))) ∧
    (c.op = 0x190 → exec .ssuCommandExecute s = .next (ends (s.modHart c.hart fun y => { y with
      gen := { y.gen with cmode := y.gen.cmode.setIfInBounds cls (BitVec.ofNat 2 (f.misc.toNat / 16)), cctr := y.gen.cctr.setIfInBounds cls 0 } }))) ∧
    (c.op = 0x191 → exec .ssuCommandExecute s = .next (ends (s.modHart c.hart fun y => { y with
      gen := { y.gen with cseed := y.gen.cseed.setIfInBounds cls (c.draws.headD 0), cctr := y.gen.cctr.setIfInBounds cls 0 } }))) ∧
    (∀ s1 y, c.op = 0x18F →
      (let q := x.stream f.d.toNat
       ssuWrite c.pc c.scalar (leBytes 8 (q.cls.toNat + q.len.toNat * 2 ^ 16 + (if q.bipolar then 2 ^ 18 else 0)) ++ leBytes (L f.d.toNat / 8) q.val) s0 =
         .ok ((), s1)) → s1.ir = s0.ir → s1.hart? c.hart = some y → y.accesses = x.accesses →
      exec .ssuCommandExecute s = .next (ends ({ s1 with ir := s.ir }.modHart c.hart fun z => { z with accesses := x.accesses }))) ∧
    (∀ hd s1 rd s2 y, c.op = 0x18E → ssuRead c.scalar 8 s0 = .ok (hd, s1) →
      (let h := leNat hd.1
       let q : QCopy := { cls := h % 2 ^ 16, len := h / 2 ^ 16 % 4, bipolar := h.testBit 18 }
       ssuRead (c.scalar + 8) (lenOf q.len / 8) s1 = .ok (rd, s2) → s2.ir = s0.ir → s2.hart? c.hart = some y → y.accesses = x.accesses →
       (hd.2 = none → rd.2 = none → exec .ssuCommandExecute s = .next (ends (writes { s2 with ir := s.ir } (leNat rd.1) q))) ∧
       (∀ a, (hd.2 = some a ∨ hd.2 = none ∧ rd.2 = some a) → c.inRegion = false → exec .ssuCommandExecute s =
         .next (((({ s2 with ir := s.ir }.modHart c.hart fun z => z.setStream f.d.toNat {}).ssuDone k).consume c.hart a false 2 c.second).tryGone c.hart)))))

/-- The matrix instructions that need no `gang`, of a bound thread or of the contraction expander: with the checks of R201 satisfied and room
in the queue, the command enters it with its operands as read at issue, and a result is outstanding until it completes. `mwait` waits for the
thread's commands, gives MSTAT and clears it. -/
def Obligations.MatrixIssue : Prop :=
  ∀ (s s1 t : State) (x : Hart) (k : CoreKey) (a b c : Word) (ws : List RegWrite),
    let f := s.ir.slot
    let e := a + BitVec.ofNat 64 (f.imm.toNat % 2 ^ 14)
    let owes := fun (u : State) (c : MatCmd) =>
      (({ u with free := u.free + 1 } : State).queueMat k { c with tag := u.free + 1 }).owe ws (returned := false) (tag := u.free + 1)
    Ready s x .matrix → MatrixHart s k →
    (TileOk f → s.matRoom k → Passes (s.go.queueMat k (s.matCmd x 0x1A3)) t → exec .mclr s = .next t) ∧
    (s.matRoom k → Passes (s.go.queueMat k (s.matCmd x 0x1AA)) t → exec .oqcfg s = .next t) ∧
    (Named s x [] [f.d] → destReg f.d 0 s.go = .ok (ws, s1) → s1.ir = s.go.ir → s1.matRoom k true → Passes (owes s1 (s.matCmd x 0x1AB)) t →
      exec .mrow s = .next t) ∧
    (Named s x [] [f.d] → x.matrix = 0 → destReg f.d ((s.mstatOf k s.ir.hart).setWidth 64) s.go = .ok (ws, s1) →
      Passes ((s1.owe ws).putMstat k s.ir.hart 0) t → exec .mwait s = .next t) ∧
    (Named s x [] [f.d] → x.matrix ≠ 0 → exec .mwait s = .next (s.stalledBy id)) ∧
    (∀ u, Named s x [f.a] [] → readRegs [f.a] s.go = .ok ([a], u) → u.ir = s.go.ir → u.hart? s.ir.hart = some x →
      (e.toNat < 16384 → Named s x [] [f.d] → destReg f.d 0 u = .ok (ws, s1) → s1.ir = s.go.ir → s1.matRoom k true →
        Passes (owes s1 { u.matCmd x 0x1A5 with a := BitVec.ofNat 64 e.toNat }) t → exec .rdacc s = .next t) ∧
      (∀ u2, e.toNat < 16384 → Named s x [f.b] [] → readRegs [f.b] u = .ok ([b], u2) → u2.ir = s.go.ir → u2.hart? s.ir.hart = some x → u2.matRoom k →
        Passes (u2.queueMat k { u2.matCmd x 0x1A6 with a := BitVec.ofNat 64 e.toNat, b := b }) t → exec .wracc s = .next t) ∧
      (u.matRoom k →
        (∀ p ∈ [(Instr.ldacc, 0x1A7, false), (.stacc, 0x1A8, true)], TileOk f → f.path.toNat = pathOf a →
          SpanOk u x a 0 (512 * tileM f) 8 0 false (!p.2.2) p.2.2 → Passes (u.queueMat k { u.matCmd x p.2.1 with a := a }) t → exec p.1 s = .next t) ∧
        (let n := f.imm.toNat / 256 % 512
         1 ≤ n → f.imm.toNat % 256 + n ≤ 256 → SpanOk u x a 0 (4 * n) 4 0 false true false → Passes (u.queueMat k { u.matCmd x 0x1AC with a := a }) t →
         exec .cbload s = .next t))) ∧
    (∀ u, Named s x [f.a, f.c] [] → readRegs [f.a, f.c] s.go = .ok ([a, c], u) → u.ir = s.go.ir → u.hart? s.ir.hart = some x → u.matRoom k →
      (let row := bTypeRow f.ty.toNat
       SpanOk u x a 0 (63 * strideB row c + row) (bTypeSize f.ty.toNat) (strideB row c) (f.ty.toNat = 1) true false →
       Passes (u.queueMat k { u.matCmd x 0x1A9 with a := a, c := c }) t → exec .oqld s = .next t)) ∧
    (∀ u u2 us y, Named s x [f.a, f.b, f.c] [] → readRegs [f.a, f.b, f.c] s.go = .ok ([a, b, c], u) → u.ir = s.go.ir → u.hart? s.ir.hart = some x →
      TileOk f → (f.a.toNat ≠ 31 → SpanOk u x a 0 (4 * tileM f) 4 0 false true false) → (f.b.toNat ≠ 31 → SpanOk u x b 0 256 4 0 false true false) →
      (let code := if f.rm.toNat = 7 then (if isCtx s.ir.hart then x.frm.toNat else 0) else f.rm.toNat
       (code = 4 → isCtx s.ir.hart = true) → (if code = 4 then draws 0x01 (64 * tileM f) else pure []) u = .ok (us, u2) → u2.ir = s.go.ir → u2.hart? s.ir.hart = some y →
       { y with gen := x.gen } = x → u2.matRoom k →
       Passes (u2.queueMat k { u2.matCmd x 0x1A4 with a := a, b := b, c := c, mode := modeOf code 0, data := us.map fun u => u.toNat / 2 ^ 32 }) t →
       exec .mscacc s = .next t))

/-- `gang` waits for its three fellows and the fourth releases all; `mmac`, `mbmac` and `contract` need it, and enter the queue as the
command of the thread's round. Without it they raise ILLCLASS. The expander, which issues for the four slices, waits for nobody. -/
def Obligations.GangIssue : Prop :=
  ∀ (s t : State) (x : Hart) (k : CoreKey), Ready s x .matrix → MatrixHart s k →
    let f := s.ir.slot
    let q := quadOfCore k
    let p := posOfCore k
    let arr := (s.quad q).arrivals
    let arrive := fun (u : State) => u.modQuad q fun y => { y with arrivals := y.arrivals ++ [(p, s.ir.hart)] }
    let waits := fun (u : State) => u.modHart s.ir.hart fun y => { y with wait := some .gang }
    let joins := fun (u : State) => Passes (u.modHart u.ir.hart fun y => { y with gang := true, grant := none }) t
    let again := x.restartPc.isSome = true ∧ x.restartPc = (s.quad q).restart.toList.getD p none
    let free := x.grant = some 4 ∨ again ∨ isCtx s.ir.hart = false
    (free → joins s.go → exec .gang s = .next t) ∧
    (¬ free →
      (arr.any (fun a => a.1 == p) = true → exec .gang s = .next (s.stalledBy waits)) ∧
      (arr.any (fun a => a.1 == p) = false → arr.length < 3 → exec .gang s = .next (s.stalledBy fun u => waits (arrive u))) ∧
      (arr.any (fun a => a.1 == p) = false → 3 ≤ arr.length → joins ((arrive s.go).releaseGang q) → exec .gang s = .next t)) ∧
    (∀ a u, Named s x [f.a] [] → readRegs [f.a] s.go = .ok ([a], u) → u.ir = s.go.ir → u.hart? s.ir.hart = some x →
      let resume := decide (x.restartPc = some x.pc ∧ (u.quad q).restart.toList.getD p none = some x.pc)
      (x.gang = true ∨ resume = true → u.matRoom k → Passes (u.queueGang k { u.matCmd x 0x1AD with a := a } resume) t → exec .contract s = .next t) ∧
      (x.gang = false → resume = false →
        exec .contract s = .next (s.go.takeTrap s.ir.hart { cause := 0x01, xval := 0, pc := x.pc, second := s.ir.second, unit := 5 }))) ∧
    (∀ a b c u ty, Named s x [f.a, f.b, f.c] [] → readRegs [f.a, f.b, f.c] s.go = .ok ([a, b, c], u) → u.ir = s.go.ir → u.hart? s.ir.hart = some x →
      matTypes f.ty.toNat (f.misc.toNat % 32) = some ty →
      let resume := decide (x.restartPc = some x.pc ∧ (u.quad q).restart.toList.getD p none = some x.pc)
      let ok := fun (lo hi lo2 hi2 : Nat) =>
        SpanOk u x a (lo * strideA ty c) ((hi - lo) * strideA ty c + ty.aRow) ty.aSize (strideA ty c) false true false ∧
        (if f.b.toNat = 31 then u.statType k = ty.tb
         else SpanOk u x b (lo2 * strideB ty.bRow c) ((hi2 - lo2) * strideB ty.bRow c + ty.bRow) ty.bSize (strideB ty.bRow c)
           (ty.ta = 1 ∧ ty.tb = 1) true false)
      (x.gang = true ∨ resume = true → u.matRoom k →
        (TileOk f → ok 0 (tileM f - 1) 0 63 →
          Passes (u.queueGang k { u.matCmd x 0x1A1 with a := a, b := b, c := c } resume) t → exec .mmac s = .next t) ∧
        (∀ b0 bs, blocksOf f = b0 :: bs → ok (16 * b0) (16 * (b0 :: bs).getLastD 0 + 15) (16 * b0) (16 * (b0 :: bs).getLastD 0 + 15) →
          Passes (u.queueGang k { u.matCmd x 0x1A2 with a := a, b := b, c := c } resume) t → exec .mbmac s = .next t)) ∧
      (x.gang = false → resume = false → ∀ i ∈ [Instr.mmac, .mbmac],
        exec i s = .next (s.go.takeTrap s.ir.hart { cause := 0x01, xval := 0, pc := x.pc, second := s.ir.second, unit := 5 })))

/-- What the array accumulates: integer products added modulo 2^64; fixed-point ones of E4M3 in units of 2^−20, and binary16 and bfloat16 by
one fused addition each, in ascending k; and one row of a tile changes its own entries and no other. -/
def Obligations.MatrixProducts : Prop :=
  (∀ (t : MatTypes) (entry : Word) (as : List Nat) (bs : List Int), t.mode = 0 →
    accumulateRow t entry as bs = (entry + BitVec.ofInt 64 ((as.zip bs).map fun p =>
      intVal t.ta (BitVec.ofNat 64 p.1) * (if t.cb8 then p.2 else intVal t.tb (BitVec.ofInt 64 p.2))).sum, 0)) ∧
  (∀ (t : MatTypes) (entry : Word) (a : Nat) (b : Int), t.mode = 2 → accumulate t entry a b =
    (let r := fFma f64 .rne ((fmtOf t.ta).read a) ((fmtOf t.tb).read b.toNat) (f64.read entry.toNat)
     (BitVec.ofNat 64 r.bits, r.flags))) ∧
  (∀ (t : MatTypes) (entry : Word) (a : Nat) (b : Int) (s1 s2 : Bool) (m1 m2 : Nat) (e1 e2 : Int), t.mode = 1 → t.cb8 = false →
    (fmtOf t.ta).read a = .fin s1 m1 e1 → (fmtOf t.tb).read b.toNat = .fin s2 m2 e2 → -20 ≤ e1 + e2 →
    accumulate t entry a b = (entry + BitVec.ofInt 64 ((if s1 != s2 then -1 else 1) * (m1 * m2 * 2 ^ (e1 + e2 + 20).toNat : Nat)), 0)) ∧
  (∀ (s : State) (q : QuadKey) (pos bank row : Nat) (t : MatTypes) (as : List Nat) (cols : List (Nat × List Int)), (cols.map (·.1)).Nodup →
    (∀ p ∈ cols, p.1 < 64) → ∃ fl u, ((accRow q pos bank row t as cols).run s).1 = .ok fl ∧ ((accRow q pos bank row t as cols).run s).2 = u ∧
      (∀ p ∈ cols, u.accGet q bank row pos p.1 = (accumulateRow t (s.accGet q bank row pos p.1) as p.2).1) ∧
      (∀ a, (∀ p ∈ cols, a ≠ accKey bank row pos p.1) → Sparse.get 0 (u.quad q).acc a = Sparse.get 0 (s.quad q).acc a) ∧
      (∀ q', q' ≠ q → u.quad q' = s.quad q') ∧ u.mem = s.mem ∧ u.harts = s.harts)

/-- The array's events: a command at the head of its order acts and stands at its end; one that is over leaves the order, and its register,
flags, status, shells or QSHARE are written, MSTAT even for a thread that has ended; gang commands that do not belong together end with MSTAT,
others start; a failed access gives a record and MSTAT, poisoned data is consumed, or restarts the region with RESTART set; a contraction reads
with the lease of its four threads. -/
def Obligations.MatrixEvents : Prop :=
  ∀ (s : State) (p : Nat) (c : MatCmd), p < 4 → s.ev.n = p →
    let q := s.ev.site
    let f := c.slot
    let status := fun (u : State) => if u.mstatOf c.acc.core c.hart = 0 then u.putMstat c.acc.core c.hart (BitVec.ofNat 8 c.status) else u
    s.headCmd q p = some c →
    (c.phase < 2 → c.status = 0 →
      (c.op = 0x1A6 → ∃ u, exec .matrixCommandStart s = .next u ∧ u.headCmd q p = some { c with phase := 3 } ∧
        u.accGet q (f.d.toNat % 2) (c.a.toNat / 64) p (c.a.toNat % 64) = c.b ∧
        ∀ a, a ≠ accKey (f.d.toNat % 2) (c.a.toNat / 64) p (c.a.toNat % 64) → Sparse.get 0 (u.quad q).acc a = Sparse.get 0 (s.quad q).acc a) ∧
      (c.op = 0x1A5 → ∃ u, exec .matrixCommandStart s = .next u ∧
        u.headCmd q p = some { c with phase := 3, data := [(s.accGet q (f.c.toNat % 2) (c.a.toNat / 64) p (c.a.toNat % 64)).toNat] } ∧
        (u.quad q).acc = (s.quad q).acc) ∧
      (c.op = 0x1A3 → tileRow f + tileM f ≤ 256 → ∃ u, exec .matrixCommandStart s = .next u ∧ u.headCmd q p = some { c with phase := 3 } ∧
        (∀ r j, tileRow f ≤ r → r < tileRow f + tileM f → j < 64 → u.accGet q (f.d.toNat % 2) r p j = 0) ∧
        ∀ a, (∀ r j, tileRow f ≤ r → r < tileRow f + tileM f → j < 64 → a ≠ accKey (f.d.toNat % 2) r p j) →
          Sparse.get 0 (u.quad q).acc a = Sparse.get 0 (s.quad q).acc a)) ∧
    (let popped := s.modQuad q fun y => { y with oq := y.oq.setIfInBounds p ((y.order p).drop 1) }
     c.phase = 3 →
     (c.gone = true → c.op = 0x1A1 → exec .matrixCommandComplete s = .next (if c.status = 0 then popped else status popped)) ∧
     (c.gone = false → ∀ x, s.hart? c.hart = some x → isCtx c.hart = true → x.phase = .active →
      (let closed := fun (u : State) => (u.modHart c.hart fun x => { x with fflags := orFlags x.fflags c.flags }).modHart c.hart fun x =>
         { x with matrix := x.matrix - 1 }
       (c.status = 0 → (c.op = 0x1A5 ∨ c.op = 0x1AB) →
         exec .matrixCommandComplete s = .next (closed (popped.returnTag c.hart c.tag (BitVec.ofNat 64 (c.data.headD 0))))) ∧
       (c.status = 0 → c.op = 0x1AA → exec .matrixCommandComplete s = .next (closed (popped.modQuad q fun y => { y with qshare := f.imm.getLsbD 0 }))) ∧
       (c.status = 0 → c.poison = none → c.op = 0x1AC → ∃ u, exec .matrixCommandComplete s = .next u ∧
         (∀ i v, c.data[i]? = some v → Sparse.get 0 (u.quad q).shell (f.imm.toNat % 256 + i) = BitVec.ofNat 32 v) ∧
         ∀ n, (n < f.imm.toNat % 256 ∨ f.imm.toNat % 256 + c.data.length ≤ n) → Sparse.get 0 (u.quad q).shell n = Sparse.get 0 (s.quad q).shell n) ∧
       (c.status = 0 → c.op = 0x1A1 → exec .matrixCommandComplete s = .next (closed popped)) ∧
       (c.status ≠ 0 → c.op = 0x1A1 → exec .matrixCommandComplete s = .next (closed (status popped)))))) ∧
    (let ended := s.modCmd q p fun c => { c with phase := 3 }
     let acc := { c.acc with kind := if c.op = 0x1A8 then 0 else 1, addr := c.failAddr.getD 0, status := c.status }
     c.phase = 2 →
     (c.gone = true → c.status ≠ 0 → exec .loadPipeFailure s = .next (status (ended.sfqGone c.hart acc))) ∧
     (c.gone = false → c.status ≠ 0 → c.poison = none → exec .loadPipeFailure s = .next (status (ended.sfqFor c.hart acc))) ∧
     (∀ a, c.gone = false → c.status = 0 → c.poison = some a → c.inRegion = false →
       exec .loadPipeFailure s = .next (ended.poisonTrap c.hart { cause := 0x0F, xval := a, pc := (s.hart c.hart).pc, second := false, unit := 5 })) ∧
     (∀ a, c.gone = false → c.status = 0 → c.poison = some a → c.inRegion = true → (s.hart c.hart).restarts < Config.maxRestarts →
       exec .loadPipeFailure s = .next (((ended.modQuad q fun y =>
         { y with restart := y.restart.setIfInBounds p (some c.pc), progress := y.progress.setIfInBounds p c.start }).modHart c.hart fun x =>
           { x with restartPc := some c.pc }).restartRegion c.hart))) ∧
    (∀ cs, s.readyGang q = cs → (∀ o ∈ cs, o.2.op = 0x1AD) → (∀ i < 4, ∀ m, s.headCmd q i = some m → m.op = 0x1AD) → cs ≠ [] →
      ∃ u, exec .gangOperationStart s = .next u ∧
        (∀ o ∈ cs, ∃ m, u.headCmd q o.1 = some m ∧ m.op = 0x1AD ∧
          (gangAgrees (s.quad q).qshare cs = true → m.phase = 1 ∧ m.status = o.2.status ∧ m.mates = cs.map fun p => (p.2.hart, p.2.acc.born)) ∧
          (gangAgrees (s.quad q).qshare cs = false → m.phase = 3 ∧ m.status = 1)) ∧
        (gangAgrees (s.quad q).qshare cs = true → (s.die (dieOfQuad q)).images.contains (.expander q) = true → u.running (.expander q) = true)) ∧
    (c.op = 0x1AD → c.phase = 1 →
      let only := ∀ i < 4, i ≠ p → s.headCmd q i = none
      (s.ev.flag = true → ∃ u, exec .contractionExpand s = .next u ∧ u.headCmd q p = some { c with phase := 3, status := 1 } ∧ u.mem = s.mem ∧
        u.running (.expander q) = false ∧ u.supEvents = s.supEvents ++ [⟨dieOfQuad q, 0x32, (s.hart (.expander q)).pc⟩] ∧
        ∀ h, h ≠ .expander q → u.hart? h = s.hart? h) ∧
      (s.ev.flag = false → c.data = [] → c.status = 0 → only → c.a.toNat % 8 ≠ 0 →
        exec .contractionExpand s = .next (s.modCmd q p fun m => { m with phase := 2, status := 1, failAddr := some c.a })) ∧
      (∀ h y, s.ev.flag = false → c.data = [] → only → c.a.toNat % 8 = 0 → pathOf c.a < 3 → c.mates = [(h, y.since)] → s.hart? h = some y →
        y.phase ≠ .ending → s.leased { origin := { launch := c.launch } } (generalVa c.a) 176 true false = false →
        exec .contractionExpand s = .next ((s.modCmd q p fun m => { m with phase := 3, status := 1 }).endThread h 0x20 0)))

/-- RESULT WRITEBACK: a result that has returned is written to its register, its flags are ORed into FFLAGS, and it is outstanding no more;
one that has not returned stays; poisoned data is consumed: by a restart inside a region, as POISON with zero written otherwise. A late
result's tag names the result that it returns.

A restart of an idempotent region goes back to its start with nothing outstanding; the SSU's queued commands of the thread are gone and its
held speculative packets dropped; the fourth consumption in one region is POISON. Memory changes only where a reserved slot of ring 1 is given
back, which lets a later message land. -/
def Obligations.ResultWriteback : Prop :=
  (∀ (s : State) (x : Hart) (p : Pending), let h := s.ev.hart
    s.hart? h = some x → x.outstanding[s.ev.n]? = some p →
    (p.returned = false → exec .resultWriteback s = .next s) ∧
    (∀ i v, p.returned = true → p.poison = none → p.writes = [.x i v] → i < 16 → ∃ t y, exec .resultWriteback s = .next t ∧ t.hart? h = some y ∧
      y.xreg i = v ∧ (∀ j, j ≠ i → y.xreg j = x.xreg j) ∧ y.fflags = x.fflags ||| p.flags.setWidth 32 ∧
      y.outstanding.length + 1 = x.outstanding.length ∧ y.pc = x.pc ∧ y.trap = x.trap ∧ y.regs.g = x.regs.g ∧ y.regs.v = x.regs.v ∧
      (∀ g, g ≠ h → t.hart? g = s.hart? g) ∧ t.mem = s.mem) ∧
    (∀ a, p.returned = true → p.poison = some a → p.inRegion = true → x.restarts < Config.maxRestarts → exec .resultWriteback s = .next (s.restartRegion h)) ∧
    (∀ a i v, p.returned = true → p.poison = some a → p.inRegion = false → p.writes = [.x i v] → i < 16 → x.pendingTrap = none →
      ∃ t y, exec .resultWriteback s = .next t ∧ t.hart? h = some y ∧ y.xreg i = 0 ∧
        y.pendingTrap = some { cause := 0x0F, xval := a, pc := x.pc, second := p.second, unit := 3 }) ∧
    (∀ tag v, (s.returnTag h tag v).hart? h = some { x with outstanding := x.outstanding.map fun q =>
      if q.tag = tag && !q.returned then { q with returned := true, tag := 0, writes := q.writes.map (RegWrite.withValue v), flags := q.flags ||| 0, poison := none }
      else q })) ∧
  (∀ (s : State) (h : HartId) (x : Hart) (a : Word) (u : Nat) (second : Bool), s.hart? h = some x →
    (x.restarts < Config.maxRestarts → ∃ t y, s.consume h a true u second = t ∧ t.hart? h = some y ∧ y.pc = x.rpc ∧ y.restarts = x.restarts + 1 ∧
      y.outstanding = [] ∧ y.regs = x.regs ∧ y.pendingTrap = none ∧ ((∀ p ∈ x.outstanding, ∀ t v, .cbo t v ∉ p.writes) → t.mem = s.mem) ∧
      ∀ c, s.coreOf h = some c → (∀ q ∈ (t.core c).cmdSsu, q.hart ≠ h) ∧ (t.core c).ssu = (s.core c).ssu ∧ ∀ p ∈ (t.core c).hold, p.1 ≠ h) ∧
    (Config.maxRestarts ≤ x.restarts → x.pendingTrap = none → ∃ y, (s.consume h a true u second).hart? h = some y ∧ y.pc = x.pc ∧
      y.pendingTrap = some { cause := 0x0F, xval := a, pc := x.pc, second := second, unit := u }) ∧ Config.maxRestarts = 3)

/-- The statuses, stores, locks, ports and engine queues of a core, and a host's write through an access window (log entry 55). -/
def Obligations.CoreEvents : Prop :=
  ∀ (s : State), let e := s.ev
    (∀ x a r c, s.hart? e.hart = some x → x.accesses = a :: r → s.coreOf e.hart = some c → ∃ t y, exec .accessStatus s = .next t ∧
      t.hart? e.hart = some y ∧ y.accesses = r ∧ y.sfc = (if x.sfc = 0xFFFF then x.sfc else x.sfc + 1) ∧ y.regs = x.regs ∧ t.mem = s.mem) ∧
    (∀ b l k r, (s.core e.site).wbuf = b :: l → e.n = 0 → e.flag = false → b.cells = k :: r → (s.hart b.hart).phase ≠ .ending →
      (s.granted k.1 = false → s.ownerStatus (dieOfCore e.site) b.owner k.1 b.cells.length true = 0 →
        s.regionOf b.job (dieOfCore e.site) (generalVa b.va) = none →
        ∃ t, exec .homeStorePerform s = .next t ∧ t.mem = putCells s.mem b.cells ∧ (t.core e.site).wbuf = l ∧ t.harts = s.harts) ∧
      (∀ x, s.granted k.1 = true → b.silent = false → b.gone = false → b.vec = 0 → s.hart? b.hart = some x →
        exec .homeStorePerform s = .next ((s.modCore e.site fun k => { k with wbuf := l }).modHart b.hart fun y =>
          { y with accesses := y.accesses ++ [{ kind := b.kind, addr := b.va, pc := b.pc, status := 1 }] }))) ∧
    (let pa := e.value.toNat
     let bs := (List.range (e.k % 65)).map fun i => e.wide.extractLsb' (8 * i) 8
     (e.flag = true → s.windowStatus e.site e.m e.n 0 pa bs.length true ≠ 0 → exec .homeStorePerform s = .next s) ∧
     (e.flag = true → 0 < e.k % 65 → pa % 64 + e.k % 65 ≤ 64 → present pa = true → homeOf pa = e.site → s.granted pa = false →
       s.windowStatus e.site e.m e.n 0 pa bs.length true = 0 → s.regionAt e.site pa = none →
       exec .homeStorePerform s = .next (s.putCells (cellsAt pa bs)))) ∧
    (∀ b, (s.core e.site).wbuf[e.n]? = some b → e.flag = false → ((s.core e.site).wbuf.take e.n).any (fun o => o.meets b) = true →
      exec .homeStorePerform s = .next s) ∧
    (let bit := 8 * e.n + e.k % 8
     ((s.core e.site).locks.any (fun l => l.1 == bit) = true → exec .lockGrant s = .next s) ∧
     (∀ h r y, (s.core e.site).locks.any (fun l => l.1 == bit) = false → (s.core e.site).lockq = (bit, h) :: r → s.hart? h = some y →
       y.phase = .active → y.wait = some (.lock e.site e.n (e.k % 8)) → ∃ t z, exec .lockGrant s = .next t ∧ (t.core e.site).lockq = r ∧ (bit, h) ∈ (t.core e.site).locks ∧ t.hart? h = some z ∧
         z.lock = some (e.site, e.n, e.k % 8) ∧ z.wait = none ∧ z.regs = y.regs)) ∧
    (∀ d w r, meshNeighbour e.site (e.n % 4) = some d → (s.core e.site).meshOut.toList.getD (e.n % 4) [] = w :: r → d ≠ e.site →
      (let q := (e.n % 4 + 2) % 4
       let buf := (s.core d).meshIn.toList.getD q []
       (buf.length < 4 → ∃ t, exec .meshDelivery s = .next t ∧ (t.core d).meshIn.toList.getD q [] = buf ++ [w] ∧
         (t.core e.site).meshOut.toList.getD (e.n % 4) [] = r ∧ t.harts = s.harts ∧ t.mem = s.mem) ∧
       (4 ≤ buf.length → exec .meshDelivery s = .next s))) ∧
    (let k := s.core e.site
     (e.engine = .ssu → k.ssu = [] → exec .engineAccept s = .next (s.modCore e.site fun k => { k with ssu := k.cmdSsu.take 1, cmdSsu := k.cmdSsu.drop 1 })) ∧
     (e.engine = .ssu → k.ssu ≠ [] → exec .engineAccept s = .next s) ∧
     (∀ m r, e.engine = .operandQueue → k.cmdOq = m :: r →
       (let order := (s.quad (quadOfCore e.site)).order (posOfCore e.site)
        (order.length < 8 → exec .engineAccept s = .next ((s.modCore e.site fun k => { k with cmdOq := r }).modQuad (quadOfCore e.site) fun y =>
          { y with oq := y.oq.setIfInBounds (posOfCore e.site) (order ++ [m]) })) ∧
        (8 ≤ order.length → exec .engineAccept s = .next s))) ∧
     (e.engine = .loader → k.kickLd = none → s.running (.loader e.site) = false →
       exec .engineAccept s = .next (s.modCore e.site fun k => { k with kickLd := k.cmdLd.head?, cmdLd := k.cmdLd.drop 1 })) ∧
     (e.engine = .storer → k.kickSt = none → s.running (.storer e.site) = false →
       exec .engineAccept s = .next (s.modCore e.site fun k => { k with kickSt := k.cmdSt.head?, cmdSt := k.cmdSt.drop 1 })) ∧
     (∀ m r, e.engine = .gather → k.cmdGe = m :: r →
       ((s.die (dieOfCore e.site)).gather = [] → ∃ t, exec .engineAccept s = .next t ∧ (t.core e.site).cmdGe = r ∧
         (t.die (dieOfCore e.site)).gather = [(e.site, m)] ∧ t.mem = s.mem) ∧
       ((s.die (dieOfCore e.site)).gather ≠ [] → exec .engineAccept s = .next s)))

/-- Pre-emption, frames, banks, migration, deposits, and `align`'s end. -/
def Obligations.ContextEvents : Prop :=
  ∀ (s : State) (x : Hart), let e := s.ev
    s.hart? e.hart = some x →
    (isThread e.hart = true → x.preempt = true → x.phase = .active → x.pendingTrap = none → (x.migratory && x.wait == some .request) = false →
      (x.outstanding ≠ [] ∨ s.ssuBusy e.hart = true → exec .preEmption s = .next (s.modHart e.hart fun y => { y with stopping := true })) ∧
      (x.outstanding = [] → s.ssuBusy e.hart = false →
        (s.imageLost e.hart true = false → x.preemptBy = [] → x.wait = none →
          exec .preEmption s = .next ((s.writeImage (s.imageBase e.hart) x).modHart e.hart fun y =>
            { y with phase := .preempted, preempt := false, stopping := false, preemptBy := [], parked := false })) ∧
        (s.imageLost e.hart true = true → exec .preEmption s = .next (s.endThread e.hart 0x21 0)))) ∧
    (∀ c, s.coreOf e.hart = some c → e.n < 64 → x.absent.contains e.n = true → (s.core c).gated.contains (slotOf e.hart % 16) = false →
      s.cacheUse c + frameWeight e.n ≤ 2048 →
      (e.flag = false → s.imageLost e.hart false = false → s.frameLost e.hart x e.n = false →
        ∃ t y, exec .frameRefill s = .next t ∧ t.hart? e.hart = some y ∧ y.absent = x.absent.filter (· ≠ e.n) ∧
        (∀ i, i < 16 → y.xreg i = if i / 4 ≠ e.n then x.xreg i else if x.left.getLsbD i then 0 else s.word (s.imageBase e.hart + 8 * i)) ∧
        (e.n < 4 → y.regs.g = x.regs.g ∧ y.regs.v = x.regs.v ∧ y.regs.k = x.regs.k ∧ y.regs.q = x.regs.q) ∧
        (e.n = 40 → ∀ i, (h : i < 8) → y.regs.k[i] = BitVec.ofNat 32 (s.num (s.imageBase e.hart + 0x200 + 4 * i) 4)) ∧
        (x.wait = some (.frame e.n) → y.wait = none) ∧ t.mem = s.mem) ∧
      (s.frameLost e.hart x e.n = true → exec .frameRefill s = .next (s.endThread e.hart 0x21 0))) ∧
    (∀ c, s.coreOf e.hart = some c → 64 ≤ e.n → x.wait = some (.frame e.n) → (s.core c).gated.contains (slotOf e.hart % 16) = false → s.cacheUse c < 2048 →
      e.flag = false →
      let words := ((List.range 4).map fun i => 32 * (e.n - 64) + 8 * i).filter fun a => decide (a + 8 ≤ x.wbase.toNat) && (lookup? a x.below).isNone
      (words.all (fun a => s.leased x a 8 true false) = false → exec .frameRefill s = .next (s.endThread e.hart 0x20 0)) ∧
      (∀ pa, words.all (fun a => s.leased x a 8 true false) = true →
        s.translate (s.quadOf e.hart) false x.origin.space (32 * (e.n - 64)) 0 = .ok pa → (s.metaWord pa 0).getLsbD 60 = false →
        words.any (fun a => s.isPoisoned (pa / 32 * 32 + a % 32) 8) = false → s.regionFor e.hart (32 * (e.n - 64)) = none →
        (∀ a ∈ words, s.homeStatus e.hart (pa / 32 * 32 + a % 32) 8 false = 0) →
        ∃ t y, exec .frameRefill s = .next t ∧ t.hart? e.hart = some y ∧ y.wait = none ∧ t.mem = s.mem ∧
          y.below = x.below ++ words.map fun a => (a, s.word (pa / 32 * 32 + a % 32)))) ∧
    (exec .contextBankWake s = .next (s.modCore e.site fun k => { k with gated := k.gated.filter (· ≠ e.n) })) ∧
    (∀ n en, e.hart = .ctx e.site n → e.n = n % 16 → x.phase = .active → x.outstanding = [] → x.below = [] → s.ssuBusy e.hart = false →
      (∀ p ∈ s.harts, p.1 ≠ e.hart → isThread p.1 = true → s.coreOf p.1 ≠ some e.site ∨ slotOf p.1 % 16 ≠ e.n) →
      s.unitEntry (dieOfCore e.site) x.origin.space (s.imageVa e.hart) = some en → en.w = true →
      ∃ t y, exec .contextBankGate s = .next t ∧ (t.core e.site).gated.contains e.n = true ∧
      t.hart? e.hart = some y ∧ (∀ f ∈ framesOf x, y.absent.contains f = true) ∧ (∀ i, x.live.getLsbD i = true → y.xreg i = x.xreg i) ∧
      ∀ a, (a < s.imageBase e.hart ∨ s.imageBase e.hart + 0x3500 ≤ a) → t.byte a = s.byte a) ∧
    (∀ d q c n, s.migrationOf e.hart = some (d, q) → e.flag = false →
      (let s1 := s.modDie d fun y => { y with inbox := y.inbox.filter fun m => match m with
        | .migrate g _ => decide (g ≠ e.hart)
        | _ => true }
       (s.foreignDie d x.origin.owner = true ∨ s1.freeAmong (quadCores q) = none →
         exec .migrationArrival s = .next (s1.modHart e.hart fun y => { y with wait := none, grant := some 3 })) ∧
       (s.foreignDie d x.origin.owner = false → s1.freeAmong (quadCores q) = some (c, n) → .ctx c n ≠ e.hart → ∃ t y, exec .migrationArrival s = .next t ∧
         t.hart? (.ctx c n) = some y ∧
         y.regs.x = x.regs.x ∧ y.pc = x.pc ∧ y.tid = x.tid ∧ y.wbase = x.wbase ∧ y.rsbase = x.rsbase ∧ y.rslim = x.rslim ∧ y.fflags = x.fflags ∧
         y.gen.gseed = x.gen.gseed ∧ y.gen.gctr = x.gen.gctr ∧ y.trap = x.trap ∧ y.rpc = x.rpc ∧ t.hart? e.hart = none ∧ t.mem = s.mem))) ∧
    (isThread e.hart = true → x.migratory = false →
      (let i := e.n % 16
       (x.trap.trapped = true → exec .deposit s = .next (s.modHart e.hart fun y => { y with deposits := y.deposits ++ [(i, e.value, e.writer)] })) ∧
       (x.trap.trapped = false → x.depmask.getLsbD i = false → exec .deposit s = .next (s.refuseDeposit e.hart i e.writer)) ∧
       (x.trap.trapped = false → x.depmask.getLsbD i = true → x.phase ≠ .preempted →
        (x.absent.contains (i / 4) = false → exec .deposit s = .next (s.modHart e.hart fun y => y.setX i e.value)) ∧
        (x.absent.contains (i / 4) = true → exec .deposit s = .next ((s.putWord (s.imageBase e.hart + 8 * i) e.value).modHart e.hart
          fun y => { y.setX i e.value with left := y.left &&& ~~~(1#16 <<< i) }))) ∧
       (x.trap.trapped = false → x.depmask.getLsbD i = true → x.phase = .preempted →
        exec .deposit s = .next (s.putWord (s.imageBase e.hart + 8 * i) e.value)))) ∧
    (x.migratory = true → exec .deposit s = .next (s.refuseDeposit e.hart (e.n % 16) e.writer)) ∧
    (∀ i, s.refuseDeposit e.hart i none = s.countDie (dieOfHart e.hart) 0x40) ∧
    (∀ pc, x.wait = some (.align pc) → exec .alignTimeout s = .next (s.modHart e.hart fun y => { y with wait := none }))

/-- The fetch port and the scanner: a line with right parities is cached, of its second delivery too; one found wrong twice raises PIPEERR at
the first slot of it that issues; a page that passes the scan gets its grant and one that fails raises CODE-REJECT at the writer; clearing a
grant takes back every cached line and execute right; a companion takes its kick when its store passes. -/
def Obligations.CodeEvents : Prop :=
  ∀ (s : State), let e := s.ev
    (∀ x line again, s.hart? e.hart = some x → x.wait = some (.fetch line again) →
      (let m := lineNat (s.bytes (64 * line) 64)
       let fills := fun (l : BitVec 512) => ∃ t y, exec .instructionLineFill s = .next t ∧ t.hart? e.hart = some y ∧ y.wait = none ∧ y.pc = x.pc ∧
         t.cachedLine (s.quadOf e.hart) line = some l ∧ t.mem = s.mem
       (lineParityOk (m ^^^ e.wide) = true → fills (m ^^^ e.wide)) ∧
       (lineParityOk (m ^^^ e.wide) = false → again = false → lineParityOk (m ^^^ e.again) = true → fills (m ^^^ e.again)) ∧
       (lineParityOk (m ^^^ e.wide) = false → again = true ∨ lineParityOk (m ^^^ e.again) = false →
         ∃ t y, exec .instructionLineFill s = .next t ∧ t.hart? e.hart = some y ∧ y.wait = none ∧ y.badLine = some line ∧ y.pc = x.pc))) ∧
    (∀ h x f, s.hart? h = some x → s.canIssue h x = true → x.pendingTrap = none → s.fetchLine h x.pc = .bad → x.inRegion = false →
      issueHart f h s = .next ((s.modHart h fun y => { y with badLine := none, fresh := false }).takeTrap h
        { cause := 0x07, xval := 0, pc := x.pc, second := false, unit := 0 })) ∧
    (∀ w x, e.writer = some w → s.hart? w = some x → (s.die e.site).scan = none → exec .executeGrantRequest s =
      .next ((s.modDie e.site fun d => { d with scan := some (some w, e.n, e.flag) }).modHart w fun y => { y with wait := some .request })) ∧
    (∀ w n second, (s.die e.site).scan = some (w, n, second) →
      (let pa := frameAddr e.site n
       let s1 := s.modDie e.site fun d => { d with scan := none }
       (scanLines (s1.codePage pa) 1024 (pa % 2 ^ 56) = none →
         (let t := s1.putMeta pa 0 (s1.metaWord pa 0 ||| (1#64 <<< 63))
          (w = none → exec .codePageScanDone s = .next t) ∧
          (∀ h, w = some h → exec .codePageScanDone s =
            .next (t.modHart h fun y => { y with wait := if y.wait = some .request then none else y.wait })))) ∧
       (∀ h x v, w = some h → s.hart? h = some x → scanLines (s1.codePage pa) 1024 (pa % 2 ^ 56) = some v → ∃ t y, exec .codePageScanDone s = .next t ∧
         t.hart? h = some y ∧ y.pendingTrap = some { cause := 0x10, xval := v, pc := x.pc, second := second, unit := 3 } ∧ t.mem = s.mem))) ∧
    (∃ t, exec .executeGrantClear s = .next t ∧ (let pa := frameAddr e.site e.n
      (∀ q l, l / 1024 = pa / 2 ^ 16 → t.cachedLine q l = none) ∧
      (∀ q en, en ∈ (t.quad q).tlb → en.big = false → en.frame = pa / 2 ^ 16 → en.x = false) ∧
      t.mem = (s.putMeta pa 0 (s.metaWord pa 0 &&& ~~~(1#64 <<< 63))).mem ∧ t.harts = s.harts)) ∧
    (∀ k, e.flag = false → (s.core e.site).kickLd = some k → s.running (.loader e.site) = false → (s.core e.site).ldDirty = false →
      pcOk k.pc = true → k.pc.toNat < 0x4000 → ∃ t y, exec .companionStart s = .next t ∧ t.hart? (.loader e.site) = some y ∧ y.pc = k.pc ∧ y.xreg 0 = k.arg ∧
        (t.core e.site).kickLd = none ∧ t.mem = s.mem) ∧
    (∀ k, e.flag = true → (s.core e.site).kickSt = some k → s.running (.storer e.site) = false →
      (let said := fun (cause : Nat) (v : Word) => ∃ t, exec .companionStart s = .next t ∧ (t.core e.site).kickSt = none ∧
         t.word (scratchKey e.site 0x7FFF8) = BitVec.ofNat 64 (2 ^ 63 + cause * 2 ^ 48 + v.toNat % 2 ^ 48)
       ((s.core e.site).stDirty = false → (pcOk k.pc = false ∨ 0x4000 ≤ k.pc.toNat) → said 0x03 k.pc) ∧
       (∀ v, (s.core e.site).stDirty = true → scanLines (fun i => lineNat (s.bytes (storeKey e.site true (64 * i)) 64)) 256 0 = some v → said 0x10 v)))

/-- Stores to the die control block that its tables take: TENTRY, the stack pools, the ring descriptors, the store-fault and merge-conflict
control words, the access table, the event counters. -/
def Obligations.TableStores : Prop :=
  ∀ (s : State) (v : Word), let d := s.ev.site
    (s.ev.value = v → (v = 0 ∨ (pcOk v = true ∧ s.markAt s.ev.writer d v = true)) → exec .tentryWrite s = .next (s.ctlPut d 0x100 v)) ∧
    (∀ n, n < 384 → v.toNat % 32 = 0 →
      (Puts s (0x4800 + 16 * n) v → exec .stackPoolWrite s = .next (s.ctlPut d (0x4800 + 16 * n) v)) ∧
      (Puts s (0x4808 + 16 * n) v → v.toNat < 2 ^ 32 → exec .stackPoolWrite s = .next (s.ctlPut d (0x4808 + 16 * n) v))) ∧
    (∀ n r cap base, n < 384 → r < 8 → cap < 2 ^ 14 → base < 2 ^ 13 → Puts s (0x80000 + 0x80 * n + 0x10 * r) (BitVec.ofNat 64 (cap * 2 ^ 36 + base * 2 ^ 6)) →
      base + cap ≤ 8192 → s.ringIdle (coreAt d n) r = true →
      (∀ i, i < 8 → i ≠ r → cap = 0 ∨ (s.ring (coreAt d n) i).cap = 0 ∨ base + cap ≤ (s.ring (coreAt d n) i).base ∨
        (s.ring (coreAt d n) i).base + (s.ring (coreAt d n) i).cap ≤ base) →
      exec .ringDescriptorWrite s = .next (s.setRing (coreAt d n) r { cap := cap, base := base, filled := 0, free := cap, head := 0, tail := 0 })) ∧
    (∀ n head count, n < 384 → head < 32 → count ≤ 32 →
      (Puts s (0x2000 + 8 * n) (BitVec.ofNat 64 (head + count * 2 ^ 8)) → exec .sfqControlWrite s =
        .next (s.ctlPut d (0x2000 + 8 * n) (BitVec.ofNat 64 (head + count * 2 ^ 8 + (s.ctlGet d (0x2000 + 8 * n)).toNat / 2 ^ 16 % 2 ^ 16 * 2 ^ 16)))) ∧
      (Puts s (0x2000 + 8 * n) (BitVec.ofNat 64 (2 ^ 63 + head + count * 2 ^ 8)) → exec .sfqControlWrite s =
        .next (s.ctlPut d (0x2000 + 8 * n) (BitVec.ofNat 64 (head + count * 2 ^ 8))))) ∧
    (∀ head count, head < 1024 → count ≤ 1024 →
      (s.ev.value = BitVec.ofNat 64 (head + count * 2 ^ 10) → exec .mcqControlWrite s =
        .next (s.ctlPut d 0x130 (BitVec.ofNat 64 (head + count * 2 ^ 10 + (s.ctlGet d 0x130).toNat / 2 ^ 32 % 2 ^ 16 * 2 ^ 32)))) ∧
      (s.ev.value = BitVec.ofNat 64 (2 ^ 63 + head + count * 2 ^ 10) → exec .mcqControlWrite s =
        .next (s.ctlPut d 0x130 (BitVec.ofNat 64 (head + count * 2 ^ 10))))) ∧
    (∀ k, k < 1024 →
      (Puts s (0x180000 + 0x20 * k) v → v.toNat / 2 ^ 56 % 8 = 0 → exec .accessTableWrite s = .next (s.ctlPut d (0x180000 + 0x20 * k) v)) ∧
      (Puts s (0x180008 + 0x20 * k) v → v.toNat < 2 ^ 56 → exec .accessTableWrite s = .next (s.ctlPut d (0x180008 + 0x20 * k) v)) ∧
      (Puts s (0x180010 + 0x20 * k) v → v.toNat % 2 ^ 44 = 0 → exec .accessTableWrite s = .next (s.ctlPut d (0x180010 + 0x20 * k) v))) ∧
    (∀ n i, n < 384 → i < 8 →
      (let off := 0x500000 + 0x80 * n + 0x10 * i
       (Puts s off v → counterBad false v = false → exec .eventCounterWrite s =
         .next (s.ctlPut d off ((v &&& ~~~(1#64 <<< 62)) ||| (s.ctlGet d off &&& (1#64 <<< 62))))) ∧
       (Puts s (off + 8) v → v.toNat < 2 ^ 48 → exec .eventCounterWrite s =
         .next ((s.ctlPut d (off + 8) v).ctlPut d off (s.ctlGet d off &&& ~~~(1#64 <<< 62))))))

/-- Stores that a table discards: the value stays, and the writer's store-fault record queue gets a record with status ACCESS. The time
table and the merge-type tables, the other doublewords, DIE RESET, and the owner keys that only the management controller writes. -/
def Obligations.TableRefusalsAndKeys : Prop :=
  ∀ (s : State) (v : Word), let d := s.ev.site
    (∀ off h, s.refuseStore (some h) d off = s.sfqFor h { kind := 0, addr := BitVec.ofNat 64 (6 * 2 ^ 60 + d % 4 * 2 ^ 40 + off), pc := (s.hart h).pc, status := 1 }) ∧
    (s.ev.value = v → v ≠ 0 → pcOk v = false → exec .tentryWrite s = .next (s.refuseStore s.ev.writer d 0x100)) ∧
    (∀ n r, n < 384 → r < 8 → Puts s (0x80008 + 0x80 * n + 0x10 * r) v →
      exec .ringDescriptorWrite s = .next (s.refuseStore s.ev.writer d (0x80008 + 0x80 * n + 0x10 * r))) ∧
    (∀ n, n < 256 →
      (let off := 0x380000 + 0x40 * n
       (Puts s off v → v.toNat / 2 ^ 44 % 2 ^ 15 = 0 → v.getLsbD 63 = true → ∃ t, exec .timeSlotWrite s = .next t ∧
         (∀ b, b < 64 → b ≠ 61 → (t.ctlGet d off).getLsbD b = v.getLsbD b) ∧ (t.ctlGet d off).getLsbD 61 = (s.ctlGet d off).getLsbD 61) ∧
       (Puts s off v → v.toNat / 2 ^ 44 % 2 ^ 15 = 0 → v.getLsbD 63 = false → ∃ t, exec .timeSlotWrite s = .next t ∧
         (t.ctlGet d off).getLsbD 61 = false ∧ lookup? n (t.die d).pendingK = none))) ∧
    (∀ j, j < 8 →
      (let o := jobOff j
       (Puts s o v → 2 * v.toNat ≤ (s.ctlGet d (o + 0x18)).toNat % 2 ^ 32 → v.toNat < 2 ^ 32 → exec .mergeTableWrite s = .next (s.ctlPut d o v)) ∧
       (Puts s o v → (s.ctlGet d (o + 0x18)).toNat % 2 ^ 32 < 2 * v.toNat → exec .mergeTableWrite s = .next (s.refuseStore s.ev.writer d o)) ∧
       (∀ i, i < 4096 → (s.job (8 * (d / 4) + j)).revs ≠ [] → Puts s (o + 0x100 + 16 * i) v →
         exec .mergeTableWrite s = .next (s.refuseStore s.ev.writer d (o + 0x100 + 16 * i))))) ∧
    (∀ n, n < 384 → Puts s (0x1000 + 8 * n) v → exec .controlBlockWrite s = .next (s.ctlPut d (0x1000 + 8 * n) (v &&& ~~~0x3FFF#64))) ∧
    (Puts s 0x118 v → v.toNat % 2 ^ 26 = 0 → exec .controlBlockWrite s = .next (s.ctlPut d 0x118 v)) ∧
    (Puts s 0x188 v → exec .controlBlockWrite s = .next (s.refuseStore s.ev.writer d 0x188)) ∧
    ((s.die d).reset = .up → ∃ t, exec .dieReset s = .next t ∧ (t.die d).reset = .draining ∧ t.mem = s.mem ∧ t.harts = s.harts) ∧
    ((s.die d).reset ≠ .up → exec .dieReset s = .next s) ∧
    (∀ k, lookupD {} s.ev.n (s.die d).keys = k → (∃ t, exec .ownerKeyWrite s = .next t ∧
      lookup? s.ev.n (t.die d).keys = some { cur := k.cur, next := some (s.ev.wide.setWidth 128), gen := BitVec.ofNat 8 s.ev.k })) ∧
    (∀ k n, lookup? s.ev.n (s.die d).keys = some k → k.next = some n →
      (∃ t, exec .keyPromote s = .next t ∧ lookup? s.ev.n (t.die d).keys = some { k with cur := some n, next := none })) ∧
    (∀ x, s.hart? s.ev.hart = some x → exec .revokedEntryRead s = .next (s.setHart s.ev.hart
      { x with outstanding := x.outstanding.map fun p => if 2 ^ 32 ≤ p.tag then { p with returned := true, tag := 0 } else p }))

/-- A position that an acquisition releases is free, or passes to the husk that marked it; a husk takes a free position, marks one that a
younger acquisition holds, and stops at one that an older husk has marked; an ordinary acquisition takes a run only if all of it is free.

The messages of an acquisition, in their order of arrival: a request for a remote run is granted whole or refused, and recorded while
granted; a reply lets the walk go on; a release frees the run; an older husk makes a younger one yield. -/
def Obligations.Exclusion : Prop :=
  (∀ (s : State) (d : DieKey) (who : DieKey × Nat) (p : Nat), let l := s.lockAt d p
    (l.held = some who → l.husk = none → ((s.releasePos d who p).lockAt d p).held = none ∧ ((s.releasePos d who p).lockAt d p).husk = none) ∧
    (∀ t a k, l.held = some who → l.husk = some (t, a, k) → ((s.releasePos d who p).lockAt d p).held = some (t, a) ∧
      ((s.releasePos d who p).lockAt d p).husk = none) ∧
    (∀ t a k, l.held ≠ some who → l.husk = some (t, a, k) → (t, a) = who → ((s.releasePos d who p).lockAt d p).husk = none ∧
      ((s.releasePos d who p).lockAt d p).held = l.held) ∧
    (∀ q, q ≠ p → (s.releasePos d who p).lockAt d q = s.lockAt d q) ∧
    (∀ key u f, s.huskSet d who key p = (u, f) →
      (l.held = none → l.husk = none → (u.lockAt d p).held = some who ∧ (u.lockAt d p).holderKey = some key ∧ f matches .taken) ∧
      (∀ h, l.held = some h → h ≠ who → l.husk = none → (u.lockAt d p).held = some h ∧ (u.lockAt d p).husk = some (who.1, who.2, key) ∧ f matches .marked) ∧
      (∀ t a k, l.held ≠ some who → (t, a) ≠ who → l.husk = some (t, a, k) → k.older key = true → u = s ∧ f matches .stop) ∧
      (∀ t a k, l.held ≠ some who → (t, a) ≠ who → l.husk = some (t, a, k) → k.older key = false →
        (u.lockAt d p).held = l.held ∧ (u.lockAt d p).husk = some (who.1, who.2, key) ∧ f matches .marked)) ∧
    (∀ run, (∀ i ∈ run, (s.lockAt d i).held = none ∧ (s.lockAt d i).husk = none) → ∃ u, s.setRun d who run = some u ∧
      (∀ i ∈ run, (u.lockAt d i).held = some who) ∧ (∀ i, i ∉ run → u.lockAt d i = s.lockAt d i)) ∧
    (∀ run i, i ∈ run → ((s.lockAt d i).held ≠ none ∨ (s.lockAt d i).husk ≠ none) → s.setRun d who run = none)) ∧
  (∀ (s s1 : State), let d := s.ev.site
    (∀ src a run husk incarn, s.Takes d (fun m => m.ofAcq = true) (.exclReq src a run husk incarn) s1 →
      (let noted := fun (u : State) => u.modDie d fun x => { x with grants := { die := src, incarn := incarn, acq := a, run := run } :: dropGrant src a run x.grants }
       (8192 ≤ (s1.die d).grants.length → exec .exclusionRequest s = .next (s1.send d src 3 (.exclReply d a (run.take 1) false []))) ∧
       ((s1.die d).grants.length < 8192 → husk = none →
         (∀ u, s1.setRun d (src, a) run = some u → exec .exclusionRequest s = .next ((noted u).send d src 3 (.exclReply d a run true run))) ∧
         (s1.setRun d (src, a) run = none → exec .exclusionRequest s = .next (s1.send d src 3 (.exclReply d a [] false [])))) ∧
       (∀ key u owned, (s1.die d).grants.length < 8192 → husk = some key →
         (s1.huskRun d (src, a) key run = (u, owned, none) → exec .exclusionRequest s = .next ((noted u).send d src 3 (.exclReply d a run true owned))) ∧
         (∀ p, s1.huskRun d (src, a) key run = (u, owned, some p) →
           exec .exclusionRequest s = .next ((noted u).send d src 3 (.exclReply d a [p] false owned)))))) ∧
    (∀ t a run ok owned, s.Takes d (fun m => m.ofAcq = true) (.exclReply t a run ok owned) s1 →
      (s1.acq? d a = none → exec .exclusionReply s = .next (s1.send d t 3 (.exclRelease d a run))) ∧
      (∀ q, s1.acq? d a = some q →
        (ok = true → q.stuck = none → q.hood.length ≤ q.next + run.length → owned = run → (∀ p ∈ run, (t, p) ∉ q.taken) →
          exec .exclusionReply s = .next ((s1.modAcq d a fun q => { q with asking := false }).modAcq d a fun q =>
            { q with taken := q.taken ++ run.map (fun p => (t, p)), next := q.next + run.length })) ∧
        (ok = false → q.stuck = none → q.husk = none → exec .exclusionReply s = .next ((s1.modAcq d a fun q => { q with asking := false }).conflict d a q)) ∧
        (∀ w, q.stuck = some w → exec .exclusionReply s =
          .next ((s1.modAcq d a fun q => { q with asking := false }).send d t 3 (.exclRelease d a (run ++ owned)))))) ∧
    (∀ a t p, s.Takes d (fun m => m.ofAcq = true) (.exclPass a t p) s1 →
      (s1.acq? d a = none → exec .exclusionReply s = .next (s1.send d t 3 (.exclRelease d a [p]))) ∧
      (∀ q, s1.acq? d a = some q → (t, p) ∈ q.marked → exec .exclusionReply s = .next (s1.modAcq d a fun q =>
        { q with taken := q.taken ++ [(t, p)], marked := q.marked.filter (fun e => e ≠ (t, p)) }))) ∧
    (∀ src a run, s.Takes d (fun m => m.ofAcq = true) (.exclRelease src a run) s1 → exec .exclusionRelease s =
      .next (run.foldl (fun u p => u.releasePos d (src, a) p) (s1.modDie d fun x => { x with grants := dropGrant src a run x.grants }))) ∧
    (∀ a t p, s.Takes d (fun m => m.ofAcq = true) (.huskYield a t p) s1 →
      (s1.acq? d a = none → exec .huskYield s = .next s1) ∧
      (∀ q k, s1.acq? d a = some q → q.husk = some k → q.issued = false → q.stuck = none →
        exec .huskYield s = .next (s1.yieldHusk d a q (t, p)) ∧
        (q.taken = [] → q.marked = [] → (s1.yieldHusk d a q (t, p)).acq? d a = some { q with taken := [], marked := [], next := 0, stuck := some (t, p) }))) ∧
    (∀ q, s.acq? d s.ev.n = some q →
      (s.firstRestart d = some s.ev.n → exec .huskRestart s = .next ((s.modAcq d s.ev.n fun q => { q with stuck := none, next := 0 }).walkOn d s.ev.n)) ∧
      (s.firstRestart d ≠ some s.ev.n → exec .huskRestart s = .next s)) ∧
    (∀ a, s.firstRestart d = some a → ∃ q ∈ (s.die d).acqs, q.1 = a ∧ s.restartable q.2 = true) ∧
    (∀ q ∈ (s.die d).acqs, s.restartable q.2 = true → (s.firstRestart d).isSome = true))

/-- A posted task enters its home's ready queues; the task of the highest priority starts its acquisition, which takes its positions in
order, and is requeued at a conflict; a task whose neighbourhood is malformed ends with ACCESS.

A task issues, once its neighbourhood is its own, into its reserved context with its element and its neighbour list; at its end its
launch accounts for it and its neighbourhood is released; a faulted task is queued again once. -/
def Obligations.Tasks : Prop :=
  (∀ (s : State), let d := s.ev.site
    (∀ t s1, s.Takes d (fun m => ∃ t, m = .post t) (.post t) s1 →
      (let n := lookupD 0 t.launch (s1.die d).arrivals
       let x := s1.die d
       (x.readyUsed < 8192 → (∀ q ∈ x.spill, q.prio ≠ t.prio) → exec .postArrival s = .next (s1.modDie d fun _ => { x with
         ready := x.ready ++ [{ t with arrival := n }], arrivals := setKey t.launch ((n + 1) % 2 ^ 40) x.arrivals })) ∧
       ((8192 ≤ x.readyUsed ∨ ∃ q ∈ x.spill, q.prio = t.prio) → x.spill.length < 16777216 → exec .postArrival s = .next (s1.modDie d fun _ => { x with
         spill := x.spill ++ [{ t with arrival := n }], arrivals := setKey t.launch ((n + 1) % 2 ^ 40) x.arrivals })) ∧
       (8192 ≤ x.readyUsed → 16777216 ≤ x.spill.length → exec .postArrival s = .next (s1.modDie d fun x => { x with inbox := .post t :: x.inbox })))) ∧
    (((s.die d).reset ≠ .up ∨ s.firstRestart d ≠ none ∨ s.nextTask d = none) → exec .acquisitionStart s = .next s) ∧
    (∀ t y ctx, (s.die d).reset = .up → s.firstRestart d = none → s.nextTask d = some t → s.launch? t.launch = some y → s.reserve y d = some ctx →
      (s.hoodOf d y t.elem = none → ∃ u z, exec .acquisitionStart s = .next u ∧ u.launch? t.launch = some z ∧ z.tasks = y.tasks - 1 ∧
        z.causeCount = y.causeCount + 1 ∧ z.ends = y.ends ++ [(0, 0x04, false)] ∧
        z.faults = min (2 ^ 32 - 1) (y.faults + 1) ∧ lookup? d z.rotation = some ctx.1 ∧ (u.die d).acqs = (s.die d).acqs) ∧
      (∀ l first count p, let a := (s.die d).nextAcq
        s.hoodOf d y t.elem = some (l, first, count) → y.positions l = [(d, p)] → t.retry < y.threshold → lookup? a (s.die d).acqs = none →
        ((s.lockAt d p).held = none → (s.lockAt d p).husk = none → ∃ u q, exec .acquisitionStart s = .next u ∧ u.acq? d a = some q ∧ q.task = t ∧
          q.ctx = ctx ∧ q.first = first ∧ q.count = count ∧ q.hood = [(d, p)] ∧ q.taken = [(d, p)] ∧ q.complete = true ∧
          (u.lockAt d p).held = some (d, a) ∧ (u.die d).ready = (s.die d).ready.erase t) ∧
        ((s.lockAt d p).held ≠ none ∨ (s.lockAt d p).husk ≠ none → ∃ u, exec .acquisitionStart s = .next u ∧ u.acq? d a = none ∧
          u.lockAt d p = s.lockAt d p ∧ { t with retry := min 255 (t.retry + 1) } ∈ (u.die d).ready ++ (u.die d).spill)))) ∧
  (∀ (s : State), let d := s.ev.site
    (∀ q y, s.acq? d s.ev.n = some q → s.launch? q.task.launch = some y →
      (q.complete = false → exec .taskIssue s = .next s) ∧
      (q.complete = true → ∃ u x r, exec .taskIssue s = .next u ∧ u.hart? (.ctx q.ctx.1 q.ctx.2) = some x ∧ x.pc = q.task.entry ∧
        x.xreg 0 = BitVec.ofNat 64 q.task.elem ∧ x.xreg 1 = q.first ∧ x.xreg 2 = q.count ∧ x.trap.mode = y.supervisor ∧ x.prio = y.prio ∧
        x.origin.launch = some q.task.launch ∧ x.origin.element = some q.task.elem ∧ u.acq? d s.ev.n = some r ∧ r.issued = true ∧ r.taken = q.taken ∧
        u.mem = s.mem)) ∧
    (∀ a faulted cause inner s1 q y, s.Takes d (fun m => ∃ a f c i, m = .taskEnd a f c i) (.taskEnd a faulted cause inner) s1 → s1.acq? d a = some q →
      s1.launch? q.task.launch = some y →
      (let again := faulted = true ∧ y.repost = true ∧ q.task.reposted = false
       ∃ u z, exec .taskEnd s = .next u ∧ u.launch? q.task.launch = some z ∧
         (faulted = false → z.tasks = y.tasks - 1 ∧ z.doneCount = y.doneCount + 1 ∧ z.causeCount = y.causeCount ∧
           (q.task.reposted = false → z.ends = y.ends) ∧ (q.task.reposted = true → ∀ c, (q.task.endNo, c, true) ∉ z.ends)) ∧
         (again → z.tasks = y.tasks ∧ z.doneCount = y.doneCount ∧ z.causeCount = y.causeCount + 1 ∧ z.ends = y.ends ++ [(s.free + 1, cause, true)]) ∧
         (faulted = true → ¬again → z.tasks = y.tasks - 1 ∧ z.doneCount = y.doneCount ∧ z.causeCount = y.causeCount + 1 ∧ (0, cause, false) ∈ z.ends ∧
           (q.task.reposted = true → ∀ c, (q.task.endNo, c, true) ∉ z.ends)) ∧
         (¬again → u.acq? d a = none) ∧
         (again → q.taken = [] → u.acq? d a = some { q with releasing := true, taken := [], task := { q.task with endNo := s.free + 1 } }))) ∧
    ((∀ p ∈ (s.die d).acqs, p.2.releasing = false) → exec .rePost s = .next s) ∧
    (∀ a q, (s.die d).acqs.find? (fun p => p.2.releasing) = some (a, q) →
      let x : Die := { s.die d with acqs := eraseKey a (s.die d).acqs }
      let t := { q.task with retry := 0, reposted := true }
      (x.readyUsed < 8192 → (∀ r ∈ x.spill, r.prio ≠ t.prio) → exec .rePost s = .next (s.modDie d fun _ => { x with ready := x.ready ++ [t] })) ∧
      (8192 ≤ x.readyUsed ∨ (∃ r ∈ x.spill, r.prio = t.prio) → x.spill.length < 16777216 →
        exec .rePost s = .next (s.modDie d fun _ => { x with spill := x.spill ++ [t] })) ∧
      (8192 ≤ x.readyUsed → 16777216 ≤ x.spill.length → exec .rePost s = .next s)))

/-- A launch packet enters the queue of 16, where its key tag is one of its domain's; LAUNCH START takes the oldest, and one that is malformed
ends at once with BAD-LAUNCH; a launch starts once its lease ranges are resident, and its other packages get its descriptor; the unit is done
with it once each of its first threads has started or waits for a context.

A launch of which nothing remains is over, and it is gone: its completion record is written, then its mailbox, at the pages that its space
maps and that its owner may write. -/
def Obligations.Launches : Prop :=
  (∀ (s : State), let d := s.ev.site
    (let keyed := (s.die d).keyAccepts s.ev.packet.owner.toNat (s.ev.wide.extractLsb' 0 128)
     (keyed = false → exec .launchArrival s = .next (s.countDie d 0x48)) ∧
     (keyed = true → (s.die d).launchq.length < 16 → (s.die d).reset = .up →
       exec .launchArrival s = .next (s.modDie d fun x => { x with launchq := x.launchq ++ [(s.ev.packet, none)] })) ∧
     (keyed = true → (16 ≤ (s.die d).launchq.length ∨ (s.die d).reset ≠ .up) → exec .launchArrival s = .next s)) ∧
    ((s.die d).reset ≠ .up → exec .launchStart s = .next s) ∧
    (∀ p slot r, (s.die d).reset = .up → (s.die d).starting = none → (s.die d).launchq = (p, slot) :: r →
      (let s0 := s.modDie d fun x => { x with launchq := r }
       let y := s0.makeLaunch d p slot
       ((p.reserved ≠ 0 ∨ p.kind ≠ 1 ∨ p.descriptor.toNat % 64 ≠ 0 ∨ p.coreCount = 0 ∨ 1536 < p.firstCore.toNat + p.coreCount.toNat) → y.badStatus = 0x40) ∧
       (y.badStatus ≠ 0 →
         ∃ u z, exec .launchStart s = .next u ∧ (u.die d).launchq = r ∧ (u.die d).starting = none ∧ u.launch? s.free = some z ∧
           z.badStatus = y.badStatus ∧ z.packet = p ∧ z.over = true ∧ u.mem = s.mem) ∧
       (y.badStatus = 0 → y.leases = [] → (∀ b ∈ y.blocks, b.die / 4 = d / 4) →
         ∃ u z, exec .launchStart s = .next u ∧ (u.die d).launchq = r ∧ (u.die d).starting = some s.free ∧ u.launch? s.free = some z ∧ z.started = true ∧
           z.resident = [d / 4] ∧ z.toStart = List.range p.coreCount.toNat ∧ z.packet = p ∧ z.entry = y.entry ∧ u.mem = s.mem))) ∧
    (∀ l y, (s.die d).reset = .up → (s.die d).starting = some l → s.launch? l = some y →
      (y.started = true → y.held = false → (∃ i ∈ y.toStart, (s.freeSlot (y.firstCoreAt i)).isSome = true) → exec .launchStart s = .next s) ∧
      (y.started = true → y.toStart = [] ∨ (∀ i ∈ y.toStart, s.freeSlot (y.firstCoreAt i) = none) →
        exec .launchStart s = .next (s.modDie d fun x => { x with starting := none })) ∧
      (∀ u, y.started = false → s.pinLeases d l y = (u, false) → exec .launchStart s = .next u) ∧
      (∀ u, y.started = false → s.pinLeases d l y = (u, true) → ∃ t, exec .launchStart s = .next t ∧ (t.die d).starting = some l ∧
        ∀ w, u.launch? l = some w → t.launch? l = some { w with started := true, resident := [d / 4] })) ∧
    (∀ l s1 y u, s.Takes d (fun m => ∃ l, m = .descriptor l) (.descriptor l) s1 → s1.launch? l = some y →
      (s1.pinLeases d l y = (u, true) → exec .launchDescriptorRemote s = .next (u.modLaunch l fun y => { y with resident := y.resident ++ [d / 4] })) ∧
      (s1.pinLeases d l y = (u, false) → exec .launchDescriptorRemote s = .next (u.modDie d fun x => { x with inbox := x.inbox ++ [.descriptor l] })))) ∧
  (∀ (s : State) (y : Launch), s.launch? s.ev.site = some y → (s.die y.die).reset = .up →
    (y.over = false → exec .launchCompletion s = .next s) ∧
    (y.over = true → (∃ u, exec .launchCompletion s = .next u ∧ u.launch? s.ev.site = none ∧ u.harts = s.harts) ∧
      (∀ ea eb, y.leases = [] → s.unitEntry y.die y.space y.packet.record.toNat = some ea → s.unitEntry y.die y.space y.packet.mailbox.toNat = some eb →
        (let a := ea.pa (y.packet.record.toNat % 2 ^ 57)
         let b := eb.pa (y.packet.mailbox.toNat % 2 ^ 57)
         let open1 := fun (c n : Nat) => s.granted c = false ∧ s.ownerStatus y.die y.packet.owner.toNat c n true = 0
         let apart := fun (c n : Nat) => a + 64 ≤ c ∨ c + n ≤ a
         open1 a 64 → open1 b 8 → apart b 8 → apart (s.metaAddr b) 32 → ∃ u t, exec .launchCompletion s = .next u ∧
           (∀ i, i < 8 → u.word (a + 8 * i) = BitVec.ofNat 64 ((y.record t).getD i 0)) ∧
           u.word b = BitVec.ofNat 64 (y.packet.identity.toNat * 2 ^ 32 + 2 ^ 31 + (y.record t).headD 0 % 2 ^ 8)))))

/-- The first threads of a launch start in the order of its cores, each from its image; a slot that is due queues its launch, or counts a
skip, or sets its pending bit; a budget that ends pre-empts the launch's threads, its handlers too. -/
def Obligations.ThreadsAndSlots : Prop :=
  ∀ (s : State), let e := s.ev
    (∀ y i n, s.launch? e.site = some y → y.started = true → y.held = false → (∀ p ∈ s.launches, p.1 < e.site → p.2.toStart = []) →
      (let core := y.firstCoreAt
       let base := y.packet.image.toNat + 0x4000 * (if y.packet.sharedImage then 0 else i)
       let w := fun (o : Nat) => s.unitWord y.die y.space (base + o)
       y.toStart.find? (fun i => (s.freeSlot (core i)).isSome) = some i → s.freeSlot (core i) = some n →
       (∀ k, k < 4 → s.isPoisoned (s.unitPa y.die y.space (base + 64 * k)) 64 = false) →
       ∃ u x z, exec .firstThreadStart s = .next u ∧ u.hart? (.ctx (core i) n) = some x ∧ x.pc = y.entry ∧ (∀ j, j < 16 → x.xreg j = w (8 * j)) ∧
         (∀ j, j < 8 → x.regs.g.toList.getD j 0 = w (0x80 + 8 * j)) ∧ x.rsbase = w 0xE8 ∧ x.wbase = w 0xE8 ∧
         x.rslim = w 0xF0 ∧ x.trap.mode = y.supervisor ∧ x.migratory = y.packet.migratory ∧ u.launch? e.site = some z ∧
         z.toStart = y.toStart.filter (· ≠ i) ∧ z.live = y.live + 1 ∧ u.mem = s.mem)) ∧
    (let d := e.site
     let n := e.n % 256
     let w0 := s.ctlGet d (slotOff n)
     let T := (s.ctlGet d 0x160).toNat
     let off := (s.ctlGet d (slotOff n + 56)).toNat % 2 ^ 32
     let due := Int.ofNat ((s.ctlGet d 0x168).toNat + off) + e.shift * Int.ofNat T
     (w0.getLsbD 63 = false ∨ T ≤ off ∨ (s.die d).fired n e.shift = true → exec .slotDue s = .next s) ∧
     (w0.getLsbD 63 = true → off < T → (s.die d).fired n e.shift = false → (s.die d).reset = .up → 0 ≤ due → due < 2 ^ 64 →
       (s.slotBusy d n = false → s.slotPending d n = false → (s.die d).launchq.length < 16 → ∃ u, exec .slotDue s = .next u ∧
         (u.die d).launchq = (s.die d).launchq ++ [(s.slotPacket d n e.shift, some n)] ∧ (u.die d).fired n e.shift = true ∧
         due.toNat ≤ (u.pkg (d / 4)).time.toNat ∧ u.ctl = s.ctl ∧ u.mem = s.mem) ∧
       (s.slotBusy d n = false → s.slotPending d n = false → 16 ≤ (s.die d).launchq.length → exec .slotDue s = .next s) ∧
       (s.slotLaunch d n = none → s.slotBusy d n = true → w0.getLsbD 62 = true → s.slotPending d n = false → ∃ u, exec .slotDue s = .next u ∧
         u.ctl = (s.ctlPut d (slotOff n) (w0 ||| (1#64 <<< 61))).ctl ∧ lookup? n (u.die d).pendingK = some e.shift) ∧
       (s.slotLaunch d n = none → (s.slotBusy d n = true ∧ w0.getLsbD 62 = false ∨ s.slotPending d n = true) → ∃ u, exec .slotDue s = .next u ∧
         u.ctl = (s.skipSlot d n 1).ctl)) ∧
     (s.slotPending d n = true → s.slotBusy d n = false → (s.die d).launchq.length < 16 → ∃ u, exec .pendingLaunchStart s = .next u ∧
       (u.die d).launchq = (s.die d).launchq ++ [(s.slotPacket d n (lookupD 0 n (s.die d).pendingK), some n)] ∧
       u.ctl = (s.ctlPut d (slotOff n) (w0 &&& ~~~(1#64 <<< 61))).ctl) ∧
     (s.slotPending d n = false ∨ s.slotBusy d n = true ∨ 16 ≤ (s.die d).launchq.length → exec .pendingLaunchStart s = .next s)) ∧
    (∀ l y, s.slotLaunch e.site e.n = some (l, y) → s.launch? l = some y →
      (y.budget = 0 ∨ y.held = true ∨ y.started = false → exec .slotBudgetExpiry s = .next s) ∧
      (y.budget ≠ 0 → y.held = false → y.started = true → ∃ u z, exec .slotBudgetExpiry s = .next u ∧ u.launch? l = some z ∧ z.held = true ∧
        (∀ h x, isThread h = true → s.hart? h = some x → x.origin.launch = some l → x.phase = .active →
          ∃ w, u.hart? h = some w ∧ w.preempt = true ∧ w.regs = x.regs ∧ w.pc = x.pc) ∧ u.mem = s.mem)) ∧
    (e.shift.natAbs < 1000000 → exec .timeSyncMessage s = .next s) ∧
    (1000000 ≤ e.shift.natAbs → ∃ u, exec .timeSyncMessage s = .next u ∧ (u.pkg e.site).time = (s.pkg e.site).time + BitVec.ofInt 64 e.shift ∧
      u.mem = s.mem ∧ u.harts = s.harts)

/-- Enqueues at their receiver: room reserves and the message lands behind the earlier ones; without room it waits, one of 16; a ring that
is disabled or too small, or a die that is barred to its owner, refuses it, with a record at its sender; frees let the oldest wait end; a landed
message tells its sender; a message of the core's own lands when its bytes come.

A fill sets an empty cell of its generation, on a stack that is open to its owner, and wakes the thread that waits for it; another is
discarded and counted, and an `fput` that is refused has a record at its sender. A barrier with its count releases the threads that wait at it. -/
def Obligations.EnqueueFillAndBarrierEvents : Prop :=
  (∀ (s : State), let d := s.ev.site
    (∀ src c r bs ack owner acc sc rest, (s.die d).inbox = .enqueue src c r bs ack owner acc sc :: rest →
      (let g := s.ring c r
       let l : Landing := { ring := r, slots := ringSlots bs.length, bytes := leBytes 8 (ringHeader sc bs.length) ++ bs, ack := ack,
                            credit := if ack.isSome then none else some sc, owner := owner }
       let s1 := s.modDie d fun x => { x with inbox := rest }
       (s1.barred (dieOfCore sc) d owner = false → r < 8 → ringSlots bs.length ≤ g.cap →
         (ringSlots bs.length ≤ g.free → (∀ w ∈ (s.core c).waiting, w.ring ≠ r) → exec .enqueueArrival s =
           .next ((s1.setRing c r { g with free := g.free - ringSlots bs.length }).modCore c fun k => { k with landing := k.landing ++ [l] })) ∧
         ((g.free < ringSlots bs.length ∨ ∃ w ∈ (s.core c).waiting, w.ring = r) → (s.core c).waiting.length < 16 →
           exec .enqueueArrival s = .next (s1.modCore c fun k => { k with waiting := k.waiting ++ [l] }))) ∧
       ((s1.barred (dieOfCore sc) d owner = true ∧ (s.core c).waiting.length < 16 ∨ 8 ≤ r ∨ g.cap < ringSlots bs.length) →
         (∀ pkg cell, ack = some (pkg, cell) → exec .enqueueArrival s = .next ((s1.refuseFor src acc).sendFill d pkg cell 1 none owner)) ∧
         (ack = none → exec .enqueueArrival s = .next ((s1.refuseFor src acc).sendCredit d sc))))) ∧
    (∀ l, (s.core d).waiting.find? (fun w => w.ring == s.ev.n) = some l →
      (l.slots ≤ (s.ring d s.ev.n).free → exec .waitingEnqueueReserve s =
        .next ((s.setRing d s.ev.n { s.ring d s.ev.n with free := (s.ring d s.ev.n).free - l.slots }).modCore d fun k =>
          { k with waiting := k.waiting.erase l, landing := k.landing ++ [l] })) ∧
      ((s.ring d s.ev.n).free < l.slots → exec .waitingEnqueueReserve s = .next s)) ∧
    (∀ x, s.hart? s.ev.hart = some x → x.wait = some .enqueue → exec .enqueueRetry s = .next (s.setHart s.ev.hart { x with wait := none })) ∧
    ((∀ l ∈ (s.core d).landing, l.own = true) → exec .messageLanded s = .next s) ∧
    (∀ l r, (s.core d).landing = l :: r → l.own = false → (∀ m ∈ r, m.own = false) →
      (let s1 := (s.modCore d fun k => { k with landing := r }).landNow d l
       (∀ pkg cell, l.ack = some (pkg, cell) → l.credit = none → exec .messageLanded s = .next (s1.sendFill (dieOfCore d) pkg cell 0 none l.owner)) ∧
       (∀ sc, l.ack = none → l.credit = some sc → exec .messageLanded s = .next (s1.sendCredit (dieOfCore d) sc)))) ∧
    (∀ l, (s.core d).landing = [l] → l.own = true → l.missing = true → ∀ bs, s.landTicket d l.ring l.ticket bs =
      (s.modCore d fun k => { k with landing := [] }).landNow d { l with bytes := bs, missing := false }) ∧
    (∀ c s1, s.Takes d (fun m => ∃ c, m = .credit c) (.credit c) s1 → ∃ u, exec .enqueueCredit s = .next u ∧ u.mem = s.mem ∧ u.harts = s.harts ∧
      (u.ctlGet (dieOfCore c) (0x3008 + 16 * (c % 384))).toNat = ((s.ctlGet (dieOfCore c) (0x3008 + 16 * (c % 384))).toNat + 1) % 2 ^ 48)) ∧
  (∀ (s : State), let d := s.ev.site
    (∀ v w fput owner s1, s.Takes d (fun m => ∃ v w f o, m = .fill v w f o) (.fill v w fput owner) s1 →
      (let c := 1536 * (d / 4) + handleCore v
       let i := handleCell v
       let f := (s.core c).future i
       let good := v.toNat / 2 ^ 40 = 3 ∧ handleCore v < 1536 ∧ f.valid = true ∧ f.full = false ∧ f.gen.toNat = handleGen v ∧ s1.shut d owner (d / 4) = false
       (good → ∃ u, exec .futureFill s = .next u ∧ (u.core c).future i = { f with value := w, full := true } ∧
         (∀ j, j ≠ i → (u.core c).future j = (s.core c).future j) ∧ (∀ h x, f.owner = some h → s.hart? h = some x →
           u.hart? h = some (if x.wait = some (.future i) then { x with wait := none } else x)) ∧ u.mem = s.mem) ∧
       (¬good → fput = none → exec .futureFill s = .next (s1.countDie d 0x41)) ∧
       (∀ h a, ¬good → fput = some (h, a) → exec .futureFill s = .next ((s1.countDie d 0x41).refuseFor h a)))) ∧
    (∀ h a, (∀ x, s.hart? h = some x → x.since = a.born → s.refuseFor h a = s.setHart h { x with accesses := x.accesses ++ [a] }) ∧
      ((∀ x, s.hart? h = some x → x.since ≠ a.born) → s.refuseFor h a = s.sfqGone h a)) ∧
    (∀ b, (s.die (barrierRoot s.ev.n s.ev.k)).barriers.find? (fun b => b.same d s.ev.n s.ev.k s.ev.m) = some b →
      (b.total < b.count → exec .barrierComplete s = .next s) ∧
      (b.count ≤ b.total → ∃ u, exec .barrierComplete s = .next u ∧ u.mem = s.mem ∧
        (u.die (barrierRoot s.ev.n s.ev.k)).barriers = (s.die (barrierRoot s.ev.n s.ev.k)).barriers.erase b ∧
        (∀ h x, h ∈ b.arrived → s.hart? h = some x → x.wait = some (.barrier b.serial) → u.hart? h = some { x with wait := none, grant := some 5 }) ∧
        (∀ h x, s.hart? h = some x → (h ∉ b.arrived ∨ x.wait ≠ some (.barrier b.serial)) → u.hart? h = some x))))

/-- Active messages: one for an invalid tag or a barred die is refused; one that a handler context can take starts its handler with its arguments in the mode
and space of its launch; another waits behind its tag's earlier ones, and the first by priority, tag and age enters next. A handler whose
saved stack limits are lost ends with CONTEXT-LOST.

The gather engine goes on with its command where it stood: it waits, or fills the cell with the count, index and status of its failures
and takes the next; a lease that does not cover an access ends the thread. -/
def Obligations.HandlersAndGather : Prop :=
  (∀ (s : State), let d := s.ev.site
    (∀ src pc t table entry args reply owner acc sc rest,
      (s.die d).inbox = .active src pc t table entry args reply owner acc sc :: rest →
      (let m := Msg.active src pc t table entry args reply owner acc sc
       let s1 := (s.modDie d fun x => { x with inbox := rest }).sendCredit d sc
       ((s1.barred (dieOfCore sc) d owner = true ∨ s.tagValid d t = false) → s.tagValid d t = false ∨ ((s.die d).tagQueue t).length < 8 → exec .activeMessageArrival s = .next (s1.refuseActive d m)) ∧
       (s1.barred (dieOfCore sc) d owner = false → s.tagValid d t = true → (s.die d).tagQueue t = [] → s1.mayEnter d t (s.tagPrio d t) = true →
         exec .activeMessageArrival s = .next (s1.enterHandler d { msg := m, prio := s.tagPrio d t } s.ev.flag)) ∧
       (s1.barred (dieOfCore sc) d owner = false → s.tagValid d t = true → ((s.die d).tagQueue t).length < 8 → ((s.die d).tagQueue t ≠ [] ∨ s1.mayEnter d t (s.tagPrio d t) = false) →
         exec .activeMessageArrival s = .next (s1.modDie d fun x => x.setTagQueue t (((s.die d).tagQueue t) ++ [{ msg := m, prio := s.tagPrio d t }]))))) ∧
    (s.nextTag d = none → exec .handlerEntry s = .next s) ∧
    (∀ t m, s.nextTag d = some (t, m) → exec .handlerEntry s =
      .next ((s.modDie d fun x => x.setTagQueue t ((x.tagQueue t).drop 1)).enterHandler d m s.ev.flag)) ∧
    (∀ src pc t table entry args reply owner acc sc loc prio l y n,
      s.tagLaunch d t = some (l, y) → s.freeHandler d = some n → s.launch? l = some y →
      (let base := s.unitPa d y.space (s.imageVa (.handler d n))
       s.isPoisoned (base + 0xE8) 16 = false →
       ∃ x z, (s.enterHandler d { msg := .active src pc t table entry args reply owner acc sc, loc := loc, prio := prio } false).hart? (.handler d n) = some x ∧
         x.pc = (if table then s.ctlGet d (tagOff t + 8) else entry) ∧ (∀ i, i < 16 → x.xreg i = args.getD i 0) ∧
         x.rsbase = s.word (base + 0xE8) ∧ x.wbase = s.word (base + 0xE8) ∧ x.rslim = s.word (base + 0xF0) ∧ x.trap.mode = y.supervisor ∧ x.prio = prio ∧
         x.origin.launch = some l ∧ x.origin.space = y.space ∧
         (s.enterHandler d { msg := .active src pc t table entry args reply owner acc sc, loc := loc, prio := prio } false).launch? l = some z ∧
         z.live = y.live + 1))) ∧
  (∀ (s : State), let d := s.ev.site
    ((s.die d).gather = [] → exec .gatherComplete s = .next s) ∧
    (∀ c g r u, (s.die d).gather = (c, g) :: r → (gatherRun c g).run s = (.ok (), u) →
      ∀ c1 g1 r1, (u.die d).gather = (c1, g1) :: r1 → exec .gatherComplete s = .next ((u.modDie d fun x => { x with gather := [] }).sendFill d
        (pkgOfCore c) g.cell (BitVec.ofNat 64 (g1.failIndex * 2 ^ 32 + g1.failCode * 2 ^ 24 + g1.failCount)) none g.owner)) ∧
    (∀ c g r u, (s.die d).gather = (c, g) :: r →
      ((gatherRun c g).run s = (.error .wait, u) → exec .gatherComplete s = .next u) ∧
      (∀ st, (gatherRun c g).run s = (.error (.fail st), u) → exec .gatherComplete s =
        .next ((u.modDie d fun x => { x with gather := [] }).sendFill d (pkgOfCore c) g.cell (BitVec.ofNat 64 (st * 2 ^ 24)) none g.owner)) ∧
      (∀ x, (gatherRun c g).run s = (.error .lease, u) → u.hart? g.hart = some x → x.phase ≠ .ending →
        exec .gatherComplete s = .next ((u.modDie d fun x => { x with gather := [] }).endThread g.hart LEASE 0))))

/-- The merge of one element: the child's bits where the parent has not changed it, the parent's where the child has not, and otherwise the
result of its kind.

The events of the revision unit: a die registers a fork and answers; a first write keeps the copies it needs, or is refused at the
quota; a line is merged in its turn, an uncorrectable one leaving the parent's value; and a merge that is complete frees the child and lets its join return. -/
def Obligations.Revisions : Prop :=
  (∀ (a p c k : Nat), k < 4 →
    (let w := 8 * 2 ^ k
     let code := fun (kind : Nat) => 8 * kind + 2 * k
     (∀ z, mergeElement z a p a = (p, 0, false)) ∧ (∀ z, c ≠ a → mergeElement z a a c = (c, 0, false)) ∧
     (c ≠ a → p ≠ a → a < 2 ^ w → p < 2 ^ w → c < 2 ^ w →
       mergeElement (code 0) a p c = (c, 0, false) ∧ mergeElement (code 1) a p c = (p, 0, false) ∧
       ((mergeElement (code 2) a p c).1 + a) % 2 ^ w = (p + c) % 2 ^ w ∧ (mergeElement (code 2) a p c).1 < 2 ^ w ∧
       sext (mergeElement (code 3) a p c).1 w = max (sext p w) (sext c w) ∧ sext (mergeElement (code 4) a p c).1 w = min (sext p w) (sext c w) ∧
       mergeElement (code 5) a p c = (max p c, 0, false) ∧ mergeElement (code 6) a p c = (min p c, 0, false) ∧
       mergeElement (code 7) a p c = (p ||| c, 0, false) ∧ mergeElement (code 8) a p c = (p &&& c, 0, false) ∧
       mergeElement (code 9) a p c = (p, 0, decide (p ≠ c))))) ∧
  (∀ (s : State), let e := s.ev
    (∀ j rev par hart tag s1, s.Takes e.site (fun m => ∃ j r p h t, m = .forkReg j r p h t) (.forkReg j rev par hart tag) s1 →
      ∃ u, exec .forkRegistration s = .next u ∧
        (∀ r, r ∈ (s.job j).revs → r.num = rev → { r with registered := e.site % 4 :: r.registered } ∈ (u.job j).revs) ∧
        (∀ h x, s.hart? h = some x → u.hart? h = some (if dieOfHart h = e.site then { x with filter := [] } else x)) ∧
        (dieOfHart hart = e.site → (u.die e.site).inbox = (s1.die e.site).inbox ++ [.forkAck hart tag j rev]) ∧ u.mem = s.mem) ∧
    (∀ x l j, s.hart? e.hart = some x → x.wait = some (.firstWrite l) → x.origin.job = some j →
      (∀ t, s.firstWrite j x.revid l (lookupD l l ((s.job j).vas)) = some t →
        exec .firstWrite s = .next (t.setHart e.hart { x with wait := none, filter := addFilter l x.filter, answered := l :: x.answered })) ∧
      (s.firstWrite j x.revid l (lookupD l l ((s.job j).vas)) = none →
        exec .firstWrite s = .next
          (s.setHart e.hart { x with wait := none, refused := some (BitVec.ofNat 64 (64 * lookupD l l ((s.job j).vas))) }))) ∧
    (∀ j r line v,
      (s.firstNeeds j r line ≠ 0 → s.quota j < (s.job j).useCount + s.firstNeeds j r line → s.firstWrite j r line v = none) ∧
      (∀ x, s.firstNeeds j r line ≠ 0 → (s.job j).useCount + s.firstNeeds j r line ≤ s.quota j → x ∈ (s.job j).revs → x.num = r →
        lookup? line x.copies = none → (∀ z ∈ lackers (s.job j) r line, z.num ≠ r) →
        ∃ t, s.firstWrite j r line v = some t ∧ { x with copies := x.copies ++ [(line, s.view j r line)] } ∈ (t.job j).revs ∧ t.mem = s.mem) ∧
      (∀ z, s.firstNeeds j r line ≠ 0 → (s.job j).useCount + s.firstNeeds j r line ≤ s.quota j → z ∈ lackers (s.job j) r line →
        ∃ t, s.firstWrite j r line v = some t ∧
          { z with ancestors := z.ancestors ++ [(line, (s.job j).nextCopy, s.view j r line)] } ∈ (t.job j).revs)) ∧
    (s.joining e.hart = none → exec .merge s = .next s ∧ exec .mergeComplete s = .next (s.tryGone e.hart)) ∧
    (∀ j r, s.joining e.hart = some (j, r) →
      (s.mayMerge (j / 8) r e.n = true → exec .merge s = .next (s.mergeRevLine j r e.n (s.hart e.hart).origin.owner (s.hart e.hart).pc e.flag)) ∧
      (s.mayMerge (j / 8) r e.n = false → exec .merge s = .next s) ∧
      (∀ x, s.hart? e.hart = some x → x.phase ≠ .ending → (∀ c ∈ r.copies, c.1 ∈ r.merged) →
        (∀ c ∈ s.cores, pkgOfCore c.1 = j / 8 → ∀ b ∈ c.2.wbuf, b.rev ≠ r.num) →
        exec .mergeComplete s = .next ((s.freeRevs j [r.num]).setHart e.hart
          { x with wait := none
                   joined := some (r.handle, joinGrant (r.conflicts * 2 ^ 16 + (if r.damaged then 0x21 else r.status)) r.flags) })) ∧
      ((s.hart e.hart).phase = .ending → (∀ c ∈ r.copies, c.1 ∈ r.merged) →
        (∀ c ∈ s.cores, pkgOfCore c.1 = j / 8 → ∀ b ∈ c.2.wbuf, b.rev ≠ r.num) →
        ∃ u : State, exec .mergeComplete s = .next (u.tryGone e.hart) ∧ u.harts = s.harts ∧ u.mem = s.mem ∧
          (u.job j).revs = (((s.freeRevs j [r.num]).job j).revs.map fun y =>
            if y.child = some e.hart then { y with conflicts := min 65535 (y.conflicts + r.conflicts) } else y))) ∧
    (∀ j x line owner pc code c bad, let d := homeOf (64 * line)
      s.regionCode d j (64 * lookupD 0 line (s.job j).vas) = some code → lookup? line x.copies = some c →
      code / 8 ≠ 9 →
      (let p := s.view j x.parent line
       let a := match lookup? line x.ancestors with
         | some b => b.2
         | none => p
       let t := s.mergeRevLine j x line owner pc bad
       (x.parent = 0 → t.bytes (64 * line) 64 = (if bad then p else (mergeLine code a p c).1)) ∧
       (∀ y, x.parent ≠ 0 → bad = false → (s.job j).rev? x.parent = some y → y.parent ≠ x.parent →
         (∀ z ∈ (s.job j).revs, z.num = x.parent → z = y) → p.length = 64 →
         t.view j x.parent line = (mergeLine code a p c).1 ∧ t.mem = s.mem))))

/-- A remote atomic at its home: a first attempt is performed and recorded with its token, and so is a repeated one that the home has no
record of; a repeated attempt of the same token and incarnation is answered from the record, and one of an older incarnation as STALE; one whose
page has moved goes on to the new home. The answer returns the old value and the token word with its status. A lost one, or one whose
route or home is down, is answered as LINKLOST.

A translation miss goes to the service core of its page, or joins one for the same page; with a full miss queue its requester stalls on. -/
def Obligations.RemoteAtomicsAndMisses : Prop :=
  (∀ (s : State), let d := s.ev.site
    (∀ src r rest, (s.die d).inbox = .atomic src r :: rest →
      (let s1 := s.modDie d fun x => { x with inbox := rest }
       let now := (s.die d).incarn.toNat
       let seen := (s.die d).blockOf r.hart >>= fun b => b.records.find? (fun (t : Nat × Nat × Word) => t.1 == r.token && t.2.1 == r.incarn)
       (r.home ≠ d → exec .atomicHomePerform s = .next (s1.send d r.home 0 (.atomic src r) r.owner)) ∧
       (r.home = d → (r.window = true ∨ (s.metaWord r.pa 0).getLsbD 60 = false) → (s.die d).blockFor r.hart = true →
         (∀ u old fl, (r.retry = false ∨ r.incarn = now ∧ seen = none) → s1.performAtomic d r = (u, old, 0, fl) →
           exec .atomicHomePerform s = .next ((u.modDie d fun x => x.recordToken r now old).send d src 1 (.atomicReply r old 0 fl))) ∧
         (∀ u st, (r.retry = false ∨ r.incarn = now ∧ seen = none) → st ≠ 0 → s1.performAtomic d r = (u, 0, st, 0) →
           exec .atomicHomePerform s = .next (u.send d src 1 (.atomicReply r 0 st 0))) ∧
         (r.retry = true → r.incarn ≠ now → exec .atomicHomePerform s = .next (s1.send d src 1 (.atomicReply r 0 4 0))) ∧
         (∀ old, r.retry = true → r.incarn = now → seen = some (r.token, r.incarn, old) →
           exec .atomicHomePerform s = .next (s1.send d src 1 (.atomicReply r old 0 0)))))) ∧
    (∀ r, r.window = false → s.granted r.pa = false → s.ownerStatus (dieOfHart r.hart) r.owner r.pa (sizeOf8 r.ty) true = 0 →
      s.isPoisoned r.pa (sizeOf8 r.ty) = false → r.job = none → (let old := s.num r.pa (sizeOf8 r.ty)
        let nw := atomicNew r.isCas r.op r.ty old r.operand.toNat r.newVal.toNat
        ∃ u, s.performAtomic d r = (u, BitVec.ofNat 64 old, 0, nw.2) ∧ u.mem = (s.putNum r.pa (sizeOf8 r.ty) nw.1).mem ∧
          u.ctl = s.ctl ∧ u.harts = s.harts)) ∧
    (∀ r st, r.window = false → st ≠ 0 → st = (if s.granted r.pa then 1 else s.ownerStatus (dieOfHart r.hart) r.owner r.pa (sizeOf8 r.ty) true) →
      s.performAtomic d r = (s, 0, st, 0)) ∧
    (∀ r u, r.window = true → s.winPoisoned (d / 4) r.va.toNat (sizeOf8 r.ty) = false →
      (let old := s.winLoad (d / 4) r.va.toNat (sizeOf8 r.ty)
       let nw := atomicNew r.isCas r.op r.ty old r.operand.toNat r.newVal.toNat
       s.winStoreBy (dieOfHart r.hart) r.owner r.va.toNat (sizeOf8 r.ty) nw.1 = (u, 0) → s.performAtomic d r = (u, BitVec.ofNat 64 old, 0, nw.2))) ∧
    (∀ r old fl rest x p, (s.die d).inbox = .atomicReply r old 0 fl :: rest →
      s.hart? r.hart = some x → x.outstanding = [p] → p.tag = r.tag → p.returned = false → oneTarget p.writes = false → r.acq = none →
      (let tok := BitVec.ofNat 64 (r.incarn % 2 ^ 16 * 2 ^ 24 + r.token)
       ∃ t y z, exec .atomicHomePerform s = .next t ∧ t.hart? r.hart = some y ∧ y.outstanding = [z] ∧ z.returned = true ∧
        z.writes = (p.writes.take r.dreg).map (RegWrite.withValue (loadValue r.ty old.toNat)) ++ (p.writes.drop r.dreg).map (RegWrite.withValue tok) ∧
        z.flags = p.flags ||| fl ∧ z.poison = none ∧ y.accesses = x.accesses ∧ t.mem = s.mem)) ∧
    (∀ r, s.askedBy s.ev.hart = some r → exec .linklostTimeout s = .next (s.returnAtomic r 0 3 0) ∧
      (let down := (∃ l, r.route = some l ∧ l ∈ (s.die (dieOfHart s.ev.hart)).downLinks) ∨ r.home ∈ (s.die (dieOfHart s.ev.hart)).downDies
       (down → exec .routeDownReport s = .next (s.returnAtomic r 0 3 0)) ∧ (¬down → exec .routeDownReport s = .next s))) ∧
    (s.askedBy s.ev.hart = none → exec .linklostTimeout s = .next s ∧ exec .routeDownReport s = .next s) ∧
    (∀ b, (s.die d).tokens[s.ev.n]? = some b → ∃ t, exec .tokenBlockAgeOut s = .next t ∧ (t.die d).tokens[s.ev.n]? = some { b with aged := true } ∧
      t.harts = s.harts ∧ t.mem = s.mem)) ∧
  (∀ (s s1 : State) (h : HartId) (lp : Bool) (sp pg kind q slot lc : Nat), let d := s.ev.site
    let n := missCore sp pg
    let ms : Miss := { die := d, quad := q, loadPipe := lp, space := sp, page := pg, kind := kind, slot := slot, lcore := lc, waiters := [h] }
    let same := fun (m : Miss) => m.quad = q ∧ m.loadPipe = lp ∧ m.space = sp ∧ m.page = pg
    s.Takes d (fun m => ∃ a b c e f g i j, m = .miss a b c e f g i j) (.miss h lp sp pg kind q slot lc) s1 →
    ((∃ m ∈ (s.die d).misses, same m) → ∃ t, exec .tlbMiss s = .next t ∧ (t.die d).missq = (s.die d).missq ∧ t.harts = s.harts ∧
      (∀ m ∈ (s.die d).misses, (same m → { m with waiters := m.waiters ++ [h] } ∈ (t.die d).misses) ∧ (¬same m → m ∈ (t.die d).misses))) ∧
    ((∀ m ∈ (s.die d).misses, ¬same m) → ((s.die d).missq.toList.getD n []).length < 32 →
      ∃ t, exec .tlbMiss s = .next t ∧ (t.die d).misses = (s.die d).misses ++ [ms] ∧
        (t.die d).missq.toList.getD n [] = (s.die d).missq.toList.getD n [] ++ [ms] ∧ t.mem = s.mem ∧
        (∀ x, s.hart? (.tsc d n) = some x → x.wait = some .request → x.phase = .active → t.hart? (.tsc d n) = some { x with wait := none }) ∧
        (s.running (.tsc d n) = false → (s.die d).images.contains (.tsc d n) = true →
          t.hart? (.tsc d n) = some { rslim := 4096, sram := (s.hart (.tsc d n)).sram, since := s.clock })) ∧
    ((∀ m ∈ (s.die d).misses, ¬same m) → 32 ≤ ((s.die d).missq.toList.getD n []).length → ∀ x, s.hart? h = some x → x.wait = some (.tlb lp sp pg) →
      exec .tlbMiss s = .next (s1.setHart h { x with wait := none })))

/-- A probe of a die's incarnation is answered; the answer is recorded, and the first attempts that waited for it leave. A frame that moves is
copied, its leaf entry names the new frame, its old translations are gone and the old frame is free. A CXL store without an answer completes
with CXLERR; an expander begins or ceases to answer; CXL ports go down and up; the scrub walks the lines of the die and poisons one that
cannot be corrected; a context request of another die is served as one of its own. -/
def Obligations.HomeEvents : Prop :=
  ∀ (s s1 : State), let d := s.ev.site
    (∀ src, s.Takes d (fun m => (∃ a, m = .probe a) ∨ ∃ a b, m = .probeReply a b) (.probe src) s1 →
      exec .incarnationProbeReply s = .next (s1.send d src 4 (.probeReply d (s.die d).incarn.toNat))) ∧
    (∀ t n, t ≠ d → n < 2 ^ 16 → s.Takes d (fun m => (∃ a, m = .probe a) ∨ ∃ a b, m = .probeReply a b) (.probeReply t n) s1 →
      (∃ u, exec .incarnationProbeReply s = .next u ∧ u.incarnRecord d t = some n ∧ u.mem = s.mem ∧ u.harts = s.harts ∧
        ∀ r ∈ (u.die d).heldAtomics, r.home ≠ t) ∧
      (∀ r, (s.die d).heldAtomics = [r] → r.home = t →
        ∃ v : State, exec .incarnationProbeReply s = .next (v.send d t 0 (.atomic d { r with incarn := n }) r.owner) ∧ v.mem = s.mem ∧ v.harts = s.harts)) ∧
    ((s.die d).moving.find? (fun m => m.1 == s.ev.n) = none → exec .pageMigrationComplete s = .next s) ∧
    (∀ q, (s.die d).moving.find? (fun m => m.1 == s.ev.n) = some (s.ev.n, q) → (∀ c ∈ s.cores, ∀ b ∈ c.2.wbuf, ∀ k ∈ b.cells, k.1 / 2 ^ 16 ≠ s.ev.n) →
      (let room := (s.ctlGet q 0x158).toNat % 2 ^ 56 / 2 ^ 16
       let old := s.ev.n * 2 ^ 16
       let leaf := (s.metaWord old 1).toNat % 2 ^ 56
       let out := fun (a b n : Nat) => a < b ∨ b + n ≤ a
       (room = 0 → ∃ t, exec .pageMigrationComplete s = .next t ∧ t.mem = (s.putMeta old 0 (s.metaWord old 0 &&& ~~~(1#64 <<< 60))).mem ∧ t.harts = s.harts) ∧
       (room ≠ 0 → ∃ t, exec .pageMigrationComplete s = .next t ∧ t.ctlGet d 0x158 = BitVec.ofNat 64 old ∧
         (∀ k ∈ t.quads, ∀ y ∈ k.2.tlb ++ k.2.pipeTlb, y.names s.ev.n = false) ∧ (∀ m ∈ (t.die d).moving, m.1 ≠ s.ev.n) ∧
         (∀ h x, s.hart? h = some x → t.hart? h = some (x.moveIn s.ev.n room)) ∧
         (∀ i, i < 65536 → (let a := room * 2 ^ 16 + i
           out a (s.metaAddr (room * 2 ^ 16)) 32 → out a (s.metaAddr old) 16 → out a leaf 8 → out a old 8 → t.byte a = s.byte (old + i))) ∧
         ((∀ i, i < 8 → (let a := leaf + i
             out a (s.metaAddr (room * 2 ^ 16)) 32 ∧ out a (s.metaAddr old) 16 ∧ out a (room * 2 ^ 16) 65536 ∧ out a old 8)) →
           (let w := (s.word leaf).toNat
            t.word leaf = BitVec.ofNat 64 (w - w / 2 ^ 16 % 2 ^ 40 * 2 ^ 16 + room % 2 ^ 40 * 2 ^ 16)))))) ∧
    (∀ c b l r, s.ev.flag = false → s.coreOf s.ev.hart = some c → (s.core c).wbuf = b :: l → b.hart = s.ev.hart → (∃ k ∈ b.cells, isCxl k.1 = true) →
      s.ev.n = 0 → b.silent = false → b.gone = false → s.hart? s.ev.hart = some r → r.phase ≠ .ending →
      ∃ t y, exec .cxlerrTimeout s = .next t ∧
        (t.core c).wbuf = l.map (fun o => if b.vec ≠ 0 ∧ o.vec = b.vec then { o with silent := true } else o) ∧
        t.hart? s.ev.hart = some y ∧ y.accesses = r.accesses ++ [{ kind := b.kind, addr := b.va, pc := b.pc, status := 6 }] ∧ t.mem = s.mem) ∧
    (s.ev.flag = true → ∃ t, exec .cxlerrTimeout s = .next t ∧ (s.ev.n ∈ (t.die d).cxlBad ↔ s.ev.n ∉ (s.die d).cxlBad) ∧ t.mem = s.mem ∧
      t.harts = s.harts) ∧
    (∃ t, exec .cxlLinkDown s = .next t ∧ s.ev.n % 2 ∈ (t.die d).cxlDown ∧ t.mem = s.mem ∧ t.harts = s.harts) ∧
    (∃ t, exec .cxlLinkUp s = .next t ∧ s.ev.n % 2 ∉ (t.die d).cxlDown ∧ t.mem = s.mem ∧ t.harts = s.harts) ∧
    (let w := (s.ctlGet d 0x188).toNat
     let line := d * 2 ^ 40 + w % 2 ^ 40
     (∃ t, exec .scrub s = .next t ∧ t.mem = s.mem ∧ t.harts = s.harts ∧
       (s.ev.flag = false → t.poisoned = s.poisoned) ∧ (s.ev.flag = true → t.isPoisoned (64 * line) 64 = true) ∧
       (w % 2 ^ 40 + 1 < scrubLines → (t.ctlGet d 0x188).toNat = w + 1) ∧
       (scrubLines ≤ w % 2 ^ 40 + 1 → (t.ctlGet d 0x188).toNat = (w / 2 ^ 40 + 1) % 2 ^ 24 * 2 ^ 40 ∧
         t.ctlGet d 0x190 = (s.pkg (d / 4)).time ∧ (t.die d).scrubLate = false)) ∧
     ((s.die d).scrubLate = true → exec .scrubLate s = .next s) ∧
     ((s.die d).scrubLate = false → ∃ t, exec .scrubLate s = .next t ∧ (t.die d).scrubLate = true ∧ t.mem = s.mem ∧ t.harts = s.harts)) ∧
    (∀ src tag load c slot u, s.Takes d (fun m => ∃ a b l e f, m = .ctxReq a b l e f) (.ctxReq src tag load c slot) s1 →
      (∀ v, s1.ctxRequest src tag load c slot = (u, some v) → exec .contextRequestRemote s = .next (u.replyTag d src tag v)) ∧
      (s1.ctxRequest src tag load c slot = (u, none) → exec .contextRequestRemote s = .next u))

/-- Packets: the first of a send queue that no full route-tag queue holds leaves it when its link queue has room, one to a package without power
is refused; it leaves its link for the ports of its die, and is taken in if its key and its
incarnation are right, once where it is acknowledged; a packet that is lost goes again; a marker is answered once every route has brought it. -/
def Obligations.Packets : Prop :=
  ∀ (s : State), let e := s.ev
    (let d := dieOfCore e.site
     let l := (s.core e.site).sendq.toList.getD (e.n % 5) []
     (l.find? (fun p => !s.tagHeld p) = none → exec .packetSent s = .next s) ∧
     (∀ p, l.find? (fun p => !s.tagHeld p) = some p →
       (let n := (s.die d).route d p * 5 + p.vn
        let off := p.dst ≠ d ∧ (s.pkg (p.dst / 4)).off = true
        let full := p.dst ≠ d ∧ (s.pkg (p.dst / 4)).off = false ∧ ((∃ q ∈ (s.die d).outq, q.1 = n) ∨ (s.die d).hasRoom n p = false)
        let s1 := s.modCore e.site fun k => { k with sendq := k.sendq.setIfInBounds (e.n % 5) (l.erase p) }
        let s2 := if p.acked then s1 else s1.count48 e.site 0x3000
        (full → exec .packetSent s = .next s) ∧ (off → exec .packetSent s = .next (s2.refusePacket d p)) ∧
        (¬full → ¬off → exec .packetSent s = .next (s2.send d p.dst p.vn p.msg p.owner p.acked p.core))))) ∧
    (let d := e.site
     let n := e.n % 12 * 5 + e.k % 5
     let l := (s.die d).linkQueue n
     (∀ p, e.n % 12 ∉ (s.die d).downLinks → l.find? (fun p => !s.tagHeld p) = some p →
       (let s1 := s.modDie d fun x => Die.settle n x.outq.length { x with links := x.links.setIfInBounds n (l.erase p) }
        ((s1.die p.dst).reset = .up → (s1.pkg (p.dst / 4)).off = false → exec .flitSent s =
          .next (s1.modDie p.dst fun x => { x with ports := x.ports ++ [(decide (3 ≤ e.n % 12), p)] })) ∧
        (((s1.die p.dst).reset ≠ .up ∨ (s1.pkg (p.dst / 4)).off = true) → exec .flitSent s = .next (s1.losePacket p)))) ∧
     (e.n % 12 ∈ (s.die d).downLinks ∨ l.find? (fun p => !s.tagHeld p) = none → exec .flitSent s = .next s) ∧
     (∀ port p r, (s.die d).ports = (port, p) :: r →
       (let s1 := s.modDie d fun x => { x with ports := r }
        ((port = true ∨ (s1.die p.src).partition ≠ (s1.die d).partition) → (s1.die d).keyOk p = false → exec .packetArrival s = .next (s1.countDie d 0x48)) ∧
        ((port = false ∧ (s1.die p.src).partition = (s1.die d).partition ∨ (s1.die d).keyOk p = true) →
          (∀ u, s1.checkIncarn d p.src p.incarn = (u, false) → exec .packetArrival s = .next u) ∧
          (∀ u, s1.checkIncarn d p.src p.incarn = (u, true) →
            (p.acked = false → exec .packetArrival s = .next (u.modDie d fun x => { x with inbox := x.inbox ++ [p.msg] })) ∧
            (p.acked = true → (p.src, p.vn, p.seq) ∈ (u.die d).performed → exec .packetArrival s = .next (u.send d p.src 1 (.packetAck d p.vn p.seq) p.owner false)) ∧
            (p.acked = true → (p.src, p.vn, p.seq) ∉ (u.die d).performed → exec .packetArrival s =
              .next (((u.send d p.src 1 (.packetAck d p.vn p.seq) p.owner false).modDie d fun x => { x with inbox := x.inbox ++ [p.msg] }).modDie d
                fun x => { x with performed := (p.src, p.vn, p.seq) :: x.performed })))))) ∧
     (∀ src i r, s.incarnRecord d src = some r → i < 2 ^ 16 →
       (i = r → s.checkIncarn d src i = (s, true)) ∧ (32768 ≤ (i + 65536 - r) % 65536 → s.checkIncarn d src i = (s.countDie d 0x47, false)) ∧
       (1 ≤ (i + 65536 - r) % 65536 → (i + 65536 - r) % 65536 ≤ 32767 → (s.checkIncarn d src i).2 = true)) ∧
     (∀ t vn q rest, (s.die d).inbox = .packetAck t vn q :: rest → exec .acknowledgement s = .next ((s.modDie d fun x => { x with inbox := rest }).modDie d
       fun x => { x with kept := x.kept.filter (fun p => !(p.dst == t && p.vn == vn && p.seq == q)) })) ∧
     (∀ h k rest x, (s.die d).inbox = .markerAck h k :: rest → s.hart? h = some x → x.phase ≠ .ending →
       (let s1 := s.modDie d fun x => { x with inbox := rest }
        (x.flushNo = k → x.flush ≤ 1 → exec .acknowledgement s = .next (s1.setHart h
          { x with flush := 0, wait := if x.wait = some .flush then none else x.wait, grant := some 2 })) ∧
        (x.flushNo = k → 1 < x.flush → exec .acknowledgement s = .next (s1.setHart h { x with flush := x.flush - 1 })) ∧
        (x.flushNo ≠ k → exec .acknowledgement s = .next (s1.setHart h x)))) ∧
     (∀ h tag st rest, (s.die d).inbox = .ctxReply h tag st :: rest →
       exec .acknowledgement s = .next ((s.modDie d fun x => { x with inbox := rest }).returnTag h tag (BitVec.ofNat 64 st))) ∧
     (∀ h tag j rev r rest, (s.die d).inbox = .forkAck h tag j rev :: rest → (s.job j).rev? rev = some r → ∃ u, exec .acknowledgement s = .next u ∧
       u.mem = s.mem ∧ (r.acks + 1 < 4 → u.harts = s.harts) ∧
       (∀ c y, 4 ≤ r.acks + 1 → r.child = some c → s.hart? c = some y → y.wait = some .request → c ≠ h → u.hart? c = some { y with wait := none })) ∧
     (∀ p, (s.die d).kept[e.n]? = some p → (∀ a b c f g, p.msg ≠ .marker a b c f g) → exec .retransmit s = .next (s.enlink d p)) ∧
     (∀ p a b c f g, (s.die d).kept[e.n]? = some p → p.msg = .marker a b c f g →
       ((∃ q ∈ (s.die d).kept, q.acked = true ∧ q.dst = p.dst) → exec .retransmit s = .next s) ∧
       ((∀ q ∈ (s.die d).kept, q.acked = true → q.dst ≠ p.dst) → exec .retransmit s =
         .next ((s.modDie d fun x => { x with kept := x.kept.eraseIdx e.n }).modDie d fun x => x.enqueueLink (x.route d p * 5 + p.vn) p))) ∧
     (∀ l m r, (s.die d).inbox = l ++ m :: r → needsHome m = true → (∀ y ∈ l, ∀ a b c f g, y ≠ .marker a b c f g) →
       exec .flushMarker s = .next s) ∧
     (∀ src h number k vn rest, (s.die d).inbox = .marker src h number k vn :: rest → (s.die d).markers = [] → 1 ≤ k →
       exec .flushMarker s = .next ((s.modDie d fun x => { x with inbox := rest }).modDie d fun x => { x with markers := [(src, h, number, 1)] })) ∧
     (∀ src h number k vn rest, (s.die d).inbox = .marker src h number k vn :: rest → (s.die d).markers = [(src, h, number, 2 * k - 1)] → 1 ≤ k →
       exec .flushMarker s = .next (((s.modDie d fun x => { x with inbox := rest }).modDie d fun x => { x with markers := [] }).send d src 1 (.markerAck h number))))

/-- Link queues spill to the pond and come back in order; links and dies go down and up, and what a failed link held is lost.

DIE RESET and power: after its drain a die in reset has lost its queues, its cores' state and its on-chip memories; it comes up with its incarnation one higher, under an image that passes its check. A package's power goes and comes back;
throttled cycles are counted. -/
def Obligations.LinksDiesAndPower : Prop :=
  (∀ (s s1 : State), let d := s.ev.site
    let n := s.ev.n % 12 * 5 + s.ev.k % 5
    let l := s.ev.n % 12
    ((s.die d).linkQueue n = [] → exec .linkSpill s = .next s) ∧
    ((s.die d).linkQueue n ≠ [] → flitsOf ((s.die d).pond.map (·.2)) + flitsOf ((s.die d).linkQueue n) ≤ 2 ^ 20 → ∃ t, exec .linkSpill s = .next t ∧
      t.harts = s.harts ∧ t.mem = s.mem ∧ ((∀ q ∈ (s.die d).outq, q.1 ≠ n) → (t.die d).linkQueue n = [] ∧
        (t.die d).pond = (s.die d).pond ++ ((s.die d).linkQueue n).map (fun p => (n, p)))) ∧
    (2 ^ 20 < flitsOf ((s.die d).pond.map (·.2)) + flitsOf ((s.die d).linkQueue n) → (s.die d).linkQueue n ≠ [] → exec .linkSpill s = .next (s.countDie d 0x45)) ∧
    (∀ p, (s.die d).pond.find? (fun q => q.1 == n) = some (n, p) →
      ((s.die d).linkQueue n = [] ∨ flitsOf ((s.die d).linkQueue n) + p.flits ≤ 64 → ∃ t, exec .linkRefill s = .next t ∧
        t.harts = s.harts ∧ t.mem = s.mem ∧ ((∀ q ∈ (s.die d).outq, q.1 ≠ n) → (t.die d).linkQueue n = (s.die d).linkQueue n ++ [p] ∧
          (t.die d).pond = (s.die d).pond.erase (n, p))) ∧
      ((s.die d).linkQueue n ≠ [] → 64 < flitsOf ((s.die d).linkQueue n) + p.flits → exec .linkRefill s = .next s)) ∧
    ((s.die d).pond.find? (fun q => q.1 == n) = none → exec .linkRefill s = .next s) ∧
    (l ∈ (s.die d).downLinks → exec .linkDown s = .next s ∧ ∃ t, exec .linkUp s = .next t ∧ l ∉ (t.die d).downLinks ∧ t.mem = s.mem) ∧
    (l ∉ (s.die d).downLinks → exec .linkUp s = .next s ∧ ∃ t, exec .linkDown s = .next t ∧ l ∈ (t.die d).downLinks ∧ t.mem = s.mem ∧ t.harts = s.harts ∧
      ((∀ q ∈ (s.die d).outq, q.1 / 5 ≠ l) → ∀ vn, vn < 5 → (t.die d).linkQueue (l * 5 + vn) = [])) ∧
    (∀ t, s.Takes d (fun m => ∃ t, m = .downNotice t) (.downNotice t) s1 → ∃ u, exec .dieDownNotice s = .next u ∧ t ∈ (u.die d).downDies ∧ u.mem = s.mem) ∧
    (∀ t, s.Takes d (fun m => ∃ t, m = .upNotice t) (.upNotice t) s1 → ∃ u, exec .dieAnnounce s = .next u ∧ t ∉ (u.die d).downDies ∧ u.mem = s.mem)) ∧
  (∀ (s : State), let d := s.ev.site
    ((s.die d).reset ≠ .draining → exec .dieResetDrainEnd s = .next s) ∧
    ((s.die d).reset = .draining → ∃ t, exec .dieResetDrainEnd s = .next t ∧ (t.die d).reset = .clearing ∧
      (t.die d).acqs = [] ∧ (t.die d).locks = [] ∧ (t.die d).launchq = [] ∧ (t.die d).ports = [] ∧ (t.die d).pond = [] ∧ (t.die d).grants = [] ∧ (t.die d).cache = [] ∧
      (∀ c ∈ t.cores, dieOfCore c.1 ≠ d) ∧ (∀ q ∈ t.quads, dieOfQuad q.1 ≠ d) ∧ (∀ c ∈ t.mem, c.1 / 2 ^ 48 ≠ 12288 + d)) ∧
    ((s.die d).reset ≠ .clearing ∨ s.ev.image.signed = false → exec .dieResetComplete s = .next s) ∧
    ((s.die d).reset = .clearing → s.ev.image.signed = true → ∃ t, exec .dieResetComplete s = .next t ∧ (t.die d).reset = .up ∧
      (t.die d).incarn = (s.die d).incarn + 1 ∧ (t.die d).config = s.ev.image ∧ t.mem = s.mem ∧ t.harts = s.harts) ∧
    (∃ t, exec .powerOn s = .next t ∧ (t.pkg (d / 4)).off = false ∧
      (s.ev.image.signed = true → (t.die d).reset = .up ∧ (t.die d).incarn = s.ev.image.incarn ∧ (t.die d).config = s.ev.image)) ∧
    (∃ t, exec .powerRemoved s = .next t ∧ (t.pkg d).off = true) ∧
    (∃ t, exec .throttle s = .next t ∧ (t.pkg d).throttled = true ∧ t.mem = s.mem ∧ t.harts = s.harts) ∧
    ((s.pkg d).throttled = false → exec .throttleEnd s = .next s) ∧
    ((s.pkg d).throttled = true → ∃ t, exec .throttleEnd s = .next t ∧ (t.pkg d).throttled = false ∧ t.mem = s.mem ∧ t.harts = s.harts ∧
      ∀ i, i < 4 → (s.ctlGet (4 * d + i) 0x1B0).toNat ≤ (t.ctlGet (4 * d + i) 0x1B0).toNat))

/-- Words of the spec's own examples, and of its encoding tables, decode to the instructions they stand for. -/
def Obligations.DecodeWords : Prop :=
  decodeSlot 0x1B4000000000000000000005#96 = .ok .trap { imm := 5 } ∧
  decodeSlot 0xA80800000000000000000002#96 = .ok .sysr { d := 4, imm := 2 } ∧ slotMarker 0xA80800000000000000000002#96 = true ∧
  decodeSlot 0x1B8000000000000000000000#96 = .ok .xret {} ∧
  decodeSlot 0xB24C11800002000000000041#96 = .ok .amsgr { d := 6, a := 1, b := 3, misc := 2, imm := 0x41 } ∧
  decodeSlot 0xB10E60008000000000000000#96 = .ok .fget { d := 7, a := 6, ty := 4 } ∧
  decodeSlot 0x358C10000002000000000083#96 = .ok .fork { d := 6, a := 1, misc := 2, imm := 0x83 } ∧
  decodeSlot 0xB5CE60000000000000000000#96 = .ok .join { d := 7, a := 6 } ∧
  decodeSlot 0xA9C050000000000000000002#96 = .ok .ecset { a := 5, imm := 2 } ∧
  decodeSlot 0xD2C41F814000000000000000#96 = .ok .vredsum { d := 2, a := 1, b := 31, ty := 10 } ∧
  decodeSlot 0x60000000000000000000C000#96 = .ok .qgen { imm := 0xC000 } ∧
  decodeSlot 0x618600000001000000000000#96 = .ok .qregen { d := 3, misc := 1 } ∧
  decodeSlot 0xA1C823148A01000000000000#96 = .ok .amor { d := 4, a := 2, b := 6, c := 5, ty := 4, path := 5, misc := 1 } ∧
  decodeSlot 0x6840117C200E000000000001#96 = .ok .mmac { a := 1, b := 2, c := 31, ty := 1, misc := 14, imm := 1 } ∧
  decodeSlot 0xE94BF0012000000000000000#96 = .ok .rdacc { d := 5, a := 31, ty := 9 }

/-- A well-formed instruction, encoded, decodes to itself with every field and its marker; and a slot that decodes is the encoding of what it
decodes to, so that no two instructions share a slot. -/
def Obligations.RoundTrip : Prop :=
  ∀ (i : Instr), (∀ m f, Slot.wellFormed i f = true → ∃ w, encode m i f = some w ∧ decodeSlot w = .ok i f ∧ slotMarker w = m) ∧
    (∀ w f, decodeSlot w = .ok i f → encode (slotMarker w) i f = some w ∧ Slot.wellFormed i f = true)

/-- Reset: memory and tables in canonical form, no thread, no launch, every table doubleword zero, every die up, and nothing for the machine
to do until the outside world acts. That a byte nothing has written reads as 0 is the model's choice (log entry 1). -/
def Obligations.ResetState : Prop :=
  State.reset.Inv ∧ State.reset.harts = [] ∧ State.reset.launches = [] ∧ (∀ d off, State.reset.ctlGet d off = 0) ∧ (∀ a, State.reset.byte a = 0) ∧
  (∀ d, (State.reset.die d).reset = .up ∧ (State.reset.die d).inbox = [] ∧ (State.reset.die d).tagen = 0) ∧
  (∀ q, (State.reset.quad q).tlb = [] ∧ (State.reset.quad q).icache = [] ∧ (State.reset.quad q).qshare = false) ∧
  (∀ c r, (State.reset.ring c r).cap = 0) ∧ step State.reset = .next State.reset

/-- Every step keeps memory and the control blocks in their canonical form. -/
def Obligations.StepKeepsCanonicalForm : Prop :=
  ∀ (s t : State), s.Inv → step s = .next t → t.Inv

/-- A step whose choice is that a hart issues runs the instruction that the slot at the hart's PC decodes to: exec of it, on the state with the
hart's one-cycle results landed (or, by the other choice, not yet) and its issue noted. A pair issues as one, the second with what a wait of the
pair was answered; where the second must wait, neither issues. A slot that is no instruction is refused. A step whose choice is an event
runs that event with its arguments. -/
def Obligations.StepRunsTheInstruction : Prop :=
  ∀ (s s1 : State) (c : Choice), ((∃ r, s.agenda = c :: r ∧ s1 = { s with agenda := r }) ∨
      (s.agenda = [] ∧ s.nextChoice exec = some c ∧ s1 = { s with turn := s.turn + 1 })) →
    (∀ i a, c = .event i a → step s = exec i { s1 with ev := a }) ∧
    (∀ h x l (old : Bool), c = (if old then .issueOld h else .issue h) → s1.hart? h = some x → s1.canIssue h x = true → x.pendingTrap = none →
      s1.fetchLine h x.pc = .line l → l ≠ 0 → (x.fresh = true → pcOk x.pc = true ∧ markedIn l x.pc = true) →
      (let sl := if old then s1 else s1.landQuick h x.outstanding.length
       let s0 : State := { sl.modHart h (fun y => { y with fresh := false, stalled := false, stamp := sl.clock + 1 }) with clock := sl.clock + 1 }
       let w := slotOfLine l (x.pc.toNat % 8)
       let w2 := slotOfLine l (x.pc.toNat % 8 + 1)
       let pair := pairFirst (templateOf l) (x.pc.toNat % 8) = true ∧ endingLoops x x.pc = []
       let ir1 := fun (f : Slot) => ({ hart := h, op := slotOpcode w, slot := f, marker := slotMarker w } : Issue)
       let before := !(s0.hart h).outstanding.isEmpty
       let ir2 := fun (f : Slot) => ({ hart := h, op := slotOpcode w2, slot := f, marker := slotMarker w2, second := true, before := before } : Issue)
       let answers := fun (y : Hart) => { y with grant := (s0.hart h).grant, answered := (s0.hart h).answered, refused := (s0.hart h).refused }
       (∀ i f, ¬pair → decodeSlot w = .ok i f → step s = exec i { s0 with ir := ir1 f }) ∧
       (∀ n, decodeSlot w = .bad n → step s = .refused (.notAnInstruction n)) ∧
       (∀ i f t, pair → decodeSlot w = .ok i f → exec i { s0 with ir := ir1 f } = .next t →
         (t.ir.result ≠ .issued → step s = .next t) ∧
         (t.ir.result = .issued → (∀ n, decodeSlot w2 = .bad n → step s = .refused (.notAnInstruction n)) ∧
           (∀ j g u, decodeSlot w2 = .ok j g → exec j { t.modHart h answers with ir := ir2 g } = .next u →
             (u.ir.result ≠ .stalled → step s = .next u) ∧
             (∀ v, u.ir.result = .stalled → exec j { s0.modHart h (fun y => { y with pc := succPc (s0.hart h).pc }) with ir := ir2 g } = .next v →
               (v.ir.result = .stalled → step s = .next (v.modHart h fun y => { y with pc := (s0.hart h).pc })) ∧
               (v.ir.result ≠ .stalled → step s = .next ({ s0 with ir := u.ir }.modHart h Hart.stall))))))))

/-- The scalar registers by name: x0 to x15, g0 to g7, the mesh ports, which wait for a word and pop it, ring 0, which pops a slot, tid, and the
zero register; cbo is not read and cbi is not written, and a write to tid or to the zero register is discarded.

What an instruction that retires as no taken transfer leaves alone: memory, every other hart, the cores, quads, dies, launches and jobs, and
of its own hart everything but its PC, its loop counters and what it waits for. Its result is owed to the one register it names. -/
def Obligations.RegistersAndRetirement : Prop :=
  (∀ (s : State) (x : Hart) (f : BitVec 5) (v : Word), s.hart? s.ir.hart = some x → let n := f.toNat
    (n ≤ 15 → x.absent.contains (n / 4) = false → readReg f s = .ok (x.xreg n, s) ∧ destReg f v s = .ok ([.x n v], s)) ∧
    (16 ≤ n → n ≤ 23 → x.absent.contains (n / 4) = false →
      readReg f s = .ok (x.regs.g.toList.getD (n - 16) 0, s) ∧ destReg f v s = .ok ([.g (n - 16) v], s)) ∧
    (∀ c, 24 ≤ n → n ≤ 27 → s.coreOf s.ir.hart = some c →
      (meshNeighbour c (n - 24) = none → readReg f s = .error (.trap 0x04 0) ∧ destReg f v s = .error (.trap 0x04 0)) ∧
      (∀ w r, meshNeighbour c (n - 24) ≠ none → (s.core c).meshIn.toList.getD (n - 24) [] = w :: r →
        readReg f s = .ok (w, s.modCore c fun k => { k with meshIn := k.meshIn.setIfInBounds (n - 24) r })) ∧
      (meshNeighbour c (n - 24) ≠ none → (s.core c).meshIn.toList.getD (n - 24) [] = [] → ∃ g, readReg f s = .error (.stall g)) ∧
      (let out := ((s.core c).meshOut.toList.getD (n - 24) []).length
       meshNeighbour c (n - 24) ≠ none → (4 ≤ out → ∃ g, destReg f v s = .error (.stall g)) ∧
        (out < 4 → (∀ p ∈ s.harts, s.coreOf p.1 = some c → p.2.outstanding = []) → destReg f v s = .ok ([.mesh (n - 24) v], s)))) ∧
    (∀ c, n = 28 → s.coreOf s.ir.hart = some c → let g := s.ring c 0
      (g.cap = 0 → readReg f s = .error (.trap 0x04 0)) ∧ (g.cap ≠ 0 → g.filled = 0 → ∃ k, readReg f s = .error (.stall k)) ∧
      (g.cap ≠ 0 → g.filled ≠ 0 → readReg f s = .ok (BitVec.ofNat 64 (leNat (getRing s c g g.head 0 8)), s.setRing c 0 (g.freeHead 1)))) ∧
    (n = 28 → destReg f v s = .error (.trap 0x01 0)) ∧ (n = 29 → readReg f s = .error (.trap 0x01 0)) ∧
    (∀ c, n = 29 → s.coreOf s.ir.hart = some c → let g := s.ring c 1
      (g.cap = 0 → destReg f v s = .error (.trap 0x04 0)) ∧
      (g.cap ≠ 0 → s.ringRoom c 1 1 = true → destReg f v s = .ok ([.cbo (s.free + 1) v], s.reserveOwn c 1 1)) ∧
      (g.cap ≠ 0 → s.ringRoom c 1 1 = false → ∃ k, destReg f v s = .error (.stall k))) ∧
    (n = 30 → readReg f s = .ok (x.tid, s) ∧ destReg f v s = .ok ([], s)) ∧ (n = 31 → readReg f s = .ok (0, s) ∧ destReg f v s = .ok ([], s))) ∧
  (∀ (s t : State), Passes s t → t.mem = s.mem ∧ t.poisoned = s.poisoned ∧ t.cores = s.cores ∧ t.quads = s.quads ∧ t.dies = s.dies ∧ t.pkgs = s.pkgs ∧
    t.launches = s.launches ∧ t.jobs = s.jobs ∧ (∀ h, h ≠ s.ir.hart → t.hart? h = s.hart? h) ∧
    (∃ x y, s.hart? s.ir.hart = some x ∧ t.hart? s.ir.hart = some y ∧
      y = { x with pc := y.pc, loops := y.loops, parked := s.ir.marker, wait := none, grant := none, answered := [], refused := none,
                   stopping := x.stopping || (x.preempt && s.ir.marker) }) ∧
    (∀ (u : State) (d : BitVec 5) (v : Word) (ws : List RegWrite) (s2 : State), destReg d v u = .ok (ws, s2) →
      (d.toNat ≤ 15 → ws = [.x d.toNat v] ∧ s2 = u) ∧ (16 ≤ d.toNat → d.toNat ≤ 23 → ws = [.g (d.toNat - 16) v] ∧ s2 = u) ∧
      (24 ≤ d.toNat → d.toNat ≤ 27 → ws = [.mesh (d.toNat - 24) v] ∧ s2 = u) ∧ (d.toNat = 29 → ws = [.cbo (u.free + 1) v]) ∧
      (30 ≤ d.toNat → ws = [] ∧ s2 = u) ∧ s2.mem = u.mem ∧ s2.harts = u.harts ∧ (d.toNat ≠ 29 → s2.cores = u.cores)) ∧
    (∀ (u : State) (b : BufStore), ∀ a, (∀ c ∈ b.cells, c.1 ≠ a) → (u.putCells b.cells).byte a = u.byte a))
end

