-- ==== Sys2Proof/Laws/State.lean ====
section
/-! SUPPORT. The small lemmas of the state's updates: which fields each leaves alone, and what the lookups by key give after each. -/

namespace Sys2Proof.Machine

/-! ### Fields that an update leaves alone -/

@[simp] theorem State.setHart_mem (s : State) (h : HartId) (x : Hart) : (s.setHart h x).mem = s.mem := rfl
@[simp] theorem State.setHart_poisoned (s : State) (h : HartId) (x : Hart) : (s.setHart h x).poisoned = s.poisoned := rfl
@[simp] theorem State.setHart_cores (s : State) (h : HartId) (x : Hart) : (s.setHart h x).cores = s.cores := rfl
@[simp] theorem State.setHart_quads (s : State) (h : HartId) (x : Hart) : (s.setHart h x).quads = s.quads := rfl
@[simp] theorem State.setHart_dies (s : State) (h : HartId) (x : Hart) : (s.setHart h x).dies = s.dies := rfl
@[simp] theorem State.setHart_pkgs (s : State) (h : HartId) (x : Hart) : (s.setHart h x).pkgs = s.pkgs := rfl
@[simp] theorem State.setHart_ctl (s : State) (h : HartId) (x : Hart) : (s.setHart h x).ctl = s.ctl := rfl
@[simp] theorem State.setHart_launches (s : State) (h : HartId) (x : Hart) : (s.setHart h x).launches = s.launches := rfl
@[simp] theorem State.setHart_jobs (s : State) (h : HartId) (x : Hart) : (s.setHart h x).jobs = s.jobs := rfl
@[simp] theorem State.setHart_supEvents (s : State) (h : HartId) (x : Hart) : (s.setHart h x).supEvents = s.supEvents := rfl
@[simp] theorem State.setHart_ir (s : State) (h : HartId) (x : Hart) : (s.setHart h x).ir = s.ir := rfl
@[simp] theorem State.setHart_ev (s : State) (h : HartId) (x : Hart) : (s.setHart h x).ev = s.ev := rfl
@[simp] theorem State.setHart_agenda (s : State) (h : HartId) (x : Hart) : (s.setHart h x).agenda = s.agenda := rfl
@[simp] theorem State.setHart_free (s : State) (h : HartId) (x : Hart) : (s.setHart h x).free = s.free := rfl
@[simp] theorem State.setHart_clock (s : State) (h : HartId) (x : Hart) : (s.setHart h x).clock = s.clock := rfl
@[simp] theorem State.setHart_turn (s : State) (h : HartId) (x : Hart) : (s.setHart h x).turn = s.turn := rfl

@[simp] theorem State.modHart_mem (s : State) (h : HartId) (f : Hart → Hart) : (s.modHart h f).mem = s.mem := by unfold State.modHart; split <;> rfl
@[simp] theorem State.modHart_poisoned (s : State) (h : HartId) (f : Hart → Hart) : (s.modHart h f).poisoned = s.poisoned := by unfold State.modHart; split <;> rfl
@[simp] theorem State.modHart_cores (s : State) (h : HartId) (f : Hart → Hart) : (s.modHart h f).cores = s.cores := by unfold State.modHart; split <;> rfl
@[simp] theorem State.modHart_quads (s : State) (h : HartId) (f : Hart → Hart) : (s.modHart h f).quads = s.quads := by unfold State.modHart; split <;> rfl
@[simp] theorem State.modHart_dies (s : State) (h : HartId) (f : Hart → Hart) : (s.modHart h f).dies = s.dies := by unfold State.modHart; split <;> rfl
@[simp] theorem State.modHart_pkgs (s : State) (h : HartId) (f : Hart → Hart) : (s.modHart h f).pkgs = s.pkgs := by unfold State.modHart; split <;> rfl
@[simp] theorem State.modHart_ctl (s : State) (h : HartId) (f : Hart → Hart) : (s.modHart h f).ctl = s.ctl := by unfold State.modHart; split <;> rfl
@[simp] theorem State.modHart_launches (s : State) (h : HartId) (f : Hart → Hart) : (s.modHart h f).launches = s.launches := by unfold State.modHart; split <;> rfl
@[simp] theorem State.modHart_jobs (s : State) (h : HartId) (f : Hart → Hart) : (s.modHart h f).jobs = s.jobs := by unfold State.modHart; split <;> rfl
@[simp] theorem State.modHart_supEvents (s : State) (h : HartId) (f : Hart → Hart) : (s.modHart h f).supEvents = s.supEvents := by unfold State.modHart; split <;> rfl
@[simp] theorem State.modHart_ir (s : State) (h : HartId) (f : Hart → Hart) : (s.modHart h f).ir = s.ir := by unfold State.modHart; split <;> rfl
@[simp] theorem State.modHart_ev (s : State) (h : HartId) (f : Hart → Hart) : (s.modHart h f).ev = s.ev := by unfold State.modHart; split <;> rfl
@[simp] theorem State.modHart_agenda (s : State) (h : HartId) (f : Hart → Hart) : (s.modHart h f).agenda = s.agenda := by unfold State.modHart; split <;> rfl
@[simp] theorem State.modHart_free (s : State) (h : HartId) (f : Hart → Hart) : (s.modHart h f).free = s.free := by unfold State.modHart; split <;> rfl
@[simp] theorem State.modHart_clock (s : State) (h : HartId) (f : Hart → Hart) : (s.modHart h f).clock = s.clock := by unfold State.modHart; split <;> rfl
@[simp] theorem State.modHart_turn (s : State) (h : HartId) (f : Hart → Hart) : (s.modHart h f).turn = s.turn := by unfold State.modHart; split <;> rfl

@[simp] theorem State.modCore_mem (s : State) (c : CoreKey) (f : Core → Core) : (s.modCore c f).mem = s.mem := rfl
@[simp] theorem State.modCore_poisoned (s : State) (c : CoreKey) (f : Core → Core) : (s.modCore c f).poisoned = s.poisoned := rfl
@[simp] theorem State.modCore_harts (s : State) (c : CoreKey) (f : Core → Core) : (s.modCore c f).harts = s.harts := rfl
@[simp] theorem State.modCore_quads (s : State) (c : CoreKey) (f : Core → Core) : (s.modCore c f).quads = s.quads := rfl
@[simp] theorem State.modCore_dies (s : State) (c : CoreKey) (f : Core → Core) : (s.modCore c f).dies = s.dies := rfl
@[simp] theorem State.modCore_pkgs (s : State) (c : CoreKey) (f : Core → Core) : (s.modCore c f).pkgs = s.pkgs := rfl
@[simp] theorem State.modCore_ctl (s : State) (c : CoreKey) (f : Core → Core) : (s.modCore c f).ctl = s.ctl := rfl
@[simp] theorem State.modCore_launches (s : State) (c : CoreKey) (f : Core → Core) : (s.modCore c f).launches = s.launches := rfl
@[simp] theorem State.modCore_jobs (s : State) (c : CoreKey) (f : Core → Core) : (s.modCore c f).jobs = s.jobs := rfl
@[simp] theorem State.modCore_supEvents (s : State) (c : CoreKey) (f : Core → Core) : (s.modCore c f).supEvents = s.supEvents := rfl
@[simp] theorem State.modCore_ir (s : State) (c : CoreKey) (f : Core → Core) : (s.modCore c f).ir = s.ir := rfl
@[simp] theorem State.modCore_ev (s : State) (c : CoreKey) (f : Core → Core) : (s.modCore c f).ev = s.ev := rfl
@[simp] theorem State.modCore_agenda (s : State) (c : CoreKey) (f : Core → Core) : (s.modCore c f).agenda = s.agenda := rfl
@[simp] theorem State.modCore_free (s : State) (c : CoreKey) (f : Core → Core) : (s.modCore c f).free = s.free := rfl
@[simp] theorem State.modCore_clock (s : State) (c : CoreKey) (f : Core → Core) : (s.modCore c f).clock = s.clock := rfl
@[simp] theorem State.modCore_turn (s : State) (c : CoreKey) (f : Core → Core) : (s.modCore c f).turn = s.turn := rfl

@[simp] theorem State.modQuad_mem (s : State) (q : QuadKey) (f : Quad → Quad) : (s.modQuad q f).mem = s.mem := rfl
@[simp] theorem State.modQuad_poisoned (s : State) (q : QuadKey) (f : Quad → Quad) : (s.modQuad q f).poisoned = s.poisoned := rfl
@[simp] theorem State.modQuad_harts (s : State) (q : QuadKey) (f : Quad → Quad) : (s.modQuad q f).harts = s.harts := rfl
@[simp] theorem State.modQuad_cores (s : State) (q : QuadKey) (f : Quad → Quad) : (s.modQuad q f).cores = s.cores := rfl
@[simp] theorem State.modQuad_dies (s : State) (q : QuadKey) (f : Quad → Quad) : (s.modQuad q f).dies = s.dies := rfl
@[simp] theorem State.modQuad_pkgs (s : State) (q : QuadKey) (f : Quad → Quad) : (s.modQuad q f).pkgs = s.pkgs := rfl
@[simp] theorem State.modQuad_ctl (s : State) (q : QuadKey) (f : Quad → Quad) : (s.modQuad q f).ctl = s.ctl := rfl
@[simp] theorem State.modQuad_launches (s : State) (q : QuadKey) (f : Quad → Quad) : (s.modQuad q f).launches = s.launches := rfl
@[simp] theorem State.modQuad_jobs (s : State) (q : QuadKey) (f : Quad → Quad) : (s.modQuad q f).jobs = s.jobs := rfl
@[simp] theorem State.modQuad_supEvents (s : State) (q : QuadKey) (f : Quad → Quad) : (s.modQuad q f).supEvents = s.supEvents := rfl
@[simp] theorem State.modQuad_ir (s : State) (q : QuadKey) (f : Quad → Quad) : (s.modQuad q f).ir = s.ir := rfl
@[simp] theorem State.modQuad_ev (s : State) (q : QuadKey) (f : Quad → Quad) : (s.modQuad q f).ev = s.ev := rfl
@[simp] theorem State.modQuad_agenda (s : State) (q : QuadKey) (f : Quad → Quad) : (s.modQuad q f).agenda = s.agenda := rfl
@[simp] theorem State.modQuad_free (s : State) (q : QuadKey) (f : Quad → Quad) : (s.modQuad q f).free = s.free := rfl
@[simp] theorem State.modQuad_clock (s : State) (q : QuadKey) (f : Quad → Quad) : (s.modQuad q f).clock = s.clock := rfl
@[simp] theorem State.modQuad_turn (s : State) (q : QuadKey) (f : Quad → Quad) : (s.modQuad q f).turn = s.turn := rfl

@[simp] theorem State.modDie_mem (s : State) (d : DieKey) (f : Die → Die) : (s.modDie d f).mem = s.mem := rfl
@[simp] theorem State.modDie_poisoned (s : State) (d : DieKey) (f : Die → Die) : (s.modDie d f).poisoned = s.poisoned := rfl
@[simp] theorem State.modDie_harts (s : State) (d : DieKey) (f : Die → Die) : (s.modDie d f).harts = s.harts := rfl
@[simp] theorem State.modDie_cores (s : State) (d : DieKey) (f : Die → Die) : (s.modDie d f).cores = s.cores := rfl
@[simp] theorem State.modDie_quads (s : State) (d : DieKey) (f : Die → Die) : (s.modDie d f).quads = s.quads := rfl
@[simp] theorem State.modDie_pkgs (s : State) (d : DieKey) (f : Die → Die) : (s.modDie d f).pkgs = s.pkgs := rfl
@[simp] theorem State.modDie_ctl (s : State) (d : DieKey) (f : Die → Die) : (s.modDie d f).ctl = s.ctl := rfl
@[simp] theorem State.modDie_launches (s : State) (d : DieKey) (f : Die → Die) : (s.modDie d f).launches = s.launches := rfl
@[simp] theorem State.modDie_jobs (s : State) (d : DieKey) (f : Die → Die) : (s.modDie d f).jobs = s.jobs := rfl
@[simp] theorem State.modDie_supEvents (s : State) (d : DieKey) (f : Die → Die) : (s.modDie d f).supEvents = s.supEvents := rfl
@[simp] theorem State.modDie_ir (s : State) (d : DieKey) (f : Die → Die) : (s.modDie d f).ir = s.ir := rfl
@[simp] theorem State.modDie_ev (s : State) (d : DieKey) (f : Die → Die) : (s.modDie d f).ev = s.ev := rfl
@[simp] theorem State.modDie_agenda (s : State) (d : DieKey) (f : Die → Die) : (s.modDie d f).agenda = s.agenda := rfl
@[simp] theorem State.modDie_free (s : State) (d : DieKey) (f : Die → Die) : (s.modDie d f).free = s.free := rfl
@[simp] theorem State.modDie_clock (s : State) (d : DieKey) (f : Die → Die) : (s.modDie d f).clock = s.clock := rfl
@[simp] theorem State.modDie_turn (s : State) (d : DieKey) (f : Die → Die) : (s.modDie d f).turn = s.turn := rfl

@[simp] theorem State.modPkg_mem (s : State) (p : Nat) (f : Pkg → Pkg) : (s.modPkg p f).mem = s.mem := rfl
@[simp] theorem State.modPkg_poisoned (s : State) (p : Nat) (f : Pkg → Pkg) : (s.modPkg p f).poisoned = s.poisoned := rfl
@[simp] theorem State.modPkg_harts (s : State) (p : Nat) (f : Pkg → Pkg) : (s.modPkg p f).harts = s.harts := rfl
@[simp] theorem State.modPkg_cores (s : State) (p : Nat) (f : Pkg → Pkg) : (s.modPkg p f).cores = s.cores := rfl
@[simp] theorem State.modPkg_quads (s : State) (p : Nat) (f : Pkg → Pkg) : (s.modPkg p f).quads = s.quads := rfl
@[simp] theorem State.modPkg_dies (s : State) (p : Nat) (f : Pkg → Pkg) : (s.modPkg p f).dies = s.dies := rfl
@[simp] theorem State.modPkg_ctl (s : State) (p : Nat) (f : Pkg → Pkg) : (s.modPkg p f).ctl = s.ctl := rfl
@[simp] theorem State.modPkg_launches (s : State) (p : Nat) (f : Pkg → Pkg) : (s.modPkg p f).launches = s.launches := rfl
@[simp] theorem State.modPkg_jobs (s : State) (p : Nat) (f : Pkg → Pkg) : (s.modPkg p f).jobs = s.jobs := rfl
@[simp] theorem State.modPkg_supEvents (s : State) (p : Nat) (f : Pkg → Pkg) : (s.modPkg p f).supEvents = s.supEvents := rfl
@[simp] theorem State.modPkg_ir (s : State) (p : Nat) (f : Pkg → Pkg) : (s.modPkg p f).ir = s.ir := rfl
@[simp] theorem State.modPkg_ev (s : State) (p : Nat) (f : Pkg → Pkg) : (s.modPkg p f).ev = s.ev := rfl
@[simp] theorem State.modPkg_agenda (s : State) (p : Nat) (f : Pkg → Pkg) : (s.modPkg p f).agenda = s.agenda := rfl
@[simp] theorem State.modPkg_free (s : State) (p : Nat) (f : Pkg → Pkg) : (s.modPkg p f).free = s.free := rfl
@[simp] theorem State.modPkg_clock (s : State) (p : Nat) (f : Pkg → Pkg) : (s.modPkg p f).clock = s.clock := rfl
@[simp] theorem State.modPkg_turn (s : State) (p : Nat) (f : Pkg → Pkg) : (s.modPkg p f).turn = s.turn := rfl

@[simp] theorem State.modLaunch_mem (s : State) (l : Nat) (f : Launch → Launch) : (s.modLaunch l f).mem = s.mem := by unfold State.modLaunch; split <;> rfl
@[simp] theorem State.modLaunch_poisoned (s : State) (l : Nat) (f : Launch → Launch) : (s.modLaunch l f).poisoned = s.poisoned := by unfold State.modLaunch; split <;> rfl
@[simp] theorem State.modLaunch_harts (s : State) (l : Nat) (f : Launch → Launch) : (s.modLaunch l f).harts = s.harts := by unfold State.modLaunch; split <;> rfl
@[simp] theorem State.modLaunch_cores (s : State) (l : Nat) (f : Launch → Launch) : (s.modLaunch l f).cores = s.cores := by unfold State.modLaunch; split <;> rfl
@[simp] theorem State.modLaunch_quads (s : State) (l : Nat) (f : Launch → Launch) : (s.modLaunch l f).quads = s.quads := by unfold State.modLaunch; split <;> rfl
@[simp] theorem State.modLaunch_dies (s : State) (l : Nat) (f : Launch → Launch) : (s.modLaunch l f).dies = s.dies := by unfold State.modLaunch; split <;> rfl
@[simp] theorem State.modLaunch_pkgs (s : State) (l : Nat) (f : Launch → Launch) : (s.modLaunch l f).pkgs = s.pkgs := by unfold State.modLaunch; split <;> rfl
@[simp] theorem State.modLaunch_ctl (s : State) (l : Nat) (f : Launch → Launch) : (s.modLaunch l f).ctl = s.ctl := by unfold State.modLaunch; split <;> rfl
@[simp] theorem State.modLaunch_jobs (s : State) (l : Nat) (f : Launch → Launch) : (s.modLaunch l f).jobs = s.jobs := by unfold State.modLaunch; split <;> rfl
@[simp] theorem State.modLaunch_supEvents (s : State) (l : Nat) (f : Launch → Launch) : (s.modLaunch l f).supEvents = s.supEvents := by unfold State.modLaunch; split <;> rfl
@[simp] theorem State.modLaunch_ir (s : State) (l : Nat) (f : Launch → Launch) : (s.modLaunch l f).ir = s.ir := by unfold State.modLaunch; split <;> rfl
@[simp] theorem State.modLaunch_ev (s : State) (l : Nat) (f : Launch → Launch) : (s.modLaunch l f).ev = s.ev := by unfold State.modLaunch; split <;> rfl
@[simp] theorem State.modLaunch_agenda (s : State) (l : Nat) (f : Launch → Launch) : (s.modLaunch l f).agenda = s.agenda := by unfold State.modLaunch; split <;> rfl
@[simp] theorem State.modLaunch_free (s : State) (l : Nat) (f : Launch → Launch) : (s.modLaunch l f).free = s.free := by unfold State.modLaunch; split <;> rfl
@[simp] theorem State.modLaunch_clock (s : State) (l : Nat) (f : Launch → Launch) : (s.modLaunch l f).clock = s.clock := by unfold State.modLaunch; split <;> rfl
@[simp] theorem State.modLaunch_turn (s : State) (l : Nat) (f : Launch → Launch) : (s.modLaunch l f).turn = s.turn := by unfold State.modLaunch; split <;> rfl

@[simp] theorem State.modJob_mem (s : State) (j : Nat) (f : Job → Job) : (s.modJob j f).mem = s.mem := rfl
@[simp] theorem State.modJob_poisoned (s : State) (j : Nat) (f : Job → Job) : (s.modJob j f).poisoned = s.poisoned := rfl
@[simp] theorem State.modJob_harts (s : State) (j : Nat) (f : Job → Job) : (s.modJob j f).harts = s.harts := rfl
@[simp] theorem State.modJob_cores (s : State) (j : Nat) (f : Job → Job) : (s.modJob j f).cores = s.cores := rfl
@[simp] theorem State.modJob_quads (s : State) (j : Nat) (f : Job → Job) : (s.modJob j f).quads = s.quads := rfl
@[simp] theorem State.modJob_dies (s : State) (j : Nat) (f : Job → Job) : (s.modJob j f).dies = s.dies := rfl
@[simp] theorem State.modJob_pkgs (s : State) (j : Nat) (f : Job → Job) : (s.modJob j f).pkgs = s.pkgs := rfl
@[simp] theorem State.modJob_ctl (s : State) (j : Nat) (f : Job → Job) : (s.modJob j f).ctl = s.ctl := rfl
@[simp] theorem State.modJob_launches (s : State) (j : Nat) (f : Job → Job) : (s.modJob j f).launches = s.launches := rfl
@[simp] theorem State.modJob_supEvents (s : State) (j : Nat) (f : Job → Job) : (s.modJob j f).supEvents = s.supEvents := rfl
@[simp] theorem State.modJob_ir (s : State) (j : Nat) (f : Job → Job) : (s.modJob j f).ir = s.ir := rfl
@[simp] theorem State.modJob_ev (s : State) (j : Nat) (f : Job → Job) : (s.modJob j f).ev = s.ev := rfl
@[simp] theorem State.modJob_agenda (s : State) (j : Nat) (f : Job → Job) : (s.modJob j f).agenda = s.agenda := rfl
@[simp] theorem State.modJob_free (s : State) (j : Nat) (f : Job → Job) : (s.modJob j f).free = s.free := rfl
@[simp] theorem State.modJob_clock (s : State) (j : Nat) (f : Job → Job) : (s.modJob j f).clock = s.clock := rfl
@[simp] theorem State.modJob_turn (s : State) (j : Nat) (f : Job → Job) : (s.modJob j f).turn = s.turn := rfl

@[simp] theorem State.ctlPut_mem (s : State) (d : DieKey) (o : Nat) (v : Word) : (s.ctlPut d o v).mem = s.mem := rfl
@[simp] theorem State.ctlPut_poisoned (s : State) (d : DieKey) (o : Nat) (v : Word) : (s.ctlPut d o v).poisoned = s.poisoned := rfl
@[simp] theorem State.ctlPut_harts (s : State) (d : DieKey) (o : Nat) (v : Word) : (s.ctlPut d o v).harts = s.harts := rfl
@[simp] theorem State.ctlPut_cores (s : State) (d : DieKey) (o : Nat) (v : Word) : (s.ctlPut d o v).cores = s.cores := rfl
@[simp] theorem State.ctlPut_quads (s : State) (d : DieKey) (o : Nat) (v : Word) : (s.ctlPut d o v).quads = s.quads := rfl
@[simp] theorem State.ctlPut_dies (s : State) (d : DieKey) (o : Nat) (v : Word) : (s.ctlPut d o v).dies = s.dies := rfl
@[simp] theorem State.ctlPut_pkgs (s : State) (d : DieKey) (o : Nat) (v : Word) : (s.ctlPut d o v).pkgs = s.pkgs := rfl
@[simp] theorem State.ctlPut_launches (s : State) (d : DieKey) (o : Nat) (v : Word) : (s.ctlPut d o v).launches = s.launches := rfl
@[simp] theorem State.ctlPut_jobs (s : State) (d : DieKey) (o : Nat) (v : Word) : (s.ctlPut d o v).jobs = s.jobs := rfl
@[simp] theorem State.ctlPut_supEvents (s : State) (d : DieKey) (o : Nat) (v : Word) : (s.ctlPut d o v).supEvents = s.supEvents := rfl
@[simp] theorem State.ctlPut_ir (s : State) (d : DieKey) (o : Nat) (v : Word) : (s.ctlPut d o v).ir = s.ir := rfl
@[simp] theorem State.ctlPut_ev (s : State) (d : DieKey) (o : Nat) (v : Word) : (s.ctlPut d o v).ev = s.ev := rfl
@[simp] theorem State.ctlPut_agenda (s : State) (d : DieKey) (o : Nat) (v : Word) : (s.ctlPut d o v).agenda = s.agenda := rfl
@[simp] theorem State.ctlPut_free (s : State) (d : DieKey) (o : Nat) (v : Word) : (s.ctlPut d o v).free = s.free := rfl
@[simp] theorem State.ctlPut_clock (s : State) (d : DieKey) (o : Nat) (v : Word) : (s.ctlPut d o v).clock = s.clock := rfl
@[simp] theorem State.ctlPut_turn (s : State) (d : DieKey) (o : Nat) (v : Word) : (s.ctlPut d o v).turn = s.turn := rfl

@[simp] theorem State.event_mem (s : State) (d : DieKey) (k : Nat) (v : Word) : (s.event d k v).mem = s.mem := rfl
@[simp] theorem State.event_poisoned (s : State) (d : DieKey) (k : Nat) (v : Word) : (s.event d k v).poisoned = s.poisoned := rfl
@[simp] theorem State.event_harts (s : State) (d : DieKey) (k : Nat) (v : Word) : (s.event d k v).harts = s.harts := rfl
@[simp] theorem State.event_cores (s : State) (d : DieKey) (k : Nat) (v : Word) : (s.event d k v).cores = s.cores := rfl
@[simp] theorem State.event_quads (s : State) (d : DieKey) (k : Nat) (v : Word) : (s.event d k v).quads = s.quads := rfl
@[simp] theorem State.event_dies (s : State) (d : DieKey) (k : Nat) (v : Word) : (s.event d k v).dies = s.dies := rfl
@[simp] theorem State.event_pkgs (s : State) (d : DieKey) (k : Nat) (v : Word) : (s.event d k v).pkgs = s.pkgs := rfl
@[simp] theorem State.event_ctl (s : State) (d : DieKey) (k : Nat) (v : Word) : (s.event d k v).ctl = s.ctl := rfl
@[simp] theorem State.event_launches (s : State) (d : DieKey) (k : Nat) (v : Word) : (s.event d k v).launches = s.launches := rfl
@[simp] theorem State.event_jobs (s : State) (d : DieKey) (k : Nat) (v : Word) : (s.event d k v).jobs = s.jobs := rfl
@[simp] theorem State.event_ir (s : State) (d : DieKey) (k : Nat) (v : Word) : (s.event d k v).ir = s.ir := rfl
@[simp] theorem State.event_ev (s : State) (d : DieKey) (k : Nat) (v : Word) : (s.event d k v).ev = s.ev := rfl
@[simp] theorem State.event_agenda (s : State) (d : DieKey) (k : Nat) (v : Word) : (s.event d k v).agenda = s.agenda := rfl
@[simp] theorem State.event_free (s : State) (d : DieKey) (k : Nat) (v : Word) : (s.event d k v).free = s.free := rfl
@[simp] theorem State.event_clock (s : State) (d : DieKey) (k : Nat) (v : Word) : (s.event d k v).clock = s.clock := rfl
@[simp] theorem State.event_turn (s : State) (d : DieKey) (k : Nat) (v : Word) : (s.event d k v).turn = s.turn := rfl

@[simp] theorem State.putByte_harts (s : State) (a : Nat) (v : Byte) : (s.putByte a v).harts = s.harts := rfl
@[simp] theorem State.putByte_cores (s : State) (a : Nat) (v : Byte) : (s.putByte a v).cores = s.cores := rfl
@[simp] theorem State.putByte_quads (s : State) (a : Nat) (v : Byte) : (s.putByte a v).quads = s.quads := rfl
@[simp] theorem State.putByte_dies (s : State) (a : Nat) (v : Byte) : (s.putByte a v).dies = s.dies := rfl
@[simp] theorem State.putByte_pkgs (s : State) (a : Nat) (v : Byte) : (s.putByte a v).pkgs = s.pkgs := rfl
@[simp] theorem State.putByte_ctl (s : State) (a : Nat) (v : Byte) : (s.putByte a v).ctl = s.ctl := rfl
@[simp] theorem State.putByte_launches (s : State) (a : Nat) (v : Byte) : (s.putByte a v).launches = s.launches := rfl
@[simp] theorem State.putByte_jobs (s : State) (a : Nat) (v : Byte) : (s.putByte a v).jobs = s.jobs := rfl
@[simp] theorem State.putByte_supEvents (s : State) (a : Nat) (v : Byte) : (s.putByte a v).supEvents = s.supEvents := rfl
@[simp] theorem State.putByte_ir (s : State) (a : Nat) (v : Byte) : (s.putByte a v).ir = s.ir := rfl
@[simp] theorem State.putByte_ev (s : State) (a : Nat) (v : Byte) : (s.putByte a v).ev = s.ev := rfl
@[simp] theorem State.putByte_agenda (s : State) (a : Nat) (v : Byte) : (s.putByte a v).agenda = s.agenda := rfl
@[simp] theorem State.putByte_free (s : State) (a : Nat) (v : Byte) : (s.putByte a v).free = s.free := rfl
@[simp] theorem State.putByte_clock (s : State) (a : Nat) (v : Byte) : (s.putByte a v).clock = s.clock := rfl
@[simp] theorem State.putByte_turn (s : State) (a : Nat) (v : Byte) : (s.putByte a v).turn = s.turn := rfl

@[simp] theorem State.putCells_harts (s : State) (c : List Host.Cell) : (s.putCells c).harts = s.harts := rfl
@[simp] theorem State.putCells_cores (s : State) (c : List Host.Cell) : (s.putCells c).cores = s.cores := rfl
@[simp] theorem State.putCells_quads (s : State) (c : List Host.Cell) : (s.putCells c).quads = s.quads := rfl
@[simp] theorem State.putCells_dies (s : State) (c : List Host.Cell) : (s.putCells c).dies = s.dies := rfl
@[simp] theorem State.putCells_pkgs (s : State) (c : List Host.Cell) : (s.putCells c).pkgs = s.pkgs := rfl
@[simp] theorem State.putCells_ctl (s : State) (c : List Host.Cell) : (s.putCells c).ctl = s.ctl := rfl
@[simp] theorem State.putCells_launches (s : State) (c : List Host.Cell) : (s.putCells c).launches = s.launches := rfl
@[simp] theorem State.putCells_jobs (s : State) (c : List Host.Cell) : (s.putCells c).jobs = s.jobs := rfl
@[simp] theorem State.putCells_supEvents (s : State) (c : List Host.Cell) : (s.putCells c).supEvents = s.supEvents := rfl
@[simp] theorem State.putCells_ir (s : State) (c : List Host.Cell) : (s.putCells c).ir = s.ir := rfl
@[simp] theorem State.putCells_ev (s : State) (c : List Host.Cell) : (s.putCells c).ev = s.ev := rfl
@[simp] theorem State.putCells_agenda (s : State) (c : List Host.Cell) : (s.putCells c).agenda = s.agenda := rfl
@[simp] theorem State.putCells_free (s : State) (c : List Host.Cell) : (s.putCells c).free = s.free := rfl
@[simp] theorem State.putCells_clock (s : State) (c : List Host.Cell) : (s.putCells c).clock = s.clock := rfl
@[simp] theorem State.putCells_turn (s : State) (c : List Host.Cell) : (s.putCells c).turn = s.turn := rfl

@[simp] theorem State.go_mem (s : State) : (s.go).mem = s.mem := rfl
@[simp] theorem State.go_poisoned (s : State) : (s.go).poisoned = s.poisoned := rfl
@[simp] theorem State.go_harts (s : State) : (s.go).harts = s.harts := rfl
@[simp] theorem State.go_cores (s : State) : (s.go).cores = s.cores := rfl
@[simp] theorem State.go_quads (s : State) : (s.go).quads = s.quads := rfl
@[simp] theorem State.go_dies (s : State) : (s.go).dies = s.dies := rfl
@[simp] theorem State.go_pkgs (s : State) : (s.go).pkgs = s.pkgs := rfl
@[simp] theorem State.go_ctl (s : State) : (s.go).ctl = s.ctl := rfl
@[simp] theorem State.go_launches (s : State) : (s.go).launches = s.launches := rfl
@[simp] theorem State.go_jobs (s : State) : (s.go).jobs = s.jobs := rfl
@[simp] theorem State.go_supEvents (s : State) : (s.go).supEvents = s.supEvents := rfl
@[simp] theorem State.go_ev (s : State) : (s.go).ev = s.ev := rfl
@[simp] theorem State.go_agenda (s : State) : (s.go).agenda = s.agenda := rfl
@[simp] theorem State.go_free (s : State) : (s.go).free = s.free := rfl
@[simp] theorem State.go_clock (s : State) : (s.go).clock = s.clock := rfl
@[simp] theorem State.go_turn (s : State) : (s.go).turn = s.turn := rfl

/-! ### Lists by key -/

@[simp] theorem lookup?_setKey_same [DecidableEq κ] (k : κ) (v : α) (l : List (κ × α)) : lookup? k (setKey k v l) = some v := by
  induction l with
  | nil => simp [setKey, lookup?]
  | cons p r ih => obtain ⟨j, w⟩ := p; by_cases h : j = k <;> simp [setKey, lookup?, h, ih]
theorem lookup?_setKey_ne [DecidableEq κ] {k j : κ} (h : j ≠ k) (v : α) (l : List (κ × α)) : lookup? j (setKey k v l) = lookup? j l := by
  induction l with
  | nil => simp [setKey, lookup?, Ne.symm h]
  | cons p r ih =>
    obtain ⟨i, w⟩ := p
    by_cases hi : i = k
    · subst hi; simp [setKey, lookup?, Ne.symm h]
    · by_cases hj : i = j
      · subst hj; simp [setKey, lookup?, hi]
      · simp [setKey, lookup?, hi, hj, ih]
@[simp] theorem lookupD_setKey_same [DecidableEq κ] (d : α) (k : κ) (v : α) (l : List (κ × α)) : lookupD d k (setKey k v l) = v := by
  induction l with
  | nil => simp [setKey, lookupD]
  | cons p r ih => obtain ⟨j, w⟩ := p; by_cases h : j = k <;> simp [setKey, lookupD, h, ih]
theorem lookupD_setKey_ne [DecidableEq κ] {k j : κ} (h : j ≠ k) (d : α) (v : α) (l : List (κ × α)) :
    lookupD d j (setKey k v l) = lookupD d j l := by
  induction l with
  | nil => simp [setKey, lookupD, Ne.symm h]
  | cons p r ih =>
    obtain ⟨i, w⟩ := p
    by_cases hi : i = k
    · subst hi; simp [setKey, lookupD, Ne.symm h]
    · by_cases hj : i = j
      · subst hj; simp [setKey, lookupD, hi]
      · simp [setKey, lookupD, hi, hj, ih]
theorem lookupD_of_lookup? [DecidableEq κ] {d : α} {k : κ} {v : α} {l : List (κ × α)} (h : lookup? k l = some v) : lookupD d k l = v := by
  induction l with
  | nil => simp [lookup?] at h
  | cons p r ih =>
    obtain ⟨j, w⟩ := p
    by_cases hj : j = k <;> simp_all [lookup?, lookupD]

/-! ### Harts and other records after an update -/

theorem State.hart_of_hart? {s : State} {h : HartId} {x : Hart} (hx : s.hart? h = some x) : s.hart h = x := lookupD_of_lookup? hx
@[simp] theorem State.hart?_setHart_same (s : State) (h : HartId) (x : Hart) : (s.setHart h x).hart? h = some x := lookup?_setKey_same ..
theorem State.modHart_of_hart? {s : State} {h : HartId} {x : Hart} (hx : s.hart? h = some x) (f : Hart → Hart) :
    s.modHart h f = s.setHart h (f x) := by simp [State.modHart, hx]
theorem State.hart?_modHart_same {s : State} {h : HartId} {x : Hart} (hx : s.hart? h = some x) (f : Hart → Hart) :
    (s.modHart h f).hart? h = some (f x) := by simp [State.modHart_of_hart? hx]
theorem State.hart?_modHart_ne (s : State) {h j : HartId} (hj : j ≠ h) (f : Hart → Hart) : (s.modHart h f).hart? j = s.hart? j := by
  unfold State.modHart; split
  · exact lookup?_setKey_ne hj ..
  · rfl
theorem State.hart?_congr {s t : State} (h : t.harts = s.harts) (j : HartId) : t.hart? j = s.hart? j := by simp [State.hart?, h]
@[simp] theorem State.core_modCore_same (s : State) (c : CoreKey) (f : Core → Core) : (s.modCore c f).core c = f (s.core c) :=
  lookupD_setKey_same ..
@[simp] theorem State.quad_modQuad_same (s : State) (q : QuadKey) (f : Quad → Quad) : (s.modQuad q f).quad q = f (s.quad q) :=
  lookupD_setKey_same ..
@[simp] theorem State.die_modDie_same (s : State) (d : DieKey) (f : Die → Die) : (s.modDie d f).die d = f (s.die d) :=
  lookupD_setKey_same ..
@[simp] theorem State.job_modJob_same (s : State) (j : Nat) (f : Job → Job) : (s.modJob j f).job j = f (s.job j) :=
  lookupD_setKey_same ..
@[simp] theorem State.hart?_go (s : State) (h : HartId) : s.go.hart? h = s.hart? h := rfl
@[simp] theorem State.go_hart (s : State) : s.go.ir.hart = s.ir.hart := rfl
@[simp] theorem State.go_slot (s : State) : s.go.ir.slot = s.ir.slot := rfl
@[simp] theorem State.go_marker (s : State) : s.go.ir.marker = s.ir.marker := rfl
@[simp] theorem State.go_second (s : State) : s.go.ir.second = s.ir.second := rfl
@[simp] theorem State.go_before (s : State) : s.go.ir.before = s.ir.before := rfl

/-! ### Counting touches the control blocks only -/

theorem State.bump_shape (s : State) (d : DieKey) (off source slot n : Nat) (b : Bool) :
    ∃ c, s.bump d off source slot n b = { s with ctl := c } := by
  unfold State.bump
  dsimp only
  split
  · split <;> exact ⟨_, rfl⟩
  · exact ⟨s.ctl, rfl⟩
theorem foldl_ctl {β : Type} (f : State → β → State) (hf : ∀ s b, ∃ c, f s b = { s with ctl := c }) (l : List β) (s : State) :
    ∃ c, l.foldl f s = { s with ctl := c } := by
  induction l generalizing s with
  | nil => exact ⟨s.ctl, rfl⟩
  | cons b r ih =>
    obtain ⟨c, hc⟩ := hf s b
    obtain ⟨c', hc'⟩ := ih (f s b)
    exact ⟨c', by rw [List.foldl_cons, hc', hc]⟩
theorem State.countDie_shape (s : State) (d : DieKey) (source n : Nat) : ∃ c, s.countDie d source n = { s with ctl := c } :=
  foldl_ctl _ (fun s _ => s.bump_shape ..) _ s
theorem State.countCore_shape (s : State) (c : CoreKey) (slot source n : Nat) : ∃ k, s.countCore c slot source n = { s with ctl := k } := by
  unfold State.countCore
  obtain ⟨k, hk⟩ := foldl_ctl (fun (s : State) i => s.bump (dieOfCore c) (0x500000 + 0x80 * (c % 384) + 0x10 * i) source slot n true)
    (fun s _ => s.bump_shape ..) (List.range 8) s
  obtain ⟨k', hk'⟩ := State.countDie_shape ({ s with ctl := k }) (dieOfCore c) source n
  exact ⟨k', by rw [hk, hk']⟩
/-- Counting an issue changes nothing but the counters' control words. -/
theorem State.counted_shape (s : State) : ∃ k, s.counted = { s with ctl := k } := by
  unfold State.counted
  split
  · rename_i c _
    split
    · obtain ⟨k1, h1⟩ := s.countCore_shape c (slotOf s.ir.hart) 0x02 1
      obtain ⟨k2, h2⟩ := State.countCore_shape { s with ctl := k1 } c (slotOf s.ir.hart) 0x03 1
      obtain ⟨k3, h3⟩ := State.countCore_shape { s with ctl := k2 } c (slotOf s.ir.hart) 0x04 1
      simp only [h1, h2]
      split
      · exact ⟨k3, by rw [h3]⟩
      · exact ⟨k2, rfl⟩
    · exact ⟨s.ctl, rfl⟩
  · exact ⟨s.ctl, rfl⟩

@[simp] theorem State.counted_mem (s : State) : s.counted.mem = s.mem := by obtain ⟨k, h⟩ := s.counted_shape; rw [h]
@[simp] theorem State.counted_poisoned (s : State) : s.counted.poisoned = s.poisoned := by obtain ⟨k, h⟩ := s.counted_shape; rw [h]
@[simp] theorem State.counted_harts (s : State) : s.counted.harts = s.harts := by obtain ⟨k, h⟩ := s.counted_shape; rw [h]
@[simp] theorem State.counted_cores (s : State) : s.counted.cores = s.cores := by obtain ⟨k, h⟩ := s.counted_shape; rw [h]
@[simp] theorem State.counted_quads (s : State) : s.counted.quads = s.quads := by obtain ⟨k, h⟩ := s.counted_shape; rw [h]
@[simp] theorem State.counted_dies (s : State) : s.counted.dies = s.dies := by obtain ⟨k, h⟩ := s.counted_shape; rw [h]
@[simp] theorem State.counted_pkgs (s : State) : s.counted.pkgs = s.pkgs := by obtain ⟨k, h⟩ := s.counted_shape; rw [h]
@[simp] theorem State.counted_launches (s : State) : s.counted.launches = s.launches := by obtain ⟨k, h⟩ := s.counted_shape; rw [h]
@[simp] theorem State.counted_jobs (s : State) : s.counted.jobs = s.jobs := by obtain ⟨k, h⟩ := s.counted_shape; rw [h]
@[simp] theorem State.counted_supEvents (s : State) : s.counted.supEvents = s.supEvents := by obtain ⟨k, h⟩ := s.counted_shape; rw [h]
@[simp] theorem State.counted_ir (s : State) : s.counted.ir = s.ir := by obtain ⟨k, h⟩ := s.counted_shape; rw [h]
@[simp] theorem State.counted_ev (s : State) : s.counted.ev = s.ev := by obtain ⟨k, h⟩ := s.counted_shape; rw [h]
@[simp] theorem State.counted_agenda (s : State) : s.counted.agenda = s.agenda := by obtain ⟨k, h⟩ := s.counted_shape; rw [h]
@[simp] theorem State.counted_free (s : State) : s.counted.free = s.free := by obtain ⟨k, h⟩ := s.counted_shape; rw [h]
@[simp] theorem State.counted_clock (s : State) : s.counted.clock = s.clock := by obtain ⟨k, h⟩ := s.counted_shape; rw [h]
@[simp] theorem State.counted_turn (s : State) : s.counted.turn = s.turn := by obtain ⟨k, h⟩ := s.counted_shape; rw [h]
@[simp] theorem State.hart?_counted (s : State) (h : HartId) : s.counted.hart? h = s.hart? h := State.hart?_congr s.counted_harts h

end Sys2Proof.Machine
end

