-- ==== Sys2Proof/Laws/Run.lean ====
section
/-! SUPPORT. How a meaning runs: one lemma for each shared step of it (the checks of class and names, a register read and written, the
retirement), so that a statement about an instruction is proved by chaining them. -/

namespace Sys2Proof.Machine

/-- A meaning that goes on after a step that succeeded. -/
theorem bind_ok {m : M α} {f : α → M β} {s t : State} {a : α} (h : m s = .ok (a, t)) : (m >>= f) s = f a t := by
  show StateT.bind m f s = _
  simp only [StateT.bind, h]; rfl
theorem bind_error {m : M α} {f : α → M β} {s : State} {e : Stop} (h : m s = .error e) : (m >>= f) s = .error e := by
  show StateT.bind m f s = _
  simp only [StateT.bind, h]; rfl
/-- A meaning run step by step, for `simp` with the facts about its parts. -/
theorem bind_run (m : M α) (f : α → M β) (s : State) : (m >>= f) s = match m s with
    | .ok p => f p.1 p.2
    | .error e => .error e := by
  cases h : m s with
  | ok p => exact bind_ok h
  | error e => exact bind_error h
theorem ite_run (c : Prop) [Decidable c] (a b : M α) (s : State) : (if c then a else b) s = if c then a s else b s := by split <;> rfl
@[simp] theorem pure_ok (a : α) (s : State) : (pure a : M α) s = .ok (a, s) := rfl
@[simp] theorem throw_error (e : Stop) (s : State) : (throw e : M α) s = .error e := rfl
theorem runM_ok {op : Nat} {m : M Unit} {s t : State} (h : m s.go = .ok ((), t)) : runM op m s = .next t := by
  simp [runM, h]
theorem runM_trap {op : Nat} {m : M Unit} {s : State} {cause : Nat} {v : Word} (h : m s.go = .error (.trap cause v)) (hc : cause ≠ 0x0E) :
    runM op m s = .next (s.go.takeTrap s.ir.hart
      { cause := cause, xval := v, pc := (s.hart s.ir.hart).pc, second := s.ir.second, unit := unitFor op cause }) := by
  have : (cause == 0x0E) = false := by simpa using hc
  simp only [runM, h, this, Bool.false_and]; rfl
/-- `trap` itself keeps its marker, so that its entry is a switch point. -/
theorem runM_trap_instr {op : Nat} {m : M Unit} {s : State} {v : Word} (h : m s.go = .error (.trap 0x0E v)) :
    runM op m s = .next (s.go.takeTrap s.ir.hart
      { cause := 0x0E, xval := v, pc := (s.hart s.ir.hart).pc, second := s.ir.second, unit := unitFor op 0x0E, marker := s.ir.marker }) := by
  simp only [runM, h]; rfl
/-- A stalled instruction answers a next state that says so. -/
theorem runM_stall {op : Nat} {m : M Unit} {s : State} (h : ∃ g, m s.go = .error (.stall g)) :
    ∃ t, runM op m s = .next t ∧ t.ir.result = .stalled := by
  obtain ⟨g, h⟩ := h
  refine ⟨({ g s.go with ir := { s.ir with result := .stalled } }).modHart s.ir.hart Hart.stall, ?_, by simp⟩
  simp only [runM, h]; rfl

@[simp] theorem get_ok (s : State) : (MonadState.get : M State) s = .ok (s, s) := rfl
@[simp] theorem me_ok (s : State) : Machine.me s = .ok (s.ir.hart, s) := rfl
@[simp] theorem ir_ok (s : State) : ir s = .ok (s.ir.slot, s) := rfl
@[simp] theorem getI_ok (s : State) : getI s = .ok (s.ir, s) := rfl
@[simp] theorem modS_ok (f : State → State) (s : State) : modS f s = .ok ((), f s) := rfl
@[simp] theorem modH_ok (f : Hart → Hart) (s : State) : modH f s = .ok ((), s.modHart s.ir.hart f) := rfl
@[simp] theorem trapM_error (c : Nat) (v : Word) (s : State) : (trapM c v : M α) s = .error (.trap c v) := rfl
@[simp] theorem countIssue_ok (s : State) : countIssue s = .ok ((), s.counted) := rfl
theorem hartM_ok {s : State} {x : Hart} (h : s.hart? s.ir.hart = some x) : hartM s = .ok (x, s) := by
  rw [hartM, bind_ok (get_ok s), h]; rfl
theorem guardM_ok {b : Bool} {e : M Unit} {s : State} (h : b = true) : guardM b e s = .ok ((), s) := by simp [guardM, h]
theorem fenceM_none {s : State} {x : Hart} (h : s.hart? s.ir.hart = some x) (hf : x.fence = none) : fenceM s = .ok ((), s) := by
  rw [fenceM, bind_ok (hartM_ok h), hf]; rfl
theorem useClass_ok {s : State} {x : Hart} {c : Cls} (h : Ready s x c) : useClass c s = .ok ((), s) := by
  rw [useClass, bind_ok (hartM_ok h.found), bind_ok (me_ok s), bind_ok (guardM_ok h.class_ok)]
  split
  · exact fenceM_none h.found (h.open_fence ‹_›)
  · rfl
theorem Ready.go {s : State} {x : Hart} {c : Cls} (h : Ready s x c) : Ready s.go x c := ⟨h.found, h.class_ok, h.open_fence⟩
theorem useClass_trap {s : State} {x : Hart} {c : Cls} (h : s.hart? s.ir.hart = some x) (hc : mayUse s.ir.hart x.migratory c = false) :
    useClass c s = .error (.trap ILLCLASS 0) := by
  rw [useClass, bind_ok (hartM_ok h), bind_ok (me_ok s), hc]; rfl
theorem names_ok {s : State} {x : Hart} {srcs dsts : List (BitVec 5)} (h : s.hart? s.ir.hart = some x) (hn : Named s x srcs dsts) :
    names srcs dsts s = .ok ((), s) := by
  rw [names, bind_ok (hartM_ok h), bind_ok (me_ok s), guardM_ok]
  simp only [hn.1, hn.2, Bool.and_self]
theorem needFrame_ok {s : State} {x : Hart} {n : Nat} (h : s.hart? s.ir.hart = some x) (hn : x.absent.contains n = false) :
    needFrame n s = .ok ((), s) := by
  rw [needFrame, bind_ok (hartM_ok h), hn]; rfl
theorem drained_ok {s : State} {x : Hart} (h : s.hart? s.ir.hart = some x) (h2 : s.ir.second = false) (ho : x.outstanding = []) :
    drained s = .ok ((), s) := by
  rw [drained, bind_ok (hartM_ok h), bind_ok (getI_ok s), guardM_ok]
  simp [h2, ho]
theorem supervisorOnly_ok {s : State} {x : Hart} (h : s.hart? s.ir.hart = some x) (hm : (!(isThread s.ir.hart) || x.trap.mode) = true) :
    supervisorOnly s = .ok ((), s) := by
  rw [supervisorOnly, bind_ok (hartM_ok h), bind_ok (me_ok s), guardM_ok hm]
theorem supervisorOnly_trap {s : State} {x : Hart} (h : s.hart? s.ir.hart = some x) (ht : isThread s.ir.hart = true)
    (hm : x.trap.mode = false) : supervisorOnly s = .error (.trap PRIV 0) := by
  rw [supervisorOnly, bind_ok (hartM_ok h), bind_ok (me_ok s), ht, hm]; rfl

/-! ### Retirement -/

theorem State.setHart_setHart (s : State) (h : HartId) (x y : Hart) : (s.setHart h x).setHart h y = s.setHart h y := by
  have : ∀ l : List (HartId × Hart), setKey h y (setKey h x l) = setKey h y l := by
    intro l
    induction l with
    | nil => simp [setKey]
    | cons p r ih => obtain ⟨j, w⟩ := p; by_cases hj : j = h <;> simp [setKey, hj, ih]
  simp [State.setHart, this]
theorem State.modHart_modHart (s : State) (h : HartId) (f g : Hart → Hart) : (s.modHart h f).modHart h g = s.modHart h fun x => g (f x) := by
  cases hx : s.hart? h with
  | none => simp [State.modHart, hx]
  | some x => rw [State.modHart_of_hart? hx, State.modHart_of_hart? hx, State.modHart_of_hart? (State.hart?_setHart_same ..), State.setHart_setHart]
theorem State.modHart_congr {s : State} {h : HartId} {x : Hart} {f g : Hart → Hart} (hx : s.hart? h = some x) (he : f x = g x) :
    s.modHart h f = s.modHart h g := by rw [State.modHart_of_hart? hx, State.modHart_of_hart? hx, he]
/-- Retirement answers what `Passes` says. -/
theorem retire_ok {s t : State} (h : Passes s t) : retire s = .ok ((), t) := by
  obtain ⟨x, hx, h⟩ := h
  have hc : s.counted.hart? s.ir.hart = some x := by simp [hx]
  rw [retire, bind_ok (hartM_ok hx), bind_ok (me_ok s), bind_ok (get_ok s), bind_ok (countIssue_ok s)]
  cases hl : endingLoops x x.pc with
  | nil =>
    simp only [hl] at h
    subst h
    simp only [modH_ok, State.counted_ir, State.passTo]
    exact congrArg (fun z => Except.ok ((), z)) (State.modHart_congr hc rfl)
  | cons n r =>
    simp only [hl] at h
    rcases hr : loopEnd x (n :: r) [] with ⟨y, _ | tgt⟩
    · simp only [hr] at h
      subst h
      dsimp only
      rw [hr]
      simp only [modH_ok, State.counted_ir]
      rfl
    · simp only [hr] at h
      obtain ⟨rfl, hp, l, hf, hm⟩ := h
      dsimp only
      rw [hr]
      simp only [hf, hm, hp, Bool.and_self, if_true, modH_ok, State.counted_ir]
      rfl
/-- Where the PC ends no loop. -/
theorem passes_straight {s : State} {x : Hart} (h : s.hart? s.ir.hart = some x) (hl : endingLoops x x.pc = []) :
    Passes s (s.passTo x.loops (succPc x.pc)) := ⟨x, h, by simp [hl]⟩
theorem retireTo_ok (s : State) (pc : Word) :
    retireTo pc s = .ok ((), s.counted.modHart s.ir.hart fun y => y.past pc s.ir.marker) := by
  rw [retireTo, bind_ok (get_ok s), bind_ok (countIssue_ok s)]; simp

/-! ### Results -/

theorem result_ok (ws : List RegWrite) (flags : Flags5) (poison : Option Word) (returned : Bool) (tag : Nat) (quick : Bool) (s : State) :
    result ws flags poison returned tag quick s = .ok ((), s.owe ws flags poison returned tag quick) := rfl
theorem writeReg_ok {f : BitVec 5} {v : Word} {fl : Flags5} {s t : State} {ws : List RegWrite} (h : destReg f v s = .ok (ws, t)) :
    writeReg f v fl s = .ok ((), t.owe ws fl) := by
  rw [writeReg, bind_ok h]; rfl
theorem writeAlu_ok {op : Nat} {f : BitVec 5} {v : Word} {s t : State} {ws : List RegWrite} (h : destReg f v s = .ok (ws, t)) :
    writeAlu op f v s = .ok ((), t.owe ws (quick := oneCycle op)) := by
  rw [writeAlu, bind_ok h]; rfl

/-! ### What results and retirement leave alone -/

@[simp] theorem State.owe_ir (s : State) (ws : List RegWrite) (fl : Flags5) (po : Option Word) (re : Bool) (tag : Nat) (q : Bool) :
    (s.owe ws fl po re tag q).ir = s.ir := by simp [State.owe]
@[simp] theorem State.owe_mem (s : State) (ws : List RegWrite) (fl : Flags5) (po : Option Word) (re : Bool) (tag : Nat) (q : Bool) :
    (s.owe ws fl po re tag q).mem = s.mem := by simp [State.owe]
@[simp] theorem State.passTo_ir (s : State) (l : Vector Loop 3) (pc : Word) : (s.passTo l pc).ir = s.ir := by simp [State.passTo]
@[simp] theorem State.passTo_mem (s : State) (l : Vector Loop 3) (pc : Word) : (s.passTo l pc).mem = s.mem := by simp [State.passTo]
@[simp] theorem State.taken_ir (s : State) (pc : Word) : (s.taken pc).ir = s.ir := by simp [State.taken]
@[simp] theorem State.taken_mem (s : State) (pc : Word) : (s.taken pc).mem = s.mem := by simp [State.taken]
theorem State.hart?_owe {s : State} {x : Hart} (h : s.hart? s.ir.hart = some x) (ws : List RegWrite) (fl : Flags5) (po : Option Word) (re : Bool)
    (tag : Nat) (q : Bool) : (s.owe ws fl po re tag q).hart? s.ir.hart = some { x with outstanding := x.outstanding ++
      [{ writes := ws, flags := fl, returned := re, poison := po, inRegion := x.inRegion, second := s.ir.second, tag := tag, quick := q }] } :=
  State.hart?_modHart_same h _
theorem State.hart?_passTo {s : State} {x : Hart} (h : s.hart? s.ir.hart = some x) (l : Vector Loop 3) (pc : Word) :
    (s.passTo l pc).hart? s.ir.hart = some ({ x with loops := l }.past pc s.ir.marker) := by
  have : s.counted.hart? s.ir.hart = some x := by simpa using h
  exact State.hart?_modHart_same this _

/-! ### Register operands, R81 -/

theorem readReg_x {s : State} {x : Hart} {f : BitVec 5} (h : s.hart? s.ir.hart = some x) (hf : f.toNat ≤ 15)
    (ha : x.absent.contains (f.toNat / 4) = false) : readReg f s = .ok (x.xreg f.toNat, s) := by
  simp only [readReg, hf, if_true]
  rw [bind_ok (needFrame_ok h ha), bind_ok (hartM_ok h)]; rfl
theorem readReg_g {s : State} {x : Hart} {f : BitVec 5} (h : s.hart? s.ir.hart = some x) (h1 : 16 ≤ f.toNat) (h2 : f.toNat ≤ 23)
    (ha : x.absent.contains (f.toNat / 4) = false) : readReg f s = .ok (x.regs.g.toList.getD (f.toNat - 16) 0, s) := by
  have : ¬ f.toNat ≤ 15 := by omega
  simp only [readReg, this, if_false, h2, if_true]
  rw [bind_ok (needFrame_ok h ha), bind_ok (hartM_ok h)]; rfl
theorem readReg_zero (s : State) (f : BitVec 5) (hf : f.toNat = 31) : readReg f s = .ok (0, s) := by simp [readReg, hf]
theorem readReg_tid {s : State} {x : Hart} {f : BitVec 5} (h : s.hart? s.ir.hart = some x) (hf : f.toNat = 30) :
    readReg f s = .ok (x.tid, s) := by
  simp only [readReg, hf]
  exact bind_ok (hartM_ok h)
theorem destReg_x {s : State} {x : Hart} {f : BitVec 5} (v : Word) (h : s.hart? s.ir.hart = some x) (hf : f.toNat ≤ 15)
    (ha : x.absent.contains (f.toNat / 4) = false) : destReg f v s = .ok ([.x f.toNat v], s) := by
  simp only [destReg, hf, if_true]
  exact bind_ok (needFrame_ok h ha)
theorem destReg_g {s : State} {x : Hart} {f : BitVec 5} (v : Word) (h : s.hart? s.ir.hart = some x) (h1 : 16 ≤ f.toNat) (h2 : f.toNat ≤ 23)
    (ha : x.absent.contains (f.toNat / 4) = false) : destReg f v s = .ok ([.g (f.toNat - 16) v], s) := by
  have : ¬ f.toNat ≤ 15 := by omega
  simp only [destReg, this, if_false, h2, if_true]
  exact bind_ok (needFrame_ok h ha)
theorem destReg_zero (s : State) (f : BitVec 5) (v : Word) (hf : 30 ≤ f.toNat) : destReg f v s = .ok ([], s) := by
  have h1 : ¬ f.toNat ≤ 15 := by omega
  have h2 : ¬ f.toNat ≤ 23 := by omega
  have h3 : ¬ f.toNat ≤ 27 := by omega
  have h4 : ¬ f.toNat = 28 := by omega
  have h5 : ¬ f.toNat = 29 := by omega
  simp [destReg, h1, h2, h3, h4, h5]

/-! ### Several registers, and a result with its retirement -/

theorem readRegs_one {s t : State} {f : BitVec 5} {a : Word} (h : readRegs [f] s = .ok ([a], t)) : readReg f s = .ok (a, t) := by
  change (readReg f >>= fun v => (readRegs [] >>= fun r => pure (v :: r))) s = _ at h
  cases hm : readReg f s with
  | error e => rw [bind_error hm] at h; injection h
  | ok p =>
    obtain ⟨v, s1⟩ := p
    rw [bind_ok hm] at h
    injection h with h
    injection h with h1 h2
    injection h1 with h1 _
    subst h1 h2; rfl
theorem readRegs_cons {s t : State} {f : BitVec 5} {fs : List (BitVec 5)} {a : Word} {l : List Word} (h : readRegs (f :: fs) s = .ok (a :: l, t)) :
    ∃ s1, readReg f s = .ok (a, s1) ∧ readRegs fs s1 = .ok (l, t) := by
  change (readReg f >>= fun v => (readRegs fs >>= fun r => pure (v :: r))) s = _ at h
  cases hm : readReg f s with
  | error e => rw [bind_error hm] at h; injection h
  | ok p =>
    obtain ⟨v, s1⟩ := p
    rw [bind_ok hm] at h
    cases hn : readRegs fs s1 with
    | error e => rw [bind_error hn] at h; injection h
    | ok q =>
      obtain ⟨w, s2⟩ := q
      rw [bind_ok hn] at h
      injection h with h
      injection h with h1 h2
      injection h1 with h1 h3
      subst h1 h2 h3; exact ⟨s1, rfl, hn⟩
theorem readRegs_two {s t : State} {f g : BitVec 5} {a b : Word} (h : readRegs [f, g] s = .ok ([a, b], t)) :
    ∃ s1, readReg f s = .ok (a, s1) ∧ readReg g s1 = .ok (b, t) := by
  obtain ⟨s1, h1, h2⟩ := readRegs_cons h
  exact ⟨s1, h1, readRegs_one h2⟩
theorem readRegs_three {s t : State} {f g k : BitVec 5} {a b c : Word} (h : readRegs [f, g, k] s = .ok ([a, b, c], t)) :
    ∃ s1 s2, readReg f s = .ok (a, s1) ∧ readReg g s1 = .ok (b, s2) ∧ readReg k s2 = .ok (c, t) := by
  obtain ⟨s1, h1, h2⟩ := readRegs_cons h
  obtain ⟨s2, h3, h4⟩ := readRegs_two h2
  exact ⟨s1, s2, h1, h3, h4⟩
theorem writeReg_retire {s t : State} {d : BitVec 5} {v : Word} {fl : Flags5} (h : Gives s d v t fl) :
    (do writeReg d v fl; retire) s = .ok ((), t) := by
  obtain ⟨ws, s1, hd, hp⟩ := h
  rw [bind_ok (writeReg_ok hd), retire_ok hp]
theorem writeAlu_retire {op : Nat} {s t : State} {d : BitVec 5} {v : Word} (h : Gives s d v t (quick := oneCycle op)) :
    (do writeAlu op d v; retire) s = .ok ((), t) := by
  obtain ⟨ws, s1, hd, hp⟩ := h
  rw [bind_ok (writeAlu_ok hd), retire_ok hp]

end Sys2Proof.Machine
end

