-- ==== Sys2Proof/Laws/Operands.lean ====
section
/-! SUPPORT. What reading and reserving register operands may change: the words of ports and rings, nothing else. -/

namespace Sys2Proof.Machine

/-- States that differ in their cores and control blocks, and the tag of a ring's ticket, alone. -/
def OnlyPorts (s t : State) : Prop := ∃ cs k n, t = { s with cores := cs, ctl := k, free := n }
theorem OnlyPorts.refl (s : State) : OnlyPorts s s := ⟨s.cores, s.ctl, s.free, rfl⟩
theorem OnlyPorts.trans {s t u : State} (h : OnlyPorts s t) (g : OnlyPorts t u) : OnlyPorts s u := by
  obtain ⟨c, k, n, rfl⟩ := h; obtain ⟨c', k', n', rfl⟩ := g; exact ⟨c', k', n', rfl⟩
theorem OnlyPorts.harts {s t : State} (h : OnlyPorts s t) : t.harts = s.harts := by obtain ⟨c, k, n, rfl⟩ := h; rfl
theorem OnlyPorts.ir {s t : State} (h : OnlyPorts s t) : t.ir = s.ir := by obtain ⟨c, k, n, rfl⟩ := h; rfl
theorem OnlyPorts.mem {s t : State} (h : OnlyPorts s t) : t.mem = s.mem := by obtain ⟨c, k, n, rfl⟩ := h; rfl
theorem OnlyPorts.hart? {s t : State} (h : OnlyPorts s t) {x : Hart} (hx : s.hart? s.ir.hart = some x) : t.hart? t.ir.hart = some x := by
  obtain ⟨c, k, n, rfl⟩ := h; exact hx

theorem ok_inj {ε α : Type} {a b : α} (h : (Except.ok a : Except ε α) = .ok b) : a = b := Except.ok.inj h
/-- The steps of a meaning that succeeded, taken apart. -/
theorem bind_eq_ok {m : M α} {f : α → M β} {s t : State} {b : β} (h : (m >>= f) s = .ok (b, t)) :
    ∃ a u, m s = .ok (a, u) ∧ f a u = .ok (b, t) := by
  change StateT.bind m f s = _ at h
  unfold StateT.bind at h
  cases hm : m s with
  | error e => rw [hm] at h; exact absurd h (by intro h; injection h)
  | ok p => rw [hm] at h; exact ⟨p.1, p.2, rfl, h⟩
theorem hartM_inv {s t : State} {x : Hart} (h : hartM s = .ok (x, t)) : s.hart? s.ir.hart = some x ∧ t = s := by
  unfold hartM at h
  obtain ⟨a, u, h1, h2⟩ := bind_eq_ok h
  obtain ⟨rfl, rfl⟩ := Prod.mk.inj (ok_inj h1)
  cases hx : s.hart? s.ir.hart with
  | none => rw [hx] at h2; injection h2
  | some y => rw [hx] at h2; obtain ⟨rfl, rfl⟩ := Prod.mk.inj (ok_inj h2); exact ⟨rfl, rfl⟩
theorem needFrame_inv {s t : State} {n : Nat} {u : Unit} (h : needFrame n s = .ok (u, t)) : t = s := by
  unfold needFrame at h
  obtain ⟨x, s1, h1, h2⟩ := bind_eq_ok h
  obtain ⟨_, rfl⟩ := hartM_inv h1
  split at h2
  · unfold waitFor at h2
    obtain ⟨_, _, h3, h4⟩ := bind_eq_ok h2
    injection h4
  · exact (Prod.mk.inj (ok_inj h2)).2.symm
theorem get_inv {s t a : State} (h : (MonadState.get : M State) s = .ok (a, t)) : a = s ∧ t = s := by
  obtain ⟨rfl, rfl⟩ := Prod.mk.inj (ok_inj h); exact ⟨rfl, rfl⟩
theorem modS_inv {s t : State} {f : State → State} {u : Unit} (h : modS f s = .ok (u, t)) : t = f s := by
  exact (Prod.mk.inj (ok_inj h)).2.symm
theorem pure_inv {s t : State} {a b : α} (h : (pure a : M α) s = .ok (b, t)) : b = a ∧ t = s := by
  obtain ⟨rfl, rfl⟩ := Prod.mk.inj (ok_inj h); exact ⟨rfl, rfl⟩
theorem trapM_inv {s : State} {c : Nat} {v : Word} {p : α × State} (h : (trapM c v : M α) s = .ok p) : False := by injection h
theorem stall_inv {s : State} {p : α × State} (h : (stall : M α) s = .ok p) : False := by injection h
theorem myCore_inv {s t : State} {c : CoreKey} (h : myCore s = .ok (c, t)) : t = s := by
  unfold myCore at h
  obtain ⟨x, s1, h1, h2⟩ := bind_eq_ok h
  obtain ⟨rfl, rfl⟩ := get_inv h1
  cases hc : State.coreOf s1 s1.ir.hart with
  | none => rw [hc] at h2; exact (trapM_inv h2).elim
  | some c => rw [hc] at h2; exact (pure_inv h2).2
theorem popMesh_ports {s t : State} {p : Nat} {v : Word} (h : popMesh p s = .ok (v, t)) : OnlyPorts s t := by
  unfold popMesh at h
  obtain ⟨c, s1, h1, h2⟩ := bind_eq_ok h
  clear h
  obtain rfl := myCore_inv h1
  dsimp only at h2
  split at h2
  · obtain ⟨_, _, h3, _⟩ := bind_eq_ok h2; exact (trapM_inv h3).elim
  · obtain ⟨s3, s4, h4, h5⟩ := bind_eq_ok h2
    obtain ⟨rfl, rfl⟩ := get_inv h4
    cases hm : (s4.core c).meshIn.toList.getD p [] with
    | nil => rw [hm] at h5; exact (stall_inv h5).elim
    | cons w r =>
      rw [hm] at h5
      obtain ⟨_, s5, h6, h7⟩ := bind_eq_ok h5
      obtain rfl := modS_inv h6
      obtain ⟨_, rfl⟩ := pure_inv h7
      exact ⟨_, _, _, rfl⟩
theorem enabledRing_inv {s t : State} {c : CoreKey} {r : Nat} {g : Ring} (h : enabledRing c r s = .ok (g, t)) : t = s := by
  unfold enabledRing at h
  obtain ⟨s1, s2, h1, h2⟩ := bind_eq_ok h
  obtain ⟨rfl, rfl⟩ := get_inv h1
  dsimp only at h2
  split at h2
  · exact (trapM_inv h2).elim
  · exact (pure_inv h2).2
theorem State.setRing_ports (s : State) (c : CoreKey) (r : Nat) (g : Ring) : OnlyPorts s (s.setRing c r g) := ⟨s.cores, _, s.free, rfl⟩
theorem popRing_ports {s t : State} {r : Nat} {v : Word} (h : popRing r s = .ok (v, t)) : OnlyPorts s t := by
  unfold popRing at h
  obtain ⟨c, s1, h1, h2⟩ := bind_eq_ok h
  clear h
  obtain rfl := myCore_inv h1
  obtain ⟨g, s2, h3, h4⟩ := bind_eq_ok h2
  obtain rfl := enabledRing_inv h3
  dsimp only at h4
  split at h4
  · exact (stall_inv h4).elim
  · obtain ⟨s3, s4, h5, h6⟩ := bind_eq_ok h4
    obtain ⟨rfl, rfl⟩ := get_inv h5
    obtain ⟨_, s5, h7, h8⟩ := bind_eq_ok h6
    obtain rfl := modS_inv h7
    obtain ⟨_, rfl⟩ := pure_inv h8
    exact State.setRing_ports ..
theorem reserveWord_ports {s t : State} {r n : Nat} (h : reserveWord r s = .ok (n, t)) : OnlyPorts s t := by
  unfold reserveWord at h
  obtain ⟨c, s1, h1, h2⟩ := bind_eq_ok h
  clear h
  obtain rfl := myCore_inv h1
  obtain ⟨g, s2, h3, h4⟩ := bind_eq_ok h2
  obtain rfl := enabledRing_inv h3
  obtain ⟨s3, s4, h5, h6⟩ := bind_eq_ok h4
  obtain ⟨rfl, rfl⟩ := get_inv h5
  split at h6
  · obtain ⟨_, s5, h7, h8⟩ := bind_eq_ok h6
    obtain rfl := modS_inv h7
    obtain ⟨_, rfl⟩ := pure_inv h8
    exact ⟨_, _, _, rfl⟩
  · exact (stall_inv h6).elim
/-- A register operand's read changes the word it takes from a port or a ring, if any (R81). -/
theorem readReg_ports {s t : State} {f : BitVec 5} {v : Word} (h : readReg f s = .ok (v, t)) : OnlyPorts s t := by
  unfold readReg at h
  split at h
  · obtain ⟨_, s1, h1, h2⟩ := bind_eq_ok h
    obtain rfl := needFrame_inv h1
    obtain ⟨x, s2, h3, h4⟩ := bind_eq_ok h2
    obtain ⟨_, rfl⟩ := hartM_inv h3
    obtain ⟨_, rfl⟩ := pure_inv h4
    exact .refl _
  split at h
  · obtain ⟨_, s1, h1, h2⟩ := bind_eq_ok h
    obtain rfl := needFrame_inv h1
    obtain ⟨x, s2, h3, h4⟩ := bind_eq_ok h2
    obtain ⟨_, rfl⟩ := hartM_inv h3
    obtain ⟨_, rfl⟩ := pure_inv h4
    exact .refl _
  split at h
  · exact popMesh_ports h
  split at h
  · exact popRing_ports h
  split at h
  · exact (trapM_inv h).elim
  split at h
  · obtain ⟨x, s2, h3, h4⟩ := bind_eq_ok h
    obtain ⟨_, rfl⟩ := hartM_inv h3
    obtain ⟨_, rfl⟩ := pure_inv h4
    exact .refl _
  · obtain ⟨_, rfl⟩ := pure_inv h
    exact .refl _
/-- Finding room for a register result takes a ring slot at most (R81). -/
theorem destReg_ports {s t : State} {f : BitVec 5} {v : Word} {ws : List RegWrite} (h : destReg f v s = .ok (ws, t)) : OnlyPorts s t := by
  unfold destReg at h
  dsimp only at h
  split at h
  · obtain ⟨_, s1, h1, h2⟩ := bind_eq_ok h
    obtain rfl := needFrame_inv h1
    obtain ⟨_, rfl⟩ := pure_inv h2
    exact .refl _
  split at h
  · obtain ⟨_, s1, h1, h2⟩ := bind_eq_ok h
    obtain rfl := needFrame_inv h1
    obtain ⟨_, rfl⟩ := pure_inv h2
    exact .refl _
  split at h
  · obtain ⟨c, s1, h1, h2⟩ := bind_eq_ok h
    obtain rfl := myCore_inv h1
    split at h2
    · obtain ⟨_, _, h3, _⟩ := bind_eq_ok h2; exact (trapM_inv h3).elim
    · obtain ⟨s3, s4, h4, h5⟩ := bind_eq_ok h2
      obtain ⟨rfl, rfl⟩ := get_inv h4
      split at h5
      · exact (stall_inv h5).elim
      · obtain ⟨_, rfl⟩ := pure_inv h5
        exact .refl _
  split at h
  · exact (trapM_inv h).elim
  split at h
  · obtain ⟨_, s1, h1, h2⟩ := bind_eq_ok h
    obtain ⟨_, rfl⟩ := pure_inv h2
    exact reserveWord_ports h1
  · obtain ⟨_, rfl⟩ := pure_inv h
    exact .refl _
end Sys2Proof.Machine
end

