-- ==== Sys2Proof/Laws/Control.lean ====
section
/-! SUPPORT. Transfers, slides of the window, traps and their return: what each shared step answers when it goes on. -/

namespace Sys2Proof.Machine

theorem checkTarget_ok {s : State} {pc : Word} (v : Word) (h : GoodTarget s pc) : checkTarget pc v s = .ok ((), s) := by
  obtain ⟨hp, l, hl, hm⟩ := h
  rw [checkTarget, hp]
  simp only [Bool.not_true, Bool.false_eq_true, if_false]
  rw [bind_ok (get_ok s), hl]
  simp only [hm, if_true]; rfl
theorem checkTarget_unaligned {s : State} {pc : Word} (v : Word) (h : pcOk pc = false) : checkTarget pc v s = .error (.trap BADTARGET v) := by
  rw [checkTarget, h]; exact bind_error (trapM_error BADTARGET v s)
theorem checkTarget_unmarked {s : State} {pc : Word} {l : BitVec 512} (v : Word) (hp : pcOk pc = true)
    (hl : s.fetchLine s.ir.hart pc = .line l) (hm : markedIn l pc = false) : checkTarget pc v s = .error (.trap BADTARGET v) := by
  rw [checkTarget, hp]
  simp only [Bool.not_true, Bool.false_eq_true, if_false]
  rw [bind_ok (get_ok s), hl]
  simp only [hm]; rfl
theorem checkDirect_ok {s : State} {x : Hart} {pc : Word} (hx : s.hart? s.ir.hart = some x) (h : DirectTarget s x pc) :
    checkDirect pc s = .ok ((), s) := by
  rw [checkDirect, bind_ok (hartM_ok hx)]
  rcases h with h | h
  · rw [if_pos h]; rfl
  · by_cases hp : x.pc.toNat / 2 ^ 16 = pc.toNat / 2 ^ 16
    · rw [if_pos hp]; rfl
    · rw [if_neg hp]; exact checkTarget_ok pc h
theorem retireTo_taken (s : State) (pc : Word) : retireTo pc s = .ok ((), s.taken pc) := retireTo_ok s pc

theorem branch_next {op : Nat} {cond : Int → Int → Bool} {s s2 t : State} {x : Hart} {a b : Word} (hr : Ready s x .base)
    (hn : Named s x [s.ir.slot.a, s.ir.slot.b] []) (ha : readRegs [s.ir.slot.a, s.ir.slot.b] s.go = .ok ([a, b], s2))
    (hx : s2.hart? s2.ir.hart = some x)
    (ht : if cond (intVal s.ir.slot.ty.toNat a) (intVal s.ir.slot.ty.toNat b)
      then DirectTarget s2 x (target x.pc s.ir.slot.imm) ∧ t = s2.taken (target x.pc s.ir.slot.imm) else Passes s2 t) :
    branch op cond s = .next t := by
  obtain ⟨s1, ha, hb⟩ := readRegs_two ha
  refine runM_ok ?_
  rw [bind_ok (useClass_ok hr.go), bind_ok (ir_ok s.go)]
  dsimp only [State.go_slot]
  rw [bind_ok (names_ok (s := s.go) hr.found hn), bind_ok ha, bind_ok hb, bind_ok (hartM_ok hx)]
  by_cases h : cond (intVal s.ir.slot.ty.toNat a) (intVal s.ir.slot.ty.toNat b) = true
  · rw [if_pos h] at ht
    obtain ⟨hd, rfl⟩ := ht
    refine (congrFun (if_pos h) s2).trans ?_
    rw [bind_ok (checkDirect_ok hx hd), retireTo_taken]
  · rw [if_neg h] at ht
    exact (congrFun (if_neg h) s2).trans (retire_ok ht)
theorem execJmp_next {s : State} {x : Hart} (hr : Ready s x .base) (ht : DirectTarget s.go x (target x.pc s.ir.slot.imm)) :
    execJmp s = .next (s.go.taken (target x.pc s.ir.slot.imm)) := by
  refine runM_ok ?_
  rw [bind_ok (useClass_ok hr.go), bind_ok (ir_ok s.go), bind_ok (hartM_ok (s := s.go) hr.found)]
  dsimp only [State.go_slot]
  rw [bind_ok (checkDirect_ok (s := s.go) hr.found ht), retireTo_taken]
theorem execJmpr_next {s s1 : State} {x : Hart} {a : Word} (hr : Ready s x .base) (hn : Named s x [s.ir.slot.a] [])
    (ha : readRegs [s.ir.slot.a] s.go = .ok ([a], s1)) (ht : GoodTarget s1 a) : execJmpr s = .next (s1.taken a) := by
  refine runM_ok ?_
  rw [bind_ok (useClass_ok hr.go), bind_ok (ir_ok s.go)]
  dsimp only [State.go_slot]
  rw [bind_ok (names_ok (s := s.go) hr.found hn), bind_ok (readRegs_one ha), bind_ok (checkTarget_ok a ht), retireTo_taken]

/-! ### Slides, calls and returns -/

theorem drained_of {s : State} {x : Hart} (h : s.hart? s.ir.hart = some x) (hd : Drained s x) : drained s = .ok ((), s) :=
  drained_ok h hd.1 hd.2
theorem landPair_first {s : State} (h : s.ir.second = false) : landPair s = .ok ((), s) := by
  rw [landPair, bind_ok (getI_ok s), h]; rfl
@[simp] theorem State.stackPut_ir (s : State) (va v : Word) : (s.stackPut va v).ir = s.ir := by unfold State.stackPut; split <;> first | rfl | simp
@[simp] theorem State.pushed_ir (x : Hart) (n : Nat) : ∀ (i : Nat) (s : State), (s.pushed x n i).ir = s.ir := by
  induction n with
  | zero => intro _ _; rfl
  | succ n ih => intro i s; rw [State.pushed, ih, State.stackPut_ir]
@[simp] theorem State.slidUp_ir (s : State) (x : Hart) (n : Nat) : (s.slidUp x n).ir = s.ir := by simp [State.slidUp]
theorem stackWrite_ok (va v : Word) (s : State) : stackWrite va v s = .ok ((), s.stackPut va v) := by
  rw [stackWrite, bind_ok (me_ok s), State.stackPut]
  cases h : s.ir.hart <;> first | rfl | simp [h]
/-- The stores of a slide go to the stack of the hart, one register after another. -/
theorem storeOut_ok (x : Hart) (n : Nat) : ∀ (i : Nat) (s : State), storeOut x x.wbase n i s = .ok ((), s.pushed x n i) := by
  induction n with
  | zero => intro _ _; rfl
  | succ n ih => intro i s; rw [storeOut, bind_ok (stackWrite_ok ..), ih]; rfl
theorem stackRead_ok {s : State} {x : Hart} {va v : Word} (h : s.hart? s.ir.hart = some x) (hg : s.stackGet x va = some v) :
    stackRead va s = .ok (v, s) := by
  rw [stackRead, bind_ok (get_ok s), bind_ok (hartM_ok h)]
  revert hg
  unfold State.stackGet
  cases s.ir.hart <;> intro hg <;> first
    | (simp only [Option.some.injEq] at hg; subst hg; rfl)
    | (dsimp only at hg ⊢; rw [hg]; rfl)
theorem loadIn_ok {s : State} {x : Hart} (h : s.hart? s.ir.hart = some x) (base : Word) : ∀ (vs : List Word) (i : Nat),
    (∀ j < vs.length, s.stackGet x (base + BitVec.ofNat 64 (8 * (i + j))) = some (vs.getD j 0)) → loadIn base vs.length i s = .ok (vs, s) := by
  intro vs
  induction vs with
  | nil => intro _ _; rfl
  | cons v r ih =>
    intro i hg
    have h0 : s.stackGet x (base + BitVec.ofNat 64 (8 * i)) = some v := hg 0 (by simp)
    have hr : loadIn base r.length (i + 1) s = .ok (r, s) := ih (i + 1) fun j hj => by
      have := hg (j + 1) (by simpa using hj)
      rwa [show i + (j + 1) = i + 1 + j by omega] at this
    rw [List.length_cons, loadIn, bind_ok (stackRead_ok h h0), bind_ok hr]; rfl
theorem windowHere_ok {s : State} {x : Hart} (h : s.hart? s.ir.hart = some x) (hw : x.windowIn) : windowHere s = .ok ((), s) := by
  rw [windowHere, bind_ok (hartM_ok h), hw]; rfl
theorem slideUp_ok {s : State} {x : Hart} {n : Nat} (h : s.hart? s.ir.hart = some x) (hw : x.windowIn)
    (hl : x.wbase.toNat + 8 * n + 128 ≤ x.rslim.toNat) : slideUp n s = .ok ((), s.slidUp x n) := by
  have : ¬ x.rslim.toNat < x.wbase.toNat + 8 * n + 128 := by omega
  rw [slideUp, bind_ok (hartM_ok h), if_neg this]
  dsimp only
  rw [bind_ok (windowHere_ok h hw), bind_ok (storeOut_ok ..), modH_ok, State.pushed_ir]; rfl
theorem slideDown_ok {s : State} {x : Hart} {m : Nat} {vs : List Word} (h : s.hart? s.ir.hart = some x) (hw : x.windowIn)
    (hl : x.rsbase.toNat + 8 * m ≤ x.wbase.toNat) (hs : StackHolds s x m vs) :
    slideDown m s = .ok ((), s.modHart s.ir.hart fun _ => x.slidDown m vs) := by
  have : ¬ x.wbase.toNat < x.rsbase.toNat + 8 * m := by omega
  obtain ⟨rfl, hs⟩ := hs
  rw [slideDown, bind_ok (hartM_ok h), if_neg this]
  dsimp only
  rw [bind_ok (windowHere_ok h hw), bind_ok (loadIn_ok h _ vs 0 (by simpa using hs)), modH_ok]
  exact congrArg (fun z => Except.ok ((), z)) (State.modHart_congr h rfl)
theorem callTo_ok {s : State} {x : Hart} {n : Nat} (t : Word) (h : s.hart? s.ir.hart = some x) (h2 : s.ir.second = false) (hw : x.windowIn)
    (hl : x.wbase.toNat + 8 * n + 128 ≤ x.rslim.toNat) : callTo t n s = .ok ((), s.called x n t) := by
  rw [callTo, bind_ok (hartM_ok h), bind_ok (landPair_first h2), bind_ok (slideUp_ok h hw hl), bind_ok (modH_ok _ _), bind_ok (retireTo_taken _ _),
    modS_ok]
  simp [State.called]
theorem execCall_next {s : State} {x : Hart} (hr : Ready s x .base) (hd : Drained s x) (hw : x.windowIn)
    (ht : DirectTarget s.go x (target x.pc s.ir.slot.imm)) (hl : x.wbase.toNat + 8 * (4 * s.ir.slot.misc.toNat) + 128 ≤ x.rslim.toNat) :
    execCall s = .next (s.go.called x (4 * s.ir.slot.misc.toNat) (target x.pc s.ir.slot.imm)) := by
  refine runM_ok ?_
  rw [bind_ok (useClass_ok hr.go), bind_ok (ir_ok s.go), bind_ok (drained_of (s := s.go) hr.found hd), bind_ok (hartM_ok (s := s.go) hr.found)]
  dsimp only [State.go_slot]
  rw [bind_ok (checkDirect_ok (s := s.go) hr.found ht), callTo_ok _ (s := s.go) hr.found hd.1 hw hl]
theorem execCallr_next {s s1 : State} {x : Hart} {a : Word} (hr : Ready s x .base) (hn : Named s x [s.ir.slot.a] []) (hd : Drained s x)
    (hw : x.windowIn) (ha : readRegs [s.ir.slot.a] s.go = .ok ([a], s1)) (ht : GoodTarget s1 a)
    (hl : x.wbase.toNat + 8 * (4 * s.ir.slot.misc.toNat) + 128 ≤ x.rslim.toNat) :
    execCallr s = .next (s1.called x (4 * s.ir.slot.misc.toNat) a) := by
  have hp := readReg_ports (readRegs_one ha)
  have h1 : s1.hart? s1.ir.hart = some x := hp.hart? (s := s.go) hr.found
  have h2 : s1.ir.second = false := by rw [hp.ir]; exact hd.1
  refine runM_ok ?_
  rw [bind_ok (useClass_ok hr.go), bind_ok (ir_ok s.go)]
  dsimp only [State.go_slot]
  rw [bind_ok (names_ok (s := s.go) hr.found hn), bind_ok (drained_of (s := s.go) hr.found hd), bind_ok (readRegs_one ha),
    bind_ok (checkTarget_ok a ht), callTo_ok _ h1 h2 hw hl]
theorem execRet_next {s : State} {x : Hart} {vs : List Word} {d : Nat} (hr : Ready s x .base) (hd : Drained s x) (hw : x.windowIn)
    (hde : (x.wbase - x.xreg 14).toNat = d) (h3 : d = 32 ∨ d = 64 ∨ d = 96)
    (hb : x.rsbase.toNat ≤ (x.xreg 14).toNat) (hb2 : x.rsbase.toNat + 8 * (d / 8) ≤ x.wbase.toNat)
    (ht : GoodTarget s.go (x.xreg 15)) (hs : StackHolds s.go x (d / 8) vs) :
    execRet s = .next ((s.go.modHart s.ir.hart fun _ => x.slidDown (d / 8) vs).taken (x.xreg 15)) := by
  have hf : x.absent.contains 3 = false := by
    rw [Hart.windowIn, List.find?_eq_none] at hw
    cases h : x.absent.contains 3 with
    | false => rfl
    | true => exact absurd (hw 3 (by simpa using h)) (by decide)
  refine runM_ok ?_
  rw [bind_ok (useClass_ok hr.go), bind_ok (drained_of (s := s.go) hr.found hd), bind_ok (needFrame_ok (s := s.go) hr.found hf),
    bind_ok (hartM_ok (s := s.go) hr.found)]
  have hc : (!((d = 32 || d = 64 || d = 96) && decide (x.rsbase.toNat ≤ (x.xreg 14).toNat))) = false := by
    rcases h3 with h | h | h <;> subst h <;> simp [hb]
  dsimp only
  rw [hde, hc, if_neg (by decide)]
  rw [bind_ok (checkTarget_ok _ ht), bind_ok (landPair_first (s := s.go) hd.1), bind_ok (slideDown_ok (s := s.go) hr.found hw hb2 hs), retireTo_taken]
  rfl

/-! ### Loops -/

theorem loopTo_ok {s t : State} {x : Hart} {n count imm : Nat} (h : s.hart? s.ir.hart = some x)
    (hs : x.pc.toNat < ((x.pc &&& ~~~0x3F#64) + BitVec.ofInt 64 (sext imm 24)).toNat)
    (ht : let stop := (x.pc &&& ~~~0x3F#64) + BitVec.ofInt 64 (sext imm 24)
      let s' := s.modHart s.ir.hart fun y => y.setLoop n fun _ =>
        { start := succPc x.pc, stop := stop, reload := BitVec.ofNat 24 count, count := BitVec.ofNat 24 count }
      if count = 0 then t = s'.taken (succPc stop) else Passes s' t) : loopTo n count imm s = .ok ((), t) := by
  rw [loopTo, bind_ok (hartM_ok h)]
  dsimp only
  rw [if_neg (by omega), bind_ok (modH_ok _ s)]
  dsimp only at ht
  by_cases hc : count = 0
  · rw [if_pos hc] at ht ⊢
    rw [retireTo_taken, ht]
  · rw [if_neg hc] at ht ⊢
    exact retire_ok ht

/-! ### Traps -/

theorem runM_traps {op : Nat} {m : M Unit} {s : State} {x : Hart} {cause : Nat} {v : Word} (hx : s.hart? s.ir.hart = some x)
    (h : m s.go = .error (.trap cause v)) (hc : cause ≠ 0x0E) :
    runM op m s = .next (s.go.takeTrap s.ir.hart { cause := cause, xval := v, pc := x.pc, second := s.ir.second, unit := unitFor op cause }) := by
  rw [runM_trap h hc, State.hart_of_hart? hx]

theorem enterTrap_ok {s : State} {h : HartId} {x : Hart} {t : TrapReq} (hx : s.hart? h = some x) (hw : x.windowIn)
    (hn : x.trap.trapped = false) (he : s.ctlGet (dieOfHart h) 0x100 ≠ 0) (hl : x.wbase.toNat + 96 + 128 ≤ x.rslim.toNat) :
    s.enterTrap h t = s.trapEntered h x t := by
  have hl' : ¬ x.rslim.toNat < x.wbase.toNat + 96 + 128 := by omega
  have hx' : (s.trapping h).hart? (s.trapping h).ir.hart = some x := hx
  have hm : trapEntryM t (s.trapping h) = .ok ((), (((s.trapping h).slidUp x 12).modHart h fun y =>
      y.entered x t (s.ctlGet (dieOfHart h) 0x100)).spillNow h) := by
    rw [trapEntryM, bind_ok (hartM_ok hx'), bind_ok (get_ok _), bind_ok (slideUp_ok hx' hw (by omega)), bind_ok (modH_ok _ _), modS_ok]
    simp only [State.modHart_ir, State.slidUp_ir]
    rfl
  have he' : (s.trapping h).ctlGet (dieOfHart h) 0x100 ≠ 0 := he
  rw [State.enterTrap]
  simp only [State.hart_of_hart? hx, hn]
  change (if _ then _ else if (s.trapping h).ctlGet (dieOfHart h) 0x100 = 0 then _ else _) = _
  rw [if_neg (by decide), if_neg he', if_neg hl']
  change (match trapEntryM t (s.trapping h) with
    | .ok (_, s') => let s' := s'.recordFault h t.cause t.xval; if t.precise then s'.faultOf h t.cause 0 else s'
    | .error (.endThread c i) => (s.trapping h).endThread h c i
    | .error (.stall f) => f ((s.trapping h).modHart h fun y => { y with pendingTrap := some t })
    | .error _ => (s.trapping h).endThread h NESTED t.cause) = _
  rw [hm]; rfl
@[simp] theorem State.addAccess_ir (s : State) (h : HartId) (a : Access) : (s.addAccess h a).ir = s.ir := by simp [State.addAccess]
@[simp] theorem State.bump_ir (s : State) (d : DieKey) (off source slot n : Nat) (f : Bool) : (s.bump d off source slot n f).ir = s.ir := by
  unfold State.bump
  dsimp only
  split
  · split <;> simp
  · rfl
@[simp] theorem State.countDie_ir (s : State) (d : DieKey) (source n : Nat) : (s.countDie d source n).ir = s.ir := by
  have : ∀ (l : List Nat) (s : State), (l.foldl (fun s j => s.bump d (0x510000 + 0x10 * j) source 0 n false) s).ir = s.ir := by
    intro l
    induction l with
    | nil => intro _; rfl
    | cons j r ih => intro s; rw [List.foldl_cons, ih, State.bump_ir]
  exact this _ s
@[simp] theorem State.refuseDeposit_ir (s : State) (h : HartId) (i : Nat) (w : Option HartId) : (s.refuseDeposit h i w).ir = s.ir := by
  unfold State.refuseDeposit; cases w <;> simp
theorem execXret_next {s : State} {x : Hart} {vs : List Word} (hr : Ready s x .xret) (hm : x.trap.mode = true) (ht : x.trap.trapped = true)
    (hd : Drained s x) (hw : x.windowIn) (hp : pcOk x.trap.xpc = true) (hb : x.rsbase.toNat + 96 ≤ x.wbase.toNat)
    (hs : StackHolds s.go.counted x 12 vs) : execXret s = .next (s.go.counted.returned x vs) := by
  refine runM_ok ?_
  rw [bind_ok (useClass_ok hr.go), bind_ok (hartM_ok (s := s.go) hr.found)]
  rw [hm, ht, if_neg (by decide)]
  dsimp only
  rw [if_neg (by decide)]
  rw [bind_ok (drained_of (s := s.go) hr.found hd), bind_ok (countIssue_ok s.go)]
  have hc : s.go.counted.hart? s.go.counted.ir.hart = some x := by simpa using hr.found
  rw [trapReturnM, bind_ok (hartM_ok hc), bind_ok (getI_ok _), hp, if_neg (by decide)]
  dsimp only
  rw [if_neg (by omega)]
  rw [bind_ok (slideDown_ok hc hw (by omega) hs), bind_ok (modH_ok _ _), modS_ok]
  simp only [State.modHart_ir, State.modHart_modHart]
  rfl

end Sys2Proof.Machine
end

