-- ==== Sys2Proof/Laws/Memory.lean ====
section
/-! SUPPORT. Memory and the control blocks: what a read gives after a write, and that every operation on them keeps their canonical
form. -/

namespace Sys2Proof.Machine

/-! ### Sparse maps -/

theorem Sparse.get_of_lt [DecidableEq α] (d : α) (l : Sparse α) (b a : Nat) (h : Sparse.wfFrom d b l = true) (ha : a < b) :
    Sparse.get d l a = d := by
  induction l generalizing b with
  | nil => rfl
  | cons p r ih =>
    obtain ⟨k, v⟩ := p
    simp only [Sparse.wfFrom, Bool.and_eq_true, decide_eq_true_eq] at h
    have : k ≠ a := by omega
    simp only [Sparse.get, this, if_false]
    exact ih (k + 1) h.2 (by omega)
theorem Sparse.wf_weaken [DecidableEq α] (d : α) (l : Sparse α) (b c : Nat) (hc : c ≤ b) (h : Sparse.wfFrom d b l = true) :
    Sparse.wfFrom d c l = true := by
  cases l with
  | nil => rfl
  | cons p r =>
    obtain ⟨k, v⟩ := p
    simp only [Sparse.wfFrom, Bool.and_eq_true, decide_eq_true_eq] at h ⊢
    exact ⟨⟨by omega, h.1.2⟩, h.2⟩
theorem Sparse.put_wf [DecidableEq α] (d : α) (a : Nat) (v : α) (l : Sparse α) (b : Nat) (hb : b ≤ a)
    (h : Sparse.wfFrom d b l = true) : Sparse.wfFrom d b (Sparse.put d a v l) = true := by
  by_cases hv : v = d
  · clear hb
    induction l generalizing b with
    | nil => simp [Sparse.put, Sparse.wfFrom, hv]
    | cons p r ih =>
      obtain ⟨k, w⟩ := p
      simp only [Sparse.wfFrom, Bool.and_eq_true, decide_eq_true_eq] at h
      have hr := ih (k + 1) h.2
      by_cases h2 : a = k
      · simpa [Sparse.put, hv, h2] using Sparse.wf_weaken d _ (k + 1) b (by omega) (by simpa [hv, h2] using hr)
      · simpa [Sparse.put, hv, h2, Sparse.wfFrom, h.1] using by simpa [hv] using hr
  · induction l generalizing b with
    | nil => simp [Sparse.put, Sparse.wfFrom, hv, hb]
    | cons p r ih =>
      obtain ⟨k, w⟩ := p
      simp only [Sparse.wfFrom, Bool.and_eq_true, decide_eq_true_eq] at h
      obtain ⟨⟨hk, hw⟩, hr⟩ := h
      by_cases h1 : a < k
      · simp [Sparse.put, h1, hv, Sparse.wfFrom, hb, hw, hr, Nat.succ_le_of_lt h1]
      · by_cases h2 : a = k
        · simp [Sparse.put, hv, Sparse.wfFrom, hk, h2, hr]
        · simp [Sparse.put, h1, h2, hv, Sparse.wfFrom, hk, hw, ih (k + 1) (by omega) hr]
/-- What was written is read, whatever the form of the map. -/
theorem Sparse.get_put_same [DecidableEq α] (d : α) (a : Nat) (v : α) (l : Sparse α) : Sparse.get d (Sparse.put d a v l) a = v := by
  induction l with
  | nil => by_cases hv : v = d <;> simp [Sparse.put, Sparse.get, hv]
  | cons p r ih =>
    obtain ⟨k, w⟩ := p
    by_cases h2 : a = k
    · subst h2
      by_cases hv : v = d
      · simpa [Sparse.put, hv] using hv ▸ ih
      · simp [Sparse.put, Sparse.get, hv]
    · by_cases hv : v = d
      · simpa [Sparse.put, Sparse.get, hv, h2, Ne.symm h2] using hv ▸ ih
      · by_cases h1 : a < k <;> simp [Sparse.put, Sparse.get, hv, h1, h2, Ne.symm h2, ih]
theorem Sparse.get_put_ne [DecidableEq α] (d : α) {a c : Nat} (hc : c ≠ a) (v : α) (l : Sparse α) :
    Sparse.get d (Sparse.put d a v l) c = Sparse.get d l c := by
  induction l with
  | nil => by_cases hv : v = d <;> simp [Sparse.put, Sparse.get, hv, Ne.symm hc]
  | cons p r ih =>
    obtain ⟨k, w⟩ := p
    by_cases h2 : a = k
    · subst h2
      by_cases hv : v = d
      · simpa [Sparse.put, Sparse.get, hv, Ne.symm hc] using hv ▸ ih
      · simp [Sparse.put, Sparse.get, hv, Ne.symm hc]
    · by_cases hv : v = d
      · simpa [Sparse.put, Sparse.get, hv, h2] using congrArg _ (hv ▸ ih)
      · by_cases h1 : a < k <;> simp [Sparse.put, Sparse.get, hv, h1, h2, Ne.symm hc, ih]
theorem Sparse.filter_wf [DecidableEq α] (d : α) (p : Nat × α → Bool) (l : Sparse α) (b : Nat) (h : Sparse.wfFrom d b l = true) :
    Sparse.wfFrom d b (l.filter p) = true := by
  induction l generalizing b with
  | nil => rfl
  | cons q r ih =>
    obtain ⟨k, w⟩ := q
    simp only [Sparse.wfFrom, Bool.and_eq_true, decide_eq_true_eq] at h
    obtain ⟨⟨hk, hw⟩, hr⟩ := h
    by_cases hp : p (k, w)
    · simp [hp, Sparse.wfFrom, hk, hw, ih (k + 1) hr]
    · simpa [List.filter_cons, hp] using Sparse.wf_weaken d _ (k + 1) b (by omega) (ih (k + 1) hr)

/-! ### Memory -/

theorem putCells_wf (c m : List Host.Cell) (h : Memory.wf m) : Memory.wf (putCells m c) := by
  induction c generalizing m with
  | nil => exact h
  | cons p r ih => obtain ⟨a, b⟩ := p; exact ih _ (Sparse.put_wf 0 a b m 0 (Nat.zero_le _) h)
theorem get_putCells_out (c m : List Host.Cell) (a : Nat) (h : ∀ p ∈ c, p.1 ≠ a) :
    Sparse.get (0 : Byte) (putCells m c) a = Sparse.get 0 m a := by
  induction c generalizing m with
  | nil => rfl
  | cons p r ih =>
    obtain ⟨k, b⟩ := p
    rw [putCells, ih _ (fun q hq => h q (List.mem_cons_of_mem _ hq)), Sparse.get_put_ne]
    exact (h (k, b) List.mem_cons_self).symm
/-- A byte outside the cells that are written keeps its value. -/
theorem State.byte_putCells_out (s : State) (c : List Host.Cell) (a : Nat) (h : ∀ p ∈ c, p.1 ≠ a) : (s.putCells c).byte a = s.byte a :=
  get_putCells_out c s.mem a h
theorem State.byte_putByte_same (s : State) (a : Nat) (v : Byte) : (s.putByte a v).byte a = v :=
  Sparse.get_put_same 0 a v s.mem
theorem State.byte_putByte_ne (s : State) {a c : Nat} (v : Byte) (h : c ≠ a) : (s.putByte a v).byte c = s.byte c :=
  Sparse.get_put_ne 0 h v s.mem
theorem cellsAt_fst (a : Nat) (bs : List Byte) : ∀ p ∈ cellsAt a bs, a ≤ p.1 ∧ p.1 < a + bs.length := by
  induction bs generalizing a with
  | nil => simp [cellsAt]
  | cons b r ih =>
    intro p hp
    simp only [cellsAt, List.mem_cons] at hp
    rcases hp with rfl | hp
    · simp
    · have := ih (a + 1) p hp; simp only [List.length_cons]; omega
theorem leBytes_length (n v : Nat) : (leBytes n v).length = n := by
  induction n generalizing v with
  | zero => rfl
  | succ n ih => simp [leBytes, ih]
/-- A store of n bytes leaves every byte outside them. -/
theorem State.byte_putNum_out (s : State) (a n v c : Nat) (h : c < a ∨ a + n ≤ c) : (s.putNum a n v).byte c = s.byte c := by
  refine s.byte_putCells_out _ c fun p hp => ?_
  have := cellsAt_fst a _ p hp
  rw [leBytes_length] at this
  omega

/-! ### The canonical form -/

@[simp] theorem State.Inv.putByte {s : State} (h : s.Inv) (a : Nat) (v : Byte) : (s.putByte a v).Inv :=
  ⟨Sparse.put_wf 0 a v s.mem 0 (Nat.zero_le _) h.mem, h.ctl⟩
@[simp] theorem State.Inv.putCells {s : State} (h : s.Inv) (c : List Host.Cell) : (s.putCells c).Inv := ⟨putCells_wf c s.mem h.mem, h.ctl⟩
@[simp] theorem State.Inv.putNum {s : State} (h : s.Inv) (a n v : Nat) : (s.putNum a n v).Inv := h.putCells _
@[simp] theorem State.Inv.putWord {s : State} (h : s.Inv) (a : Nat) (v : Word) : (s.putWord a v).Inv := h.putCells _
@[simp] theorem State.Inv.putMeta {s : State} (h : s.Inv) (pa i : Nat) (v : Word) : (s.putMeta pa i v).Inv := h.putCells _
@[simp] theorem State.Inv.ctlPut {s : State} (h : s.Inv) (d : DieKey) (o : Nat) (v : Word) : (s.ctlPut d o v).Inv :=
  ⟨h.mem, Sparse.put_wf 0 _ v s.ctl 0 (Nat.zero_le _) h.ctl⟩
/-- A state with the memory and the control blocks of another keeps the form with it. -/
theorem State.Inv.congr {s t : State} (h : s.Inv) (hm : t.mem = s.mem) (hc : t.ctl = s.ctl) : t.Inv := ⟨hm ▸ h.mem, hc ▸ h.ctl⟩
/-- A control word read after a write of it. -/
theorem State.ctlGet_ctlPut_same (s : State) (d : DieKey) (o : Nat) (v : Word) : (s.ctlPut d o v).ctlGet d o = v :=
  Sparse.get_put_same 0 _ v s.ctl
theorem State.ctlGet_ctlPut_ne (s : State) {d e : DieKey} {o p : Nat} (hne : e * 2 ^ 40 + p ≠ d * 2 ^ 40 + o) (v : Word) :
    (s.ctlPut d o v).ctlGet e p = s.ctlGet e p := Sparse.get_put_ne 0 hne v s.ctl

end Sys2Proof.Machine
end

