-- ==== Sys2Proof/Laws/Invariant.lean ====
section
/-! SUPPORT. What keeps the machine's invariant (memory and the control blocks in canonical form): the shared operations on a state, and the
steps of a meaning. A meaning keeps it when each of its parts does. -/

namespace Sys2Proof.Machine

/-! ### Updates that touch neither memory nor the control blocks -/

@[simp] theorem State.Inv.setHart {s : State} (h : s.Inv) (g : HartId) (x : Hart) : (s.setHart g x).Inv := ⟨h.mem, h.ctl⟩
@[simp] theorem State.Inv.modHart {s : State} (h : s.Inv) (g : HartId) (f : Hart → Hart) : (s.modHart g f).Inv := by
  unfold State.modHart; split <;> simp [h]
@[simp] theorem State.Inv.modCore {s : State} (h : s.Inv) (c : CoreKey) (f : Core → Core) : (s.modCore c f).Inv := ⟨h.mem, h.ctl⟩
@[simp] theorem State.Inv.modQuad {s : State} (h : s.Inv) (q : QuadKey) (f : Quad → Quad) : (s.modQuad q f).Inv := ⟨h.mem, h.ctl⟩
@[simp] theorem State.Inv.modDie {s : State} (h : s.Inv) (d : DieKey) (f : Die → Die) : (s.modDie d f).Inv := ⟨h.mem, h.ctl⟩
@[simp] theorem State.Inv.modPkg {s : State} (h : s.Inv) (p : Nat) (f : Pkg → Pkg) : (s.modPkg p f).Inv := ⟨h.mem, h.ctl⟩
@[simp] theorem State.Inv.modLaunch {s : State} (h : s.Inv) (l : Nat) (f : Launch → Launch) : (s.modLaunch l f).Inv := by
  unfold State.modLaunch; split
  · exact ⟨h.mem, h.ctl⟩
  · exact h
@[simp] theorem State.Inv.modJob {s : State} (h : s.Inv) (j : Nat) (f : Job → Job) : (s.modJob j f).Inv := ⟨h.mem, h.ctl⟩
@[simp] theorem State.Inv.event {s : State} (h : s.Inv) (d : DieKey) (code : Nat) (v : Word) : (s.event d code v).Inv := ⟨h.mem, h.ctl⟩
@[simp] theorem State.Inv.setIr {s : State} (h : s.Inv) (i : Issue) : ({ s with ir := i } : State).Inv := ⟨h.mem, h.ctl⟩
@[simp] theorem State.Inv.setFree {s : State} (h : s.Inv) (n : Nat) : ({ s with free := n } : State).Inv := ⟨h.mem, h.ctl⟩
@[simp] theorem State.Inv.setEv {s : State} (h : s.Inv) (e : EventArg) : ({ s with ev := e } : State).Inv := ⟨h.mem, h.ctl⟩

theorem State.Inv.ite {c : Prop} [Decidable c] {a b : State} (ha : a.Inv) (hb : b.Inv) : (if c then a else b).Inv := by
  split
  · exact ha
  · exact hb
/-- A fold of steps that each keep it. -/
theorem State.Inv.foldl {s : State} {f : State → β → State} {l : List β} (h : s.Inv) (hf : ∀ u b, u.Inv → (f u b).Inv) : (l.foldl f s).Inv := by
  induction l generalizing s with
  | nil => exact h
  | cons b r ih => exact ih (hf s b h)

/-! ### Counters, messages and records -/

@[simp] theorem State.Inv.bump {s : State} (h : s.Inv) (d : DieKey) (off source slot n : Nat) (f : Bool) : (s.bump d off source slot n f).Inv := by
  simp only [State.bump]
  repeat' split
  all_goals simp [h]
@[simp] theorem State.Inv.countDie {s : State} (h : s.Inv) (d : DieKey) (source n : Nat) : (s.countDie d source n).Inv :=
  h.foldl fun _ _ hu => hu.bump ..
@[simp] theorem State.Inv.countCore {s : State} (h : s.Inv) (c : CoreKey) (slot source n : Nat) : (s.countCore c slot source n).Inv :=
  (State.Inv.foldl h fun _ _ hu => hu.bump ..).countDie ..
@[simp] theorem State.Inv.enlink {s : State} (h : s.Inv) (d : DieKey) (p : Packet) : (s.enlink d p).Inv := by simp [State.enlink, h]
@[simp] theorem State.Inv.send {s : State} (h : s.Inv) (a b : DieKey) (vn : Nat) (m : Msg) (o : Nat) (k : Bool) (c : Option CoreKey) :
    (s.send a b vn m o k c).Inv := by
  unfold State.send; split <;> simp [h]
@[simp] theorem State.Inv.sendFill {s : State} (h : s.Inv) (d : DieKey) (p : Nat) (a v : Word) (f : Option (HartId × Access))
    (o : Nat) : (s.sendFill d p a v f o).Inv := by simp [State.sendFill, h]
@[simp] theorem State.Inv.missFor {s : State} (h : s.Inv) (g : HartId) (q : QuadKey) (lp : Bool) (sp va k : Nat) : (s.missFor g q lp sp va k).Inv := by
  simp only [State.missFor]
  repeat' split
  all_goals simp [h]
@[simp] theorem State.Inv.pageFault {s : State} (h : s.Inv) (g : HartId) (q : QuadKey) (lp : Bool) (sp va k : Nat) : (s.pageFault g q lp sp va k).Inv :=
  ((h.modDie ..).event ..).countDie ..
@[simp] theorem State.Inv.parkHart {s : State} (h : s.Inv) (g : HartId) (q : QuadKey) (sp va k : Nat) : (s.parkHart g q sp va k).Inv := by
  simp only [State.parkHart]; split <;> simp [h]
@[simp] theorem State.Inv.blackBox {s : State} (h : s.Inv) (d : DieKey) (c o l v : Nat) : (s.blackBox d c o l v).Inv :=
  ((h.ctlPut ..).ctlPut ..).ctlPut ..
@[simp] theorem State.Inv.recordFault {s : State} (h : s.Inv) (g : HartId) (c : Nat) (v : Word) : (s.recordFault g c v).Inv := h.blackBox ..
@[simp] theorem State.Inv.launchFault {s : State} (h : s.Inv) (l : Option Nat) (c i : Nat) (e : Word) : (s.launchFault l c i e).Inv := by
  unfold State.launchFault; split <;> simp [h]
@[simp] theorem State.Inv.faultOf {s : State} (h : s.Inv) (g : HartId) (c i : Nat) : (s.faultOf g c i).Inv := h.launchFault ..
@[simp] theorem State.Inv.sfqAppend {s : State} (h : s.Inv) (c : CoreKey) (k n st : Nat) (pc a : Word) (o : Nat) : (s.sfqAppend c k n st pc a o).Inv := by
  simp only [State.sfqAppend]
  split
  · exact (h.ctlPut ..).countDie ..
  · exact ((((h.ctlPut ..).ctlPut ..).ctlPut ..).ctlPut ..).ctlPut ..
@[simp] theorem State.Inv.sfqFor {s : State} (h : s.Inv) (g : HartId) (a : Access) (b : Bool) : (s.sfqFor g a b).Inv := by
  unfold State.sfqFor
  split
  · exact h
  · extract_lets x s1 s2 s3
    have h3 : s3.Inv := (((h.sfqAppend ..).modHart ..).countCore ..).recordFault ..
    exact State.Inv.ite (h3.faultOf ..) h3
@[simp] theorem State.Inv.refuseStore {s : State} (h : s.Inv) (w : Option HartId) (d : DieKey) (o : Nat) : (s.refuseStore w d o).Inv := by
  simp only [State.refuseStore]
  split
  · exact h.sfqFor ..
  · exact h
@[simp] theorem State.Inv.replyTag {s : State} (h : s.Inv) (d : DieKey) (g : HartId) (t v : Nat) : (s.replyTag d g t v).Inv := by
  simp only [State.replyTag, State.returnTag]
  split
  · exact h.modHart ..
  · exact h.send ..

@[simp] theorem State.Inv.addAccess {s : State} (h : s.Inv) (g : HartId) (a : Access) : (s.addAccess g a).Inv := h.modHart ..
@[simp] theorem State.Inv.refuseDeposit {s : State} (h : s.Inv) (g : HartId) (i : Nat) (w : Option HartId) : (s.refuseDeposit g i w).Inv := by
  unfold State.refuseDeposit
  dsimp only
  split
  · exact (h.countDie ..).addAccess ..
  · exact h.countDie ..

/-! ### Stores at their home, 11 R177, 13 R223 -/

@[simp] theorem State.Inv.cacheLine {s : State} (h : s.Inv) (l : Nat) (b : Bool) : (s.cacheLine l b).Inv := h.modDie ..
@[simp] theorem State.Inv.recount {s : State} (h : s.Inv) (j : Nat) : (s.recount j).Inv := (h.modJob ..).foldl fun _ _ hu => hu.ctlPut ..
@[simp] theorem State.Inv.retain {s : State} (h : s.Inv) (j r l : Nat) : (s.retain j r l).Inv := by
  unfold State.retain; exact State.Inv.recount (h.modJob ..) _
@[simp] theorem State.Inv.noteLine {s : State} (h : s.Inv) (j l v : Nat) : (s.noteLine j l v).Inv := h.modJob ..
theorem State.Inv.firstWrite {s t : State} (h : s.Inv) {j r l v : Nat} (e : s.firstWrite j r l v = some t) : t.Inv := by
  simp only [State.firstWrite] at e
  split at e
  · injection e with e; exact e ▸ h.noteLine ..
  · split at e
    · cases e
    · injection e with e; exact e ▸ (h.noteLine ..).retain ..
@[simp] theorem State.Inv.writeRev {s : State} (h : s.Inv) (j : Option Nat) (r : Nat) (c : List Host.Cell) : (s.writeRev j r c).Inv := by
  unfold State.writeRev
  split
  · exact h.foldl fun _ _ hu => hu.modJob ..
  · exact h.putCells _
/-- First writes of several lines, up to the one that is refused. -/
theorem State.Inv.firstWrites {j r : Nat} {v : Nat → Nat} (ls : List Nat) : ∀ (s : State), s.Inv → ∀ {t : State},
    ls.foldl (fun (o : Option State) l => o.bind fun s => s.firstWrite j r l (v l)) (some s) = some t → t.Inv := by
  induction ls with
  | nil => intro s h t e; injection e with e; exact e ▸ h
  | cons l ls ih =>
    intro s h t e
    rw [List.foldl_cons] at e
    cases hf : s.firstWrite j r l (v l) with
    | none =>
      have : ∀ m : List Nat, m.foldl (fun (o : Option State) l => o.bind fun s => s.firstWrite j r l (v l)) none = none := by
        intro m; induction m with
        | nil => rfl
        | cons _ _ ih => exact ih
      rw [Option.bind_some, hf, this] at e; cases e
    | some u => rw [Option.bind_some, hf] at e; exact ih u (h.firstWrite hf) e
@[simp] theorem State.Inv.performCells {s : State} (h : s.Inv) (d : DieKey) (a : Bool) (j : Option Nat) (o r va : Nat) (c : List Host.Cell) :
    (s.performCells d a j o r va c).1.Inv := by
  unfold State.performCells
  split
  · exact h
  · rename_i cell _
    extract_lets pa st ls s1
    have h1 : s1.Inv := h.foldl fun _ _ hu => hu.cacheLine ..
    split
    · exact h
    · split
      · exact h1.putCells _
      · split
        · exact (h1.foldl fun _ _ hu => hu.retain ..).writeRev ..
        · extract_lets go
          split
          · rename_i e
            exact (State.Inv.firstWrites ls s1 h1 e).writeRev ..
          · exact h1
@[simp] theorem State.Inv.writeFrame {s : State} (h : s.Inv) (g : HartId) (pa : Nat) (w : List (Nat × Word)) : (s.writeFrame g pa w).Inv := by
  refine h.foldl fun u b hu => ?_
  exact State.Inv.ite (hu.performCells ..) ((hu.performCells ..).addAccess ..)
/-- A stack frame that is written back, or waits, keeps it. -/
theorem State.Inv.spill {s t : State} (h : s.Inv) {g : HartId} {f : Nat} (e : s.spill g f = .done t ∨ s.spill g f = .wait t) : t.Inv := by
  unfold State.spill at e
  extract_lets x q ws at e
  split at e
  · rcases e with e | e <;> cases e
  split at e
  · rcases e with e | e <;> cases e
    exact h.missFor ..
  · rcases e with e | e <;> cases e
  · split at e
    · rcases e with e | e <;> cases e
      exact h
    · rcases e with e | e <;> cases e
      exact (h.writeFrame ..).modHart ..
@[simp] theorem State.Inv.spillNow {s : State} (h : s.Inv) (g : HartId) : (s.spillNow g).Inv := by
  refine h.foldl fun u b hu => ?_
  split
  · rename_i e; exact hu.spill (.inl e)
  · exact hu

/-! ### Rings -/

@[simp] theorem State.Inv.setRing {s : State} (h : s.Inv) (c : CoreKey) (r : Nat) (g : Ring) : (s.setRing c r g).Inv := (h.ctlPut ..).ctlPut ..
theorem State.Inv.putRing {c : CoreKey} {g : Ring} {k : Nat} (bs : List Byte) : ∀ (s : State) (o : Nat), s.Inv → (putRing s c g k o bs).Inv := by
  induction bs with
  | nil => intro s o h; exact h
  | cons b r ih => intro s o h; exact ih _ _ (h.putByte ..)
@[simp] theorem State.Inv.landNow {s : State} (h : s.Inv) (c : CoreKey) (m : Landing) : (s.landNow c m).Inv :=
  (State.Inv.putRing _ _ _ h).setRing ..
@[simp] theorem State.Inv.landOwn {c : CoreKey} {r : Nat} (n : Nat) : ∀ {s : State}, s.Inv → (s.landOwn c r n).Inv := by
  induction n with
  | zero => intro s h; exact h
  | succ n ih =>
    intro s h
    unfold State.landOwn
    split
    · exact h
    · split
      · exact ih ((h.modCore ..).landNow ..)
      · exact h
@[simp] theorem State.Inv.giveBack {s : State} (h : s.Inv) (c : CoreKey) (t : Nat) : (s.giveBack c t).Inv := by
  unfold State.giveBack
  split
  · exact h
  · exact ((h.setRing ..).modCore ..).landOwn _

/-! ### The end of a thread, traps -/

@[simp] theorem State.Inv.flushFor {s : State} (h : s.Inv) (g : HartId) (ds : List DieKey) : (s.flushFor g ds).Inv := by
  refine State.Inv.modHart ((h.setFree _).foldl fun u t hu => ?_) ..
  exact (hu.foldl fun v l hv => hv.foldl fun w n hw => hw.modDie ..).modDie ..
@[simp] theorem State.Inv.alignRelease {s : State} (h : s.Inv) (q : QuadKey) (l : Option Nat) (p : Word) : (s.alignRelease q l p).Inv :=
  ⟨h.mem, h.ctl⟩
@[simp] theorem State.Inv.alignCheck {s : State} (h : s.Inv) (q : QuadKey) (l : Option Nat) : (s.alignCheck q l).Inv := by
  refine h.foldl fun u b hu => ?_
  split
  · split
    · exact hu.alignRelease ..
    · exact hu
  · exact hu
@[simp] theorem State.Inv.threadGone {s : State} (h : s.Inv) (g : HartId) (e : Ending) (b : Bool) : (s.threadGone g e b).Inv := by
  unfold State.threadGone
  extract_lets x d c n s0 s1 s2 s3 s4 s5 s6 s7 s8 s9 s10 s11
  have h1 : s1.Inv := (h.spillNow g).foldl fun _ _ h => h.sfqFor ..
  have h2 : s2.Inv := h1.modCore ..
  have h3 : s3.Inv := State.Inv.ite h2 (h2.countDie ..)
  have h4 : s4.Inv := by
    dsimp only [s4]
    split
    · exact h3
    · exact h3.modCore ..
  have h5 : s5.Inv := h4.modQuad ..
  have h6 : s6.Inv := h5.foldl fun _ _ h => h.refuseDeposit ..
  have h7 : s7.Inv := h6.foldl fun _ _ h => h.replyTag ..
  have h8 : s8.Inv := by
    dsimp only [s8]
    split
    · exact h7.modJob ..
    · exact h7
  have h9 : s9.Inv := State.Inv.ite h8 ((h8.recordFault ..).faultOf ..)
  have h10 : s10.Inv := by
    dsimp only [s10]
    split
    · split
      · exact h9.sendFill ..
      · exact h9
    · exact h9
  have h11 : s11.Inv := by
    dsimp only [s11]
    split
    · exact h10.send ..
    · split
      · exact State.Inv.ite (h10.modLaunch ..) (h10.modLaunch ..)
      · exact h10
  have h12 : ({ s11 with harts := eraseKey g s11.harts } : State).Inv := ⟨h11.mem, h11.ctl⟩
  exact h12.alignCheck ..
@[simp] theorem State.Inv.tryGone {s : State} (h : s.Inv) (g : HartId) : (s.tryGone g).Inv := by
  unfold State.tryGone
  extract_lets x busy e
  exact State.Inv.ite h (State.Inv.ite h (State.Inv.ite ((h.modHart ..).flushFor ..) (h.threadGone ..)))
@[simp] theorem State.Inv.dropResults {s : State} (h : s.Inv) (g : HartId) : (s.dropResults g).Inv :=
  (h.foldl fun _ _ hu => hu.giveBack ..).modHart ..
@[simp] theorem State.Inv.stopWith {s : State} (h : s.Inv) (g : HartId) (e : Ending) : (s.stopWith g e).Inv := by
  unfold State.stopWith
  extract_lets i1 s1 s2
  have h1 : s1.Inv := State.Inv.ite (h.setIr _) h
  have h2 : s2.Inv := by
    dsimp only [s2]
    split
    · exact State.Inv.ite h1 (h1.modCore ..)
    · exact h1
  exact ((h2.dropResults ..).modHart ..).tryGone ..
@[simp] theorem State.Inv.endThread {s : State} (h : s.Inv) (g : HartId) (c i : Nat) : (s.endThread g c i).Inv := h.stopWith ..
@[simp] theorem State.Inv.haltWith {s : State} (h : s.Inv) (g : HartId) (t : TrapReq) : (s.haltWith g t).Inv := by
  have h1 := (h.setIr { s.ir with result := .trapped }).recordFault g t.cause t.xval
  unfold State.haltWith
  extract_lets u
  split
  · exact (h1.putWord ..).modHart ..
  · exact (h1.putWord ..).modHart ..
  · exact (h1.event ..).modHart ..

/-! ### The steps of a meaning -/

/-- A part of a meaning keeps the invariant: where it goes on, and in what it does where it stalls. -/
structure Keeps (m : M α) : Prop where
  ok : ∀ {s t : State} {a : α}, s.Inv → m s = .ok (a, t) → t.Inv
  wait : ∀ {s u : State} {f : State → State}, m s = .error (.stall f) → u.Inv → (f u).Inv

theorem Keeps.pure (a : α) : Keeps (Pure.pure a : M α) := ⟨fun h e => (pure_inv e).2 ▸ h, nofun⟩
theorem Keeps.get : Keeps (MonadState.get : M State) := ⟨fun h e => (get_inv e).2 ▸ h, nofun⟩
theorem Keeps.bind {m : M α} {f : α → M β} (hm : Keeps m) (hf : ∀ a, Keeps (f a)) : Keeps (m >>= f) := by
  refine ⟨fun h e => ?_, fun e hu => ?_⟩
  · obtain ⟨a, t, e1, e2⟩ := bind_eq_ok e
    exact (hf a).ok (hm.ok h e1) e2
  · rw [bind_run] at e
    split at e
    · exact (hf _).wait e hu
    · rename_i x hx
      injection e with e
      exact hm.wait (e ▸ hx) hu
theorem Keeps.trapM (c : Nat) (v : Word) : Keeps (trapM c v : M α) := ⟨nofun, nofun⟩
theorem Keeps.endM (c : Nat) : Keeps (endM c : M α) := ⟨nofun, nofun⟩
theorem Keeps.endThrow (c i : Nat) : Keeps (throw (.endThread c i) : M α) := ⟨nofun, nofun⟩
theorem Keeps.fault (f : Fault) : Keeps (throw (.fault f) : M α) := ⟨nofun, nofun⟩
theorem Keeps.stallWith {f : State → State} (h : ∀ u, u.Inv → (f u).Inv) : Keeps (stallWith f : M α) := by
  refine ⟨nofun, fun e hu => ?_⟩
  injection e with e
  injection e with e
  exact e ▸ h _ hu
theorem Keeps.stall : Keeps (stall : M α) := Keeps.stallWith fun _ h => h
theorem Keeps.modS {f : State → State} (h : ∀ u, u.Inv → (f u).Inv) : Keeps (modS f) := ⟨fun hs e => (modS_inv e) ▸ h _ hs, nofun⟩
theorem Keeps.modH (f : Hart → Hart) : Keeps (modH f) := Keeps.modS fun _ h => h.modHart ..
theorem Keeps.ite {c : Prop} [Decidable c] {a b : M α} (ha : Keeps a) (hb : Keeps b) : Keeps (if c then a else b) := by
  split
  · exact ha
  · exact hb
theorem Keeps.me : Keeps me := Keeps.bind Keeps.get fun _ => Keeps.pure _
theorem Keeps.ir : Keeps ir := Keeps.bind Keeps.get fun _ => Keeps.pure _
theorem Keeps.getI : Keeps getI := Keeps.bind Keeps.get fun _ => Keeps.pure _
theorem Keeps.guardM {b : Bool} {e : M Unit} (h : Keeps e) : Keeps (guardM b e) := Keeps.ite (Keeps.pure _) h
theorem Keeps.hartM : Keeps hartM := by
  refine Keeps.bind Keeps.get fun s => ?_
  split
  · exact Keeps.pure _
  · exact Keeps.fault _
theorem Keeps.myCore : Keeps myCore := by
  refine Keeps.bind Keeps.get fun s => ?_
  split
  · exact Keeps.pure _
  · exact Keeps.trapM ..
theorem Keeps.myDie : Keeps myDie := Keeps.bind Keeps.me fun _ => Keeps.pure _
theorem Keeps.waitFor (w : Wait) : Keeps (waitFor w : M α) := Keeps.bind Keeps.me fun _ => Keeps.stallWith fun _ h => h.modHart ..
theorem Keeps.translateM (va k : Nat) : Keeps (translateM va k) := by
  refine Keeps.bind Keeps.get fun s => Keeps.bind Keeps.hartM fun x => ?_
  dsimp only
  split
  · exact Keeps.pure _
  · exact Keeps.stallWith fun _ h => (h.missFor ..).modHart ..
  · exact Keeps.stallWith fun _ h => h.parkHart ..
theorem Keeps.stackWrite (va v : Word) : Keeps (stackWrite va v) := by
  refine Keeps.bind Keeps.me fun _ => ?_
  split
  all_goals first
    | exact Keeps.modH _
    | exact Keeps.modS fun _ h => h.putWord ..
theorem Keeps.stackRead (va : Word) : Keeps (stackRead va) := by
  refine Keeps.bind Keeps.get fun _ => Keeps.bind Keeps.hartM fun _ => ?_
  split
  all_goals first
    | exact Keeps.pure _
    | exact Keeps.waitFor _
    | (split <;> first | exact Keeps.pure _ | exact Keeps.waitFor _)
theorem Keeps.windowHere : Keeps windowHere := by
  refine Keeps.bind Keeps.hartM fun _ => ?_
  split
  · exact Keeps.waitFor _
  · exact Keeps.pure _
theorem Keeps.storeOut (x : Hart) (b : Word) (n i : Nat) : Keeps (storeOut x b n i) := by
  induction n generalizing i with
  | zero => exact Keeps.pure _
  | succ n ih => exact Keeps.bind (Keeps.stackWrite ..) fun _ => ih _
theorem Keeps.loadIn (b : Word) (n i : Nat) : Keeps (loadIn b n i) := by
  induction n generalizing i with
  | zero => exact Keeps.pure _
  | succ n ih => exact Keeps.bind (Keeps.stackRead _) fun _ => Keeps.bind (ih _) fun _ => Keeps.pure _
theorem Keeps.slideUp (n : Nat) : Keeps (slideUp n) := by
  refine Keeps.bind Keeps.hartM fun x => ?_
  dsimp only
  split
  · exact Keeps.bind (Keeps.trapM ..) fun _ => Keeps.bind Keeps.windowHere fun _ => Keeps.bind (Keeps.storeOut ..) fun _ => Keeps.modH _
  · exact Keeps.bind Keeps.windowHere fun _ => Keeps.bind (Keeps.storeOut ..) fun _ => Keeps.modH _
theorem Keeps.slideDown (n : Nat) : Keeps (slideDown n) := by
  refine Keeps.bind Keeps.hartM fun x => ?_
  dsimp only
  split
  · exact Keeps.bind (Keeps.trapM ..) fun _ => Keeps.bind Keeps.windowHere fun _ => Keeps.bind (Keeps.loadIn ..) fun _ => Keeps.modH _
  · exact Keeps.bind Keeps.windowHere fun _ => Keeps.bind (Keeps.loadIn ..) fun _ => Keeps.modH _
theorem Keeps.trapEntryM (t : TrapReq) : Keeps (trapEntryM t) :=
  Keeps.bind Keeps.hartM fun _ => Keeps.bind Keeps.get fun _ => Keeps.bind (Keeps.slideUp _) fun _ =>
    Keeps.bind (Keeps.modH _) fun _ => Keeps.modS fun _ h => h.spillNow _
@[simp] theorem State.Inv.enterTrap {s : State} (h : s.Inv) (g : HartId) (t : TrapReq) : (s.enterTrap g t).Inv := by
  simp only [State.enterTrap]
  have h0 : ({ s with ir := { s.ir with hart := g, result := .trapped } } : State).Inv := h.setIr _
  split
  · exact h0.endThread ..
  split
  · exact h0.endThread ..
  split
  · exact h0.endThread ..
  split
  · rename_i e
    have h1 := ((Keeps.trapEntryM t).ok h0 e).recordFault g t.cause t.xval
    exact State.Inv.ite (h1.faultOf ..) h1
  · exact h0.endThread ..
  · rename_i e
    exact (Keeps.trapEntryM t).wait e (h0.modHart ..)
  · exact h0.endThread ..
@[simp] theorem State.Inv.takeTrap {s : State} (h : s.Inv) (g : HartId) (t : TrapReq) : (s.takeTrap g t).Inv := by
  simp only [State.takeTrap]
  split
  · split
    · exact (h.setIr _).enterTrap ..
    · exact (h.setIr _).modHart ..
  · exact (h.setIr _).haltWith ..
/-- A meaning that keeps it in each of its parts keeps it as an instruction, whichever way it ends. -/
theorem Keeps.runM {op : Nat} {m : M Unit} {s t : State} (hm : Keeps m) (h : s.Inv) (e : runM op m s = .next t) : t.Inv := by
  have h0 : s.go.Inv := h.setIr _
  simp only [Machine.runM] at e
  split at e
  · rename_i e1
    injection e with e
    exact e ▸ hm.ok h0 e1
  · rename_i e1
    injection e with e
    exact e ▸ ((hm.wait e1 h0).setIr _).modHart ..
  · injection e with e
    exact e ▸ h0.takeTrap ..
  · split at e
    · injection e with e
      exact e ▸ h0.endThread ..
    · injection e with e
      exact e ▸ h0.haltWith ..
  · cases e
/-- An event that keeps it. -/
theorem event_inv {f : EventArg → State → State} {s t : State} (hf : ∀ e u, u.Inv → (f e u).Inv) (h : s.Inv) (e : event f s = .next t) : t.Inv := by
  injection e with e
  exact e ▸ hf _ _ h

end Sys2Proof.Machine
end

