-- ==== Sys2Proof/Laws/MemInstr.lean ====
section
/-! SUPPORT. Loads, stores, atomics and fences: what each shared shape answers when its checks, its access and its retirement go on. -/

namespace Sys2Proof.Machine

theorem loadInstr_next {op : Nat} {addr : Slot → M Word} {idx : Bool} {s s1 s2 s3 s4 t : State} {x : Hart} {e : Word} {r : Word × Bool}
    (hr : Ready s x .mem) (hn : Named s x (if idx then [s.ir.slot.a, s.ir.slot.b] else [s.ir.slot.a]) [s.ir.slot.d])
    (he : addr s.ir.slot s.go = .ok (e, s1))
    (hc : checkAccess (some s.ir.slot.path.toNat) e (sizeOf8 s.ir.slot.ty.toNat) (sizeOf8 s.ir.slot.ty.toNat) true false s1 = .ok ((), s2))
    (hl : loadAt e s.ir.slot.ty.toNat s2 = .ok (r, s3)) (hw : loadResult s.ir.slot e r s3 = .ok ((), s4)) (ht : Passes s4 t) :
    loadInstr op addr idx s = .next t := by
  refine runM_ok ?_
  rw [bind_ok (useClass_ok hr.go), bind_ok (ir_ok s.go)]
  dsimp only [State.go_slot]
  rw [bind_ok (names_ok (s := s.go) hr.found hn), bind_ok he, bind_ok hc, bind_ok hl, bind_ok hw, retire_ok ht]
theorem storeInstr_next {op : Nat} {addr : Slot → M Word} {idx : Bool} {s s1 s2 s3 s4 t : State} {x : Hart} {e v : Word}
    (hr : Ready s x .mem) (hx : ∀ q, s.ir.hart ≠ .expander q)
    (hn : Named s x (if idx then [s.ir.slot.a, s.ir.slot.b, s.ir.slot.d] else [s.ir.slot.a, s.ir.slot.d]) [])
    (he : addr s.ir.slot s.go = .ok (e, s1))
    (hc : checkAccess (some s.ir.slot.path.toNat) e (sizeOf8 s.ir.slot.ty.toNat) (sizeOf8 s.ir.slot.ty.toNat) false true s1 = .ok ((), s2))
    (hv : readReg s.ir.slot.d s2 = .ok (v, s3)) (hs : storeAt e s.ir.slot.ty.toNat v s3 = .ok ((), s4)) (ht : Passes s4 t) :
    storeInstr op addr idx s = .next t := by
  have ho : onlyLoads true s.go = .ok ((), s.go) := by
    have : ∀ h : HartId, (∀ q, h ≠ .expander q) → (match h with | .expander _ => guardM (!true) illclass | _ => pure () : M Unit) s.go =
        .ok ((), s.go) := by
      intro h hh; cases h <;> first | rfl | exact absurd rfl (hh _)
    rw [onlyLoads, bind_ok (me_ok s.go)]
    exact this _ hx
  refine runM_ok ?_
  rw [bind_ok (useClass_ok hr.go), bind_ok ho, bind_ok (ir_ok s.go)]
  dsimp only [State.go_slot]
  rw [bind_ok (names_ok (s := s.go) hr.found hn), bind_ok he, bind_ok hc, bind_ok hv, bind_ok hs, retire_ok ht]
theorem addrImm_ok {s s1 : State} {f : Slot} {a : Word} (h : readRegs [f.a] s = .ok ([a], s1)) : addrImm f s = .ok (a + immWord f, s1) := by
  rw [addrImm, bind_ok (readRegs_one h)]; rfl
theorem addrIndexed_ok {s s2 : State} {f : Slot} {a b : Word} (h : readRegs [f.a, f.b] s = .ok ([a, b], s2)) :
    addrIndexed f s = .ok (a + (b <<< (f.misc.toNat % 4)) + immWord f, s2) := by
  obtain ⟨s1, h1, h2⟩ := readRegs_two h
  rw [addrIndexed, bind_ok h1, bind_ok h2]; rfl
theorem translateM_ok {s : State} {x : Hart} {va kind pa : Nat} (h : s.hart? s.ir.hart = some x)
    (ht : s.translate (s.quadOf s.ir.hart) false x.origin.space va kind = .ok pa) : translateM va kind s = .ok (pa, s) := by
  rw [translateM, bind_ok (get_ok s), bind_ok (hartM_ok h)]
  rw [ht]; rfl
theorem unlocked_ok {s : State} {x : Hart} {pa n : Nat} (h : s.hart? s.ir.hart = some x) (hr : Reaches s x pa n) : unlocked pa s = .ok ((), s) := by
  rw [unlocked, bind_ok (get_ok s), State.hart_of_hart? h, hr.settled, hr.keys]; rfl
theorem settled_ok {s : State} {x : Hart} {pa n : Nat} (hr : Reaches s x pa n) : settled pa n s = .ok ((), s) := by
  rw [settled, bind_ok (get_ok s), hr.alone]; rfl
theorem migrateFor_ok {s : State} {x : Hart} {pa : Nat} (h : s.hart? s.ir.hart = some x) (hm : x.migratory = false) :
    migrateFor pa s = .ok ((), s) := by
  rw [migrateFor, bind_ok (hartM_ok h), bind_ok (me_ok s), bind_ok (get_ok s), hm]; rfl
theorem askFirst_ok {s : State} {x : Hart} {va pa n : Nat} (h : s.hart? s.ir.hart = some x) (hr : s.regionFor s.ir.hart va = none) :
    askFirst va pa n s = .ok ((), s) := by
  rw [askFirst, bind_ok (get_ok s), bind_ok (hartM_ok h)]
  rw [hr]; rfl
/-- A thread's stream load: the bytes at its physical address under its core's buffered stores; the die cache takes in their lines. -/
theorem loadMain_stream {s : State} {x : Hart} {c : CoreKey} {e : Word} {va n pa : Nat} (h : s.hart? s.ir.hart = some x)
    (hm : x.migratory = false) (hp : s.translate (s.quadOf s.ir.hart) false x.origin.space va 0 = .ok pa)
    (hl : Reaches s x pa n) (hs : s.homeStatus s.ir.hart pa n false = 0) (hr : s.regionFor s.ir.hart va = none)
    (hc : s.coreOf s.ir.hart = some c) :
    loadMain 1 e va n s = .ok ((overlay (s.core c).wbuf 0 pa (s.bytes pa n), s.isPoisoned pa n),
      (linesOf pa n).foldl (fun s l => s.cacheLine l false) (s.touchPage s.ir.hart pa)) := by
  rw [loadMain, bind_ok (translateM_ok h hp), bind_ok (unlocked_ok h hl), bind_ok (migrateFor_ok h hm), bind_ok (settled_ok hl), bind_ok (get_ok s),
    bind_ok (hartM_ok h), bind_ok (modS_ok _ s)]
  dsimp only
  rw [hs, hr, hc]
  simp [State.homeBytes]
  rfl
theorem pathAllowed_thread {s : State} {x : Hart} {e : Word} (h : s.hart? s.ir.hart = some x) (ht : isThread s.ir.hart = true)
    (hp : pathOf e ≠ 6) : pathAllowed e s = .ok ((), s) := by
  rw [pathAllowed, bind_ok (me_ok s), bind_ok (hartM_ok h)]
  revert ht
  cases s.ir.hart <;> intro ht <;> first | (simp [isThread] at ht; done) | simp [hp]
/-- The checks of a thread's access on paths 0, 1, 2 and 4, which the launch's leases cover. -/
theorem checkAccess_general {s : State} {x : Hart} {e : Word} {n align : Nat} {r w : Bool} (h : s.hart? s.ir.hart = some x)
    (ht : isThread s.ir.hart = true) (hp : pathOf e = 0 ∨ pathOf e = 1 ∨ pathOf e = 2 ∨ pathOf e = 4) (hl : layoutOk e n = true)
    (ha : e.toNat % align = 0) (hs : s.leased x (generalVa e) (if pathOf e = 4 then 2 else n) r w = true) :
    checkAccess (some (pathOf e)) e n align r w s = .ok ((), s) := by
  have h6 : pathOf e ≠ 6 := by omega
  rw [checkAccess, bind_ok (pathAllowed_thread h ht h6)]
  simp only [ne_eq, not_true_eq_false, if_false, hl, Bool.not_true, Bool.false_eq_true, ha]
  have hb : (decide (pathOf e = 0) || decide (pathOf e = 1) || decide (pathOf e = 2) || decide (pathOf e = 4)) = true := by
    rcases hp with hp | hp | hp | hp <;> simp [hp]
  rw [hb, if_pos rfl]
  refine (bind_ok (hartM_ok h)).trans ((bind_ok (get_ok s)).trans ?_)
  simp only [hs]; rfl
theorem checkAccess_window {s : State} {x : Hart} {e : Word} {n align : Nat} {r w : Bool} (h : s.hart? s.ir.hart = some x)
    (ht : isThread s.ir.hart = true ∨ isCompanion s.ir.hart = true) (hp : pathOf e = 3) (hl : layoutOk e n = true) (ha : e.toNat % align = 0) :
    checkAccess (some 3) e n align r w s = .ok ((), s) := by
  have hpa : pathAllowed e s = .ok ((), s) := by
    rw [pathAllowed, bind_ok (me_ok s), bind_ok (hartM_ok h)]
    revert ht
    cases s.ir.hart <;> intro ht <;> first | (simp [isThread, isCompanion] at ht; done) | simp [hp]
  rw [checkAccess, bind_ok hpa]
  simp [hp, hl, ha]
theorem useRelease_none {s : State} {x : Hart} {scope : Nat} (h : s.hart? s.ir.hart = some x) (ho : x.outstanding.any (fun p => !p.returned) = false)
    (hq : s.ssuMemory s.ir.hart = false) (hb : s.releaseOpen s.ir.hart scope = false) (hs : scope ≤ 1) : releaseM scope s = .ok ((), s) := by
  rw [releaseM, bind_ok (get_ok s), bind_ok (hartM_ok h)]
  have h4 : ¬ 4 ≤ scope := by omega
  simp [ho, hq, hb, h4]
theorem acquireM_ok {s : State} {x : Hart} {scope : Nat} (h : s.hart? s.ir.hart = some x)
    (ho : x.outstanding.any (fun p => !p.returned) = false) (hq : s.ssuMemory s.ir.hart = false) :
    acquireM scope s = .ok ((), s.acquire s.ir.hart scope) := by
  rw [acquireM, bind_ok (hartM_ok h), bind_ok (get_ok s), ho, hq]
  rfl

end Sys2Proof.Machine
end

