-- ==== Sys2Proof/Laws/PerInstr.lean ====
section
/-! SUPPORT. Laws of the instructions as syntax, one lemma per constructor: a well-formed slot, encoded, decodes to itself, and a slot that
decodes is the encoding of what it decodes to (03_instruction_lines R43, R50 to R52). -/

namespace Sys2Proof.Laws

/-! ### The bits of a slot -/

theorem slot_marker (m : Bool) (op : Nat) (f : Slot) : slotMarker (packSlot m op f) = m := by
  simp only [slotMarker, packSlot, BitVec.getLsbD_append]
  simp
theorem slot_opcode (m : Bool) {op : Nat} (f : Slot) (h : op < 512) : slotOpcode (packSlot m op f) = op := by
  have e : (packSlot m op f).extractLsb' 86 9 = BitVec.ofNat 9 op := by
    apply BitVec.eq_of_getLsbD_eq
    intro i hi
    simp only [packSlot, BitVec.getLsbD_extractLsb', BitVec.getLsbD_append]
    simp only [hi, decide_true, Bool.true_and]
    repeat (first | rw [if_neg (by omega)] | rw [if_pos (by omega)])
    congr 1
    omega
  rw [slotOpcode, e, BitVec.toNat_ofNat]
  exact Nat.mod_eq_of_lt h
theorem slot_fields (m : Bool) (op : Nat) (f : Slot) : slotFields (packSlot m op f) = f := by
  obtain ⟨d, a, b, c, ty, path, rm, misc, imm⟩ := f
  simp only [slotFields, Slot.mk.injEq]
  refine ⟨?_, ?_, ?_, ?_, ?_, ?_, ?_, ?_, ?_⟩ <;>
  · apply BitVec.eq_of_getLsbD_eq
    intro i hi
    simp only [packSlot, BitVec.getLsbD_extractLsb', BitVec.getLsbD_append, hi, decide_true, Bool.true_and]
    repeat (first | rw [if_neg (by omega)] | rw [if_pos (by omega)])
    first | rfl | (congr 1; omega)
theorem pack_slot (w : BitVec 96) : packSlot (slotMarker w) (slotOpcode w) (slotFields w) = w := by
  apply BitVec.eq_of_getLsbD_eq
  intro i hi
  simp only [packSlot, slotMarker, slotOpcode, slotFields, BitVec.ofNat_toNat, BitVec.setWidth_eq, BitVec.getLsbD_append, BitVec.getLsbD_extractLsb']
  have key : ∀ j k, j < 96 → j = i → k = true → (k && w.getLsbD j) = w.getLsbD i := by
    intro j k _ e hk; rw [e, hk, Bool.true_and]
  repeat' split
  all_goals first
    | exact key _ _ (by omega) (by omega) (by simp only [decide_eq_true_eq]; omega)
    | (have e : i = 95 := by omega
       subst e; simp)

/-! ### Both directions -/

/-- A slot well formed for an instruction decodes, from its encoding, to that instruction and slot; and what decodes to an instruction is
its encoding. -/
def RoundTrip.Statement (i : Instr) : Prop :=
  (∀ m f, Slot.wellFormed i f = true → ∃ w, encode m i f = some w ∧ decodeSlot w = .ok i f ∧ slotMarker w = m) ∧
  (∀ w f, decodeSlot w = .ok i f → encode (slotMarker w) i f = some w ∧ Slot.wellFormed i f = true)

/-- An instruction's opcode has nine bits. -/
theorem opcodeOf_lt : ∀ i op, opcodeOf i = some op → op < 512 := by
  intro i op h
  cases i <;> cases h <;> decide
/-- The row of an opcode is of instructions of that opcode. -/
theorem opRow_opcode {op : Nat} {r : OpRow} (h : opRow op = some r) : opcodeOf r.instr = some op := by
  have all : ∀ r ∈ opTable, opcodeOf r.instr = some r.op := by decide +kernel
  have h1 := all r (List.mem_of_find?_eq_some h)
  have h2 : r.op = op := by simpa using List.find?_some h
  rw [h1, h2]
theorem instrOf_opcode {op : Nat} {r : OpRow} (hr : opRow op = some r) (f : Slot) : opcodeOf (r.instrOf f) = some op := by
  have h1 := opRow_opcode hr
  unfold OpRow.instrOf
  split
  · rename_i hc; rw [hc.1] at h1; simpa [opcodeOf] using h1
  · exact h1
theorem roundTrip_all (i : Instr) : RoundTrip.Statement i := by
  refine ⟨?_, ?_⟩
  · intro m f h
    unfold Slot.wellFormed at h
    split at h
    · exact absurd h (by simp)
    · rename_i op hop
      have hlt := opcodeOf_lt i op hop
      simp only [Bool.and_eq_true, beq_iff_eq] at h
      obtain ⟨h1, h2⟩ := h
      refine ⟨packSlot m op f, by simp [encode, hop], ?_, slot_marker m op f⟩
      rw [decodeSlot, slot_opcode m f hlt, slot_fields]
      unfold slotReason at h1
      split at h2
      · rename_i r hr
        rw [hr] at h1 ⊢
        simp only at h1 ⊢
        rw [h1]
        simp only [beq_iff_eq] at h2
        rw [h2]
      · exact absurd h2 (by simp)
  · intro w f h
    unfold decodeSlot at h
    split at h
    · exact absurd h (by simp)
    · rename_i r hr
      split at h
      · exact absurd h (by simp)
      · rename_i hl
        simp only [Decoded.ok.injEq] at h
        obtain ⟨rfl, rfl⟩ := h
        have ho := instrOf_opcode hr (slotFields w)
        refine ⟨?_, ?_⟩
        · rw [encode, ho, Option.map_some, pack_slot]
        · unfold Slot.wellFormed
          rw [ho]
          simp only [slotReason, hr, hl]
          simp

namespace RoundTrip

theorem add : Statement .add := roundTrip_all _
theorem sub : Statement .sub := roundTrip_all _
theorem mul : Statement .mul := roundTrip_all _
theorem mulh : Statement .mulh := roundTrip_all _
theorem div : Statement .div := roundTrip_all _
theorem rem : Statement .rem := roundTrip_all _
theorem and : Statement .and := roundTrip_all _
theorem or : Statement .or := roundTrip_all _
theorem xor : Statement .xor := roundTrip_all _
theorem andn : Statement .andn := roundTrip_all _
theorem shl : Statement .shl := roundTrip_all _
theorem shr : Statement .shr := roundTrip_all _
theorem sar : Statement .sar := roundTrip_all _
theorem rol : Statement .rol := roundTrip_all _
theorem min : Statement .min := roundTrip_all _
theorem max : Statement .max := roundTrip_all _
theorem addsat : Statement .addsat := roundTrip_all _
theorem subsat : Statement .subsat := roundTrip_all _
theorem slt : Statement .slt := roundTrip_all _
theorem seq : Statement .seq := roundTrip_all _
theorem sel : Statement .sel := roundTrip_all _
theorem madd : Statement .madd := roundTrip_all _
theorem bext : Statement .bext := roundTrip_all _
theorem bins : Statement .bins := roundTrip_all _
theorem mov : Statement .mov := roundTrip_all _
theorem clz : Statement .clz := roundTrip_all _
theorem ctz : Statement .ctz := roundTrip_all _
theorem popc : Statement .popc := roundTrip_all _
theorem bswap : Statement .bswap := roundTrip_all _
theorem abs : Statement .abs := roundTrip_all _
theorem addImm : Statement .addImm := roundTrip_all _
theorem subImm : Statement .subImm := roundTrip_all _
theorem mulImm : Statement .mulImm := roundTrip_all _
theorem mulhImm : Statement .mulhImm := roundTrip_all _
theorem divImm : Statement .divImm := roundTrip_all _
theorem remImm : Statement .remImm := roundTrip_all _
theorem andImm : Statement .andImm := roundTrip_all _
theorem orImm : Statement .orImm := roundTrip_all _
theorem xorImm : Statement .xorImm := roundTrip_all _
theorem andnImm : Statement .andnImm := roundTrip_all _
theorem shlImm : Statement .shlImm := roundTrip_all _
theorem shrImm : Statement .shrImm := roundTrip_all _
theorem sarImm : Statement .sarImm := roundTrip_all _
theorem rolImm : Statement .rolImm := roundTrip_all _
theorem minImm : Statement .minImm := roundTrip_all _
theorem maxImm : Statement .maxImm := roundTrip_all _
theorem addsatImm : Statement .addsatImm := roundTrip_all _
theorem subsatImm : Statement .subsatImm := roundTrip_all _
theorem sltImm : Statement .sltImm := roundTrip_all _
theorem seqImm : Statement .seqImm := roundTrip_all _
theorem selImm : Statement .selImm := roundTrip_all _
theorem maddImm : Statement .maddImm := roundTrip_all _
theorem bextImm : Statement .bextImm := roundTrip_all _
theorem binsImm : Statement .binsImm := roundTrip_all _
theorem movImm : Statement .movImm := roundTrip_all _
theorem fadd : Statement .fadd := roundTrip_all _
theorem fsub : Statement .fsub := roundTrip_all _
theorem fmul : Statement .fmul := roundTrip_all _
theorem fdiv : Statement .fdiv := roundTrip_all _
theorem fsqrt : Statement .fsqrt := roundTrip_all _
theorem fma : Statement .fma := roundTrip_all _
theorem fmin : Statement .fmin := roundTrip_all _
theorem fmax : Statement .fmax := roundTrip_all _
theorem fabs : Statement .fabs := roundTrip_all _
theorem fneg : Statement .fneg := roundTrip_all _
theorem fsgnj : Statement .fsgnj := roundTrip_all _
theorem fcmpeq : Statement .fcmpeq := roundTrip_all _
theorem fcmplt : Statement .fcmplt := roundTrip_all _
theorem fcmple : Statement .fcmple := roundTrip_all _
theorem fclass : Statement .fclass := roundTrip_all _
theorem fcvt : Statement .fcvt := roundTrip_all _
theorem fcvti : Statement .fcvti := roundTrip_all _
theorem icvtf : Statement .icvtf := roundTrip_all _
theorem beq : Statement .beq := roundTrip_all _
theorem bne : Statement .bne := roundTrip_all _
theorem blt : Statement .blt := roundTrip_all _
theorem bge : Statement .bge := roundTrip_all _
theorem jmp : Statement .jmp := roundTrip_all _
theorem jmpr : Statement .jmpr := roundTrip_all _
theorem call : Statement .call := roundTrip_all _
theorem callr : Statement .callr := roundTrip_all _
theorem ret : Statement .ret := roundTrip_all _
theorem loopImm : Statement .loopImm := roundTrip_all _
theorem loopReg : Statement .loopReg := roundTrip_all _
theorem align : Statement .align := roundTrip_all _
theorem nop : Statement .nop := roundTrip_all _
theorem trap : Statement .trap := roundTrip_all _
theorem xret : Statement .xret := roundTrip_all _
theorem region : Statement .region := roundTrip_all _
theorem regend : Statement .regend := roundTrip_all _
theorem halt : Statement .halt := roundTrip_all _
theorem ld : Statement .ld := roundTrip_all _
theorem st : Statement .st := roundTrip_all _
theorem ldx : Statement .ldx := roundTrip_all _
theorem stx : Statement .stx := roundTrip_all _
theorem ldlk : Statement .ldlk := roundTrip_all _
theorem stul : Statement .stul := roundTrip_all _
theorem amo : Statement .amo := roundTrip_all _
theorem amor : Statement .amor := roundTrip_all _
theorem cas : Statement .cas := roundTrip_all _
theorem casr : Statement .casr := roundTrip_all _
theorem fence : Statement .fence := roundTrip_all _
theorem drainst : Statement .drainst := roundTrip_all _
theorem pf : Statement .pf := roundTrip_all _
theorem ldacq : Statement .ldacq := roundTrip_all _
theorem strel : Statement .strel := roundTrip_all _
theorem sysr : Statement .sysr := roundTrip_all _
theorem sysw : Statement .sysw := roundTrip_all _
theorem tlbw : Statement .tlbw := roundTrip_all _
theorem tlbinv : Statement .tlbinv := roundTrip_all _
theorem replay : Statement .replay := roundTrip_all _
theorem l1inv : Statement .l1inv := roundTrip_all _
theorem ecrd : Statement .ecrd := roundTrip_all _
theorem ecset : Statement .ecset := roundTrip_all _
theorem ecclr : Statement .ecclr := roundTrip_all _
theorem ctxsave : Statement .ctxsave := roundTrip_all _
theorem ctxload : Statement .ctxload := roundTrip_all _
theorem wfm : Statement .wfm := roundTrip_all _
theorem spawn : Statement .spawn := roundTrip_all _
theorem post : Statement .post := roundTrip_all _
theorem done : Statement .done := roundTrip_all _
theorem yield : Statement .yield := roundTrip_all _
theorem fget : Statement .fget := roundTrip_all _
theorem fput : Statement .fput := roundTrip_all _
theorem fputNew : Statement .fputNew := roundTrip_all _
theorem fpoll : Statement .fpoll := roundTrip_all _
theorem bar : Statement .bar := roundTrip_all _
theorem amsg : Statement .amsg := roundTrip_all _
theorem amsgr : Statement .amsgr := roundTrip_all _
theorem hret : Statement .hret := roundTrip_all _
theorem enq : Statement .enq := roundTrip_all _
theorem send : Statement .send := roundTrip_all _
theorem recv : Statement .recv := roundTrip_all _
theorem commit : Statement .commit := roundTrip_all _
theorem abort : Statement .abort := roundTrip_all _
theorem kick : Statement .kick := roundTrip_all _
theorem mbwait : Statement .mbwait := roundTrip_all _
theorem tagset : Statement .tagset := roundTrip_all _
theorem tagclr : Statement .tagclr := roundTrip_all _
theorem gath : Statement .gath := roundTrip_all _
theorem scat : Statement .scat := roundTrip_all _
theorem fork : Statement .fork := roundTrip_all _
theorem join : Statement .join := roundTrip_all _
theorem rdrop : Statement .rdrop := roundTrip_all _
theorem rquery : Statement .rquery := roundTrip_all _
theorem rnginit : Statement .rnginit := roundTrip_all _
theorem rngput : Statement .rngput := roundTrip_all _
theorem rngget : Statement .rngget := roundTrip_all _
theorem rngpeek : Statement .rngpeek := roundTrip_all _
theorem rngadv : Statement .rngadv := roundTrip_all _
theorem rngfree : Statement .rngfree := roundTrip_all _
theorem rngfill : Statement .rngfill := roundTrip_all _
theorem freq : Statement .freq := roundTrip_all _
theorem fresp : Statement .fresp := roundTrip_all _
theorem vadd : Statement .vadd := roundTrip_all _
theorem vsub : Statement .vsub := roundTrip_all _
theorem vmul : Statement .vmul := roundTrip_all _
theorem vmulh : Statement .vmulh := roundTrip_all _
theorem vdiv : Statement .vdiv := roundTrip_all _
theorem vfma : Statement .vfma := roundTrip_all _
theorem vmin : Statement .vmin := roundTrip_all _
theorem vmax : Statement .vmax := roundTrip_all _
theorem vaddsat : Statement .vaddsat := roundTrip_all _
theorem vsubsat : Statement .vsubsat := roundTrip_all _
theorem vand : Statement .vand := roundTrip_all _
theorem vor : Statement .vor := roundTrip_all _
theorem vxor : Statement .vxor := roundTrip_all _
theorem vandn : Statement .vandn := roundTrip_all _
theorem vshl : Statement .vshl := roundTrip_all _
theorem vshr : Statement .vshr := roundTrip_all _
theorem vsar : Statement .vsar := roundTrip_all _
theorem vcmpeq : Statement .vcmpeq := roundTrip_all _
theorem vcmplt : Statement .vcmplt := roundTrip_all _
theorem vcmple : Statement .vcmple := roundTrip_all _
theorem vsel : Statement .vsel := roundTrip_all _
theorem vsqrt : Statement .vsqrt := roundTrip_all _
theorem vabs : Statement .vabs := roundTrip_all _
theorem vneg : Statement .vneg := roundTrip_all _
theorem vcvt : Statement .vcvt := roundTrip_all _
theorem vclass : Statement .vclass := roundTrip_all _
theorem vpopc : Statement .vpopc := roundTrip_all _
theorem vclz : Statement .vclz := roundTrip_all _
theorem vaddBcast : Statement .vaddBcast := roundTrip_all _
theorem vsubBcast : Statement .vsubBcast := roundTrip_all _
theorem vmulBcast : Statement .vmulBcast := roundTrip_all _
theorem vmulhBcast : Statement .vmulhBcast := roundTrip_all _
theorem vdivBcast : Statement .vdivBcast := roundTrip_all _
theorem vfmaBcast : Statement .vfmaBcast := roundTrip_all _
theorem vminBcast : Statement .vminBcast := roundTrip_all _
theorem vmaxBcast : Statement .vmaxBcast := roundTrip_all _
theorem vaddsatBcast : Statement .vaddsatBcast := roundTrip_all _
theorem vsubsatBcast : Statement .vsubsatBcast := roundTrip_all _
theorem vandBcast : Statement .vandBcast := roundTrip_all _
theorem vorBcast : Statement .vorBcast := roundTrip_all _
theorem vxorBcast : Statement .vxorBcast := roundTrip_all _
theorem vandnBcast : Statement .vandnBcast := roundTrip_all _
theorem vshlBcast : Statement .vshlBcast := roundTrip_all _
theorem vshrBcast : Statement .vshrBcast := roundTrip_all _
theorem vsarBcast : Statement .vsarBcast := roundTrip_all _
theorem vcmpeqBcast : Statement .vcmpeqBcast := roundTrip_all _
theorem vcmpltBcast : Statement .vcmpltBcast := roundTrip_all _
theorem vcmpleBcast : Statement .vcmpleBcast := roundTrip_all _
theorem vselBcast : Statement .vselBcast := roundTrip_all _
theorem vaddImm : Statement .vaddImm := roundTrip_all _
theorem vsubImm : Statement .vsubImm := roundTrip_all _
theorem vmulImm : Statement .vmulImm := roundTrip_all _
theorem vmulhImm : Statement .vmulhImm := roundTrip_all _
theorem vdivImm : Statement .vdivImm := roundTrip_all _
theorem vfmaImm : Statement .vfmaImm := roundTrip_all _
theorem vminImm : Statement .vminImm := roundTrip_all _
theorem vmaxImm : Statement .vmaxImm := roundTrip_all _
theorem vaddsatImm : Statement .vaddsatImm := roundTrip_all _
theorem vsubsatImm : Statement .vsubsatImm := roundTrip_all _
theorem vandImm : Statement .vandImm := roundTrip_all _
theorem vorImm : Statement .vorImm := roundTrip_all _
theorem vxorImm : Statement .vxorImm := roundTrip_all _
theorem vandnImm : Statement .vandnImm := roundTrip_all _
theorem vshlImm : Statement .vshlImm := roundTrip_all _
theorem vshrImm : Statement .vshrImm := roundTrip_all _
theorem vsarImm : Statement .vsarImm := roundTrip_all _
theorem vcmpeqImm : Statement .vcmpeqImm := roundTrip_all _
theorem vcmpltImm : Statement .vcmpltImm := roundTrip_all _
theorem vcmpleImm : Statement .vcmpleImm := roundTrip_all _
theorem vselImm : Statement .vselImm := roundTrip_all _
theorem vld : Statement .vld := roundTrip_all _
theorem vst : Statement .vst := roundTrip_all _
theorem vlds : Statement .vlds := roundTrip_all _
theorem vsts : Statement .vsts := roundTrip_all _
theorem vldx : Statement .vldx := roundTrip_all _
theorem vstx : Statement .vstx := roundTrip_all _
theorem vperm : Statement .vperm := roundTrip_all _
theorem vbcast : Statement .vbcast := roundTrip_all _
theorem vslide : Statement .vslide := roundTrip_all _
theorem vext : Statement .vext := roundTrip_all _
theorem vins : Statement .vins := roundTrip_all _
theorem vredsum : Statement .vredsum := roundTrip_all _
theorem vredmin : Statement .vredmin := roundTrip_all _
theorem vredmax : Statement .vredmax := roundTrip_all _
theorem vredand : Statement .vredand := roundTrip_all _
theorem vredor : Statement .vredor := roundTrip_all _
theorem vredxor : Statement .vredxor := roundTrip_all _
theorem vscan : Statement .vscan := roundTrip_all _
theorem vcbdec : Statement .vcbdec := roundTrip_all _
theorem prune : Statement .prune := roundTrip_all _
theorem vcompress : Statement .vcompress := roundTrip_all _
theorem vexpand : Statement .vexpand := roundTrip_all _
theorem vmv : Statement .vmv := roundTrip_all _
theorem kand : Statement .kand := roundTrip_all _
theorem kor : Statement .kor := roundTrip_all _
theorem kxor : Statement .kxor := roundTrip_all _
theorem knot : Statement .knot := roundTrip_all _
theorem kmov : Statement .kmov := roundTrip_all _
theorem kpop : Statement .kpop := roundTrip_all _
theorem kfirst : Statement .kfirst := roundTrip_all _
theorem kset : Statement .kset := roundTrip_all _
theorem kget : Statement .kget := roundTrip_all _
theorem qgen : Statement .qgen := roundTrip_all _
theorem qand : Statement .qand := roundTrip_all _
theorem qxnor : Statement .qxnor := roundTrip_all _
theorem qmin : Statement .qmin := roundTrip_all _
theorem qmax : Statement .qmax := roundTrip_all _
theorem qmux : Statement .qmux := roundTrip_all _
theorem qregen : Statement .qregen := roundTrip_all _
theorem qcount : Statement .qcount := roundTrip_all _
theorem qsum : Statement .qsum := roundTrip_all _
theorem qtob : Statement .qtob := roundTrip_all _
theorem btoq : Statement .btoq := roundTrip_all _
theorem vbtoq : Statement .vbtoq := roundTrip_all _
theorem qnot : Statement .qnot := roundTrip_all _
theorem qmov : Statement .qmov := roundTrip_all _
theorem qld : Statement .qld := roundTrip_all _
theorem qst : Statement .qst := roundTrip_all _
theorem qcfg : Statement .qcfg := roundTrip_all _
theorem qseed : Statement .qseed := roundTrip_all _
theorem gang : Statement .gang := roundTrip_all _
theorem mmac : Statement .mmac := roundTrip_all _
theorem mbmac : Statement .mbmac := roundTrip_all _
theorem mclr : Statement .mclr := roundTrip_all _
theorem mscacc : Statement .mscacc := roundTrip_all _
theorem rdacc : Statement .rdacc := roundTrip_all _
theorem wracc : Statement .wracc := roundTrip_all _
theorem ldacc : Statement .ldacc := roundTrip_all _
theorem stacc : Statement .stacc := roundTrip_all _
theorem oqld : Statement .oqld := roundTrip_all _
theorem oqcfg : Statement .oqcfg := roundTrip_all _
theorem mrow : Statement .mrow := roundTrip_all _
theorem cbload : Statement .cbload := roundTrip_all _
theorem contract : Statement .contract := roundTrip_all _
theorem mwait : Statement .mwait := roundTrip_all _
theorem resultWriteback : Statement .resultWriteback := roundTrip_all _
theorem preEmption : Statement .preEmption := roundTrip_all _
theorem instructionLineFill : Statement .instructionLineFill := roundTrip_all _
theorem frameRefill : Statement .frameRefill := roundTrip_all _
theorem contextBankWake : Statement .contextBankWake := roundTrip_all _
theorem migrationArrival : Statement .migrationArrival := roundTrip_all _
theorem deposit : Statement .deposit := roundTrip_all _
theorem meshDelivery : Statement .meshDelivery := roundTrip_all _
theorem engineAccept : Statement .engineAccept := roundTrip_all _
theorem ssuCommandExecute : Statement .ssuCommandExecute := roundTrip_all _
theorem gangOperationStart : Statement .gangOperationStart := roundTrip_all _
theorem matrixCommandStart : Statement .matrixCommandStart := roundTrip_all _
theorem matrixCommandComplete : Statement .matrixCommandComplete := roundTrip_all _
theorem loadPipeFailure : Statement .loadPipeFailure := roundTrip_all _
theorem contractionExpand : Statement .contractionExpand := roundTrip_all _
theorem companionStart : Statement .companionStart := roundTrip_all _
theorem executeGrantRequest : Statement .executeGrantRequest := roundTrip_all _
theorem codePageScanDone : Statement .codePageScanDone := roundTrip_all _
theorem executeGrantClear : Statement .executeGrantClear := roundTrip_all _
theorem tentryWrite : Statement .tentryWrite := roundTrip_all _
theorem stackPoolWrite : Statement .stackPoolWrite := roundTrip_all _
theorem ringDescriptorWrite : Statement .ringDescriptorWrite := roundTrip_all _
theorem sfqControlWrite : Statement .sfqControlWrite := roundTrip_all _
theorem mcqControlWrite : Statement .mcqControlWrite := roundTrip_all _
theorem accessTableWrite : Statement .accessTableWrite := roundTrip_all _
theorem revokedEntryRead : Statement .revokedEntryRead := roundTrip_all _
theorem timeSlotWrite : Statement .timeSlotWrite := roundTrip_all _
theorem mergeTableWrite : Statement .mergeTableWrite := roundTrip_all _
theorem eventCounterWrite : Statement .eventCounterWrite := roundTrip_all _
theorem ownerKeyWrite : Statement .ownerKeyWrite := roundTrip_all _
theorem keyPromote : Statement .keyPromote := roundTrip_all _
theorem controlBlockWrite : Statement .controlBlockWrite := roundTrip_all _
theorem dieReset : Statement .dieReset := roundTrip_all _
theorem dieDownNotice : Statement .dieDownNotice := roundTrip_all _
theorem dieResetDrainEnd : Statement .dieResetDrainEnd := roundTrip_all _
theorem dieResetComplete : Statement .dieResetComplete := roundTrip_all _
theorem powerOn : Statement .powerOn := roundTrip_all _
theorem throttle : Statement .throttle := roundTrip_all _
theorem powerRemoved : Statement .powerRemoved := roundTrip_all _
theorem launchArrival : Statement .launchArrival := roundTrip_all _
theorem launchStart : Statement .launchStart := roundTrip_all _
theorem launchDescriptorRemote : Statement .launchDescriptorRemote := roundTrip_all _
theorem firstThreadStart : Statement .firstThreadStart := roundTrip_all _
theorem slotDue : Statement .slotDue := roundTrip_all _
theorem slotBudgetExpiry : Statement .slotBudgetExpiry := roundTrip_all _
theorem pendingLaunchStart : Statement .pendingLaunchStart := roundTrip_all _
theorem launchCompletion : Statement .launchCompletion := roundTrip_all _
theorem timeSyncMessage : Statement .timeSyncMessage := roundTrip_all _
theorem postArrival : Statement .postArrival := roundTrip_all _
theorem acquisitionStart : Statement .acquisitionStart := roundTrip_all _
theorem exclusionRequest : Statement .exclusionRequest := roundTrip_all _
theorem exclusionReply : Statement .exclusionReply := roundTrip_all _
theorem taskIssue : Statement .taskIssue := roundTrip_all _
theorem huskYield : Statement .huskYield := roundTrip_all _
theorem huskRestart : Statement .huskRestart := roundTrip_all _
theorem taskEnd : Statement .taskEnd := roundTrip_all _
theorem rePost : Statement .rePost := roundTrip_all _
theorem activeMessageArrival : Statement .activeMessageArrival := roundTrip_all _
theorem handlerEntry : Statement .handlerEntry := roundTrip_all _
theorem futureFill : Statement .futureFill := roundTrip_all _
theorem barrierComplete : Statement .barrierComplete := roundTrip_all _
theorem enqueueArrival : Statement .enqueueArrival := roundTrip_all _
theorem waitingEnqueueReserve : Statement .waitingEnqueueReserve := roundTrip_all _
theorem enqueueRetry : Statement .enqueueRetry := roundTrip_all _
theorem messageLanded : Statement .messageLanded := roundTrip_all _
theorem enqueueCredit : Statement .enqueueCredit := roundTrip_all _
theorem lockGrant : Statement .lockGrant := roundTrip_all _
theorem gatherComplete : Statement .gatherComplete := roundTrip_all _
theorem tlbMiss : Statement .tlbMiss := roundTrip_all _
theorem pageMigrationComplete : Statement .pageMigrationComplete := roundTrip_all _
theorem forkRegistration : Statement .forkRegistration := roundTrip_all _
theorem firstWrite : Statement .firstWrite := roundTrip_all _
theorem merge : Statement .merge := roundTrip_all _
theorem mergeComplete : Statement .mergeComplete := roundTrip_all _
theorem homeStorePerform : Statement .homeStorePerform := roundTrip_all _
theorem accessStatus : Statement .accessStatus := roundTrip_all _
theorem atomicHomePerform : Statement .atomicHomePerform := roundTrip_all _
theorem incarnationProbeReply : Statement .incarnationProbeReply := roundTrip_all _
theorem linklostTimeout : Statement .linklostTimeout := roundTrip_all _
theorem routeDownReport : Statement .routeDownReport := roundTrip_all _
theorem flushMarker : Statement .flushMarker := roundTrip_all _
theorem packetArrival : Statement .packetArrival := roundTrip_all _
theorem acknowledgement : Statement .acknowledgement := roundTrip_all _
theorem retransmit : Statement .retransmit := roundTrip_all _
theorem linkSpill : Statement .linkSpill := roundTrip_all _
theorem linkRefill : Statement .linkRefill := roundTrip_all _
theorem cxlerrTimeout : Statement .cxlerrTimeout := roundTrip_all _
theorem cxlLinkDown : Statement .cxlLinkDown := roundTrip_all _
theorem scrub : Statement .scrub := roundTrip_all _
theorem scrubLate : Statement .scrubLate := roundTrip_all _
theorem alignTimeout : Statement .alignTimeout := roundTrip_all _
theorem contextRequestRemote : Statement .contextRequestRemote := roundTrip_all _
theorem exclusionRelease : Statement .exclusionRelease := roundTrip_all _
theorem packetSent : Statement .packetSent := roundTrip_all _
theorem flitSent : Statement .flitSent := roundTrip_all _
theorem linkDown : Statement .linkDown := roundTrip_all _
theorem linkUp : Statement .linkUp := roundTrip_all _
theorem cxlLinkUp : Statement .cxlLinkUp := roundTrip_all _
theorem dieAnnounce : Statement .dieAnnounce := roundTrip_all _
theorem contextBankGate : Statement .contextBankGate := roundTrip_all _
theorem throttleEnd : Statement .throttleEnd := roundTrip_all _
theorem tokenBlockAgeOut : Statement .tokenBlockAgeOut := roundTrip_all _

end RoundTrip

end Sys2Proof.Laws
end

