-- ==== Sys2Proof/Laws/Scalar.lean ====
section
/-! SUPPORT. One lemma for each shape of the scalar instructions: what it answers when its operands can be read and its result written. -/

namespace Sys2Proof.Machine

theorem aluRR_next {op : Nat} {g : Nat → Int → Int → Int} {s s2 t : State} {x : Hart} {a b : Word}
    (hr : Ready s x .base) (hn : Named s x [s.ir.slot.a, s.ir.slot.b] [s.ir.slot.d])
    (ha : readRegs [s.ir.slot.a, s.ir.slot.b] s.go = .ok ([a, b], s2))
    (ht : Gives s2 s.ir.slot.d (putInt s.ir.slot.ty.toNat (g s.ir.slot.ty.toNat (intVal s.ir.slot.ty.toNat a) (intVal s.ir.slot.ty.toNat b)))
      t (quick := oneCycle op)) : aluRR op g s = .next t := by
  obtain ⟨s1, ha, hb⟩ := readRegs_two ha
  refine runM_ok ?_
  rw [bind_ok (useClass_ok hr.go), bind_ok (ir_ok s.go)]
  dsimp only [State.go_slot]
  rw [bind_ok (names_ok (s := s.go) hr.found hn), bind_ok ha, bind_ok hb, writeAlu_retire ht]
theorem aluR_next {op : Nat} {g : Nat → Int → Int} {s s1 t : State} {x : Hart} {a : Word}
    (hr : Ready s x .base) (hn : Named s x [s.ir.slot.a] [s.ir.slot.d]) (ha : readRegs [s.ir.slot.a] s.go = .ok ([a], s1))
    (ht : Gives s1 s.ir.slot.d (putInt s.ir.slot.ty.toNat (g s.ir.slot.ty.toNat (intVal s.ir.slot.ty.toNat a))) t (quick := oneCycle op)) :
    aluR op g s = .next t := by
  refine runM_ok ?_
  rw [bind_ok (useClass_ok hr.go), bind_ok (ir_ok s.go)]
  dsimp only [State.go_slot]
  rw [bind_ok (names_ok (s := s.go) hr.found hn), bind_ok (readRegs_one ha), writeAlu_retire ht]
theorem aluRRR_next {op : Nat} {g : Nat → Int → Int → Int → Int} {s s3 t : State} {x : Hart} {a b c : Word}
    (hr : Ready s x .base) (hn : Named s x [s.ir.slot.a, s.ir.slot.b, s.ir.slot.c] [s.ir.slot.d])
    (ha : readRegs [s.ir.slot.a, s.ir.slot.b, s.ir.slot.c] s.go = .ok ([a, b, c], s3))
    (ht : Gives s3 s.ir.slot.d (putInt s.ir.slot.ty.toNat
      (g s.ir.slot.ty.toNat (intVal s.ir.slot.ty.toNat a) (intVal s.ir.slot.ty.toNat b) (intVal s.ir.slot.ty.toNat c)))
      t (quick := oneCycle op)) : aluRRR op g s = .next t := by
  obtain ⟨s1, s2, ha, hb, hc⟩ := readRegs_three ha
  refine runM_ok ?_
  rw [bind_ok (useClass_ok hr.go), bind_ok (ir_ok s.go)]
  dsimp only [State.go_slot]
  rw [bind_ok (names_ok (s := s.go) hr.found hn), bind_ok ha, bind_ok hb, bind_ok hc, writeAlu_retire ht]
theorem aluRI_next {op : Nat} {g : Nat → Int → Int → Int} {s s1 t : State} {x : Hart} {a : Word}
    (hr : Ready s x .base) (hn : Named s x [s.ir.slot.a] [s.ir.slot.d]) (ha : readRegs [s.ir.slot.a] s.go = .ok ([a], s1))
    (ht : Gives s1 s.ir.slot.d (putInt s.ir.slot.ty.toNat (g s.ir.slot.ty.toNat (intVal s.ir.slot.ty.toNat a) (immInt s.ir.slot))) t
      (quick := oneCycle op)) : aluRI op g s = .next t := by
  refine runM_ok ?_
  rw [bind_ok (useClass_ok hr.go), bind_ok (ir_ok s.go)]
  dsimp only [State.go_slot]
  rw [bind_ok (names_ok (s := s.go) hr.found hn), bind_ok (readRegs_one ha), writeAlu_retire ht]
theorem execMovImm_next {s t : State} {x : Hart} (hr : Ready s x .base) (hn : Named s x [] [s.ir.slot.d])
    (ht : Gives s.go s.ir.slot.d (putInt s.ir.slot.ty.toNat (immInt s.ir.slot)) t (quick := true)) : execMovImm s = .next t := by
  refine runM_ok ?_
  rw [bind_ok (useClass_ok hr.go), bind_ok (ir_ok s.go)]
  dsimp only [State.go_slot]
  rw [bind_ok (names_ok (s := s.go) hr.found hn), writeAlu_retire ht]
theorem execBext_next {s s2 t : State} {x : Hart} {a b : Word}
    (hr : Ready s x .base) (hn : Named s x [s.ir.slot.a, s.ir.slot.b] [s.ir.slot.d])
    (ha : readRegs [s.ir.slot.a, s.ir.slot.b] s.go = .ok ([a, b], s2))
    (ht : Gives s2 s.ir.slot.d (bextOf s.ir.slot.ty.toNat a (fieldPos b.toNat) (fieldLen b.toNat)) t (quick := true)) :
    execBext s = .next t := by
  obtain ⟨s1, ha, hb⟩ := readRegs_two ha
  refine runM_ok ?_
  rw [bind_ok (useClass_ok hr.go), bind_ok (ir_ok s.go)]
  dsimp only [State.go_slot]
  rw [bind_ok (names_ok (s := s.go) hr.found hn), bind_ok ha, bind_ok hb, writeAlu_retire ht]
theorem execBins_next {s s3 t : State} {x : Hart} {a b d : Word}
    (hr : Ready s x .base) (hn : Named s x [s.ir.slot.a, s.ir.slot.b, s.ir.slot.d] [s.ir.slot.d])
    (ha : readRegs [s.ir.slot.a, s.ir.slot.b, s.ir.slot.d] s.go = .ok ([a, b, d], s3))
    (ht : Gives s3 s.ir.slot.d (binsOf d a (fieldPos b.toNat) (fieldLen b.toNat)) t (quick := true)) : execBins s = .next t := by
  obtain ⟨s1, s2, ha, hb, hd⟩ := readRegs_three ha
  refine runM_ok ?_
  rw [bind_ok (useClass_ok hr.go), bind_ok (ir_ok s.go)]
  dsimp only [State.go_slot]
  rw [bind_ok (names_ok (s := s.go) hr.found hn), bind_ok ha, bind_ok hb, bind_ok hd, writeAlu_retire ht]
theorem execBextImm_next {s s1 t : State} {x : Hart} {a : Word}
    (hr : Ready s x .base) (hn : Named s x [s.ir.slot.a] [s.ir.slot.d]) (ha : readRegs [s.ir.slot.a] s.go = .ok ([a], s1))
    (ht : Gives s1 s.ir.slot.d (bextOf s.ir.slot.ty.toNat a (fieldPos s.ir.slot.imm.toNat) (fieldLen s.ir.slot.imm.toNat)) t (quick := true)) :
    execBextImm s = .next t := by
  refine runM_ok ?_
  rw [bind_ok (useClass_ok hr.go), bind_ok (ir_ok s.go)]
  dsimp only [State.go_slot]
  rw [bind_ok (names_ok (s := s.go) hr.found hn), bind_ok (readRegs_one ha), writeAlu_retire ht]
theorem execBinsImm_next {s s2 t : State} {x : Hart} {a d : Word}
    (hr : Ready s x .base) (hn : Named s x [s.ir.slot.a, s.ir.slot.d] [s.ir.slot.d])
    (ha : readRegs [s.ir.slot.a, s.ir.slot.d] s.go = .ok ([a, d], s2))
    (ht : Gives s2 s.ir.slot.d (binsOf d a (fieldPos s.ir.slot.imm.toNat) (fieldLen s.ir.slot.imm.toNat)) t (quick := true)) :
    execBinsImm s = .next t := by
  obtain ⟨s1, ha, hd⟩ := readRegs_two ha
  refine runM_ok ?_
  rw [bind_ok (useClass_ok hr.go), bind_ok (ir_ok s.go)]
  dsimp only [State.go_slot]
  rw [bind_ok (names_ok (s := s.go) hr.found hn), bind_ok ha, bind_ok hd, writeAlu_retire ht]

/-! ### Floating -/

theorem floatRR_next {op : Nat} {rounds : Bool} {g : Fmt → RMode → FVal → FVal → FRes} {s s0 s2 t : State} {x : Hart} {a b : Word} {mode : RMode}
    (hr : Ready s x .float) (hn : Named s x [s.ir.slot.a, s.ir.slot.b] [s.ir.slot.d])
    (hm : (if rounds then roundMode s.ir.slot else pure .rne) s.go = .ok (mode, s0))
    (ha : readRegs [s.ir.slot.a, s.ir.slot.b] s0 = .ok ([a, b], s2))
    (ht : Gives s2 s.ir.slot.d
      (putFloat (g (fmtOf s.ir.slot.ty.toNat) mode (fval s.ir.slot.ty.toNat a) (fval s.ir.slot.ty.toNat b))) t
      (g (fmtOf s.ir.slot.ty.toNat) mode (fval s.ir.slot.ty.toNat a) (fval s.ir.slot.ty.toNat b)).flags) : floatRR op rounds g s = .next t := by
  obtain ⟨s1, ha, hb⟩ := readRegs_two ha
  refine runM_ok ?_
  rw [bind_ok (useClass_ok hr.go), bind_ok (ir_ok s.go)]
  dsimp only [State.go_slot]
  rw [bind_ok (names_ok (s := s.go) hr.found hn), bind_ok hm, bind_ok ha, bind_ok hb, writeReg_retire ht]
theorem floatBits_next {op : Nat} {g : Fmt → Nat → Nat → FRes} {s s2 t : State} {x : Hart} {a b : Word}
    (hr : Ready s x .float) (hn : Named s x [s.ir.slot.a, s.ir.slot.b] [s.ir.slot.d])
    (ha : readRegs [s.ir.slot.a, s.ir.slot.b] s.go = .ok ([a, b], s2))
    (ht : Gives s2 s.ir.slot.d
      (putFloat (g (fmtOf s.ir.slot.ty.toNat) (a.toNat % 2 ^ (fmtOf s.ir.slot.ty.toNat).width) (b.toNat % 2 ^ (fmtOf s.ir.slot.ty.toNat).width))) t
      (g (fmtOf s.ir.slot.ty.toNat) (a.toNat % 2 ^ (fmtOf s.ir.slot.ty.toNat).width) (b.toNat % 2 ^ (fmtOf s.ir.slot.ty.toNat).width)).flags) :
    floatBits op g s = .next t := by
  obtain ⟨s1, ha, hb⟩ := readRegs_two ha
  refine runM_ok ?_
  rw [bind_ok (useClass_ok hr.go), bind_ok (ir_ok s.go)]
  dsimp only [State.go_slot]
  rw [bind_ok (names_ok (s := s.go) hr.found hn), bind_ok ha, bind_ok hb, writeReg_retire ht]
theorem floatOne_next {op : Nat} {g : Fmt → Nat → Nat} {s s1 t : State} {x : Hart} {a : Word}
    (hr : Ready s x .float) (hn : Named s x [s.ir.slot.a] [s.ir.slot.d]) (ha : readRegs [s.ir.slot.a] s.go = .ok ([a], s1))
    (ht : Gives s1 s.ir.slot.d (BitVec.ofNat 64 (g (fmtOf s.ir.slot.ty.toNat) (a.toNat % 2 ^ (fmtOf s.ir.slot.ty.toNat).width))) t) :
    floatOne op g s = .next t := by
  refine runM_ok ?_
  rw [bind_ok (useClass_ok hr.go), bind_ok (ir_ok s.go)]
  dsimp only [State.go_slot]
  rw [bind_ok (names_ok (s := s.go) hr.found hn), bind_ok (readRegs_one ha), writeReg_retire ht]
theorem execFsqrt_next {s s0 s1 t : State} {x : Hart} {a : Word} {mode : RMode}
    (hr : Ready s x .float) (hn : Named s x [s.ir.slot.a] [s.ir.slot.d]) (hm : roundMode s.ir.slot s.go = .ok (mode, s0))
    (ha : readRegs [s.ir.slot.a] s0 = .ok ([a], s1))
    (ht : Gives s1 s.ir.slot.d (putFloat (fSqrt (fmtOf s.ir.slot.ty.toNat) mode (fval s.ir.slot.ty.toNat a))) t
      (fSqrt (fmtOf s.ir.slot.ty.toNat) mode (fval s.ir.slot.ty.toNat a)).flags) : execFsqrt s = .next t := by
  refine runM_ok ?_
  rw [bind_ok (useClass_ok hr.go), bind_ok (ir_ok s.go)]
  dsimp only [State.go_slot]
  rw [bind_ok (names_ok (s := s.go) hr.found hn), bind_ok hm, bind_ok (readRegs_one ha), writeReg_retire ht]
theorem execFma_next {s s0 s3 t : State} {x : Hart} {a b c : Word} {mode : RMode}
    (hr : Ready s x .float) (hn : Named s x [s.ir.slot.a, s.ir.slot.b, s.ir.slot.c] [s.ir.slot.d])
    (hm : roundMode s.ir.slot s.go = .ok (mode, s0)) (ha : readRegs [s.ir.slot.a, s.ir.slot.b, s.ir.slot.c] s0 = .ok ([a, b, c], s3))
    (ht : Gives s3 s.ir.slot.d (putFloat (fFma (fmtOf s.ir.slot.ty.toNat) mode (fval s.ir.slot.ty.toNat a) (fval s.ir.slot.ty.toNat b)
        (fval s.ir.slot.ty.toNat c))) t
      (fFma (fmtOf s.ir.slot.ty.toNat) mode (fval s.ir.slot.ty.toNat a) (fval s.ir.slot.ty.toNat b) (fval s.ir.slot.ty.toNat c)).flags) :
    execFma s = .next t := by
  obtain ⟨s1, s2, ha, hb, hc⟩ := readRegs_three ha
  refine runM_ok ?_
  rw [bind_ok (useClass_ok hr.go), bind_ok (ir_ok s.go)]
  dsimp only [State.go_slot]
  rw [bind_ok (names_ok (s := s.go) hr.found hn), bind_ok hm, bind_ok ha, bind_ok hb, bind_ok hc, writeReg_retire ht]
theorem convert_next {op : Nat} {g : Nat → Nat → Bool → RMode → Word → Word × Flags5} {s s0 s1 t : State} {x : Hart} {a : Word} {mode : RMode}
    (hr : Ready s x .float) (hn : Named s x [s.ir.slot.a] [s.ir.slot.d]) (hm : roundMode s.ir.slot s.go = .ok (mode, s0))
    (ha : readRegs [s.ir.slot.a] s0 = .ok ([a], s1))
    (ht : Gives s1 s.ir.slot.d (g s.ir.slot.ty.toNat (s.ir.slot.misc.toNat / 2) (s.ir.slot.misc.getLsbD 0) mode a).1 t
      (g s.ir.slot.ty.toNat (s.ir.slot.misc.toNat / 2) (s.ir.slot.misc.getLsbD 0) mode a).2) : convert op g s = .next t := by
  refine runM_ok ?_
  rw [bind_ok (useClass_ok hr.go), bind_ok (ir_ok s.go)]
  dsimp only [State.go_slot]
  rw [bind_ok (names_ok (s := s.go) hr.found hn), bind_ok hm, bind_ok (readRegs_one ha), writeReg_retire ht]

end Sys2Proof.Machine
end

