-- ==== Sys2Proof/Tests/Slice0.lean ====
section
/-! SUPPORT. Tests of the model, and for each statement a concrete state that meets its hypotheses. The words of the decoding tests are
written out by hand from the encodings of spec/03_instruction_lines.md and spec/opcode_table.json. -/

open Sys2Proof Sys2Proof.Machine
namespace Sys2Proof.Tests
set_option Elab.async false

/-- A thread with room on its register stack, in its job's space 3. -/
def h0 : Hart :=
  { pc := 0x400000, regs := { x := windowOf fun i => BitVec.ofNat 64 (0x100 * i) }, wbase := 0x10000, rsbase := 0x10000, rslim := 0x20000
    origin := { launch := some 1, space := 3 } }
/-- Launch 1 leases everything; one large page maps space 3 to frame 0; the code line at 0x400000 is granted and all its slots are marked, under the parity of its line word. -/
def world : State :=
  { mem := [(0x807, 0x80)]
    quads := [(0, { tlb := [{ vpn := 0, space := 3, frame := 0, big := true, x := true, w := true, r := true }]
                    icache := [{ line := 0x10000, data := 0xF8020000#32 ++ 0#480 }] })]
    launches := [(1, { leases := [{ base := 0, len := 2 ^ 57, r := true, w := true }], live := 1 })] }
/-- A hart that issues a slot. -/
def issues (h : HartId) (x : Hart) (f : Slot) (s : State := world) : State := { s.setHart h x with ir := { hart := h, slot := f } }
/-- Context slot 0 of core 0 issues a slot. -/
def at0 (x : Hart) (f : Slot) (s : State := world) : State := issues (.ctx 0 0) x f s

/-- The issuing hart has no loop that counts. -/
def noLoops (s : State) : Bool :=
  match s.hart? s.ir.hart with
  | some x => (List.range 3).all (fun n => (x.loops.toList.getD n {}).count == 0)
  | none => false
theorem ending_none (x : Hart) (h : (List.range 3).all (fun n => (x.loops.toList.getD n {}).count == 0) = true) : endingLoops x x.pc = [] := by
  simp only [endingLoops]
  rw [List.filter_eq_nil_iff.2, List.mergeSort_nil]
  intro n hn
  rw [eq_of_beq (List.all_eq_true.1 h n hn)]
  simp
theorem passes_x {s : State} (h : noLoops s = true) : ∃ t, Passes s t := by
  unfold noLoops at h
  split at h
  · rename_i x hx
    refine ⟨s.passTo x.loops (succPc x.pc), x, hx, ?_⟩
    rw [ending_none x h]
  · cases h
/-- A part of a meaning that changes nothing. -/
def okSame (m : M Unit) (s : State) : Bool := match m s with
  | .ok (_, t) => decide (t = s)
  | _ => false
theorem okSame_ok {m : M Unit} {s : State} (h : okSame m s = true) : m s = .ok ((), s) := by
  unfold okSame at h
  split at h
  · rename_i t ht
    rw [ht, of_decide_eq_true h]
  · cases h
/-- A part of a meaning that goes on, to a result and a state with a property. -/
def runs (m : M α) (s : State) (p : α → State → Bool) : Bool := match m s with
  | .ok (a, t) => p a t
  | _ => false
theorem runs_ok {m : M α} {s : State} {p : α → State → Bool} (h : runs m s p = true) : ∃ a t, m s = .ok (a, t) ∧ p a t = true := by
  unfold runs at h
  split at h
  · rename_i a t e
    exact ⟨a, t, e, h⟩
  · cases h
/-- A PC is a good target. -/
def goodAt (s : State) (pc : Word) : Bool :=
  pcOk pc && match s.fetchLine s.ir.hart pc with
    | .line l => markedIn l pc
    | _ => false
theorem good_x {s : State} {pc : Word} (h : goodAt s pc = true) : GoodTarget s pc := by
  unfold goodAt at h
  split at h
  · rename_i l hl
    exact ⟨(Bool.and_eq_true_iff.1 h).1, l, hl, (Bool.and_eq_true_iff.1 h).2⟩
  · simp at h
/-- A PC whose line can be fetched, but whose slot is not marked. -/
def unmarkedAt (s : State) (pc : Word) : Bool := match s.fetchLine s.ir.hart pc with
  | .line l => !markedIn l pc
  | _ => false
theorem unmarked_x {s : State} {pc : Word} (h : unmarkedAt s pc = true) : ∃ l, s.fetchLine s.ir.hart pc = .line l ∧ markedIn l pc = false := by
  unfold unmarkedAt at h
  split at h
  · rename_i l hl
    exact ⟨l, hl, by simpa using h⟩
  · cases h
theorem gives_x {s : State} {d : BitVec 5} {v : Word} {fl : Flags5} {q : Bool} {ws : List RegWrite} {s' : State}
    (h : destReg d v s = .ok (ws, s')) (hl : noLoops (s'.owe ws fl (quick := q)) = true) : ∃ t, Gives s d v t fl q :=
  (passes_x hl).elim fun t ht => ⟨t, ws, s', h, ht⟩

/-! ### The scalar instructions -/

/-- The operands of the scalar statements' witnesses: x1, x2 and x4 to x3. -/
def w3 : State := at0 h0 { d := 3, a := 1, b := 2, c := 4, ty := 4 }
theorem w3_gives (v : Word) (fl : Flags5) (q : Bool) : ∃ t, Gives w3.go w3.ir.slot.d v t fl q := gives_x rfl rfl
/-- Every hypothesis of the integer statements, for each row: the sources read in the three shapes, and a result whatever its value. -/
theorem witness_IntegerForms :
    Ready w3 h0 .base ∧ Named w3 h0 [w3.ir.slot.a, w3.ir.slot.b, w3.ir.slot.c] [w3.ir.slot.d] ∧
    readRegs [w3.ir.slot.a] w3.go = .ok ([0x100], w3.go) ∧ readRegs [w3.ir.slot.a, w3.ir.slot.b] w3.go = .ok ([0x100, 0x200], w3.go) ∧
    readRegs [w3.ir.slot.a, w3.ir.slot.b, w3.ir.slot.c] w3.go = .ok ([0x100, 0x200, 0x400], w3.go) ∧
    ∀ v fl q, ∃ t, Gives w3.go w3.ir.slot.d v t fl q := ⟨⟨rfl, rfl, fun _ => rfl⟩, ⟨rfl, rfl⟩, rfl, rfl, rfl, w3_gives⟩
/-- The destination `zero` discards. -/
theorem witness_IntegerForms_zero : ∃ s : State, Ready s h0 .base ∧ Named s h0 [s.ir.slot.a] [31] ∧ s.ir.slot.d = 31 ∧
    ∀ v fl q, ∃ t, Gives s.go 31 v t fl q := ⟨at0 h0 { d := 31, a := 1 }, ⟨rfl, rfl, fun _ => rfl⟩, ⟨rfl, rfl⟩, rfl, fun _ _ _ => gives_x rfl rfl⟩
theorem witness_BitFieldsAndDivision :
    (Ready w3 h0 .base ∧ Named w3 h0 [w3.ir.slot.a, w3.ir.slot.b, w3.ir.slot.d] [w3.ir.slot.d] ∧
      readRegs [w3.ir.slot.a, w3.ir.slot.b, w3.ir.slot.d] w3.go = .ok ([0x100, 0x200, 0x300], w3.go) ∧ ∀ v fl q, ∃ t, Gives w3.go w3.ir.slot.d v t fl q) ∧
    (Named w3 h0 [w3.ir.slot.a, w3.ir.slot.b] [w3.ir.slot.d] ∧ readRegs [w3.ir.slot.a, w3.ir.slot.b] w3.go = .ok ([0x100, 0x200], w3.go) ∧ isIntType w3.ir.slot.ty.toNat = true) ∧
    (∃ p n i, p = 63 ∧ n = 64 ∧ i = 63 ∧ p < 64 ∧ 1 ≤ n ∧ n ≤ 64 ∧ i < 64) ∧
    (intVal 4 0x8000000000000000 = -(2 ^ 63) ∧ isSignedType 4 = true ∧ isIntType 8 = true) :=
  ⟨⟨⟨rfl, rfl, fun _ => rfl⟩, ⟨rfl, rfl⟩, rfl, w3_gives⟩, ⟨⟨rfl, rfl⟩, rfl, rfl⟩, ⟨63, 64, 63, by decide⟩, by decide⟩
/-- Bits above 63 of a field read as zero, or as the field's highest bit. -/
theorem test_bext_top : bextOf 8 0x8000000000000000 63 64 = 1 ∧ binsOf 0 3 62 64 = 0xC000000000000000 := by decide
theorem witness_FloatingForms :
    Ready w3 h0 .float ∧ roundMode w3.ir.slot w3.go = .ok (.rne, w3.go) ∧
    Named w3 h0 [w3.ir.slot.a, w3.ir.slot.b, w3.ir.slot.c] [w3.ir.slot.d] ∧
    readRegs [w3.ir.slot.a, w3.ir.slot.b, w3.ir.slot.c] w3.go = .ok ([0x100, 0x200, 0x400], w3.go) ∧
    (∀ v fl q, ∃ t, Gives w3.go w3.ir.slot.d v t fl q) := ⟨⟨rfl, rfl, fun _ => rfl⟩, rfl, ⟨rfl, rfl⟩, rfl, w3_gives⟩
/-- `.sr` and `.dyn` with FRM 3. -/
theorem witness_FloatingForms_modes :
    (∃ (s : State) (x : Hart) (f : Slot), s.hart? s.ir.hart = some x ∧ isThread s.ir.hart = true ∧
      (if f.rm.toNat = 7 then x.frm.toNat else f.rm.toNat) = 4) ∧
    (∃ (s : State) (x : Hart) (f : Slot), s.hart? s.ir.hart = some x ∧ isThread s.ir.hart = true ∧ f.rm = 7 ∧ x.frm = 3) :=
  ⟨⟨w3, h0, { rm := 4 }, rfl, rfl, rfl⟩, ⟨at0 { h0 with frm := 3 } {}, { h0 with frm := 3 }, { rm := 7 }, rfl, rfl, rfl, rfl⟩⟩
/-- A taken branch within its code page; a branch not taken; a jump to x1, a marked slot of the line; one that breaks R34. -/
theorem witness_BranchesAndJumps :
    (Ready w3 h0 .base ∧ w3.go.hart? w3.go.ir.hart = some h0 ∧ DirectTarget w3.go h0 (target h0.pc w3.ir.slot.imm) ∧ ∃ t, Passes w3.go t) ∧
    (∃ (s : State) (x : Hart) (a : Word), Ready s x .base ∧ Named s x [s.ir.slot.a] [] ∧ readRegs [s.ir.slot.a] s.go = .ok ([a], s.go) ∧
      GoodTarget s.go a) ∧
    (∃ (s : State) (x : Hart) (a : Word), Ready s x .base ∧ Named s x [s.ir.slot.a] [] ∧ readRegs [s.ir.slot.a] s.go = .ok ([a], s.go) ∧
      pcOk a = false) :=
  ⟨⟨⟨rfl, rfl, fun _ => rfl⟩, rfl, .inl rfl, passes_x rfl⟩,
   ⟨at0 (h0.setX 1 0x400004) { a := 1 }, h0.setX 1 0x400004, 0x400004, ⟨rfl, rfl, fun _ => rfl⟩, ⟨rfl, rfl⟩, rfl, good_x (by decide +kernel)⟩,
   ⟨at0 (h0.setX 1 0x400005) { a := 1 }, h0.setX 1 0x400005, 0x400005, ⟨rfl, rfl, fun _ => rfl⟩, ⟨rfl, rfl⟩, rfl, by decide⟩⟩
/-- A thread slid up by n registers, whose frames below the window hold the words 1, 2, 3, ... -/
def slid (n : Nat) : Hart := { h0 with wbase := BitVec.ofNat 64 (0x10000 + 8 * n), below := (List.range n).map fun i => (0x10000 + 8 * i, BitVec.ofNat 64 (i + 1)) }
def words (n : Nat) : List Word := (List.range n).map fun i => BitVec.ofNat 64 (i + 1)
/-- A slide by 4 to the very top of the stack, and one back to its bottom. -/
theorem witness_CallsAndReturns_slide :
    (∃ (s : State) (x : Hart), isThread s.ir.hart = true ∧ s.hart? s.ir.hart = some x ∧ x.windowIn ∧ x.wbase.toNat + 8 * 4 + 128 = x.rslim.toNat) ∧
    (∃ (s : State) (x : Hart) (vs : List Word), s.hart? s.ir.hart = some x ∧ x.windowIn ∧ x.rsbase.toNat + 8 * 4 = x.wbase.toNat ∧ StackHolds s x 4 vs) :=
  ⟨⟨at0 { h0 with rslim := 0x100A0 } {}, { h0 with rslim := 0x100A0 }, rfl, rfl, rfl, rfl⟩,
   ⟨at0 (slid 4) {}, slid 4, words 4, rfl, rfl, rfl, rfl, by decide⟩⟩
/-- A frame below the window that is written back, one without a lease, and one without a right to write. -/
theorem witness_CallsAndReturns_spill :
    (∃ (s : State) (x : Hart), s.hart? s.ir.hart = some x ∧ (∀ w ∈ x.below.filter (fun p => p.1 / 32 = 0x800), s.leased x w.1 8 false true = true) ∧
      x.below.length = 4 ∧ s.translate (s.quadOf s.ir.hart) false x.origin.space (32 * 0x800) 1 = .ok 0x10000 ∧ (s.metaWord 0x10000 0).getLsbD 60 = false) ∧
    (∃ (s : State) (x : Hart), s.hart? s.ir.hart = some x ∧ ∃ w ∈ x.below.filter (fun p => p.1 / 32 = 0x800), s.leased x w.1 8 false true = false) ∧
    (∃ (s : State) (x : Hart), s.hart? s.ir.hart = some x ∧ (∀ w ∈ x.below.filter (fun p => p.1 / 32 = 0x800), s.leased x w.1 8 false true = true) ∧
      s.translate (s.quadOf s.ir.hart) false x.origin.space (32 * 0x800) 1 = .noRight) :=
  ⟨⟨at0 (slid 4) {}, slid 4, rfl, by decide +kernel⟩,
   ⟨at0 (slid 4) {} { world with launches := [(1, {})] }, slid 4, rfl, (0x10000, 1), by decide +kernel⟩,
   ⟨at0 (slid 4) {} { world with quads := [(0, { tlb := [{ vpn := 0, space := 3, frame := 0, big := true, r := true }] })] }, slid 4, rfl, by decide +kernel⟩⟩
/-- `call` and `callr` with the least and the greatest slide, at the last place of the stack with room for it. -/
theorem witness_CallsAndReturns_call : ∀ m ∈ [1, 3], ∃ (s : State) (x : Hart), Ready s x .base ∧ Drained s x ∧ x.windowIn ∧ s.ir.slot.misc.toNat = m ∧
    x.wbase.toNat + 8 * (4 * m) + 128 = x.rslim.toNat ∧ DirectTarget s.go x (target x.pc s.ir.slot.imm) ∧ Named s x [s.ir.slot.a] [] ∧
    readRegs [s.ir.slot.a] s.go = .ok ([0x400004], s.go) ∧ GoodTarget s.go 0x400004 := by
  intro m hm
  simp only [List.mem_cons, List.not_mem_nil, or_false] at hm
  rcases hm with rfl | rfl
  · exact ⟨at0 (Hart.setX { h0 with rslim := 0x100A0 } 1 0x400004) { a := 1, misc := 1 }, _, ⟨rfl, rfl, fun _ => rfl⟩, ⟨rfl, rfl⟩, rfl, rfl, rfl, .inl rfl, ⟨rfl, rfl⟩, rfl, good_x (by decide +kernel)⟩
  · exact ⟨at0 (Hart.setX { h0 with rslim := 0x100E0 } 1 0x400004) { a := 1, misc := 3 }, _, ⟨rfl, rfl, fun _ => rfl⟩, ⟨rfl, rfl⟩, rfl, rfl, rfl, .inl rfl, ⟨rfl, rfl⟩, rfl, good_x (by decide +kernel)⟩
/-- `ret` over each distance, to the bottom of the stack. -/
theorem witness_CallsAndReturns_ret : ∀ d ∈ [32, 64, 96], ∃ (s : State) (x : Hart) (vs : List Word), Ready s x .base ∧ Drained s x ∧ x.windowIn ∧
    (x.wbase - x.xreg 14).toNat = d ∧ x.rsbase.toNat ≤ (x.xreg 14).toNat ∧ x.rsbase.toNat + d ≤ x.wbase.toNat ∧
    GoodTarget s.go (x.xreg 15) ∧ StackHolds s.go x (d / 8) vs := by
  intro d hd
  simp only [List.mem_cons, List.not_mem_nil, or_false] at hd
  rcases hd with rfl | rfl | rfl
  · exact ⟨at0 (((slid 4).setX 14 0x10000).setX 15 0x400003) {}, _, words 4, ⟨rfl, rfl, fun _ => rfl⟩, ⟨rfl, rfl⟩, rfl, rfl, by decide, by decide, good_x (by decide +kernel), rfl, by decide⟩
  · exact ⟨at0 (((slid 8).setX 14 0x10000).setX 15 0x400003) {}, _, words 8, ⟨rfl, rfl, fun _ => rfl⟩, ⟨rfl, rfl⟩, rfl, rfl, by decide, by decide, good_x (by decide +kernel), rfl, by decide⟩
  · exact ⟨at0 (((slid 12).setX 14 0x10000).setX 15 0x400003) {}, _, words 12, ⟨rfl, rfl, fun _ => rfl⟩, ⟨rfl, rfl⟩, rfl, rfl, by decide, by decide, good_x (by decide +kernel), rfl, by decide⟩
/-- One byte too little above the window, the bottom of the stack, and a frame pair that points to the window itself. -/
theorem witness_CallsAndReturns_limits :
    (∃ (s : State) (x : Hart), Ready s x .base ∧ Drained s x ∧ s.ir.slot.misc = 1 ∧ x.rslim.toNat + 1 = x.wbase.toNat + 8 * 4 + 128 ∧
      x.wbase.toNat < x.rsbase.toNat + 8 * 1 ∧ DirectTarget s.go x (target x.pc s.ir.slot.imm)) ∧
    (∃ (s : State) (x : Hart), Ready s x .base ∧ Drained s x ∧ x.absent.contains 3 = false ∧
      ¬ ((x.wbase - x.xreg 14).toNat ∈ [32, 64, 96] ∧ x.rsbase.toNat ≤ (x.xreg 14).toNat)) :=
  ⟨⟨at0 { h0 with rslim := 0x1009F } { misc := 1 }, _, ⟨rfl, rfl, fun _ => rfl⟩, ⟨rfl, rfl⟩, rfl, rfl, by decide, .inl rfl⟩,
   ⟨at0 (h0.setX 14 0x10000) {}, _, ⟨rfl, rfl, fun _ => rfl⟩, ⟨rfl, rfl⟩, rfl, by decide⟩⟩
/-- A loop whose end is above the PC, with the least and the greatest count, and one whose end is not. -/
theorem witness_LoopsHintsAndRegions_loop : (∀ c ∈ [0, 1, 2 ^ 24 - 1], ∃ (s : State) (x : Hart), Ready s x .base ∧
      x.pc.toNat < ((x.pc &&& ~~~0x3F#64) + BitVec.ofInt 64 (sext s.ir.slot.imm.toNat 24)).toNat ∧ s.ir.slot.imm.toNat / 2 ^ 24 = c ∧
      readRegs [s.ir.slot.a] s.go = .ok ([BitVec.ofNat 64 c], s.go) ∧ s.go.hart? s.go.ir.hart = some x ∧
      ∃ t, Passes (s.go.modHart s.go.ir.hart fun y => y.setLoop 1 fun _ => { count := 0 }) t) ∧
    (∃ (s : State) (x : Hart), Ready s x .base ∧ ((x.pc &&& ~~~0x3F#64) + BitVec.ofInt 64 (sext s.ir.slot.imm.toNat 24)).toNat = x.pc.toNat) := by
  refine ⟨fun c hc => ?_, w3, h0, ⟨rfl, rfl, fun _ => rfl⟩, by decide⟩
  simp only [List.mem_cons, List.not_mem_nil, or_false] at hc
  rcases hc with rfl | rfl | rfl
  · exact ⟨at0 (h0.setX 1 0) { d := 1, a := 1, imm := 3 }, _, ⟨rfl, rfl, fun _ => rfl⟩, by decide, by decide, rfl, rfl, passes_x rfl⟩
  · exact ⟨at0 (h0.setX 1 1) { d := 1, a := 1, imm := 0x1000003 }, _, ⟨rfl, rfl, fun _ => rfl⟩, by decide, by decide, rfl, rfl, passes_x rfl⟩
  · exact ⟨at0 (h0.setX 1 0xFFFFFF) { d := 1, a := 1, imm := 0xFFFFFF000003 }, _, ⟨rfl, rfl, fun _ => rfl⟩, by decide, by decide, rfl, rfl, passes_x rfl⟩
/-- The last slot of a loop of counter 2, before its last pass and in it. -/
def looping (n : Nat) : Hart := h0.setLoop 2 fun _ => { count := BitVec.ofNat 24 n, start := 0x400000, stop := 0x400000 }
theorem ending_one (x : Hart) (h : (List.range 3).filter (fun n => let p := x.loops.toList.getD n {}; p.count != 0 && p.stop == x.pc) = [2]) :
    endingLoops x x.pc = [2] := by simp only [endingLoops, h, List.mergeSort_singleton]
/-- Two loops that end at the PC, the inner in its last pass and the outer not. -/
def nested : Hart :=
  (h0.setLoop 2 fun _ => { count := 1, reload := 5, start := 0x400002, stop := 0x400000 }).setLoop 1 fun _ => { count := 3, start := 0x400000, stop := 0x400000 }
theorem ending_two : endingLoops nested nested.pc = [2, 1] := by
  have h : (List.range 3).filter (fun n => let p := nested.loops.toList.getD n {}; p.count != 0 && p.stop == nested.pc) = [1, 2] := by decide
  simp only [endingLoops, h]
  rw [List.mergeSort]
  simp [List.MergeSort.Internal.splitInTwo, nested, Hart.setLoop, h0]
theorem witness_LoopsHintsAndRegions_end :
    (endingLoops h0 h0.pc = [] ∧ Ready w3 h0 .base) ∧
    (∃ (s : State) (x : Hart) (l : Loop), Ready s x .base ∧ endingLoops x x.pc = [2] ∧ x.loops.toList.getD 2 {} = l ∧ l.count ≠ 1 ∧ GoodTarget s.go l.start) ∧
    (∃ (s : State) (x : Hart) (l : Loop), Ready s x .base ∧ endingLoops x x.pc = [2] ∧ x.loops.toList.getD 2 {} = l ∧ l.count = 1) ∧
    (∃ (s : State) (x : Hart) (l : Loop), Ready s x .base ∧ endingLoops x x.pc = [2] ∧ x.loops.toList.getD 2 {} = l ∧ l.count ≠ 1 ∧
      ∃ v, s.go.fetchLine s.ir.hart l.start = .line v ∧ markedIn v l.start = false) ∧
    (∃ s : State, Ready s nested .base ∧ endingLoops nested nested.pc = [2, 1] ∧ (nested.loops.toList.getD 2 {}).count = 1 ∧
      (nested.loops.toList.getD 1 {}).count ≠ 1 ∧ GoodTarget s.go (nested.loops.toList.getD 1 {}).start) :=
  ⟨⟨by simp [endingLoops, h0, List.range, List.range.loop], ⟨rfl, rfl, fun _ => rfl⟩⟩,
   ⟨at0 (looping 2) {}, looping 2, _, ⟨rfl, rfl, fun _ => rfl⟩, ending_one _ (by decide), rfl, by decide, good_x (by decide +kernel)⟩,
   ⟨at0 (looping 1) {}, looping 1, _, ⟨rfl, rfl, fun _ => rfl⟩, ending_one _ (by decide), rfl, rfl⟩,
   ⟨at0 (looping 2) {} (world.modQuad 0 fun q => { q with icache := [{ line := 0x10000, data := 3 }] }), looping 2, _, ⟨rfl, rfl, fun _ => rfl⟩,
     ending_one _ (by decide), rfl, by decide, unmarked_x (by decide +kernel)⟩,
   ⟨at0 nested {}, ⟨rfl, rfl, fun _ => rfl⟩, ending_two, by decide, by decide, good_x (by decide +kernel)⟩⟩
/-- `region` and `regend` in a thread, `halt` in a storer, `align` with a time and without one, in a thread whose fellow is behind. -/
theorem witness_LoopsHintsAndRegions_hints :
    (Ready w3 h0 .regions ∧ Drained w3 h0 ∧
      (∃ t, Passes (w3.go.modHart w3.ir.hart fun y => { y with rpc := succPc y.pc, inRegion := true, restarts := 0 }) t) ∧
      ∃ t, Passes (w3.go.modHart w3.ir.hart fun y => { y with inRegion := false, restarts := 0 }) t) ∧
    (∃ s : State, Ready s h0 .halt ∧ ∃ t, Passes s.go t) ∧
    (∃ (s t : State) (c : CoreKey), Ready s h0 .align ∧ s.ir.slot.imm.toNat % 2 ^ 16 ≠ 0 ∧ Passes s.go t ∧ t.coreOf s.ir.hart = some c ∧
      t.alignMet c h0.origin.launch h0.pc = false) ∧
    (∃ (s t : State) (c : CoreKey), Ready s h0 .align ∧ s.ir.slot.imm.toNat % 2 ^ 16 ≠ 0 ∧ Passes s.go t ∧ t.coreOf s.ir.hart = some c ∧
      t.alignMet c h0.origin.launch h0.pc = true) ∧ (Ready w3 h0 .align ∧ w3.ir.slot.imm.toNat % 2 ^ 16 = 0 ∧ ∃ t, Passes w3.go t) := by
  refine ⟨⟨⟨rfl, rfl, fun _ => rfl⟩, ⟨rfl, rfl⟩, passes_x rfl, passes_x rfl⟩, ⟨issues (.storer 0) h0 {}, ⟨rfl, rfl, fun _ => rfl⟩, passes_x rfl⟩, ?_⟩
  refine ⟨⟨at0 h0 { imm := 9 } (world.setHart (.ctx 1 0) h0), (at0 h0 { imm := 9 } (world.setHart (.ctx 1 0) h0)).go.passTo h0.loops (succPc h0.pc), 0,
    ⟨rfl, rfl, fun _ => rfl⟩, by decide, ⟨h0, rfl, ?_⟩, rfl, by decide +kernel⟩,
    ⟨at0 h0 { imm := 9 }, (at0 h0 { imm := 9 }).go.passTo h0.loops (succPc h0.pc), 0, ⟨rfl, rfl, fun _ => rfl⟩, by decide, ⟨h0, rfl, ?_⟩, rfl, by decide +kernel⟩,
    ⟨rfl, rfl, fun _ => rfl⟩, rfl, passes_x rfl⟩ <;>
  rw [show endingLoops h0 h0.pc = [] by simp [endingLoops, h0, List.range, List.range.loop]]
/-- TRAP ENTRY on a stack with exactly the room it needs, and each way it goes otherwise. -/
theorem witness_TrapEntry :
    (∃ (s : State) (x : Hart), isThread s.ir.hart = true ∧ s.hart? s.ir.hart = some x ∧ x.outstanding = [] ∧ x.windowIn ∧ x.trap.trapped = false ∧
      s.ctlGet 0 0x100 ≠ 0 ∧ x.wbase.toNat + 96 + 128 = x.rslim.toNat) ∧
    (∃ (s : State) (x : Hart), s.hart? s.ir.hart = some x ∧ x.outstanding ≠ []) ∧
    (∃ (s : State) (x : Hart), s.hart? s.ir.hart = some x ∧ x.outstanding = [] ∧ x.trap.trapped = true) ∧
    (w3.hart? w3.ir.hart = some h0 ∧ h0.outstanding = [] ∧ h0.trap.trapped = false ∧ w3.ctlGet 0 0x100 = 0) ∧
    (∃ (s : State) (x : Hart), s.hart? s.ir.hart = some x ∧ x.outstanding = [] ∧ x.trap.trapped = false ∧ s.ctlGet 0 0x100 ≠ 0 ∧
      x.rslim.toNat + 1 = x.wbase.toNat + 96 + 128) :=
  ⟨⟨(at0 { h0 with rslim := 0x100E0 } {}).ctlPut 0 0x100 0x410000, { h0 with rslim := 0x100E0 }, rfl, rfl, rfl, rfl, rfl, by decide +kernel, rfl⟩,
   ⟨at0 { h0 with outstanding := [{}] } {}, { h0 with outstanding := [{}] }, rfl, by decide⟩,
   ⟨at0 { h0 with trap := { trapped := true } } {}, { h0 with trap := { trapped := true } }, rfl, rfl, rfl⟩,
   ⟨rfl, rfl, rfl, by decide +kernel⟩,
   ⟨(at0 { h0 with rslim := 0x100DF } {}).ctlPut 0 0x100 0x410000, { h0 with rslim := 0x100DF }, rfl, rfl, rfl, by decide +kernel, rfl⟩⟩
/-- A thread inside a trap's handler, one slide up. -/
def handling : Hart := { slid 12 with trap := { mode := true, trapped := true, xpc := 0x400004, pmode := false } }
theorem witness_TrapReturn :
    (Ready w3 h0 .xret ∧ h0.trap.mode = false) ∧ (∃ (s : State) (x : Hart), Ready s x .xret ∧ x.trap.mode = true ∧ x.trap.trapped = false) ∧
    (∃ (s : State) (vs : List Word), Ready s handling .xret ∧ handling.trap.trapped = true ∧ Drained s handling ∧ handling.windowIn ∧
      pcOk handling.trap.xpc = true ∧ handling.rsbase.toNat + 96 = handling.wbase.toNat ∧ handling.deposits = [] ∧ StackHolds s.go.counted handling 12 vs) ∧
    (∃ (s : State) (x : Hart), Ready s x .xret ∧ x.trap.mode = true ∧ x.trap.trapped = true ∧ s.ir.second = false ∧ x.outstanding ≠ []) ∧
    (∃ (s : State) (x : Hart), Ready s x .xret ∧ x.trap.mode = true ∧ x.trap.trapped = true ∧ Drained s x ∧ isThread s.ir.hart = true ∧
      pcOk x.trap.xpc = false) ∧
    (∃ (s : State) (x : Hart), Ready s x .xret ∧ x.trap.mode = true ∧ x.trap.trapped = true ∧ Drained s x ∧ isThread s.ir.hart = true ∧
      pcOk x.trap.xpc = true ∧ x.wbase.toNat + 1 = x.rsbase.toNat + 96) :=
  ⟨⟨⟨rfl, rfl, fun _ => rfl⟩, rfl⟩, ⟨at0 { h0 with trap := { mode := true } } {}, { h0 with trap := { mode := true } }, ⟨rfl, rfl, fun _ => rfl⟩, rfl, rfl⟩,
   ⟨at0 handling {}, words 12, ⟨rfl, rfl, fun _ => rfl⟩, rfl, ⟨rfl, rfl⟩, rfl, by decide, rfl, rfl, rfl, by decide +kernel⟩,
   ⟨at0 { handling with outstanding := [{}] } {}, { handling with outstanding := [{}] }, ⟨rfl, rfl, fun _ => rfl⟩, rfl, rfl, rfl, by decide⟩,
   ⟨at0 { handling with trap := { mode := true, trapped := true, xpc := 0x400005 } } {}, { handling with trap := { mode := true, trapped := true, xpc := 0x400005 } },
     ⟨rfl, rfl, fun _ => rfl⟩, rfl, rfl, ⟨rfl, rfl⟩, rfl, by decide⟩,
   ⟨at0 { handling with rsbase := 0x10001 } {}, { handling with rsbase := 0x10001 }, ⟨rfl, rfl, fun _ => rfl⟩, rfl, rfl, ⟨rfl, rfl⟩, rfl, by decide, rfl⟩⟩
/-! ### Memory -/

/-- A thread whose x1 holds an address on the stream path; x2 is 0. -/
def hm : Hart := (h0.setX 1 0x1000000000020000).setX 2 0
/-- It accesses a u64 there: d, b and c are x3, x2 and x4. -/
def wm : State := at0 hm { d := 3, a := 1, b := 2, c := 4, ty := 8, path := 1 }
def eM : Word := 0x1000000000020000
set_option maxRecDepth 20000 in
theorem witness_Loads :
    Ready wm hm .mem ∧ Ready wm hm .acqrel ∧ Named wm hm [wm.ir.slot.a, wm.ir.slot.b] [wm.ir.slot.d] ∧
    readRegs [wm.ir.slot.a] wm.go = .ok ([eM], wm.go) ∧ readRegs [wm.ir.slot.a, wm.ir.slot.b] wm.go = .ok ([eM, 0], wm.go) ∧
    eM + ((0 : Word) <<< (wm.ir.slot.misc.toNat % 4)) + wm.ir.slot.imm.signExtend 64 = eM ∧
    checkAccess (some wm.ir.slot.path.toNat) eM 8 8 true false wm.go = .ok ((), wm.go) ∧
    ∃ r s3 s4 s5, loadAt eM wm.ir.slot.ty.toNat wm.go = .ok (r, s3) ∧ loadResult wm.ir.slot eM r s3 = .ok ((), s4) ∧
      acquireM (wm.ir.slot.misc.toNat % 8) s4 = .ok ((), s5) ∧ (∃ t, Passes s4 t) ∧ ∃ t, Passes s5 t :=
  ⟨⟨rfl, rfl, fun _ => rfl⟩, ⟨rfl, rfl, fun _ => rfl⟩, ⟨rfl, rfl⟩, rfl, rfl, rfl, rfl, _, _, _, _, rfl, rfl, rfl, passes_x rfl, passes_x rfl⟩
/-- A result to x3; the first and the last entry of the access table, revoked. -/
theorem witness_Loads_result : isThread wm.ir.hart = true ∧ (∀ v, ∃ ws, destReg wm.ir.slot.d v wm = .ok (ws, wm)) ∧ pathOf eM ≠ 6 :=
  ⟨rfl, fun _ => ⟨_, rfl⟩, by decide⟩
theorem witness_Loads_revoked : ∀ e ∈ [(0x6000000000180000 : Word), 0x6000000000187FE0], pathOf e = 6 ∧ inAperture e = false ∧
    e.toNat % 2 ^ 40 / 32 * 32 = e.toNat % 2 ^ 40 ∧ 0x180000 ≤ e.toNat % 2 ^ 40 ∧ e.toNat % 2 ^ 40 < 0x188000 := by
  intro e he
  simp only [List.mem_cons, List.not_mem_nil, or_false] at he
  rcases he with rfl | rfl <;> exact ⟨by decide, by decide, by decide, by decide, by decide⟩
theorem witness_Loads_stream : wm.hart? wm.ir.hart = some hm ∧ hm.migratory = false ∧ pathOf eM = 1 ∧
    wm.translate (wm.quadOf wm.ir.hart) false hm.origin.space (eM.toNat % 2 ^ 57) 0 = .ok 0x20000 ∧ Reaches wm hm 0x20000 8 ∧
    wm.homeStatus wm.ir.hart 0x20000 8 false = 0 ∧ wm.regionFor wm.ir.hart (eM.toNat % 2 ^ 57) = none ∧ wm.coreOf wm.ir.hart = some 0 :=
  ⟨rfl, rfl, by decide, by decide +kernel, ⟨by decide +kernel, by decide +kernel, by decide +kernel⟩, by decide +kernel, by decide +kernel, rfl⟩
set_option maxRecDepth 20000 in
theorem witness_Stores :
    Ready wm hm .mem ∧ Ready wm hm .acqrel ∧ (∀ q, wm.ir.hart ≠ .expander q) ∧ Named wm hm [wm.ir.slot.a, wm.ir.slot.b, wm.ir.slot.d] [] ∧
    checkAccess (some wm.ir.slot.path.toNat) eM 8 8 false true wm.go = .ok ((), wm.go) ∧ readReg wm.ir.slot.d wm.go = .ok (0x300, wm.go) ∧
    releaseM (wm.ir.slot.misc.toNat % 8) wm.go = .ok ((), wm.go) ∧
    ∃ s4, storeAt eM wm.ir.slot.ty.toNat 0x300 wm.go = .ok ((), s4) ∧ ∃ t, Passes s4 t :=
  ⟨⟨rfl, rfl, fun _ => rfl⟩, ⟨rfl, rfl, fun _ => rfl⟩, by simp [wm, at0, issues], ⟨rfl, rfl⟩, rfl, rfl, rfl, _, rfl, passes_x rfl⟩
theorem witness_Stores_expander : ∃ (s : State) (q : QuadKey), s.ir.hart = .expander q ∧ s.hart? (.expander q) = some h0 :=
  ⟨issues (.expander 5) h0 {}, 5, rfl, rfl⟩
/-- The write-through buffer with its last place free. -/
theorem witness_Stores_buffer : ∃ s : State, s.hart? s.ir.hart = some hm ∧ s.coreOf s.ir.hart = some 0 ∧
    s.translate (s.quadOf s.ir.hart) false hm.origin.space (eM.toNat % 2 ^ 57) 1 = .ok 0x20000 ∧ Reaches s hm 0x20000 8 ∧
    s.regionFor s.ir.hart (eM.toNat % 2 ^ 57) = none ∧ dieOfHart s.ir.hart = homeOf 0x20000 ∧
    (s.core 0).wbuf.length + 1 = Config.writeBufferSize :=
  ⟨wm.modCore 0 fun k => { k with wbuf := List.replicate (Config.writeBufferSize - 1) { hart := .ctx 0 0, pc := 0, va := 0, cells := [] } },
   rfl, rfl, by decide +kernel, ⟨by decide +kernel, by decide +kernel, by decide +kernel⟩, by decide +kernel, by decide, by decide +kernel⟩
/-- Each check fails at some access that passes those before it, and one passes all. -/
theorem witness_AccessChecks :
    (wm.hart? wm.ir.hart = some hm ∧ isThread wm.ir.hart = true ∧ hm.trap.mode = false) ∧ pathOf 0x6000000000000000 = 6 ∧
    (pathOf eM ≠ 6 ∧ 0 ≠ pathOf eM) ∧ layoutOk 0x1200000000000000 8 = false ∧ (pathOf (eM + 4) = 1 ∧ layoutOk (eM + 4) 8 = true ∧ (eM + 4).toNat % 8 ≠ 0) ∧
    (∃ (s : State) (x : Hart), s.hart? s.ir.hart = some x ∧ isThread s.ir.hart = true ∧ pathOf eM = 1 ∧ layoutOk eM 8 = true ∧ eM.toNat % 8 = 0 ∧
      s.leased x (generalVa eM) 8 true false = false) ∧
    wm.leased hm (generalVa eM) 8 true true = true :=
  ⟨⟨rfl, rfl, rfl⟩, by decide, by decide, by decide, by decide,
   ⟨at0 { hm with origin := {} } {}, { hm with origin := {} }, rfl, rfl, by decide, by decide, by decide, rfl⟩, by decide +kernel⟩
/-- A thread whose x1 names the last doubleword of its core's scratchpad. -/
def eS : Word := 0x300000000007FFF8
def hs : Hart := h0.setX 1 eS
def ws : State := at0 hs { d := 3, a := 1, ty := 8, path := 3 }
theorem witness_Scratchpad : Ready ws hs .mem ∧ isThread ws.ir.hart = true ∧ readRegs [ws.ir.slot.a] ws.go = .ok ([eS], ws.go) ∧ ws.ir.slot.path.toNat = 3 ∧
    pathOf eS = 3 ∧ winRegion eS.toNat = 0 ∧ layoutOk eS 8 = true ∧ eS.toNat % 8 = 0 ∧ Named ws hs [ws.ir.slot.a, ws.ir.slot.d] [ws.ir.slot.d] ∧
    readReg ws.ir.slot.d ws.go = .ok (0x300, ws.go) ∧ WinReaches ws.go eS ∧ (∃ a, ¬(windowKey 0 eS.toNat ≤ a ∧ a < windowKey 0 eS.toNat + 8)) ∧
    ws.go.winStatus (dieOfHart ws.ir.hart) hs.origin.owner eS.toNat 8 false = 0 ∧ ws.go.winStatus (dieOfHart ws.ir.hart) hs.origin.owner eS.toNat 8 true = 0 ∧
    ws.go.isPoisoned (windowKey 0 eS.toNat) 8 = false ∧ (∀ v, ∃ t, Gives ws.go ws.ir.slot.d v t) ∧ ∃ t, Passes (ws.go.putNum (windowKey 0 eS.toNat) 8 0x300) t :=
  ⟨⟨rfl, rfl, fun _ => rfl⟩, rfl, rfl, rfl, by decide, by decide, by decide, by decide, ⟨rfl, rfl⟩, rfl, by unfold WinReaches; decide +kernel, ⟨0, by decide⟩,
   by decide +kernel, by decide +kernel, by decide +kernel, fun _ => gives_x rfl rfl, passes_x rfl⟩
/-- Die 1 belongs to owner 5, who has opened no window, then one that was revoked, then one: a store of owner 0 there. -/
theorem witness_Scratchpad_other : pathOf (eS + 1#64 <<< 48) = 3 ∧ winRegion (eS + 1#64 <<< 48).toNat = 0 ∧ ∀ p ∈ [(0, 1), (0x4800000000000000, 2), (0xA800000000000000, 0)],
    (((ws.modDie 1 fun x => { x with partition := 5 }).ctlPut 1 0x187FE0 (BitVec.ofNat 64 p.1)).ctlPut 1 0x187FE8 0xFFFFFFFFFFFFFF |>.ctlPut 1 0x187FF0 0).winStatus
      0 0 (eS + 1#64 <<< 48).toNat 8 true = p.2 :=
  ⟨by decide, by decide, by decide +kernel⟩
/-- A free lock, one that the bank has granted, one that another holds, a second lock, the holder's `stul`, and one without the lock. -/
theorem witness_Scratchpad_locks :
    let c := winCore 0 eS.toNat
    let k := windowKey 0 eS.toNat
    let b := 8 * (eS.toNat / 2 ^ 14 % 32) + (eS.toNat / 2 ^ 6 % 8 ^^^ eS.toNat / 2 ^ 9 % 8)
    let ok := fun (s : State) (x : Hart) (w : Bool) => Ready s x .lock ∧ readRegs [s.ir.slot.a] s.go = .ok ([eS], s.go) ∧ s.ir.slot.path.toNat = 3 ∧
      Named s x [s.ir.slot.a, s.ir.slot.d] [s.ir.slot.d] ∧ WinReaches s.go eS ∧ s.go.winStatus (dieOfHart s.ir.hart) x.origin.owner eS.toNat 8 w = 0
    let holds := fun (s : State) => (s.go.modCore c fun k => { k with locks := (b, s.ir.hart) :: k.locks.filter (fun l => l.1 ≠ b) }).modHart s.ir.hart
      fun z => { z with lock := some (c, b / 8, b % 8), grant := none }
    (ok ws hs false ∧ hs.lock = none ∧ hs.grant ≠ some 6 ∧ (ws.go.core c).locks.any (fun l => l.1 == b) = false ∧
      (ws.go.core c).lockq.any (fun l => l.1 == b) = false ∧ ws.go.isPoisoned k 8 = false ∧ ∀ v, ∃ t, Gives (holds ws) ws.ir.slot.d v t) ∧
    (∃ (s : State) (x : Hart), ok s x false ∧ x.grant = some 6 ∧ s.go.isPoisoned k 8 = false ∧ ∀ v, ∃ t, Gives (holds s) s.ir.slot.d v t) ∧
    (∃ s : State, ok s hs false ∧ hs.lock = none ∧ hs.grant ≠ some 6 ∧ (s.go.core c).locks.any (fun l => l.1 == b) = true) ∧
    (∃ (s : State) (x : Hart), ok s x true ∧ x.lock = some (c, b / 8, b % 8) ∧ x.grant ≠ some 6 ∧ readReg s.ir.slot.d s.go = .ok (0x300, s.go) ∧
      ∃ t, Passes (((s.go.putNum k 8 0x300).modCore c fun k => { k with locks := k.locks.filter (fun l => l.1 ≠ b) }).modHart s.ir.hart
        fun z => { z with lock := none }) t) ∧
    (∃ (s : State) (x : Hart), Ready s x .lock ∧ Named s x [s.ir.slot.a, s.ir.slot.d] [] ∧ x.lock ≠ some (c, b / 8, b % 8)) :=
  let win : WinReaches ws.go eS := by unfold WinReaches; decide +kernel
  ⟨⟨⟨⟨rfl, rfl, fun _ => rfl⟩, rfl, rfl, ⟨rfl, rfl⟩, win, by decide +kernel⟩, rfl, by decide, rfl, rfl, by decide +kernel, fun _ => gives_x rfl rfl⟩,
   ⟨at0 { hs with grant := some 6 } ws.ir.slot, { hs with grant := some 6 }, ⟨⟨rfl, rfl, fun _ => rfl⟩, rfl, rfl, ⟨rfl, rfl⟩, by unfold WinReaches; decide +kernel, by decide +kernel⟩,
     rfl, by decide +kernel, fun _ => gives_x rfl rfl⟩,
   ⟨ws.modCore 0 fun k => { k with locks := [(248, .ctx 0 1)] }, ⟨⟨rfl, rfl, fun _ => rfl⟩, rfl, rfl, ⟨rfl, rfl⟩, by unfold WinReaches; decide +kernel, by decide +kernel⟩,
     rfl, by decide, by decide +kernel⟩,
   ⟨at0 { hs with lock := some (0, 31, 0) } ws.ir.slot, { hs with lock := some (0, 31, 0) },
     ⟨⟨rfl, rfl, fun _ => rfl⟩, rfl, rfl, ⟨rfl, rfl⟩, by unfold WinReaches; decide +kernel, by decide +kernel⟩, by decide, by decide, rfl, passes_x rfl⟩,
   ⟨ws, hs, ⟨rfl, rfl, fun _ => rfl⟩, ⟨rfl, rfl⟩, by decide⟩⟩
/-- An atomic on a u64 in main memory with no ordering, from a core with an empty write-through buffer. -/
def wa : State := at0 (h0.setX 1 0x20000) { d := 3, a := 1, b := 2, c := 4, ty := 8 }
def ha : Hart := h0.setX 1 0x20000
set_option maxRecDepth 20000 in
theorem witness_Atomics :
    (Ready wa ha .amo ∧ pathOf 0x20000 = 0 ∧ readRegs [wa.ir.slot.a] wa.go = .ok ([0x20000], wa.go) ∧
      checkAccess none 0x20000 8 8 true true wa.go = .ok ((), wa.go) ∧ Named wa ha [wa.ir.slot.a, wa.ir.slot.c, wa.ir.slot.d] [wa.ir.slot.d] ∧
      readRegs [wa.ir.slot.c, wa.ir.slot.d] wa.go = .ok ([0x400, 0x300], wa.go)) ∧
    (∀ isCas, ∃ r s5 v s6 ws s7, AtomicStep wa.ir.slot 0x20000 isCas 0x400 0x300 wa.go r s5 ∧
      poisonFor 2 0x20000 r.2.2 (loadValue 8 r.1.toNat) s5 = .ok (v, s6) ∧ destReg wa.ir.slot.d v.1 s6 = .ok (ws, s7) ∧ ∃ t, Passes (s7.owe ws r.2.1 v.2) t) ∧
    (wa.coreOf wa.ir.hart = some 0 ∧ (wa.core 0).wbuf = [] ∧ wa.translate (wa.quadOf wa.ir.hart) false ha.origin.space (generalVa 0x20000) 3 = .ok 0x20000 ∧
      Reaches wa ha 0x20000 8 ∧ homeOf 0x20000 = dieOfHart wa.ir.hart ∧ wa.regionFor wa.ir.hart (generalVa 0x20000) = none ∧
      wa.granted 0x20000 = false ∧ wa.homeStatus wa.ir.hart 0x20000 8 true = 0 ∧ wa.isPoisoned 0x20000 8 = false) :=
  ⟨⟨⟨rfl, rfl, fun _ => rfl⟩, by decide, rfl, rfl, ⟨rfl, rfl⟩, rfl⟩,
   fun isCas => by cases isCas <;> exact ⟨_, _, _, _, _, _, rfl, rfl, rfl, passes_x rfl⟩,
   ⟨rfl, rfl, by decide +kernel, ⟨by decide +kernel, by decide +kernel, by decide +kernel⟩, by decide, by decide +kernel, by decide +kernel, by decide +kernel, by decide +kernel⟩⟩
/-- The paths on which `amo` traps: each of 2, 4 and 6. -/
theorem witness_Atomics_path : ∀ e ∈ [(0x2000000000000000 : Word), 0x4000000000000000, 0x6000000000000000], ∃ (s : State) (x : Hart),
    Ready s x .amo ∧ Named s x [s.ir.slot.a, s.ir.slot.c] [s.ir.slot.d] ∧ isThread s.ir.hart = true ∧ readRegs [s.ir.slot.a] s.go = .ok ([e], s.go) ∧
    s.go.ir = s.go.ir ∧ s.go.hart? s.ir.hart = some x ∧ s.ir.slot.imm = 0 ∧ (pathOf e = 2 ∨ pathOf e = 4 ∨ pathOf e = 6) := by
  intro e he
  refine ⟨at0 (h0.setX 1 e) { d := 3, a := 1, c := 4, ty := 8 }, h0.setX 1 e, ⟨rfl, rfl, fun _ => rfl⟩, ⟨rfl, rfl⟩, rfl, rfl, rfl, rfl, rfl, ?_⟩
  simp only [List.mem_cons, List.not_mem_nil, or_false] at he
  rcases he with rfl | rfl | rfl <;> decide
theorem target_wa : TokenTarget wa.go ha 0x20000 8 0x20000 :=
  ⟨by decide +kernel, ⟨by decide +kernel, by decide +kernel, by decide +kernel⟩, rfl, by decide +kernel⟩
theorem witness_TokenAtomicsAndFences :
    (Ready wa ha .amoTok ∧ isCtx wa.ir.hart = true ∧ pathOf 0x20000 = 0 ∧ readRegs [wa.ir.slot.a] wa.go = .ok ([0x20000], wa.go) ∧
      checkAccess none 0x20000 8 8 true true wa.go = .ok ((), wa.go) ∧ wa.go.hart? wa.ir.hart = some ha ∧ TokenTarget wa.go ha 0x20000 8 0x20000 ∧
      (wa.go.core 0).wbuf = [] ∧ Named wa ha [wa.ir.slot.a, wa.ir.slot.b, wa.ir.slot.c, wa.ir.slot.d] [wa.ir.slot.d, wa.ir.slot.b] ∧
      readRegs [wa.ir.slot.b, wa.ir.slot.c, wa.ir.slot.d] wa.go = .ok ([0x200, 0x400, 0x300], wa.go) ∧
      (∃ dw bw s5 s6, destReg wa.ir.slot.d 0 (wa.go.modCore 0 fun z => { z with l1 := z.l1.filter (fun l => l.line != 0x20000 / 64) }) = .ok (dw, s5) ∧
        destReg wa.ir.slot.b 0 s5 = .ok (bw, s6)) ∧ endingLoops ha ha.pc = []) ∧
    (Ready w3 h0 .fence ∧ h0.outstanding.any (fun p => !p.returned) = false ∧ w3.go.ssuMemory w3.ir.hart = false ∧ w3.go.releaseOpen w3.ir.hart 5 = false ∧
      w3.go.releaseDests w3.ir.hart 5 = [] ∧ (∃ t, Passes w3.go t) ∧ ∃ t, Passes (w3.go.acquire w3.ir.hart 5) t) ∧
    (∃ (s : State) (x : Hart), Ready s x .fence ∧ s.ir.slot.misc.toNat % 4 ≠ 0 ∧ x.outstanding.any (fun p => !p.returned) = true ∧
      ∃ t, Passes (s.go.modHart s.ir.hart fun y => { y with fence := some (3, 5) }) t) ∧
    (∃ (s : State) (x : Hart), s.hart? s.ir.hart = some x ∧ x.fence = some (3, 5) ∧ x.outstanding.any (fun p => !p.returned) = true ∧
      mayUse s.ir.hart x.migratory .mem = true) ∧
    (Ready w3 h0 .drain ∧ Named w3 h0 [] [w3.ir.slot.d] ∧ h0.accesses = [] ∧ h0.outstanding.any (fun p => !p.returned) = false ∧ w3.go.ssuMemory w3.ir.hart = false ∧
      (w3.core 0).wbuf.any (fun b => b.hart == w3.ir.hart) = false ∧ ∃ ws, destReg w3.ir.slot.d (h0.sfc.setWidth 64) w3.go = .ok (ws, w3.go) ∧
      ∃ t, Passes ((w3.go.owe ws).modHart w3.ir.hart fun y => { y with sfc := 0 }) t) ∧
    (Ready w3 h0 .prefetch ∧ Named w3 h0 [w3.ir.slot.a] [] ∧ readRegs [w3.ir.slot.a] w3.go = .ok ([0x100], w3.go) ∧ endingLoops h0 h0.pc = []) :=
  ⟨⟨⟨rfl, rfl, fun _ => rfl⟩, rfl, by decide, rfl, rfl, rfl, target_wa, rfl, ⟨rfl, rfl⟩, rfl, ⟨_, _, _, _, rfl, rfl⟩, ending_none _ (by decide)⟩,
   ⟨⟨rfl, rfl, fun _ => rfl⟩, rfl, rfl, rfl, rfl, passes_x rfl, passes_x rfl⟩,
   ⟨at0 { h0 with outstanding := [{ returned := false }] } { misc := 3, path := 5 }, { h0 with outstanding := [{ returned := false }] }, ⟨rfl, rfl, fun _ => rfl⟩, by decide, rfl, passes_x rfl⟩,
   ⟨at0 { h0 with outstanding := [{ returned := false }], fence := some (3, 5) } {}, { h0 with outstanding := [{ returned := false }], fence := some (3, 5) }, rfl, rfl, rfl, rfl⟩,
   ⟨⟨rfl, rfl, fun _ => rfl⟩, ⟨rfl, rfl⟩, rfl, rfl, rfl, rfl, _, rfl, passes_x rfl⟩,
   ⟨⟨rfl, rfl, fun _ => rfl⟩, ⟨rfl, rfl⟩, rfl, ending_none _ (by decide)⟩⟩
/-! ### System instructions -/

/-- A thread in supervisor mode. -/
def hv : Hart := { h0 with trap := { mode := true } }
def wv : State := at0 hv { d := 3, a := 1, b := 2, imm := 7 }
theorem witness_SystemRegisterReads :
    (Ready wv hv .sys ∧ Named wv hv [] [wv.ir.slot.d] ∧ (∃ v, readSys (wv.ir.slot.imm.toNat % 256) wv.go = .ok (v, wv.go)) ∧
      (∀ v, ∃ t, Gives wv.go wv.ir.slot.d v t) ∧ Named wv hv [wv.ir.slot.a] [] ∧ readRegs [wv.ir.slot.a] wv.go = .ok ([0x100], wv.go) ∧
      sysWritable (wv.ir.slot.imm.toNat % 256) wv.go = .ok ((), wv.go) ∧ ∃ s2, writeSys (wv.ir.slot.imm.toNat % 256) 0x100 wv.go = .ok ((), s2) ∧ ∃ t, Passes s2 t) ∧
    (wv.hart? wv.ir.hart = some hv ∧ hv.trap.mode = true) ∧ (w3.hart? w3.ir.hart = some h0 ∧ h0.trap.mode = false) ∧ w3.coreOf w3.ir.hart = some 0 :=
  ⟨⟨⟨rfl, rfl, fun _ => rfl⟩, ⟨rfl, rfl⟩, ⟨_, rfl⟩, fun _ => gives_x rfl rfl, ⟨rfl, rfl⟩, rfl, rfl, _, rfl, passes_x rfl⟩, ⟨rfl, rfl⟩, ⟨rfl, rfl⟩, rfl⟩
/-- The bounds of the stack registers are met: RSBASE and RSLIM at WBASE, WBASE at each of them, one past each, and one that is no multiple of 8. -/
theorem witness_SystemRegisterWrite :
    (wv.hart? wv.ir.hart = some hv ∧ hv.trap.mode = true ∧ hv.migratory = false ∧ hv.wbase.toNat % 32 = 0 ∧ hv.rsbase.toNat = hv.wbase.toNat ∧
      hv.wbase.toNat ≤ hv.rslim.toNat ∧ hv.rslim.toNat % 8 = 0 ∧ (0x10004 : Word).toNat % 8 ≠ 0 ∧ (0xFFF8 : Word).toNat + 8 = hv.rsbase.toNat ∧
      (0x20008 : Word).toNat = hv.rslim.toNat + 8) ∧
    (w3.hart? w3.ir.hart = some h0 ∧ h0.trap.mode = false ∧ h0.migratory = false ∧ isCtx w3.ir.hart = true) ∧
    (∃ (s : State) (x : Hart), s.hart? s.ir.hart = some x ∧ x.migratory = true) :=
  ⟨⟨rfl, rfl, rfl, by decide⟩, ⟨rfl, rfl, rfl, rfl⟩, at0 { h0 with migratory := true } {}, { h0 with migratory := true }, rfl, rfl⟩
/-- A good entry for the last quad TLB and for the last load-pipe TLB, with and without the fault bit; targets past each and a bad entry. -/
def wt (w0 w : Word) : State := at0 (((hv.setX 1 w0).setX 2 0x1234560003).setX 3 w) { a := 1, d := 5, imm := 0 }
theorem witness_TlbAndTranslation_write :
    (∀ w ∈ [(95 : Word), 128 + 95], ∃ (s s1 : State) (x : Hart) (q : QuadKey) (pipe : Bool), Ready s x .tlb ∧ x.trap.mode = true ∧
      readRange s.ir.slot.a.toNat 3 s.go = .ok ([0x7FFFFFF001D, 0x1234560003, w], s1) ∧ s1.ir = s.go.ir ∧
      tlbTarget 0 (w.toNat % 256) = some (q, pipe) ∧ entryOk 0x7FFFFFF001D 0x1234560003 = true ∧ w.toNat < 256 ∧
      let e := entryOf 0x7FFFFFF001D 0x1234560003
      let mine := fun (m : Miss) => m.quad == q && m.loadPipe == pipe && e.covers m.space m.page
      ∃ t, Passes (((s1.modDie 0 fun y => { y with misses := y.misses.filter fun m => !mine m, walking := y.walking.filter fun w => !mine w.2.1 }).modQuad q
        fun z => z.tlbWrite pipe e).wake q pipe e) t) ∧
    (∃ (s s1 : State) (x : Hart) (w : Word), Ready s x .tlb ∧ x.trap.mode = true ∧ readRange s.ir.slot.a.toNat 3 s.go = .ok ([0x7FFFFFF001D, 0x1234560003, w], s1) ∧
      tlbTarget 0 (w.toNat % 256) = some (95, false) ∧ 256 ≤ w.toNat ∧ w.toNat < 512 ∧ s1.ir = s.go.ir ∧ (s1.die 0).parkedMiss.length + 0 ≤ 4096 ∧
      let e := entryOf 0x7FFFFFF001D 0x1234560003
      let mine := fun (m : Miss) => m.quad == 95 && m.loadPipe == false && e.covers m.space m.page
      (s1.die 0).misses.filter mine = [] ∧
      ∃ t, Passes (s1.modDie 0 fun y => { y with misses := y.misses.filter fun m => !mine m, walking := y.walking.filter fun w => !mine w.2.1 }) t) ∧
    tlbTarget 0 (96 % 256) = none ∧ tlbTarget 0 (224 % 256) = none ∧ (512 : Word).toNat = 512 ∧ entryOk 0x1C 3 = false ∧ entryOk 0x1001F 3 = false := by
  refine ⟨fun w hw => ?_, ⟨wt 0x7FFFFFF001D (256 + 95), _, _, _, ⟨rfl, rfl, fun _ => rfl⟩, rfl, rfl, by decide, by decide, by decide, rfl, by decide +kernel, rfl, passes_x rfl⟩,
    by decide, by decide, by decide, by decide, by decide⟩
  simp only [List.mem_cons, List.not_mem_nil, or_false] at hw
  rcases hw with rfl | rfl
  · exact ⟨wt 0x7FFFFFF001D 95, _, _, 95, false, ⟨rfl, rfl, fun _ => rfl⟩, rfl, rfl, rfl, by decide, by decide, by decide, passes_x (by decide +kernel)⟩
  · exact ⟨wt 0x7FFFFFF001D 223, _, _, 95, true, ⟨rfl, rfl, fun _ => rfl⟩, rfl, rfl, rfl, by decide, by decide, by decide, passes_x (by decide +kernel)⟩
theorem witness_TlbAndTranslation_lookup : ∃ (e : TlbEntry) (space va : Nat), e.hits space va = true ∧ e.big = false :=
  ⟨{ vpn := 2 ^ 41 - 1, space := 65535, frame := 5 }, 65535, 2 ^ 57 - 1, by decide, rfl⟩
/-- A user thread that names its own context, and one that names another. -/
theorem witness_TlbAndTranslation_user : w3.hart? w3.ir.hart = some h0 ∧ isThread w3.ir.hart = true ∧ h0.migratory = false ∧ h0.trap.mode = false ∧
    Named w3 h0 [w3.ir.slot.a] [w3.ir.slot.d] ∧ readRegs [w3.ir.slot.a] w3.go = .ok ([0x100], w3.go) ∧ w3.ir.hart ≠ .ctx 0x100 0 ∧
    ∃ s : State, s.hart? s.ir.hart = some (h0.setX 1 0) ∧ readRegs [s.ir.slot.a] s.go = .ok ([0], s.go) ∧ s.ir.hart = .ctx 0 0 :=
  ⟨rfl, rfl, rfl, rfl, ⟨rfl, rfl⟩, rfl, by simp [w3, at0, issues], at0 (h0.setX 1 0) { a := 1 }, rfl, rfl, rfl⟩
theorem witness_TlbAndTranslation_others :
    (∀ k ∈ [0, 1, 2], ∃ (s s1 : State) (x : Hart), s.hart? s.ir.hart = some x ∧ x.trap.mode = true ∧ Ready s x .tlb ∧ s.ir.slot.imm.toNat % 4 = k ∧
      readRange s.ir.slot.a.toNat 2 s.go = .ok ([0x100, 0x200], s1) ∧ s1.ir = s.go.ir ∧ s1.accessesLeft (dieOfHart s.ir.hart / 4) = false ∧
      ∀ kill : TlbEntry → TlbEntry, ∃ t, Passes { s1 with quads := s1.quads.map fun p => if dieOfQuad p.1 / 4 = dieOfHart s.ir.hart / 4 then
        (p.1, { p.2 with tlb := p.2.tlb.map kill, pipeTlb := p.2.pipeTlb.map kill }) else p } t) ∧
    (∃ s s1 : State, Ready s hv .tlb ∧ s.ir.slot.imm.toNat % 4 < 2 ∧ readRange s.ir.slot.a.toNat 2 s.go = .ok ([0x100, 0x200], s1) ∧ s1.ir = s.go.ir ∧
      s1.accessesLeft 0 = true) ∧
    (Ready wv hv .sys ∧ wv.ir.slot.imm.getLsbD 0 = true ∧
      (∃ t, Passes ((List.range 4).foldl (fun u i => u.replayDie (4 * (dieOfHart wv.ir.hart / 4) + i)) wv.go) t) ∧ ∃ t, Passes (wv.go.replayDie (dieOfHart wv.ir.hart)) t) ∧
    (wv.coreOf wv.ir.hart = some 0 ∧ ∃ t, Passes (wv.go.modCore 0 fun k => { k with l1 := [] }) t) ∧
    (∃ (s : State) (m : Miss) (r : List Miss) (s1 : State), s.hart? s.ir.hart = some h0 ∧ s.ir.hart = .tsc 0 7 ∧ isThread s.ir.hart = false ∧
      (s.die 0).missq.toList.getD 7 [] = m :: r ∧
      writeRange s.ir.slot.d.toNat m.words (s.go.modDie 0 fun y => { y with missq := y.missq.setIfInBounds 7 r, walking := setKey 7 (m, h0.pc) y.walking }) = .ok ((), s1) ∧
        ∃ t, Passes s1 t) ∧
    (∃ s : State, s.hart? s.ir.hart = some h0 ∧ s.ir.hart = .tsc 0 7 ∧ (s.die 0).missq.toList.getD 7 [] = []) := by
  refine ⟨fun k hk => ?_, ⟨at0 hv { a := 1 } (world.modCore 0 fun k => { k with wbuf := [{ hart := .ctx 0 0, pc := 0, va := 0, cells := [] }] }), _,
      ⟨rfl, rfl, fun _ => rfl⟩, by decide, rfl, rfl, by decide +kernel⟩,
    ⟨⟨rfl, rfl, fun _ => rfl⟩, by decide, passes_x (by decide +kernel), passes_x (by decide +kernel)⟩, ⟨rfl, passes_x rfl⟩, ?_,
    ⟨issues (.tsc 0 7) h0 {}, rfl, rfl, rfl⟩⟩
  · simp only [List.mem_cons, List.not_mem_nil, or_false] at hk
    rcases hk with rfl | rfl | rfl
    · exact ⟨at0 hv { a := 1, imm := 0 }, _, hv, rfl, rfl, ⟨rfl, rfl, fun _ => rfl⟩, rfl, rfl, rfl, by decide +kernel, fun _ => passes_x rfl⟩
    · exact ⟨at0 hv { a := 1, imm := 1 }, _, hv, rfl, rfl, ⟨rfl, rfl, fun _ => rfl⟩, rfl, rfl, rfl, by decide +kernel, fun _ => passes_x rfl⟩
    · exact ⟨at0 hv { a := 1, imm := 2 }, _, hv, rfl, rfl, ⟨rfl, rfl, fun _ => rfl⟩, rfl, rfl, rfl, by decide +kernel, fun _ => passes_x rfl⟩
  · let m : Miss := { die := 0, quad := 3, loadPipe := false, space := 3, page := 9, kind := 0, slot := 0, lcore := 12, waiters := [] }
    exact ⟨(issues (.tsc 0 7) h0 { d := 13 }).modDie 0 fun y => { y with missq := y.missq.setIfInBounds 7 [m] }, _, _, _, rfl, rfl, rfl, rfl, rfl, passes_x rfl⟩
/-- A supervisor thread that names core a's context 0, and what `ctxsave` or `ctxload` has sent. -/
def wx (a : Word) : State := at0 (hv.setX 1 a) { d := 3, a := 1 }
def wxSent (a : Word) : State := ({ (wx a).go with free := 1 }).owe [.x 3 0] (returned := false) (tag := 1)
/-- `ctxsave` and `ctxload` of a core past the last, of one of this die without a thread, and of one of another die; the counters. -/
theorem witness_ContextsAndCounters :
    (∀ a ∈ [(1536 : Word), 5, 1535], Ready (wx a) (hv.setX 1 a) .sys ∧ (hv.setX 1 a).trap.mode = true ∧
      Named (wx a) (hv.setX 1 a) [(wx a).ir.slot.a] [(wx a).ir.slot.d] ∧ readRegs [(wx a).ir.slot.a] (wx a).go = .ok ([a], (wx a).go) ∧
      destReg (wx a).ir.slot.d 0 (wx a).go = .ok ([.x 3 0], (wx a).go) ∧ (wx a).ir.hart ≠ .ctx (a.toNat % 2 ^ 11) (a.toNat / 2 ^ 16 % 64)) ∧
    (∃ t, Passes ((wxSent 1536).returnTag (.ctx 0 0) 1 1) t) ∧
    (∀ load, (dieOfCore 5 = 0 ∧ ((wxSent 5).ctxRequest (.ctx 0 0) 1 load 5 0).2 = some 1 ∧
        ∃ t, Passes (((wxSent 5).ctxRequest (.ctx 0 0) 1 load 5 0).1.returnTag (.ctx 0 0) 1 1) t) ∧
      (dieOfCore 1535 = 3 ∧ ∃ t, Passes ((wxSent 1535).send 0 3 4 (.ctxReq (.ctx 0 0) 1 load 1535 0)) t)) ∧
    (Ready wv hv .sys ∧ hv.trap.mode = true ∧ wv.coreOf wv.ir.hart = some 0 ∧ Named wv hv [wv.ir.slot.a] [wv.ir.slot.d] ∧
      (∀ v, ∃ t, Gives wv.go wv.ir.slot.d v t) ∧ readRegs [wv.ir.slot.a] wv.go = .ok ([0x100], wv.go) ∧
      (∀ o w : Nat, ∃ t, Passes ((wv.go.ctlPut 0 o (BitVec.ofNat 64 w)).ctlPut 0 (o + 8) 0) t)) ∧ counterBad false 0x0D = false ∧ counterBad true 0x53 = true := by
  refine ⟨fun a ha => ?_, passes_x rfl, fun load => ?_, ⟨⟨rfl, rfl, fun _ => rfl⟩, rfl, rfl, ⟨rfl, rfl⟩, fun _ => gives_x rfl rfl, rfl, fun _ _ => passes_x rfl⟩, by decide, by decide⟩
  · simp only [List.mem_cons, List.not_mem_nil, or_false] at ha
    rcases ha with rfl | rfl | rfl <;> exact ⟨⟨rfl, rfl, fun _ => rfl⟩, rfl, ⟨rfl, rfl⟩, rfl, rfl, by simp [wx, at0, issues]⟩
  · cases load <;> exact ⟨⟨rfl, rfl, passes_x rfl⟩, rfl, passes_x rfl⟩
/-! ### Tasks, futures, barriers and messages -/

/-- A thread of element 0's launch, with x1 the number of the launch's last element, x2 core 1 and x3 its first future cell. -/
def ht : Hart := ((h0.setX 1 7).setX 2 1).setX 3 0x30000000001
/-- The launch has 8 elements, all on die 0. -/
def works : State := world.modLaunch 1 fun l => { l with count := 8, blocks := [{ first := 0, count := 8, die := 0 }] }
def wk (f : Slot) (x : Hart := ht) (s : State := works) : State := at0 x f s
/-- Core 1 with every context taken. -/
def crowded : State := { works with harts := (List.range 60).map fun n => (.ctx 1 n, h0) }
/-- Core 0 with its first n future cells taken. -/
def taken (n : Nat) : State := works.modCore 0 fun k => { k with futures := (List.range n).map fun i => (i, { valid := true }) }
theorem lookup_map (v : Future) (j : Nat) : ∀ l : List Nat, j ∈ l → lookupD {} j (l.map fun i => (i, v)) = v
  | i :: r, h => by
    by_cases hij : i = j
    · simp [lookupD, hij]
    · simp only [List.map_cons, lookupD, hij, if_false]
      exact lookup_map v j r ((List.mem_cons.1 h).resolve_left fun e => hij e.symm)
theorem cells_taken {s : State} {n : Nat} (h : (s.core 0).futures = (List.range n).map fun i => (i, { valid := true })) :
    ∀ j < n, ((s.core 0).future j).valid = true := by
  intro j hj
  simp only [Core.future, h, lookup_map _ j _ (List.mem_range.2 hj)]
theorem release_x {s : State} {x : Hart} {n : Nat} (h : (!x.outstanding.any (fun p => !p.returned) && !s.ssuMemory s.ir.hart && !s.releaseOpen s.ir.hart n &&
    (s.releaseDests s.ir.hart n).isEmpty) = true) : ReleaseDone s x n := by
  simp only [Bool.and_eq_true, Bool.not_eq_true', List.isEmpty_iff] at h
  exact ⟨⟨h.1.1.1, h.1.1.2⟩, h.1.2, fun _ _ => h.2⟩
set_option maxRecDepth 40000 in
/-- A revision that is not the root; a full core of cells; a target core without a context; a child on core 1. -/
theorem witness_SpawnAndPost_spawn :
    (∃ (s : State) (x : Hart), Ready s x .task ∧ x.revid = 1) ∧
    (∃ (s s1 : State) (args : List Word), Ready s ht .task ∧ ht.revid = 0 ∧ Named s ht [s.ir.slot.b] [s.ir.slot.d] ∧
      readRange s.ir.slot.a.toNat (s.ir.slot.misc.toNat % 32) s.go = .ok (args, s1) ∧ args.length = 16 ∧ s1.coreOf s1.ir.hart = some 0 ∧
      (∀ j < 256, ((s1.core 0).future j).valid = true) ∧ ∃ t, Gives s1 s.ir.slot.d 0 t) ∧
    (∃ (s s1 s2 : State), Ready s ht .task ∧ readRange s.ir.slot.a.toNat (s.ir.slot.misc.toNat % 32) s.go = .ok ([], s1) ∧
      (∃ j < 256, ((s1.core 0).future j).valid = false) ∧ spawnPlace s.ir.slot.b s1 = .ok (none, s2) ∧ ∃ t, Gives s2 s.ir.slot.d 1 t) ∧
    (∃ (s s1 s2 s3 : State) (hd : Word), Ready s ht .task ∧ readRange s.ir.slot.a.toNat (s.ir.slot.misc.toNat % 32) s.go = .ok ([0x700], s1) ∧
      (∃ j < 256, ((s1.core 0).future j).valid = false) ∧ spawnPlace s.ir.slot.b s1 = .ok (some (1, 0), s2) ∧ allocM s2 = .ok (some hd, s3) ∧
      s3.hart? s3.ir.hart = some ht ∧ ∀ child, ∃ t, Gives ((s3.placeHart (.ctx 1 0) child).liveUp ht.origin.launch) s.ir.slot.d hd t) := by
  refine ⟨⟨wk {} { ht with revid := 1 }, { ht with revid := 1 }, ⟨rfl, rfl, fun _ => rfl⟩, rfl⟩, ?_, ?_, ?_⟩
  · exact ⟨wk { d := 5, a := 0, b := 2, misc := 16 } ht (taken 256), _, _, ⟨rfl, rfl, fun _ => rfl⟩, rfl, ⟨rfl, rfl⟩, rfl, rfl, rfl, cells_taken rfl, gives_x rfl rfl⟩
  · exact ⟨wk { d := 5, b := 2 } ht crowded, _, _, ⟨rfl, rfl, fun _ => rfl⟩, rfl, ⟨0, by decide, rfl⟩, rfl, gives_x rfl rfl⟩
  · exact ⟨wk { d := 5, a := 7, b := 2, misc := 1 }, _, _, _, _, ⟨rfl, rfl, fun _ => rfl⟩, rfl, ⟨0, by decide, rfl⟩, rfl, rfl, rfl, fun child => gives_x rfl rfl⟩
/-- A post of the last element, and one past it. -/
theorem witness_SpawnAndPost_post : (∃ (s s1 : State) (launch : Launch), Ready s ht .task ∧ ht.revid = 0 ∧ Named s ht [s.ir.slot.a] [] ∧
    readRegs [s.ir.slot.a] s.go = .ok ([7], s1) ∧ s1.hart? s1.ir.hart = some ht ∧ ht.origin.launch = some 1 ∧ s1.launch? 1 = some launch ∧ launch.count = 8 ∧
    launch.home 7 = 0 ∧ ReleaseDone s1 ht 4 ∧ LinkFree s1 0 3 ∧ (∀ task : Task, ((s1.die 0).enter task).isSome = true) ∧
    (s1.die 0).readyUsed + (s1.die 0).spill.length + (s1.die 0).postsHere < 8192 + 16777216 ∧
    ∀ task : Task, ∃ t, Passes ((s1.modLaunch 1 fun z => { z with tasks := z.tasks + 1 }).send 0 0 3 (.post task) 0) t) ∧
    (∃ (s : State) (x : Hart), Ready s x .task ∧ readRegs [s.ir.slot.a] s.go = .ok ([8], s.go) ∧ s.go.hart? s.go.ir.hart = some x ∧
      ∃ launch, s.go.launch? 1 = some launch ∧ launch.count ≤ 8) :=
  ⟨⟨wk { a := 1 }, _, _, ⟨rfl, rfl, fun _ => rfl⟩, rfl, ⟨rfl, rfl⟩, rfl, rfl, rfl, rfl, rfl, by decide +kernel, release_x rfl, rfl, fun _ => rfl, by decide +kernel, fun _ => passes_x rfl⟩,
   ⟨wk { a := 1 } (ht.setX 1 8), _, ⟨rfl, rfl, fun _ => rfl⟩, rfl, rfl, _, rfl, by decide⟩⟩
/-- A core whose first cell is the thread's, full or not. -/
def celled (full : Bool) : State := works.modCore 0 fun k => { k with futures := [(0, { value := 9, full := full, owner := some (.ctx 0 0), valid := true, gen := 1 })] }
/-- Whether a handle names a cell of a hart of core 0. -/
def owns (s : State) (a : Word) : Bool :=
  let cell := (s.core 0).future (handleCell a)
  decide (a.toNat / 2 ^ 40 = 3 ∧ handleCore a = lcoreOf 0 ∧ cell.valid = true ∧ cell.gen.toNat = handleGen a ∧ cell.owner = some s.ir.hart)
set_option maxRecDepth 20000 in
theorem witness_Futures :
    (Ready (wk {}) ht .control ∧ ∃ t, Passes (wk {}).go t) ∧
    (∀ full, ∃ (s : State) (cell : Future), Ready s ht .task ∧ Named s ht [s.ir.slot.a] [s.ir.slot.d] ∧ readRegs [s.ir.slot.a] s.go = .ok ([0x30000000001], s.go) ∧
      ownCell 0x30000000001 s.go = .ok ((0, cell), s.go) ∧ cell.full = full ∧ owns s.go 0x30000000001 = true ∧ LoadsDone s.go ht ∧ s.coreOf s.ir.hart = some 0 ∧
      (∀ v, ∃ t, Gives s.go s.ir.slot.d v t) ∧
      ∃ ws s2, destReg s.ir.slot.d (putInt s.ir.slot.ty.toNat (intVal s.ir.slot.ty.toNat cell.value)) s.go = .ok (ws, s2) ∧
        ∃ t, Passes (freeCell 0 0 ((s2.owe ws).acquire s.ir.hart 4)) t) ∧
    (∀ a ∈ [(0x20000000001 : Word), 0x30000010001, 0x30100000001, 0x30000000002, 0x30000000001], ∃ (s : State) (x : Hart), Ready s x .task ∧
      readRegs [s.ir.slot.a] s.go = .ok ([a], s.go) ∧ s.coreOf s.ir.hart = some 0 ∧ owns s.go a = false) ∧
    (∃ s : State, Ready s ht .task ∧ Named s ht [s.ir.slot.a, s.ir.slot.b] [] ∧ readRegs [s.ir.slot.a, s.ir.slot.b] s.go = .ok ([0x30000000001, 7], s.go) ∧
      ReleaseDone s.go ht 4 ∧ LinkFree s.go (dieOfCore (handleCore 0x30000000001 % 1536)) 1 ∧ ∀ v acc, ∃ t, Passes (s.go.sendFill 0 0 0x30000000001 v acc 0) t) ∧
    (∃ (s s1 : State) (v : Option Word), Ready s ht .task ∧ Named s ht [] [s.ir.slot.d] ∧ allocM s.go = .ok (v, s1) ∧ ∃ t, Gives s1 s.ir.slot.d (v.getD 0) t) := by
  refine ⟨⟨⟨rfl, rfl, fun _ => rfl⟩, passes_x rfl⟩, fun full => ?_, fun a ha => ?_, ?_, ?_⟩
  · cases full
    · exact ⟨wk { d := 5, a := 3, ty := 8 } ht (celled false), _, ⟨rfl, rfl, fun _ => rfl⟩, ⟨rfl, rfl⟩, rfl, rfl, rfl, by decide +kernel, ⟨rfl, rfl⟩, rfl, fun _ => gives_x rfl rfl, _, _, rfl, passes_x rfl⟩
    · exact ⟨wk { d := 5, a := 3, ty := 8 } ht (celled true), _, ⟨rfl, rfl, fun _ => rfl⟩, ⟨rfl, rfl⟩, rfl, rfl, rfl, by decide +kernel, ⟨rfl, rfl⟩, rfl, fun _ => gives_x rfl rfl, _, _, rfl, passes_x rfl⟩
  · simp only [List.mem_cons, List.not_mem_nil, or_false] at ha
    rcases ha with rfl | rfl | rfl | rfl | rfl
    · exact ⟨wk { d := 5, a := 3 } (ht.setX 3 0x20000000001) (celled true), _, ⟨rfl, rfl, fun _ => rfl⟩, rfl, rfl, by decide +kernel⟩
    · exact ⟨wk { d := 5, a := 3 } (ht.setX 3 0x30000010001) (celled true), _, ⟨rfl, rfl, fun _ => rfl⟩, rfl, rfl, by decide +kernel⟩
    · exact ⟨wk { d := 5, a := 3 } (ht.setX 3 0x30100000001) (celled true), _, ⟨rfl, rfl, fun _ => rfl⟩, rfl, rfl, by decide +kernel⟩
    · exact ⟨wk { d := 5, a := 3 } (ht.setX 3 0x30000000002) (celled true), _, ⟨rfl, rfl, fun _ => rfl⟩, rfl, rfl, by decide +kernel⟩
    · exact ⟨issues (.ctx 0 1) ht { d := 5, a := 3 } (celled true), _, ⟨rfl, rfl, fun _ => rfl⟩, rfl, rfl, by decide +kernel⟩
  · exact ⟨wk { a := 3, b := 1 }, ⟨rfl, rfl, fun _ => rfl⟩, ⟨rfl, rfl⟩, rfl, release_x rfl, rfl, fun _ _ => passes_x rfl⟩
  · exact ⟨wk { d := 5 }, _, _, ⟨rfl, rfl, fun _ => rfl⟩, ⟨rfl, rfl⟩, rfl, gives_x rfl rfl⟩
/-- The last cell of a core, where all the others are taken. -/
theorem witness_Futures_last : ∃ s : State, s.coreOf s.ir.hart = some 0 ∧ ((s.core 0).future 255).valid = false ∧ ∀ j < 255, ((s.core 0).future j).valid = true :=
  ⟨wk {} ht (taken 255), rfl, by decide +kernel, cells_taken rfl⟩
/-- A thread's `done`, in a trap and out of one; a handler's end, with a reply and without; a thread with nothing left to wait for; and `bar` with
the greatest count, with none, and released. -/
theorem witness_ThreadEndAndBarriers :
    (∀ trapped, ∃ (s : State) (x : Hart), Ready s x .control ∧ x.trap.trapped = trapped ∧ isCtx s.ir.hart = true ∧ Named s x [s.ir.slot.a] [] ∧
      readRegs [s.ir.slot.a] s.go = .ok ([7], s.go) ∧ s.go.hart? s.ir.hart = some x ∧ Drained s x ∧ x.accesses = [] ∧ x.matrix = 0 ∧ s.coreOf s.ir.hart = some 0 ∧
      (s.go.core 0).wbuf = [] ∧ (s.go.core 0).cmdSsu = [] ∧ (s.go.core 0).ssu = []) ∧
    (∀ reply ∈ [none, some (0, (0x30000000001 : Word))], ∃ (s : State) (x : Hart), s.ir.hart = .handler 0 2 ∧ s.hart? (.handler 0 2) = some x ∧
      x.origin.reply = reply ∧ Drained s x ∧ x.migratory = false ∧ ReleaseDone s.go x 4 ∧ x.absent.contains 0 = false ∧ Named s x [s.ir.slot.a] []) ∧
    (∃ (s : State) (x : Hart) (e : Ending), s.hart? s.ir.hart = some x ∧ e.fill = none ∧ s.childrenOf s.ir.hart = [] ∧ s.coreOf s.ir.hart = some 0 ∧ (s.core 0).ssu = []) ∧
    (Ready (wk {}) ht .task ∧ (wk {}).ir.slot.imm.toNat % 2 ^ 24 = 0) ∧
    (∃ (s : State) (x : Hart), Ready s x .task ∧ s.ir.slot.imm.toNat % 2 ^ 24 ≠ 0 ∧ x.grant = some 5 ∧ LoadsDone s.go x ∧
      ∃ t, Passes (s.go.acquire s.ir.hart s.ir.slot.path.toNat) t) ∧
    (∃ s : State, Ready s ht .task ∧ s.ir.slot.imm.toNat % 2 ^ 24 = 2 ^ 24 - 1 ∧ ht.grant ≠ some 5 ∧ ReleaseDone s.go ht s.ir.slot.path.toNat ∧ s.coreOf s.ir.hart = some 0) := by
  refine ⟨fun trapped => ⟨wk { a := 1 } { ht with trap := { trapped := trapped } }, { ht with trap := { trapped := trapped } }, ⟨rfl, rfl, fun _ => rfl⟩, rfl, rfl, ⟨rfl, rfl⟩, rfl, rfl,
      ⟨rfl, rfl⟩, rfl, rfl, rfl, rfl, rfl, rfl⟩, fun reply _ => ⟨issues (.handler 0 2) { ht with origin := { reply := reply } } { a := 15 }, { ht with origin := { reply := reply } },
      rfl, rfl, rfl, ⟨rfl, rfl⟩, rfl, release_x ?_, rfl, ⟨rfl, rfl⟩⟩, ⟨wk {}, ht, {}, rfl, rfl, rfl, rfl, rfl⟩, ⟨⟨rfl, rfl, fun _ => rfl⟩, rfl⟩,
    ⟨wk { imm := 2, path := 2 } { ht with grant := some 5 }, { ht with grant := some 5 }, ⟨rfl, rfl, fun _ => rfl⟩, by decide, rfl, ⟨rfl, rfl⟩, passes_x rfl⟩,
    ⟨wk { imm := 0xFFFFFF, path := 4 }, ⟨rfl, rfl, fun _ => rfl⟩, by decide, by decide, release_x rfl, rfl⟩⟩
  rfl
/-! ### Messages, rings, engines and revisions -/

/-- Core 0 with ring 0 of four slots, one of which holds an empty message. -/
def ringed : State := works.setRing 0 0 { cap := 4, base := 0, filled := 1, free := 3, head := 0, tail := 1 }
theorem takes_1 {s : State} {x : Hart} {m : Nat} (h : ((s.ring (destCore 1) (1#64 : Word).toNat).cap) = 0) : RingTakes s x 1 m := .inr (.inl h)
set_option maxRecDepth 40000 in
/-- Each message instruction to core 1, which has no ring: `send` with seven words, held back and not; `enq` with and without an answer, and where
no cell is free; `amsg`; `amsgr`, and where no cell is free. -/
theorem witness_Messages :
    (∀ spec m, ∃ (s s3 : State) (ws : List Word), Ready s ht .task ∧ s.coreOf s.ir.hart = some 0 ∧ Named s ht [s.ir.slot.b] [] ∧
      readRange s.ir.slot.a.toNat (s.ir.slot.misc.toNat % 8) s.go = .ok (ws, s.go) ∧ ws.length = 7 ∧ readReg s.ir.slot.b s.go = .ok (1, s.go) ∧
      s.ir.slot.misc.getLsbD 4 = spec ∧ sendPacket spec (destDie 1) m false s.go = .ok ((), s3) ∧ RingTakes s.go ht 1 56 ∧ ∃ t, Passes s3 t) ∧
    (∀ m, ∃ (s s2 s3 s4 : State) (x : Hart) (bs : List Byte), Ready s x .task ∧ s.ir.slot.misc.getLsbD 0 = false ∧ Named s x [s.ir.slot.a, s.ir.slot.b] [] ∧
      readRegs [s.ir.slot.a, s.ir.slot.b] s.go = .ok ([0x20000, 1], s.go) ∧ s.ir.slot.imm.toNat % 2 ^ 13 = 8 ∧
      checkSpan 0x20000 8 true false s.go = .ok ((), s2) ∧ s2.hart? s2.ir.hart = some x ∧ s2.ir = s.go.ir ∧ loadSpan 0x20000 8 s2 = .ok (some bs, s3) ∧
      sendPacket false (destDie 1) m false s3 = .ok ((), s4) ∧ s3.ir = s.go.ir ∧ (∃ y, s3.hart? s.ir.hart = some y ∧ RingTakes s3 y 1 8) ∧ ∃ t, Passes s4 t) ∧
    (∀ m, ∃ (s s2 s3 s4 s5 : State) (x : Hart) (v : Word) (bs : List Byte), Ready s x .task ∧ s.ir.slot.misc.getLsbD 0 = true ∧
      Named s x [s.ir.slot.a, s.ir.slot.b] [s.ir.slot.d] ∧ readRegs [s.ir.slot.a, s.ir.slot.b] s.go = .ok ([0x20000, 1], s.go) ∧
      checkSpan 0x20000 8 true false s.go = .ok ((), s2) ∧ allocM s2 = .ok (some v, s3) ∧ s3.ir = s.go.ir ∧ loadSpan 0x20000 8 s3 = .ok (some bs, s4) ∧
      s4.ir = s.go.ir ∧ (∃ y, s4.hart? s.ir.hart = some y ∧ RingTakes s4 y 1 8) ∧ sendPacket false (destDie 1) m true s4 = .ok ((), s5) ∧ ∃ t, Gives s5 s.ir.slot.d v t) ∧
    (∃ (s s2 : State) (x : Hart), Ready s x .task ∧ s.ir.slot.misc.getLsbD 0 = true ∧ Named s x [s.ir.slot.a, s.ir.slot.b] [s.ir.slot.d] ∧
      readRegs [s.ir.slot.a, s.ir.slot.b] s.go = .ok ([0x20000, 1], s.go) ∧ checkSpan 0x20000 8 true false s.go = .ok ((), s2) ∧ s2.coreOf s2.ir.hart = some 0 ∧
      (s2.core 0).futures = (List.range 256).map (fun i => (i, { valid := true })) ∧ ∃ t, Gives s2 s.ir.slot.d 0 t) ∧
    (∀ spec, ∀ m : Msg, ∃ (s s3 : State) (args : List Word), Ready s ht .task ∧ Named s ht [s.ir.slot.b] [s.ir.slot.d] ∧ s.ir.slot.misc.getLsbD 4 = spec ∧
      readRange s.ir.slot.a.toNat (s.ir.slot.misc.toNat % 8) s.go = .ok (args, s.go) ∧ readReg s.ir.slot.b s.go = .ok (1, s.go) ∧
      sendPacket spec (destDie 1) m false s.go = .ok ((), s3) ∧ ∃ t, Passes s3 t) ∧
    (∃ s : State, Ready s ht .task ∧ s.coreOf s.ir.hart = some 0 ∧ (s.core 0).futures = (List.range 256).map (fun i => (i, { valid := true })) ∧ ∃ t, Gives s.go s.ir.slot.d 0 t) ∧
    (∀ m : Msg, ∃ (s s1 s4 : State) (v : Word), Ready s ht .task ∧ Named s ht [s.ir.slot.b] [s.ir.slot.d] ∧ allocM s.go = .ok (some v, s1) ∧
      readRange s.ir.slot.a.toNat (s.ir.slot.misc.toNat % 8) s1 = .ok ([], s1) ∧ readReg s.ir.slot.b s1 = .ok (1, s1) ∧
      sendPacket false (destDie 1) m false s1 = .ok ((), s4) ∧ ∃ t, Gives s4 s.ir.slot.d v t) := by
  refine ⟨fun spec m => ?_, fun m => ?_, fun m => ?_, ?_, fun spec m => ?_, ?_, fun m => ?_⟩
  · cases spec
    · exact ⟨wk { a := 4, b := 2, misc := 7 }, _, _, ⟨rfl, rfl, fun _ => rfl⟩, rfl, ⟨rfl, rfl⟩, rfl, rfl, rfl, by decide, rfl, takes_1 rfl, passes_x rfl⟩
    · exact ⟨wk { a := 4, b := 2, misc := 23 }, _, _, ⟨rfl, rfl, fun _ => rfl⟩, rfl, ⟨rfl, rfl⟩, rfl, rfl, rfl, by decide, rfl, takes_1 rfl, passes_x rfl⟩
  · exact ⟨wk { a := 1, b := 2, imm := 8 } (ht.setX 1 0x20000), _, _, _, _, _, ⟨rfl, rfl, fun _ => rfl⟩, by decide, ⟨rfl, rfl⟩, rfl, by decide, rfl, rfl, rfl, rfl, rfl, rfl,
      ⟨_, rfl, takes_1 rfl⟩, passes_x rfl⟩
  · exact ⟨wk { a := 1, b := 2, d := 5, misc := 1, imm := 8 } (ht.setX 1 0x20000), _, _, _, _, _, _, _, ⟨rfl, rfl, fun _ => rfl⟩, by decide, ⟨rfl, rfl⟩, rfl, rfl, rfl, rfl, rfl, rfl,
      ⟨_, rfl, takes_1 rfl⟩, rfl, gives_x rfl rfl⟩
  · exact ⟨wk { a := 1, b := 2, d := 5, misc := 1, imm := 8 } (ht.setX 1 0x20000) (taken 256), _, _, ⟨rfl, rfl, fun _ => rfl⟩, by decide, ⟨rfl, rfl⟩, rfl, rfl, rfl, rfl, gives_x rfl rfl⟩
  · cases spec
    · exact ⟨wk { a := 4, b := 2, d := 5, misc := 4 }, _, _, ⟨rfl, rfl, fun _ => rfl⟩, ⟨rfl, rfl⟩, by decide, rfl, rfl, rfl, passes_x rfl⟩
    · exact ⟨wk { a := 4, b := 2, d := 5, misc := 20 }, _, _, ⟨rfl, rfl, fun _ => rfl⟩, ⟨rfl, rfl⟩, by decide, rfl, rfl, rfl, passes_x rfl⟩
  · exact ⟨wk { d := 5 } ht (taken 256), ⟨rfl, rfl, fun _ => rfl⟩, rfl, rfl, gives_x rfl rfl⟩
  · exact ⟨wk { b := 2, d := 5 }, _, _, _, ⟨rfl, rfl, fun _ => rfl⟩, ⟨rfl, rfl⟩, rfl, rfl, rfl, rfl, gives_x rfl rfl⟩
/-- A core whose cells are all taken allocates none. -/
theorem no_cell {s : State} (hc : s.coreOf s.ir.hart = some 0) (hf : (s.core 0).futures = (List.range 256).map fun i => (i, { valid := true })) :
    allocM s = .ok (none, s) := by
  have h : s.allocCell 0 s.ir.hart = none := by
    unfold State.allocCell
    rw [List.find?_eq_none.2]
    intro i hi
    simp [cells_taken hf i (List.mem_range.1 hi)]
  have hm : myCore s = .ok (0, s) := by rw [myCore, bind_ok (get_ok s), hc]; rfl
  rw [allocM, bind_ok hm, bind_ok (me_ok s), bind_ok (get_ok s), h]
  rfl
/-- The send queue and the hold buffer, full and with one place left. -/
def packetX : Packet := { src := 0, dst := 0, vn := 2, msg := .credit 0 }
theorem witness_Messages_limits : (∀ n ∈ [15, 16], ∃ s : State, s.hart? s.ir.hart = some ht ∧ s.coreOf s.ir.hart = some 0 ∧ ((s.core 0).sendq.toList.getD 2 []).length = n) ∧
    ∀ n ∈ [31, 32], ∃ s : State, s.hart? s.ir.hart = some ht ∧ s.coreOf s.ir.hart = some 0 ∧ (s.core 0).hold.length = n := by
  constructor
  · intro n hn
    refine ⟨(wk {}).modCore 0 fun k => { k with sendq := k.sendq.setIfInBounds 2 (List.replicate n packetX) }, rfl, rfl, ?_⟩
    exact List.length_replicate
  · intro n hn
    refine ⟨(wk {}).modCore 0 fun k => { k with hold := List.replicate n (.ctx 0 1, packetX) }, rfl, rfl, ?_⟩
    exact List.length_replicate
set_option maxRecDepth 40000 in
theorem witness_ReceiveCommitAndTags :
    (∃ s : State, Ready s ht .task ∧ s.coreOf s.ir.hart = some 0 ∧ (s.ring 0 0).cap = 4 ∧ (s.ring 0 0).filled = 1 ∧
      (∀ hd w0, ∃ s1, writeRange s.ir.slot.d.toNat [hd, w0] s.go = .ok ((), s1) ∧ ∀ g, ∃ t, Passes (s1.setRing 0 0 g) t)) ∧
    (∃ s : State, Ready s ht .task ∧ s.coreOf s.ir.hart = some 0 ∧ (s.ring 0 0).cap = 4 ∧ (s.ring 0 0).filled = 0) ∧
    (∃ s : State, Ready s ht .task ∧ Named s ht [] [s.ir.slot.d] ∧ ht.grant = none ∧ (heldOf (s.core 0) s.ir.hart).length = 1 ∧
      ((s.core 0).sendq.toList.getD 2 []).length = 15 ∧ (∀ v, ∃ t, Gives (moveHeld 0 s.ir.hart 1 s.go) s.ir.slot.d v t) ∧
      ∀ v, ∃ t, Gives (s.go.modCore 0 fun k => { k with hold := k.hold.filter (fun p => p.1 ≠ s.ir.hart) }) s.ir.slot.d v t) :=
  ⟨⟨wk { d := 4, misc := 1 } ht ringed, ⟨rfl, rfl, fun _ => rfl⟩, rfl, by decide +kernel, by decide +kernel, fun _ _ => ⟨_, rfl, fun _ => passes_x rfl⟩⟩,
   ⟨wk { d := 4 } ht (works.setRing 0 0 { cap := 4, base := 0, filled := 0, free := 4, head := 0, tail := 0 }), ⟨rfl, rfl, fun _ => rfl⟩, rfl, by decide +kernel, by decide +kernel⟩,
   ⟨wk { d := 5 } ht (works.modCore 0 fun k => { k with sendq := k.sendq.setIfInBounds 2 (List.replicate 15 packetX), hold := [(.ctx 0 0, packetX)] }),
    ⟨rfl, rfl, fun _ => rfl⟩, ⟨rfl, rfl⟩, rfl, by decide +kernel, by decide +kernel, fun _ => gives_x rfl rfl, fun _ => gives_x rfl rfl⟩⟩
/-- A user thread; a handler with the greatest route tag, and a supervisor with the least, with and without the local bit. -/
theorem witness_ReceiveCommitAndTags_tags :
    (Ready (wk { a := 1 }) ht .task ∧ Named (wk { a := 1 }) ht [1] [] ∧ readRegs [1] (wk { a := 1 }).go = .ok ([7], (wk { a := 1 }).go) ∧ tagAllowed (.ctx 0 0) ht = false) ∧
    (∃ (s : State) (x : Hart), Ready s x .task ∧ Named s x [s.ir.slot.a] [] ∧ readRegs [s.ir.slot.a] s.go = .ok ([255], s.go) ∧
      s.go.hart? s.ir.hart = some x ∧ tagAllowed s.ir.hart x = true ∧ s.ir.slot.misc.getLsbD 0 = false ∧ ∀ g, ∃ t, Passes (s.go.modDie 0 g) t) ∧
    (∃ (s : State) (x : Hart), Ready s x .task ∧ Named s x [s.ir.slot.a] [] ∧ readRegs [s.ir.slot.a] s.go = .ok ([0], s.go) ∧
      s.go.hart? s.ir.hart = some x ∧ tagAllowed s.ir.hart x = true ∧ s.ir.slot.misc.getLsbD 0 = true ∧ s.coreOf s.ir.hart = some 0 ∧ ∀ g, ∃ t, Passes (s.go.modDie 0 g) t) :=
  ⟨⟨⟨rfl, rfl, fun _ => rfl⟩, ⟨rfl, rfl⟩, rfl, rfl⟩,
   ⟨issues (.handler 0 2) (ht.setX 1 255) { a := 1 } works, _, ⟨rfl, rfl, fun _ => rfl⟩, ⟨rfl, rfl⟩, rfl, rfl, rfl, rfl, fun _ => passes_x rfl⟩,
   ⟨wk { a := 1, misc := 1 } (Hart.setX { ht with trap := { mode := true } } 1 0), _, ⟨rfl, rfl, fun _ => rfl⟩, ⟨rfl, rfl⟩, rfl, rfl, rfl, rfl, rfl, fun _ => passes_x rfl⟩⟩
set_option maxRecDepth 40000 in
theorem witness_EngineCommands :
    (∀ b ∈ [0, 1], ∃ s : State, Ready s ht .task ∧ s.coreOf s.ir.hart = some 0 ∧ Named s ht [s.ir.slot.a, s.ir.slot.b] [] ∧ s.ir.slot.misc.toNat = b ∧
      readRegs [s.ir.slot.a, s.ir.slot.b] s.go = .ok ([7, 1], s.go) ∧ ReleaseDone s.go ht 1 ∧
      (s.go.core 0).cmdLd.length = 1 ∧ (s.go.core 0).cmdSt.length = 1 ∧ ∀ k, ∃ t, Passes (s.go.modCore 0 k) t) ∧
    (∃ (s s1 : State) (ws : List RegWrite), Ready s ht .task ∧ Named s ht [] [s.ir.slot.d] ∧ (s.word (scratchKey 0 0x7FFF8)).getLsbD 63 = true ∧
      s.ir.slot.misc.getLsbD 0 = true ∧ LoadsDone s.go ht ∧ destReg s.ir.slot.d (s.word (scratchKey 0 0x7FFF8)) s.go = .ok (ws, s1) ∧
      ∃ t, Passes (((s1.owe ws).putWord (scratchKey 0 0x7FFF8) 0).acquire s.ir.hart 1) t) ∧
    (Ready (wk { d := 5 }) ht .task ∧ ((wk { d := 5 }).word (scratchKey 0 0x7FFF0)).getLsbD 63 = false) ∧
    (∃ s : State, Ready s ht .task ∧ Named s ht [s.ir.slot.a] [s.ir.slot.d] ∧ readRegs [s.ir.slot.a] s.go = .ok ([7], s.go) ∧
      allocM s.go = .ok (none, s.go) ∧ ∃ t, Gives s.go s.ir.slot.d 0 t) ∧
    (∃ (s s2 : State) (v : Word), Ready s ht .task ∧ Named s ht [s.ir.slot.a] [s.ir.slot.d] ∧ readRegs [s.ir.slot.a] s.go = .ok ([7], s.go) ∧
      allocM s.go = .ok (some v, s2) ∧ ReleaseDone s2 ht 1 ∧ (s2.core 0).cmdGe.length = 0 ∧ ∀ g, ∃ t, Gives (s2.modCore 0 g) s.ir.slot.d v t) := by
  refine ⟨fun b hb => ?_, ?_, ⟨⟨rfl, rfl, fun _ => rfl⟩, by decide +kernel⟩, ?_, ?_⟩
  · let one : State := works.modCore 0 fun k => { k with cmdLd := [{ pc := 0, arg := 0 }], cmdSt := [{ pc := 0, arg := 0 }] }
    simp only [List.mem_cons, List.not_mem_nil, or_false] at hb
    rcases hb with rfl | rfl
    · exact ⟨wk { a := 1, b := 2, misc := 0 } ht one, ⟨rfl, rfl, fun _ => rfl⟩, rfl, ⟨rfl, rfl⟩, rfl, rfl, release_x rfl, rfl, rfl, fun _ => passes_x rfl⟩
    · exact ⟨wk { a := 1, b := 2, misc := 1 } ht one, ⟨rfl, rfl, fun _ => rfl⟩, rfl, ⟨rfl, rfl⟩, rfl, rfl, release_x rfl, rfl, rfl, fun _ => passes_x rfl⟩
  · exact ⟨wk { d := 5, misc := 1 } ht (works.putWord (scratchKey 0 0x7FFF8) 0x8000000000000000), _, _, ⟨rfl, rfl, fun _ => rfl⟩, ⟨rfl, rfl⟩, by decide +kernel, by decide, ⟨rfl, rfl⟩, rfl, passes_x rfl⟩
  · exact ⟨wk { a := 1, d := 5 } ht (taken 256), ⟨rfl, rfl, fun _ => rfl⟩, ⟨rfl, rfl⟩, rfl, no_cell rfl rfl, gives_x rfl rfl⟩
  · exact ⟨wk { a := 1, d := 5 }, _, _, ⟨rfl, rfl, fun _ => rfl⟩, ⟨rfl, rfl⟩, rfl, rfl, release_x rfl, rfl, fun _ => gives_x rfl rfl⟩
/-- The gather engine with tags 0 to 62 in use, and with all; with one answer, and with none. -/
theorem witness_EngineCommands_requests :
    (∃ s : State, Ready s ht .freq ∧ s.ir.hart = .gather 0 ∧ readRegs [s.ir.slot.a, s.ir.slot.b] s.go = .ok ([7, 1], s.go) ∧
      ((s.go.die 0).freq.map (·.1)).contains 63 = false ∧ (∀ j < 63, ((s.go.die 0).freq.map (·.1)).contains j = true) ∧
      ∃ t, Gives ((s.go.request 0 ht.origin.owner (s.ir.slot.misc.toNat % 4) s.ir.slot.ty.toNat 7 1).1.modDie 0 fun z => { z with freq := z.freq ++ [(63, 0, 0)] }) s.ir.slot.d 63 t) ∧
    (∃ s : State, Ready s ht .freq ∧ s.ir.hart = .gather 0 ∧ readRegs [s.ir.slot.a, s.ir.slot.b] s.go = .ok ([7, 1], s.go) ∧
      ∀ j < 64, ((s.go.die 0).freq.map (·.1)).contains j = true) ∧
    (∃ (s s1 : State) (ws : List RegWrite), Ready s ht .freq ∧ s.ir.hart = .gather 0 ∧ (s.die 0).freq = [(3, 9, 0)] ∧
      destReg s.ir.slot.d (BitVec.ofNat 64 3) (s.go.modDie 0 fun z => { z with freq := [] }) = .ok (ws, s1) ∧ ∃ t, Gives (s1.owe ws) (BitVec.ofNat 5 (s.ir.slot.d.toNat + 1)) 9 t) ∧
    (∃ s : State, Ready s ht .freq ∧ s.ir.hart = .gather 0 ∧ (s.die 0).freq = []) :=
  ⟨⟨issues (.gather 0) ht { a := 1, b := 2, d := 5 } (works.modDie 0 fun z => { z with freq := (List.range 63).map fun n => (n, 0, 0) }), ⟨rfl, rfl, fun _ => rfl⟩, rfl, rfl,
     by decide +kernel, by decide +kernel, gives_x rfl (by decide +kernel)⟩,
   ⟨issues (.gather 0) ht { a := 1, b := 2, d := 5 } (works.modDie 0 fun z => { z with freq := (List.range 64).map fun n => (n, 0, 0) }), ⟨rfl, rfl, fun _ => rfl⟩, rfl, rfl,
     by decide +kernel⟩,
   ⟨issues (.gather 0) ht { d := 14 } (works.modDie 0 fun z => { z with freq := [(3, 9, 0)] }), _, _, ⟨rfl, rfl, fun _ => rfl⟩, rfl, rfl, rfl, gives_x rfl rfl⟩,
   ⟨issues (.gather 0) ht {}, ⟨rfl, rfl, fun _ => rfl⟩, rfl, rfl⟩⟩
set_option maxRecDepth 40000 in
theorem witness_RingInstructions :
    (∃ s : State, Ready s ht .ring ∧ s.coreOf s.ir.hart = some 0 ∧ Named s ht [s.ir.slot.a] [s.ir.slot.d] ∧ readRegs [s.ir.slot.a] s.go = .ok ([7], s.go) ∧
      s.go.ringIdle 0 0 = false ∧ (s.ring 0 0).cap = 4 ∧ (s.ring 0 0).free = 3 ∧ (s.ring 0 0).filled = 1 ∧ s.go.ringRoom 0 0 1 = true ∧
      (∃ t, Passes ((s.go.reserveOwn 0 0 1).landWord 0 0 (s.go.free + 1) 7) t) ∧ (∀ v, ∃ t, Gives s.go s.ir.slot.d v t) ∧ (∀ g, ∃ t, Passes (s.go.setRing 0 0 g) t) ∧
      ∃ v s1, popRing 0 s.go = .ok (v, s1) ∧ ∃ t, Gives s1 s.ir.slot.d v t) ∧
    (∃ (s : State) (x : Hart) (a : Word), Ready s x .ring ∧ readRegs [s.ir.slot.a] s.go = .ok ([a], s.go) ∧ s.go.ringIdle 0 0 = true ∧
      a.toNat / 2 ^ 16 % 2 ^ 14 + a.toNat % 2 ^ 13 = 8192 ∧ s.go.ringBad 0 0 (a.toNat / 2 ^ 16 % 2 ^ 14) (a.toNat % 2 ^ 13) = false ∧
      ∃ t, Passes (s.go.ringSet 0 0 (a.toNat / 2 ^ 16 % 2 ^ 14) (a.toNat % 2 ^ 13)) t) ∧
    (∃ (s s2 s3 : State) (x : Hart), Ready s x .ring ∧ Named s x [s.ir.slot.a] [] ∧ readRegs [s.ir.slot.a] s.go = .ok ([0x20000], s.go) ∧ (s.ring 0 0).cap = 4 ∧ (s.ring 0 0).filled = 1 ∧
      checkSpan 0x20000 8 false true s.go = .ok ((), s2) ∧ storeSpan 0x20000 (getRing s.go 0 (s.go.ring 0 0) (s.go.ring 0 0).head 0 8) s2 = .ok ((), s3) ∧
      ∀ g, ∃ t, Passes (s3.setRing 0 0 g) t) ∧
    (∃ (s s3 : State) (x : Hart) (bs : List Byte), Ready s x .ring ∧ readRegs [s.ir.slot.a] s.go = .ok ([0x20000], s.go) ∧ s.ir.slot.imm.toNat / 2 ^ 12 % 2 ^ 13 = 16 ∧ (s.ring 0 0).cap = 4 ∧
      checkSpan 0x20000 16 true false s.go = .ok ((), s.go) ∧ ringSlots 16 ≤ (s.ring 0 0).cap ∧ s.go.ringRoom 0 0 (ringSlots 16) = true ∧
      loadSpan 0x20000 16 s.go = .ok (some bs, s3) ∧ ∃ t, Passes ((s3.reserveOwn 0 0 (ringSlots 16)).landTicket 0 0 (s3.free + 1) (leBytes 8 (ringHeader 0 16) ++ bs)) t) := by
  refine ⟨?_, ?_, ?_, ?_⟩
  · exact ⟨wk { a := 1, d := 5 } ht ringed, ⟨rfl, rfl, fun _ => rfl⟩, rfl, ⟨rfl, rfl⟩, rfl, by decide +kernel, by decide +kernel, by decide +kernel, by decide +kernel, by decide +kernel,
      passes_x rfl, fun _ => gives_x rfl rfl, fun _ => passes_x rfl, _, _, rfl, gives_x rfl rfl⟩
  · exact ⟨wk { a := 1 } (ht.setX 1 0x00041FFC), ht.setX 1 0x00041FFC, 0x00041FFC, ⟨rfl, rfl, fun _ => rfl⟩, rfl, by decide +kernel, by decide, by decide +kernel, passes_x rfl⟩
  · exact ⟨wk { a := 1 } (ht.setX 1 0x20000) ringed, _, _, ht.setX 1 0x20000, ⟨rfl, rfl, fun _ => rfl⟩, ⟨rfl, rfl⟩, rfl, by decide +kernel, by decide +kernel, rfl, rfl, fun _ => passes_x rfl⟩
  · exact ⟨wk { a := 1, imm := 0x10000 } (ht.setX 1 0x20000) ringed, _, ht.setX 1 0x20000, _, ⟨rfl, rfl, fun _ => rfl⟩, rfl, by decide, by decide +kernel, rfl, by decide +kernel, by decide +kernel, rfl,
      passes_x rfl⟩
/-- A thread of job 0, whose x1 holds its child's handle 7. -/
def hj : Hart := { ht with origin := { ht.origin with job := some 0 } }
def jobbed (quota : Word) (revs : List Revision) : State := (works.ctlPut 0 0x400000 quota).modJob 0 fun y => { y with revs := revs }
def child1 : Revision := { num := 1, parent := 0, order := 1, owner := .ctx 0 0, handle := 7 }
set_option maxRecDepth 40000 in
/-- `fork` outside a job; at the quota; with the last place under the quota, sixteen words and a context of its own core. -/
theorem witness_RevisionInstructions_fork :
    (∃ s s1 : State, Ready s ht .task ∧ Named s ht [] [s.ir.slot.d] ∧ readRange s.ir.slot.a.toNat (s.ir.slot.misc.toNat % 32) s.go = .ok ([], s1) ∧
      ReleaseDone s1 ht 4 ∧ s1.ir = s.go.ir ∧ s1.coreOf s.ir.hart = some 0 ∧ s1.hart? s.ir.hart = some ht ∧ ht.origin.job = none ∧ ∃ t, Gives s1 s.ir.slot.d 0 t) ∧
    (∃ s : State, Ready s hj .task ∧ readRange s.ir.slot.a.toNat (s.ir.slot.misc.toNat % 32) s.go = .ok ([], s.go) ∧ ReleaseDone s.go hj 4 ∧
      hj.origin.job = some 0 ∧ s.go.quota 0 + 1 = (s.go.job 0).use + 1 ∧ ∃ t, Gives s.go s.ir.slot.d 0 t) ∧
    (∃ (s s3 : State) (args : List Word) (ws : List RegWrite), Ready s hj .task ∧ readRange s.ir.slot.a.toNat (s.ir.slot.misc.toNat % 32) s.go = .ok (args, s.go) ∧ args.length = 16 ∧
      ReleaseDone s.go hj 4 ∧ s.go.coreOf s.ir.hart = some 0 ∧ s.go.hart? s.ir.hart = some hj ∧ hj.origin.job = some 0 ∧ (s.go.job 0).use + 1 = s.go.quota 0 ∧
      (s.go.job 0).freeNum = some 2 ∧ s.go.freeAmong [0] = some (0, 1) ∧ destReg s.ir.slot.d 0 s.go = .ok (ws, s3) ∧ endingLoops hj hj.pc = [] ∧ HartId.ctx 0 1 ≠ s.ir.hart) :=
  ⟨⟨wk { d := 5 }, _, ⟨rfl, rfl, fun _ => rfl⟩, ⟨rfl, rfl⟩, rfl, release_x rfl, rfl, rfl, rfl, rfl, gives_x rfl rfl⟩,
   ⟨wk { d := 5 } hj (jobbed 0 []), ⟨rfl, rfl, fun _ => rfl⟩, rfl, release_x rfl, rfl, by decide +kernel, gives_x rfl rfl⟩,
   ⟨wk { d := 5, misc := 16 } hj (jobbed 2 [child1]), _, _, _, ⟨rfl, rfl, fun _ => rfl⟩, rfl, rfl, release_x rfl, rfl, rfl, rfl, by decide +kernel, by decide +kernel, by decide +kernel, rfl,
    ending_none _ (by decide), by decide⟩⟩
/-- A quad with no free context: every slot of its cores holds a thread. -/
def fullQuad : State := { jobbed 2 [] with harts := (List.range 4).flatMap fun c => (List.range 60).map fun n => (.ctx c n, h0) }
theorem lookup_some {κ α : Type} [DecidableEq κ] (k : κ) (v : α) : ∀ l : List (κ × α), (k, v) ∈ l → (lookup? k l).isSome = true
  | (j, w) :: r, h => by
    by_cases hj : j = k
    · simp [lookup?, hj]
    · simp only [lookup?, hj, if_false]
      exact lookup_some k v r ((List.mem_cons.1 h).resolve_left fun e => hj (congrArg Prod.fst e).symm)
theorem full_core (c : Nat) (hc : c < 4) : (wk { d := 5 } hj fullQuad).go.freeSlot c = none := by
  have hmem : ∀ n < 60, (HartId.ctx c n, h0) ∈ fullQuad.harts := fun n hn =>
    List.mem_flatMap.2 ⟨c, List.mem_range.2 hc, List.mem_map.2 ⟨n, List.mem_range.2 hn, rfl⟩⟩
  rw [State.freeSlot, List.find?_eq_none.2]
  intro n hn
  have hn : n < 60 := List.mem_range.1 hn
  have : ((wk { d := 5 } hj fullQuad).go.hart? (.ctx c n)).isSome = true := by
    show (lookup? (HartId.ctx c n) (setKey (.ctx 0 0) hj fullQuad.harts)).isSome = true
    by_cases h : HartId.ctx c n = .ctx 0 0
    · rw [h]; decide
    · rw [lookup?_setKey_ne h]
      exact lookup_some _ _ _ (hmem n hn)
  rw [State.ctxTaken, this]; simp
theorem witness_RevisionInstructions_full : ∃ s : State, Ready s hj .task ∧ Named s hj [] [s.ir.slot.d] ∧
    readRange s.ir.slot.a.toNat (s.ir.slot.misc.toNat % 32) s.go = .ok ([], s.go) ∧ ReleaseDone s.go hj 4 ∧ s.go.coreOf s.ir.hart = some 0 ∧ s.go.hart? s.ir.hart = some hj ∧
    hj.origin.job = some 0 ∧ (s.go.job 0).use + 1 ≤ s.go.quota 0 ∧ (s.go.job 0).freeNum = some 1 ∧ s.go.freeAmong [0] = none ∧ s.go.freeAmong (quadCores (quadOfCore 0)) = none ∧
    ∃ t, Gives s.go s.ir.slot.d 1 t := by
  have h : ∀ cs : List CoreKey, (∀ c ∈ cs, c < 4) → (wk { d := 5 } hj fullQuad).go.freeAmong cs = none := by
    intro cs hcs
    simp only [State.freeAmong, List.findSome?_eq_none_iff]
    intro c hc
    rw [full_core c (hcs c hc)]
    rfl
  exact ⟨wk { d := 5 } hj fullQuad, ⟨rfl, rfl, fun _ => rfl⟩, ⟨rfl, rfl⟩, rfl, release_x rfl, rfl, rfl, rfl, by decide +kernel, by decide +kernel, h _ (by decide), h _ (by decide), gives_x rfl rfl⟩
/-- A thread whose child 7 has joined with status 2. -/
def hjoined : Hart := { hj with joined := some (7, 0x10000000002) }
set_option maxRecDepth 40000 in
/-- A join that its merge has answered; a child whose tree is quiet, and one that has an instruction outstanding; a query. -/
theorem witness_RevisionInstructions_join :
    (∃ (s s2 : State) (ws : List RegWrite), Ready s hjoined .task ∧ Named s hjoined [s.ir.slot.a] [s.ir.slot.d] ∧ readRegs [s.ir.slot.a] s.go = .ok ([7], s.go) ∧
      LoadsDone s.go hjoined ∧ destReg s.ir.slot.d (BitVec.ofNat 64 2) (s.go.acquire s.ir.hart 4) = .ok (ws, s2) ∧
      ∀ fl, ∃ t, Passes ((s2.owe ws fl).modHart s.ir.hart fun y => { y with joined := none }) t) ∧
    (∃ s : State, Ready s hj .task ∧ Named s hj [s.ir.slot.a] [s.ir.slot.d] ∧ readRegs [s.ir.slot.a] s.go = .ok ([7], s.go) ∧ (∀ g, hj.joined ≠ some (7, g)) ∧
      childOf 7 s.go = .ok ((0, child1), s.go) ∧ s.go.treeQuiet 0 1 = true ∧ (∃ t, Gives (s.go.dropRevision 0 1) s.ir.slot.d 0xFF t) ∧ hj.origin.job = some 0 ∧
      ∀ v, ∃ t, Gives s.go s.ir.slot.d v t) ∧
    (∃ s : State, Ready s hj .task ∧ readRegs [s.ir.slot.a] s.go = .ok ([7], s.go) ∧ childOf 7 s.go = .ok ((0, { child1 with child := some (.ctx 0 1) }), s.go) ∧
      s.go.treeQuiet 0 1 = false) :=
  ⟨⟨wk { a := 1, d := 5 } hjoined, _, _, ⟨rfl, rfl, fun _ => rfl⟩, ⟨rfl, rfl⟩, rfl, ⟨rfl, rfl⟩, rfl, fun _ => passes_x rfl⟩,
   ⟨wk { a := 1, d := 5 } hj (jobbed 4 [child1]), ⟨rfl, rfl, fun _ => rfl⟩, ⟨rfl, rfl⟩, rfl, fun _ h => (by cases h), rfl, by decide +kernel, gives_x rfl rfl, rfl, fun _ => gives_x rfl rfl⟩,
   ⟨wk { a := 1, d := 5 } hj ((jobbed 4 [{ child1 with child := some (.ctx 0 1) }]).setHart (.ctx 0 1) { h0 with outstanding := [{}] }), ⟨rfl, rfl, fun _ => rfl⟩, rfl, rfl, by decide +kernel⟩⟩

/-! ### Vectors -/

/-- A thread with values in v1 and v2 and bits 0 and 2 of k1 set; it issues a masked u32 instruction. -/
def hx : Hart := { h0 with regs := { h0.regs with v := (h0.regs.v.set 1 0x03020100).set 2 0x0000000100000001, k := h0.regs.k.set 1 5 } }
def wxv (f : Slot := { d := 3, a := 1, b := 2, c := 4, ty := 7, misc := 9 }) : State := at0 hx f
theorem vecHere_hx (f : Slot) (l : List (BitVec 5)) : VecHere hx f l := ⟨fun _ _ => rfl, fun _ _ _ => rfl⟩
theorem witness_VectorElementwise :
    Ready wxv hx .vector ∧ VecHere hx wxv.ir.slot [wxv.ir.slot.a] ∧ Here hx [8 + wxv.ir.slot.d.toNat] ∧ Here hx [8 + wxv.ir.slot.c.toNat] ∧
    (∃ b, BFrom .vector wxv.vec hx b wxv.vec) ∧ (∃ b, BFrom .broadcast wxv.vec hx b wxv.vec) ∧ (∃ b, BFrom .immediate wxv.vec hx b wxv.vec) ∧
    (∀ rounds, ∃ mode s2 z, elemDraws wxv.ir.slot rounds (hx.actives wxv.ir.slot 32) wxv.vec = .ok (mode, s2) ∧ s2.ir = wxv.go.ir ∧ s2.hart? wxv.ir.hart = some z ∧
      Here z [8 + wxv.ir.slot.d.toNat] ∧ ∀ p val fl, ∃ t, Passes (s2.oweVec wxv.ir.slot.d 32 p val fl) t) := by
  refine ⟨⟨rfl, rfl, fun _ => rfl⟩, vecHere_hx _ _, fun _ _ => rfl, fun _ _ => rfl, ⟨_, fun _ _ => rfl, rfl, rfl⟩, ⟨_, ⟨rfl, rfl⟩, _, rfl, rfl⟩, ⟨_, rfl, rfl⟩, fun rounds => ?_⟩
  cases rounds <;> exact ⟨_, wxv.vec, hx.vec, rfl, rfl, rfl, fun _ _ => rfl, fun _ _ _ => passes_x rfl⟩
theorem witness_VectorWritesAndDraws : (∃ i, i < elemCount 8) ∧ (wxv.hart? (.ctx 0 0) = some hx ∧ 31 < 32) ∧
    (∃ (s : State) (x : Hart) (f : Slot) (acts : List Nat), s.hart? s.ir.hart = some x ∧ isThread s.ir.hart = true ∧ acts.Nodup ∧
      (if f.rm.toNat = 7 then x.frm.toNat else f.rm.toNat) = 4 ∧ isIntType f.ty.toNat = false) ∧
    ∃ f : Slot, (if f.rm.toNat = 7 then hx.frm.toNat else f.rm.toNat) ≠ 4 :=
  ⟨⟨127, by decide⟩, ⟨rfl, by decide⟩, ⟨wxv, hx, { rm := 4, ty := 9 }, [0, 3, 5], rfl, rfl, by decide, rfl, by decide⟩, { rm := 3 }, by decide⟩
theorem witness_VectorComparesAndSelects :
    Ready wxv hx .vector ∧ VecHere hx wxv.ir.slot [wxv.ir.slot.a] ∧ wxv.vec.ir = wxv.go.ir ∧ wxv.vec.hart? wxv.ir.hart = some hx.vec ∧ Here hx.vec [40] ∧
    Here hx.vec [8 + wxv.ir.slot.d.toNat] ∧ (∀ m fl, ∃ t, Passes (wxv.vec.oweMask wxv.ir.slot.d m fl) t) ∧ ∀ p val, ∃ t, Passes (wxv.vec.oweVec wxv.ir.slot.d 32 p val) t :=
  ⟨⟨rfl, rfl, fun _ => rfl⟩, vecHere_hx _ _, rfl, rfl, fun _ _ => rfl, fun _ _ => rfl, fun _ _ => passes_x rfl, fun _ _ => passes_x rfl⟩
theorem witness_VectorMoves :
    (Ready wxv hx .vector ∧ VecHere hx wxv.ir.slot [wxv.ir.slot.a, wxv.ir.slot.b, wxv.ir.slot.d] ∧ (∀ p val, ∃ t, Passes (wxv.vec.oweVec wxv.ir.slot.d 32 p val) t)) ∧
    (Named wxv hx [wxv.ir.slot.b] [wxv.ir.slot.d] ∧ readReg wxv.ir.slot.b wxv.vec = .ok (0x200, wxv.vec) ∧ wxv.vec.ir = wxv.go.ir ∧ wxv.vec.hart? wxv.ir.hart = some hx.vec ∧
      VecHere hx.vec wxv.ir.slot [wxv.ir.slot.d] ∧ hx.vec.regs.k = hx.regs.k ∧ wxv.ir.slot.misc.getLsbD 4 = false) ∧
    (∀ v, ∃ t, Gives wxv.vec wxv.ir.slot.d v t) ∧ (∃ s : State, Ready s hx .vector ∧ s.ir.slot.misc.getLsbD 4 = true) :=
  ⟨⟨⟨rfl, rfl, fun _ => rfl⟩, vecHere_hx _ _, fun _ _ => passes_x rfl⟩, ⟨⟨rfl, rfl⟩, rfl, rfl, rfl, ⟨fun _ _ => rfl, fun _ _ _ => rfl⟩, rfl, by decide⟩, fun _ => gives_x rfl rfl,
   wxv { misc := 25 }, ⟨rfl, rfl, fun _ => rfl⟩, by decide⟩
theorem witness_VectorConversions :
    (∃ (s : State) (mode : Nat → RMode), Ready s hx .vector ∧ VecHere hx s.ir.slot [s.ir.slot.a] ∧ typeWidth s.ir.slot.b.toNat = 8 ∧ s.vec.ir = s.go.ir ∧
      s.vec.hart? s.ir.hart = some hx.vec ∧ Here hx.vec [8 + s.ir.slot.d.toNat] ∧
      elemDraws { s.ir.slot with ty := if isIntType s.ir.slot.ty.toNat then s.ir.slot.b else s.ir.slot.ty } true (hx.actives s.ir.slot 32) s.vec = .ok (mode, s.vec) ∧
      ∀ p val fl, ∃ t, Passes (s.vec.oweVec s.ir.slot.d 32 p val fl) t) ∧
    (∀ ty ∈ [(9 : BitVec 5), 14], ∃ (s s1 : State) (us : List Word), Ready s hx .vector ∧ s.ir.slot.ty = ty ∧ Named s hx [s.ir.slot.b] [] ∧ readReg s.ir.slot.b s.vec = .ok (0x200, s.vec) ∧
      draws 0x02 (hx.actives s.ir.slot (typeWidth ty.toNat)).length s.vec = .ok (us, s1) ∧ s1.ir = s.go.ir ∧
      ∃ z, s1.hart? s.ir.hart = some z ∧ Here z [8 + s.ir.slot.d.toNat] ∧ ∀ p val fl, ∃ t, Passes (s1.oweVec s.ir.slot.d (typeWidth ty.toNat) p val fl) t) :=
  ⟨⟨wxv { d := 3, a := 1, b := 5, ty := 7, misc := 9 }, _, ⟨rfl, rfl, fun _ => rfl⟩, vecHere_hx _ _, by decide, rfl, rfl, fun _ _ => rfl, rfl, fun _ _ _ => passes_x rfl⟩,
   fun ty hty => by
    simp only [List.mem_cons, List.not_mem_nil, or_false] at hty
    rcases hty with rfl | rfl
    · exact ⟨wxv { d := 3, a := 1, b := 2, ty := 9, misc := 9 }, _, _, ⟨rfl, rfl, fun _ => rfl⟩, rfl, ⟨rfl, rfl⟩, rfl, rfl, rfl, _, rfl, fun _ _ => rfl, fun _ _ _ => passes_x rfl⟩
    · exact ⟨wxv { d := 3, a := 1, b := 2, ty := 14, misc := 9 }, _, _, ⟨rfl, rfl, fun _ => rfl⟩, rfl, ⟨rfl, rfl⟩, rfl, rfl, rfl, _, rfl, fun _ _ => rfl, fun _ _ _ => passes_x rfl⟩⟩
theorem witness_VectorReductions :
    Ready wxv hx .vector ∧ isThread wxv.ir.hart = true ∧ VecHere hx wxv.ir.slot [wxv.ir.slot.a] ∧ Named wxv hx [wxv.ir.slot.b] [] ∧ readReg wxv.ir.slot.b wxv.vec = .ok (0x200, wxv.vec) ∧
      wxv.vec.ir = wxv.go.ir ∧ wxv.vec.hart? wxv.ir.hart = some hx.vec ∧ VecHere hx.vec wxv.ir.slot [wxv.ir.slot.d] ∧ hx.vec.frm = hx.frm ∧ hx.vec.regs.k = hx.regs.k ∧
      ∀ p val fl, ∃ t, Passes (wxv.vec.oweVec wxv.ir.slot.d 32 p val fl) t :=
  ⟨⟨rfl, rfl, fun _ => rfl⟩, rfl, vecHere_hx _ _, ⟨rfl, rfl⟩, rfl, rfl, rfl, ⟨fun _ _ => rfl, fun _ _ _ => rfl⟩, rfl, rfl, fun _ _ _ => passes_x rfl⟩
theorem witness_MaskInstructions :
    (Ready wxv hx .vector ∧ Here hx [40] ∧ Named wxv hx [wxv.ir.slot.a] [wxv.ir.slot.d] ∧ (∀ m, ∃ t, Passes (wxv.vec.oweMask wxv.ir.slot.d m) t) ∧
      (∀ v, ∃ t, Gives wxv.vec wxv.ir.slot.d v t) ∧ wxv.ir.slot.misc.getLsbD 4 = false ∧ readReg wxv.ir.slot.a wxv.vec = .ok (0x100, wxv.vec) ∧
      (∃ z, wxv.vec.hart? wxv.vec.ir.hart = some z ∧ Here z [40])) ∧
    ((∀ i < 0, (hx.mask 1).getLsbD i = false) ∧ (hx.mask 1).getLsbD 0 = true) ∧ (∀ i < 32, (hx.mask 2).getLsbD i = false) ∧ (wxv { misc := 25 }).ir.slot.misc.getLsbD 4 = true :=
  ⟨⟨⟨rfl, rfl, fun _ => rfl⟩, fun _ _ => rfl, ⟨rfl, rfl⟩, fun _ => passes_x rfl, fun _ => gives_x rfl rfl, by decide, rfl, _, rfl, fun _ _ => rfl⟩,
   ⟨fun _ h => absurd h (Nat.not_lt_zero _), by decide⟩, by decide, by decide⟩
/-- Two active u64 elements, in the scratchpad and in main memory. -/
def withK (y : Hart) (m : BitVec 32) : Hart := { y with regs := { y.regs with k := Vector.replicate 8 m } }
def hq (a : Word) : Hart := withK ((h0.setX 1 a).setX 2 16) 5
def wq (a : Word) (path : BitVec 4) : State := at0 (hq a) { d := 3, a := 1, b := 2, ty := 8, misc := 9, path := path }
/-- The operands of each address form, on each path: what `readReg` gives, and the frames in the context. -/
theorem witness_VectorMemory_operands (a : Word) (path : BitVec 4) :
    Ready (wq a path) (hq a) .vector ∧ (hq a).fence = none ∧ VecHere (hq a) (wq a path).ir.slot [] ∧ Named (wq a path) (hq a) [(wq a path).ir.slot.a] [] ∧
    Named (wq a path) (hq a) [(wq a path).ir.slot.b] [] ∧
    readReg (wq a path).ir.slot.a (wq a path).vec = .ok (a, (wq a path).vec) ∧ readReg (wq a path).ir.slot.b (wq a path).vec = .ok (16, (wq a path).vec) ∧
    (wq a path).vec.ir = (wq a path).go.ir ∧ Here (hq a).vec [8 + (wq a path).ir.slot.b.toNat] ∧ (wq a path).vec.hart? (wq a path).ir.hart = some (hq a).vec ∧
    (hq a).vec.regs.v = (hq a).regs.v ∧ (hq a).vec.regs.k = (hq a).regs.k ∧ VecHere (hq a).vec (wq a path).ir.slot [(wq a path).ir.slot.d] :=
  ⟨⟨rfl, rfl, fun _ => rfl⟩, rfl, ⟨fun _ _ => rfl, fun _ _ _ => rfl⟩, ⟨rfl, rfl⟩, ⟨rfl, rfl⟩, rfl, rfl, rfl, fun _ _ => rfl, rfl, rfl, rfl, ⟨fun _ _ => rfl, fun _ _ _ => rfl⟩⟩
/-- A load and a store of the last two doublewords of the scratchpad. -/
theorem witness_VectorMemory_window : (hq 0x300000000007FFF0).actives (wq 0x300000000007FFF0 3).ir.slot 64 = [0, 1] ∧
    let s := (wq 0x300000000007FFF0 3).vec
    checkElems 3 8 true false [0x300000000007FFF0, 0x300000000007FFF8] s = .ok ((), s) ∧ checkElems 3 8 false true [0x300000000007FFF0, 0x300000000007FFF8] s = .ok ((), s) ∧
    (∀ e ∈ [(0x300000000007FFF0 : Word), 0x300000000007FFF8], winRegion e.toNat = 0 ∧ WinReaches s e ∧
      s.winStatus (dieOfHart s.ir.hart) (s.hart s.ir.hart).origin.owner e.toNat 8 true = 0) ∧
    (∃ t, Passes (([((0x300000000007FFF0 : Word), 7), (0x300000000007FFF8, 9)] : List (Word × Nat)).foldl
      (fun (u : State) (q : Word × Nat) => u.putNum (windowKey (dieOfHart s.ir.hart / 4) q.1.toNat) 8 q.2) s) t) ∧
    ∃ p s3 z, loadElems 8 [0x300000000007FFF0, 0x300000000007FFF8] s = .ok (p, s3) ∧ s3.ir = s.ir ∧
      s3.hart? s.ir.hart = some z ∧ Here z [11] ∧ z.accesses = [] ∧ ∀ q val fl b, ∃ t, Passes (s3.oweVec 3 64 q val fl b) t :=
  ⟨by decide +kernel, okSame_ok (by decide +kernel), okSame_ok (by decide +kernel),
   fun e he => by
    simp only [List.mem_cons, List.not_mem_nil, or_false] at he
    rcases he with rfl | rfl
    · exact ⟨by decide, by unfold WinReaches; decide +kernel, by decide +kernel⟩
    · exact ⟨by decide, by unfold WinReaches; decide +kernel, by decide +kernel⟩,
   passes_x (by decide +kernel), _, _, _, rfl, rfl, rfl, fun _ _ => rfl, rfl, fun _ _ _ _ => passes_x rfl⟩
def inMain : State := wq 0x20000 0
theorem witness_VectorMemory_main : inMain.ir.slot.path.toNat ≠ 3 ∧ checkElems 0 8 false true [0x20000, 0x20008] inMain.vec = .ok ((), inMain.vec) ∧
    ∃ gs s3 s4, elemCells 8 [(0x20000, 7), (0x20008, 9)] inMain.vec = .ok (gs, s3) ∧
      (if gs.isEmpty then pure () else enterStores 0 3 (s3.free + 1) (groupLines gs)) { s3 with free := s3.free + 1 } = .ok ((), s4) ∧
      ∃ t, Passes s4 t := by
  refine ⟨by decide, okSame_ok (by decide +kernel), ?_⟩
  have h : runs (elemCells 8 [(0x20000, 7), (0x20008, 9)]) inMain.vec (fun gs s3 =>
    runs (if gs.isEmpty then pure () else enterStores 0 3 (s3.free + 1) (groupLines gs)) { s3 with free := s3.free + 1 } fun _ t => noLoops t) = true := by
    decide +kernel
  obtain ⟨gs, s3, h1, h2⟩ := runs_ok h
  obtain ⟨_, s4, h3, h4⟩ := runs_ok h2
  exact ⟨gs, s3, s4, h1, h3, passes_x h4⟩
/-! ### Streams and the matrix array -/

/-- A thread with streams of 256 bits of classes 1, 2, 1 and 4 in q1 to q4, a short one in q5, and an address of the scratchpad in x1. -/
def hb : Hart :=
  let q := fun (c l : Nat) => ({ cls := BitVec.ofNat 16 c, len := BitVec.ofNat 2 l } : Stream)
  { h0.setX 1 0x3000000000000100 with regs := { (h0.setX 1 0x3000000000000100).regs with q := ((((h0.regs.q.set 1 (q 1 1)).set 2 (q 2 1)).set 3 (q 1 1)).set 4 (q 4 1)).set 5 (q 2 0) } }
def wb (f : Slot) (s : State := world) : State := at0 hb f s
def oneQueued (f : Slot) : State := (wb f).modCore 0 fun k => { k with cmdSsu := [{ hart := .ctx 0 1, op := 0x18D, slot := {}, pc := 0 }] }
/-- Each instruction with streams that satisfy its checks, one place left in the queue, and the results of the forms that have one. -/
theorem witness_StreamIssue :
    (∀ op ∈ [0x181, 0x182], StreamsAgree op { a := 1, b := 2 } ((wb {}).copies (.ctx 0 0))) ∧
    (∀ op ∈ [0x183, 0x184], StreamsAgree op { a := 1, b := 3 } ((wb {}).copies (.ctx 0 0))) ∧
    StreamsAgree 0x185 { a := 1, b := 2, c := 4 } ((wb {}).copies (.ctx 0 0)) ∧ (∀ n < 16, ((wb {}).copies (.ctx 0 0) n).pending = false ∧ Here hb [48 + n]) ∧
    ∃ s : State, Ready s hb .ssu ∧ s.coreOf s.ir.hart = some 0 ∧ (s.core 0).cmdSsu.length = 1 ∧ Here hb [8 + s.ir.slot.a.toNat] ∧
      Named s hb [s.ir.slot.b] [] ∧ Named s hb [s.ir.slot.a] [] ∧ Named s hb [] [s.ir.slot.d] ∧ (∀ c, ∃ t, Passes ((s.ssu 0).queueSsu 0 c) t) ∧
      (∀ g, ∃ t, Passes (((s.ssu 0).modHart s.ir.hart fun y => { y with gen := { y.gen with gctr := g } }).queueSsu 0 { hart := s.ir.hart, op := 0x191, slot := s.ir.slot, pc := 0 }) t) ∧
      (∃ ws s1, destReg s.ir.slot.d 0 (s.ssu 0) = .ok (ws, s1) ∧ ∀ c n, ∃ t, Passes ((({ s1 with free := n } : State).owe ws (returned := false) (tag := n)).queueSsu 0 c) t) ∧
      readReg s.ir.slot.a (s.ssu 0) = .ok (0x3000000000000100, s.ssu 0) ∧ readReg s.ir.slot.b (s.ssu 0) = .ok (0x200, s.ssu 0) ∧ (s.ssu 0).ir = s.go.ir ∧
      (∃ z, (s.ssu 0).hart? s.ir.hart = some z ∧ z.pc = hb.pc ∧ z.inRegion = hb.inRegion ∧ z.revid = hb.revid) ∧
      ∀ wr, ssuAccessCheck wr s.ir.slot (0x3000000000000100 + s.ir.slot.imm.signExtend 64) (s.ssu 0) = .ok ((), s.ssu 0) := by
  refine ⟨?_, ?_, ?_, fun n hn => ⟨?_, fun _ _ => rfl⟩, oneQueued { d := 6, a := 1, b := 2, path := 3 }, ⟨rfl, rfl, fun _ => rfl⟩, rfl, rfl, fun _ _ => rfl, ⟨rfl, rfl⟩, ⟨rfl, rfl⟩, ⟨rfl, rfl⟩,
    fun _ => passes_x rfl, fun _ => passes_x rfl, ⟨_, _, rfl, fun _ _ => passes_x rfl⟩, rfl, rfl, rfl, ⟨_, rfl, rfl, rfl, rfl⟩,
    fun wr => by cases wr <;> exact okSame_ok (by decide +kernel)⟩
  · intro op h
    simp only [List.mem_cons, List.not_mem_nil, or_false] at h
    rcases h with rfl | rfl <;> unfold StreamsAgree <;> decide +kernel
  · intro op h
    simp only [List.mem_cons, List.not_mem_nil, or_false] at h
    rcases h with rfl | rfl <;> unfold StreamsAgree <;> decide +kernel
  · unfold StreamsAgree; decide +kernel
  · revert n; decide +kernel
/-- Lengths that differ; classes that break the rule of `qand` and of `qmin`; a source that a `qld` has not returned. -/
theorem witness_StreamChecks : (((wb {}).copies (.ctx 0 0) 1).len ≠ ((wb {}).copies (.ctx 0 0) 5).len) ∧
    (¬ StreamsAgree 0x181 { a := 1, b := 3 } ((wb {}).copies (.ctx 0 0))) ∧ (¬ StreamsAgree 0x183 { a := 1, b := 2 } ((wb {}).copies (.ctx 0 0))) ∧
    (¬ StreamsAgree 0x185 { a := 1, b := 2, c := 2 } ((wb {}).copies (.ctx 0 0))) ∧ (∀ n < 16, ((wb {}).copies (.ctx 0 0) n).pending = false ∧ Here hb [48 + n]) ∧
    ∃ s : State, Ready s hb .ssu ∧ s.coreOf s.ir.hart = some 0 ∧ Named s hb [] [s.ir.slot.d] ∧ ∃ n ∈ ssuReads 0x187 s.ir.slot, (s.copies s.ir.hart n).pending = true := by
  refine ⟨by decide +kernel, ?_, ?_, ?_, fun n hn => ⟨by revert n; decide +kernel, fun _ _ => rfl⟩, (wb { d := 6, a := 1 }).modCore 0 fun k => { k with cmdSsu := [{ hart := .ctx 0 0, op := 0x18E, slot := { d := 1 }, pc := 0 }] },
    ⟨rfl, rfl, fun _ => rfl⟩, rfl, ⟨rfl, rfl⟩, 1, by decide, by decide +kernel⟩ <;> unfold StreamsAgree <;> decide +kernel
theorem witness_GeneratedBits : ∃ (g : Gen) (c l : Nat), c = 15 ∧ l = 4096 ∧ g.cmode.toList.getD c 0 = 2 := ⟨{ cmode := Vector.replicate 16 2 }, 15, 4096, rfl, rfl, rfl⟩
/-- The command at the SSU, of each kind. -/
def ssuAt (op : Nat) (f : Slot) (scalar : Word := 0) : State := { (wb {}).modCore 0 fun k => { k with ssu := [{ hart := .ctx 0 0, op := op, slot := f, pc := 0, scalar := scalar }] } with ev := { site := 0 } }
theorem witness_StreamExecution :
    (∀ op f a, ∃ c r, ((ssuAt op f a).core (ssuAt op f a).ev.site).ssu = c :: r ∧ (ssuAt op f a).ev.flag = false ∧ (ssuAt op f a).hart? c.hart = some hb ∧ c.op = op ∧ c.slot = f ∧ c.inRegion = false) ∧
    (∀ op ∈ [0x181, 0x182, 0x183, 0x184, 0x185, 0x18C, 0x18D], ∃ q, destCopy op { a := 1, b := 2, d := 6 } (fun n => copyOf (hb.stream n)) = some q) ∧
    (∃ s1 y, ssuWrite 0x400000 0x3000000000000100 (leBytes 8 1) (ssuAt 0x18F { d := 1 }) = .ok ((), s1) ∧ s1.ir = (ssuAt 0x18F { d := 1 }).ir ∧ s1.hart? (.ctx 0 0) = some y ∧
      y.accesses = hb.accesses) ∧
    ∃ hd s1 rd s2 y, ssuRead 0x3000000000000100 8 (ssuAt 0x18E { d := 1 }) = .ok (hd, s1) ∧ ssuRead 0x3000000000000108 2 s1 = .ok (rd, s2) ∧ s2.ir = (ssuAt 0x18E { d := 1 }).ir ∧
      s2.hart? (.ctx 0 0) = some y ∧ y.accesses = hb.accesses ∧ hd.2 = none ∧ rd.2 = none := by
  refine ⟨fun op f a => ⟨_, _, rfl, rfl, rfl, rfl, rfl, rfl⟩, fun op h => ?_, ?_, _, _, _, _, _, rfl, rfl, rfl, rfl, rfl, rfl, rfl⟩
  · simp only [List.mem_cons, List.not_mem_nil, or_false] at h
    rcases h with rfl | rfl | rfl | rfl | rfl | rfl | rfl <;> exact ⟨_, rfl⟩
  · exact ⟨_, _, rfl, rfl, rfl, rfl⟩
/-- A poisoned line at 0x20000, in main memory: the image's first word. -/
def badMain : State := { ssuAt 0x18E { d := 1 } with poisoned := [(0x800, 1)] }
set_option maxRecDepth 40000 in
theorem witness_StreamExecution_poison : ∃ hd s1 rd s2 y a, ssuRead 0x20000 8 badMain = .ok (hd, s1) ∧ ssuRead 0x20008 2 s1 = .ok (rd, s2) ∧ s2.ir = badMain.ir ∧
    s2.hart? (.ctx 0 0) = some y ∧ y.accesses = hb.accesses ∧ hd.2 = some a := ⟨_, _, _, _, _, _, rfl, rfl, rfl, rfl, rfl, rfl⟩
/-- A thread whose x1, x2 and x4 address operands in main memory. -/
def hM : Hart := { h0 with regs := { x := windowOf fun i => BitVec.ofNat 64 (0x20000 * i) }, origin := h0.origin }
def wM (f : Slot) (x : Hart := hM) : State := at0 x f
/-- The expander, with seven commands in each of its quad's orders. -/
def exp7 : State := issues (.expander 0) hM { d := 5, a := 1 } (world.modQuad 0 fun y => { y with oq := Vector.replicate 4 (List.replicate 7 { hart := .ctx 0 1, op := 0, slot := {}, pc := 0 }) })
/-- A thread whose three operands are read, with one place left in its core's queue; an accumulator offset at its last place; the expander, with
one place left in each order. -/
theorem witness_MatrixIssue :
    (∀ b, ∃ s s1 : State, ∃ ws, Ready s hM .matrix ∧ MatrixHart s 0 ∧ (s.core 0).cmdOq.length = 1 ∧ s.matRoom 0 b ∧ hM.matrix = 0 ∧
      Named s hM [s.ir.slot.a, s.ir.slot.b, s.ir.slot.c] [s.ir.slot.d] ∧ destReg s.ir.slot.d 0 s.go = .ok (ws, s1) ∧ s1.ir = s.go.ir ∧ s1.matRoom 0 b ∧
      readRegs [s.ir.slot.a] s.go = .ok ([0x20000], s.go) ∧ readRegs [s.ir.slot.a, s.ir.slot.c] s.go = .ok ([0x20000, 0x80000], s.go) ∧
      readRegs [s.ir.slot.a, s.ir.slot.b, s.ir.slot.c] s.go = .ok ([0x20000, 0x40000, 0x80000], s.go) ∧ s.go.hart? s.ir.hart = some hM ∧
      (∀ c, ∃ t, Passes (s.go.queueMat 0 c) t) ∧
      (∀ c n, ∃ t, Passes ((({ s1 with free := n } : State).queueMat 0 c).owe ws (returned := false) (tag := n)) t) ∧ ∃ t, Passes ((s1.owe ws).putMstat 0 s.ir.hart 0) t) ∧
    (∃ (s u2 : State) (x : Hart), Ready s x .matrix ∧ MatrixHart s 0 ∧ readRegs [s.ir.slot.a] s.go = .ok ([16376], s.go) ∧
      (16376 + BitVec.ofNat 64 (s.ir.slot.imm.toNat % 2 ^ 14) : Word).toNat = 16383 ∧ readRegs [s.ir.slot.b] s.go = .ok ([0x40000], u2) ∧ u2.ir = s.go.ir ∧
      u2.hart? s.ir.hart = some x ∧ u2.matRoom 0) ∧
    (∃ (s : State) (x : Hart), Ready s x .matrix ∧ MatrixHart s 0 ∧ Named s x [] [s.ir.slot.d] ∧ x.matrix ≠ 0) ∧
    (∀ b, ∃ s : State, Ready s hM .matrix ∧ MatrixHart s 0 ∧ s.ir.hart = .expander 0 ∧ (∀ i, (s.quad 0).oq[(i : Fin 4)].length = 7) ∧ s.matRoom 0 b ∧
      Named s hM [s.ir.slot.a] [s.ir.slot.d] ∧ ∀ c, ∃ t, Passes (s.go.queueMat 0 c) t) := by
  refine ⟨fun b => ?_, ?_, ?_, fun b => ?_⟩
  · exact ⟨(wM { d := 5, a := 1, b := 2, c := 4 }).modCore 0 fun k => { k with cmdOq := [{ hart := .ctx 0 1, op := 0, slot := {}, pc := 0 }] }, _, _, ⟨rfl, rfl, fun _ => rfl⟩,
      ⟨rfl, .inl rfl⟩, rfl, by show _ < _; decide +kernel, rfl, ⟨rfl, rfl⟩, rfl, rfl, by show _ < _; decide +kernel, rfl, rfl, rfl, rfl, fun _ => passes_x rfl, fun _ _ => passes_x rfl, passes_x rfl⟩
  · exact ⟨wM { a := 1, b := 2, imm := 7 } (hM.setX 1 16376), _, _, ⟨rfl, rfl, fun _ => rfl⟩, ⟨rfl, .inl rfl⟩, rfl, by decide, rfl, rfl, rfl, by show _ < _; decide +kernel⟩
  · exact ⟨wM {} { hM with matrix := 1 }, _, ⟨rfl, rfl, fun _ => rfl⟩, ⟨rfl, .inl rfl⟩, ⟨rfl, rfl⟩, by decide⟩
  · refine ⟨exp7,
      ⟨rfl, rfl, fun _ => rfl⟩, ⟨rfl, .inr ⟨0, rfl⟩⟩, rfl, ?_, ?_, ⟨rfl, rfl⟩, fun c => ?_⟩
    · decide +kernel
    · exact fun i _ => (show ∀ i : Fin 4, (exp7.quad 0).oq[i].length < 8 by decide +kernel) i
    · exact passes_x rfl
/-- The tile of the last row and the tile of 256 rows; a span of each path that the array reads. -/
theorem witness_MatrixIssue_spans : TileOk { imm := 0xFF0001 } ∧ TileOk { imm := 0x000100 } ∧ SpanOk (wM {}).go hM 0x20000 0 131072 8 0 false true false ∧
    SpanOk (wM {}).go hM 0x3000000000000100 0 4032 1 64 false true false ∧ SpanOk (wM {}).go hM 0x4000000000080000 0 4096 1 64 true true false ∧
    SpanOk (wM {}).go hM 0x20000 0 1024 4 0 false true false ∧ SpanOk (wM {}).go hM 0x20000 0 131072 8 0 false false true := by
  unfold TileOk SpanOk
  exact ⟨by decide, by decide, by decide +kernel, by decide +kernel, by decide +kernel, by decide +kernel, by decide +kernel⟩
def drawsX : State := wM { a := 31, b := 31, c := 4, imm := 1, rm := 4 }
set_option maxRecDepth 40000 in
/-- `mscacc` without its optional operands, and under `.sr` for a tile of one row. -/
theorem witness_MatrixIssue_scale : ∀ rm ∈ [(0 : BitVec 3), 4], ∃ (s u u2 : State) (us : List Word) (y : Hart), Ready s hM .matrix ∧ MatrixHart s 0 ∧
    Named s hM [s.ir.slot.a, s.ir.slot.b, s.ir.slot.c] [] ∧ TileOk s.ir.slot ∧ s.ir.slot.a = 31 ∧ s.ir.slot.b = 31 ∧ s.ir.slot.rm = rm ∧
    readRegs [s.ir.slot.a, s.ir.slot.b, s.ir.slot.c] s.go = .ok ([0, 0, 0x80000], u) ∧ u.ir = s.go.ir ∧ u.hart? s.ir.hart = some hM ∧
    (if rm.toNat = 4 then draws 0x01 (64 * tileM s.ir.slot) else pure []) u = .ok (us, u2) ∧ u2.ir = s.go.ir ∧ u2.hart? s.ir.hart = some y ∧
    { y with gen := hM.gen } = hM ∧ u2.matRoom 0 := by
  intro rm h
  simp only [List.mem_cons, List.not_mem_nil, or_false] at h
  rcases h with rfl | rfl
  · exact ⟨wM { a := 31, b := 31, c := 4, imm := 1 }, _, _, _, _, ⟨rfl, rfl, fun _ => rfl⟩, ⟨rfl, .inl rfl⟩, ⟨rfl, rfl⟩, by unfold TileOk; decide, rfl, rfl, rfl, rfl, rfl, rfl, rfl, rfl, rfl, rfl,
      by show _ < _; decide +kernel⟩
  · obtain ⟨us, u2, h, hp⟩ := runs_ok (show runs (draws 0x01 64) drawsX.go (fun _ t => decide (t.ir = drawsX.go.ir) && (match t.hart? (.ctx 0 0) with
      | some y => decide ({ y with gen := hM.gen } = hM)
      | none => false) && decide ((t.core 0).cmdOq.length < 2)) = true by decide +kernel)
    simp only [Bool.and_eq_true, decide_eq_true_eq] at hp
    obtain ⟨⟨hi, hy⟩, hr⟩ := hp
    split at hy
    · rename_i y ey
      exact ⟨drawsX, drawsX.go, u2, us, y, ⟨rfl, rfl, fun _ => rfl⟩, ⟨rfl, .inl rfl⟩, ⟨rfl, rfl⟩, by unfold TileOk; decide, rfl, rfl, rfl, rfl, rfl, rfl, by rw [if_pos (by decide), show 64 * tileM drawsX.ir.slot = 64 by decide]; exact h, hi, ey, of_decide_eq_true hy,
        by show (match u2.ir.hart with
          | .expander q => ∀ i : Fin 4, (false = false ∨ i.val = 0) → (u2.quad q).oq[i].length < 8
          | _ => (u2.core 0).cmdOq.length < 2)
           rw [hi]; exact hr⟩
    · cases hy
/-- `gang`: granted, and issued again; first, second of its own core, and last of four. The accumulating instructions with and without it. -/
theorem witness_GangIssue :
    (∃ (s : State) (x : Hart), Ready s x .matrix ∧ MatrixHart s 0 ∧ x.grant = some 4 ∧ ∃ t, Passes (s.go.modHart s.go.ir.hart fun y => { y with gang := true, grant := none }) t) ∧
    (∃ (s : State) (x : Hart), Ready s x .matrix ∧ x.restartPc.isSome = true ∧ x.restartPc = (s.quad 0).restart.toList.getD 0 none) ∧
    (Ready (wM {}) hM .matrix ∧ MatrixHart (wM {}) 0 ∧ ¬ (hM.grant = some 4 ∨ (hM.restartPc.isSome = true ∧ hM.restartPc = ((wM {}).quad 0).restart.toList.getD 0 none) ∨
      isCtx (wM {}).ir.hart = false) ∧ ((wM {}).quad 0).arrivals.length = 0) ∧
    (∃ s : State, Ready s hM .matrix ∧ (s.quad 0).arrivals.any (fun a => a.1 == 0) = true) ∧
    (∃ s : State, Ready s hM .matrix ∧ (s.quad 0).arrivals.any (fun a => a.1 == 0) = false ∧ (s.quad 0).arrivals.length = 3 ∧
      ∃ t, Passes (((s.go.modQuad 0 fun y => { y with arrivals := y.arrivals ++ [(0, s.ir.hart)] }).releaseGang 0).modHart s.ir.hart
        fun y => { y with gang := true, grant := none }) t) ∧
    (∃ (s : State) (x : Hart), Ready s x .matrix ∧ MatrixHart s 0 ∧ x.gang = true ∧ Named s x [s.ir.slot.a, s.ir.slot.b, s.ir.slot.c] [] ∧
      readRegs [s.ir.slot.a] s.go = .ok ([0x20000], s.go) ∧ readRegs [s.ir.slot.a, s.ir.slot.b, s.ir.slot.c] s.go = .ok ([0x20000, 0x40000, 0], s.go) ∧
      s.go.hart? s.ir.hart = some x ∧ s.go.matRoom 0 ∧ ∀ c, ∃ t, Passes (s.go.queueGang 0 c false) t) ∧
    hM.gang = false ∧ (∃ s : State, Ready s hM .matrix ∧ s.ir.hart = .expander 3 ∧ MatrixHart s 12 ∧ ∃ t, Passes (s.go.modHart s.go.ir.hart fun y => { y with gang := true, grant := none }) t) := by
  refine ⟨⟨wM {} { hM with grant := some 4 }, _, ⟨rfl, rfl, fun _ => rfl⟩, ⟨rfl, .inl rfl⟩, rfl, passes_x rfl⟩,
    ⟨at0 { hM with restartPc := some 0x400000 } {} (world.modQuad 0 fun y => { y with restart := y.restart.set 0 (some 0x400000) }), _, ⟨rfl, rfl, fun _ => rfl⟩, rfl, rfl⟩,
    ⟨⟨rfl, rfl, fun _ => rfl⟩, ⟨rfl, .inl rfl⟩, by decide, rfl⟩,
    ⟨(wM {}).modQuad 0 fun y => { y with arrivals := [(0, .ctx 0 1)] }, ⟨rfl, rfl, fun _ => rfl⟩, rfl⟩, ?_, ?_, rfl,
    issues (.expander 3) hM { d := 5 }, ⟨rfl, rfl, fun _ => rfl⟩, rfl, ⟨rfl, .inr ⟨3, rfl⟩⟩, passes_x rfl⟩
  · exact ⟨(wM {}).modQuad 0 fun y => { y with arrivals := [(1, .ctx 1 0), (2, .ctx 2 0), (3, .ctx 3 0)] }, ⟨rfl, rfl, fun _ => rfl⟩, rfl, rfl, passes_x (by decide +kernel)⟩
  · exact ⟨wM { a := 1, b := 2, c := 0 } { hM with gang := true }, _, ⟨rfl, rfl, fun _ => rfl⟩, ⟨rfl, .inl rfl⟩, rfl, ⟨rfl, rfl⟩, rfl, rfl, rfl, by show _ < _; decide +kernel, fun _ => passes_x rfl⟩
/-- `mmac` of bytes over 256 rows with B in memory, and `mbmac` of its last two blocks. -/
theorem witness_GangIssue_multiply : ∃ ty, Machine.matTypes 1 0 = some ty ∧ TileOk { imm := 0x100, b := 2 } ∧
    SpanOk (wM {}).go hM 0x20000 0 (255 * strideA ty 0 + ty.aRow) ty.aSize (strideA ty 0) false true false ∧
    SpanOk (wM {}).go hM 0x40000 0 (63 * strideB ty.bRow 0 + ty.bRow) ty.bSize (strideB ty.bRow 0) false true false ∧ blocksOf { imm := 12 } = [2, 3] ∧
    SpanOk (wM {}).go hM 0x20000 (32 * strideA ty 0) (31 * strideA ty 0 + ty.aRow) ty.aSize (strideA ty 0) false true false ∧
    ∃ u : State, u.statType 0 = ty.tb := by
  unfold TileOk SpanOk
  exact ⟨_, rfl, by decide, by decide +kernel, by decide +kernel, by decide, by decide +kernel,
    (wM {}).modCore 0 fun k => { k with cmdOq := [{ hart := .ctx 0 0, op := 0x1A9, slot := { ty := 1 }, pc := 0 }] }, by decide +kernel⟩
theorem witness_MatrixProducts : (∃ t : MatTypes, Machine.matTypes 1 0 = some t ∧ t.mode = 0) ∧ (∃ t : MatTypes, Machine.matTypes 11 0 = some t ∧ t.mode = 2) ∧
    (∃ (t : MatTypes) (s1 s2 : Bool) (m1 m2 : Nat) (e1 e2 : Int), Machine.matTypes 13 0 = some t ∧ t.mode = 1 ∧ t.cb8 = false ∧ (fmtOf t.ta).read 1 = .fin s1 m1 e1 ∧
      (fmtOf t.tb).read 1 = .fin s2 m2 e2 ∧ e1 + e2 = -18) ∧
    (([(0, [1]), (63, [2])] : List (Nat × List Int)).map (·.1)).Nodup :=
  ⟨⟨_, rfl, rfl⟩, ⟨_, rfl, rfl⟩, ⟨_, _, _, _, _, _, _, rfl, rfl, rfl, rfl, rfl, by decide⟩, by decide⟩
/-- A command at the head of the last position's order. -/
def headed (c : MatCmd) (s : State := world) : State := { (at0 { hM with matrix := 1 } {} s).modQuad 0 fun y => { y with oq := y.oq.setIfInBounds 3 [c] } with ev := { site := 0, n := 3 } }
def cmdX (op : Nat) : MatCmd := { hart := .ctx 0 0, op := op, slot := { d := 1, imm := 0xFF0001 }, pc := 0x400000 }
/-- Commands that act, that are over, of a thread that has ended, and whose operand failed or was poisoned. -/
theorem witness_MatrixEvents :
    (∀ c, (headed c).headCmd 0 3 = some c ∧ (headed c).ev.n = 3 ∧ (headed c).ev.site = 0) ∧
    (∀ op ∈ [0x1A6, 0x1A5, 0x1A3], (cmdX op).op = op ∧ (cmdX op).phase < 2 ∧ (cmdX op).status = 0 ∧ tileRow (cmdX op).slot + tileM (cmdX op).slot ≤ 256) ∧
    (∃ x, (headed (cmdX 0x1A5)).hart? (.ctx 0 0) = some x ∧ isCtx (.ctx 0 0) = true ∧ x.phase = .active) ∧
    (∀ op ∈ [0x1A5, 0x1AB, 0x1AA, 0x1AC, 0x1A1], ∃ c : MatCmd, c.op = op ∧ c.phase = 3 ∧ c.gone = false ∧ c.status = 0 ∧ c.poison = none) ∧
    (∀ gone, ∃ c : MatCmd, c.phase = 3 ∧ c.gone = gone ∧ c.status = 4 ∧ c.op = 0x1A1) ∧ (∀ gone, ∃ c : MatCmd, c.phase = 2 ∧ c.gone = gone ∧ c.status = 4 ∧ c.poison = none) ∧
    (∀ r, ∃ c : MatCmd, c.phase = 2 ∧ c.gone = false ∧ c.status = 0 ∧ c.poison = some 0x20000 ∧ c.inRegion = r ∧ ((headed c).hart c.hart).restarts < Config.maxRestarts) := by
  refine ⟨fun c => ⟨rfl, rfl, rfl⟩, fun op h => ?_, ⟨_, rfl, rfl, rfl⟩, fun op _ => ⟨{ cmdX op with phase := 3 }, rfl, rfl, rfl, rfl, rfl⟩,
    fun g => ⟨{ cmdX 0x1A1 with phase := 3, status := 4, gone := g }, rfl, rfl, rfl, rfl⟩, fun g => ⟨{ cmdX 0x1A1 with phase := 2, status := 4, gone := g }, rfl, rfl, rfl, rfl⟩,
    fun r => ⟨{ cmdX 0x1A1 with phase := 2, poison := some 0x20000, inRegion := r }, rfl, rfl, rfl, rfl, rfl, by cases r <;> decide +kernel⟩⟩
  simp only [List.mem_cons, List.not_mem_nil, or_false] at h
  rcases h with rfl | rfl | rfl <;> decide
/-- Four contracts of one round, which agree in their block's address, or not; with the expander's image in the die. -/
def roundOf4 (a : CoreKey → Word) : State := (world.modDie 0 fun d => { d with images := [.expander 0] }).modQuad 0 fun y => { y with
  oq := Vector.ofFn fun i => [{ cmdX 0x1AD with hart := .ctx i.val 0, round := some 1, a := a i.val }], rounds := [(1, [])], qshare := false }
theorem witness_MatrixEvents_gang : ∀ b, ∃ (s : State) (cs : List (Nat × MatCmd)), s.readyGang 0 = cs ∧ cs ≠ [] ∧ (∀ o ∈ cs, o.2.op = 0x1AD) ∧
    (∀ i < 4, ∀ m, s.headCmd 0 i = some m → m.op = 0x1AD) ∧ gangAgrees (s.quad 0).qshare cs = b ∧ (s.die (dieOfQuad 0)).images.contains (.expander 0) = true := by
  intro b
  cases b
  · exact ⟨roundOf4 fun i => BitVec.ofNat 64 (64 * i), _, rfl, by decide +kernel, by decide +kernel, by decide +kernel, by decide +kernel, by decide +kernel⟩
  · exact ⟨roundOf4 fun _ => 0x20000, _, rfl, by decide +kernel, by decide +kernel, by decide +kernel, by decide +kernel, by decide +kernel⟩
/-- A contract alone in its quad, with the expander running: with a misaligned block, and with one that no lease covers. -/
theorem witness_MatrixEvents_contract :
    (∃ c : MatCmd, c.op = 0x1AD ∧ c.phase = 1 ∧ c.data = [] ∧ c.status = 0 ∧ c.a.toNat % 8 ≠ 0 ∧ (headed c).headCmd 0 3 = some c ∧ (headed c).ev.flag = false ∧
      ∀ i < 4, i ≠ 3 → (headed c).headCmd 0 i = none) ∧
    (∃ (c : MatCmd) (s : State) (y : Hart), c.op = 0x1AD ∧ c.phase = 1 ∧ c.data = [] ∧ s.headCmd 0 3 = some c ∧ s.ev.flag = false ∧ (∀ i < 4, i ≠ 3 → s.headCmd 0 i = none) ∧
      c.a.toNat % 8 = 0 ∧ pathOf c.a < 3 ∧ c.mates = [(.ctx 0 0, y.since)] ∧ s.hart? (.ctx 0 0) = some y ∧ y.phase ≠ .ending ∧
      s.leased { origin := { launch := c.launch } } (generalVa c.a) 176 true false = false) ∧
    (∃ (c : MatCmd) (s : State), c.op = 0x1AD ∧ c.phase = 1 ∧ s.headCmd 0 3 = some c ∧ s.ev.flag = true ∧ s.ev.n = 3 ∧ s.ev.site = 0) := by
  refine ⟨⟨{ cmdX 0x1AD with phase := 1, a := 4 }, rfl, rfl, rfl, rfl, by decide, rfl, rfl, by decide +kernel⟩,
    ⟨{ cmdX 0x1AD with phase := 1, a := 0x20000, launch := some 2, mates := [(.ctx 0 0, 0)] }, headed { cmdX 0x1AD with phase := 1, a := 0x20000, launch := some 2, mates := [(.ctx 0 0, 0)] }, _,
      rfl, rfl, rfl, rfl, rfl, by decide +kernel, by decide, by decide, rfl, rfl, by decide, by decide +kernel⟩,
    ⟨{ cmdX 0x1AD with phase := 1 }, { headed { cmdX 0x1AD with phase := 1 } with ev := { site := 0, n := 3, flag := true } }, rfl, rfl, rfl, rfl, rfl, rfl⟩⟩
/-! ### Events of cores, contexts and code -/

def ev0 (a : EventArg) (s : State) : State := { s with ev := a }
/-- A thread with one outstanding result, and the event for it. -/
def resulting (p : Pending) (x : Hart := h0) : State := ev0 { hart := .ctx 0 0, n := 0 } (at0 { x with outstanding := [p] } {})
theorem witness_ResultWriteback :
    (∀ p x, (resulting p x).hart? (resulting p x).ev.hart = some { x with outstanding := [p] } ∧ ({ x with outstanding := [p] } : Hart).outstanding[(resulting p x).ev.n]? = some p) ∧
    (∃ p : Pending, p.returned = true ∧ p.poison = none ∧ p.writes = [.x 15 7]) ∧ (∃ p : Pending, p.returned = true ∧ p.poison = some 8 ∧ p.inRegion = true) ∧
    (({ h0 with restarts := 2 } : Hart).restarts < Config.maxRestarts ∧ Config.maxRestarts ≤ ({ h0 with restarts := 3 } : Hart).restarts) ∧
    (∃ p : Pending, p.returned = true ∧ p.poison = some 8 ∧ p.inRegion = false ∧ p.writes = [.x 0 7]) ∧ h0.pendingTrap = none :=
  ⟨fun _ _ => ⟨rfl, rfl⟩, ⟨{ writes := [.x 15 7] }, rfl, rfl, rfl⟩, ⟨{ poison := some 8, inRegion := true }, rfl, rfl, rfl⟩, by decide,
   ⟨{ writes := [.x 0 7], poison := some 8 }, rfl, rfl, rfl, rfl⟩, rfl⟩
/-- A region restart: the third, and the fourth consumption. -/
theorem witness_RegionRestart : (∃ (s : State) (x : Hart), s.hart? (.ctx 0 0) = some x ∧ x.restarts = 2 ∧ x.restarts < Config.maxRestarts ∧ s.coreOf (.ctx 0 0) = some 0 ∧
      (∀ p ∈ x.outstanding, ∀ t v, RegWrite.cbo t v ∉ p.writes)) ∧
    ∃ (s : State) (x : Hart), s.hart? (.ctx 0 0) = some x ∧ x.restarts = 3 ∧ Config.maxRestarts ≤ x.restarts ∧ x.pendingTrap = none :=
  ⟨⟨at0 { h0 with restarts := 2 } {}, _, rfl, rfl, by decide, rfl, fun _ h => by cases h⟩, at0 { h0 with restarts := 3 } {}, _, rfl, rfl, by decide, rfl⟩
/-- A store of the head of core 0's buffer, which performs; one whose page has an execute grant; one behind a store to the same bytes. -/
def buf0 : BufStore := { hart := .ctx 0 0, pc := 0, va := 0x20000, cells := [(0x20000, 7)] }
theorem witness_CoreEvents :
    (∃ (s : State) (x : Hart) (a : Access), s.hart? s.ev.hart = some x ∧ x.accesses = [a] ∧ s.coreOf s.ev.hart = some 0 ∧ x.sfc = 0xFFFF) ∧
    (∀ b, ∃ (s : State) (x : Hart), (s.core s.ev.site).wbuf = [buf0] ∧ s.ev.n = 0 ∧ s.ev.flag = false ∧ (s.hart buf0.hart).phase ≠ .ending ∧ s.granted 0x20000 = b ∧
      s.ownerStatus (dieOfCore s.ev.site) buf0.owner 0x20000 buf0.cells.length true = 0 ∧ s.regionOf buf0.job (dieOfCore s.ev.site) (generalVa buf0.va) = none ∧
      buf0.silent = false ∧ buf0.gone = false ∧ buf0.vec = 0 ∧ s.hart? buf0.hart = some x) ∧
    (∃ s : State, (s.core s.ev.site).wbuf[s.ev.n]? = some buf0 ∧ s.ev.flag = false ∧ ((s.core s.ev.site).wbuf.take s.ev.n).any (fun o => o.meets buf0) = true) ∧
    (∃ s : State, (s.core 0).locks.any (fun l => l.1 == 8 * s.ev.n + s.ev.k % 8) = true) ∧
    (∃ s : State, (s.core 0).locks.any (fun l => l.1 == 8 * s.ev.n + s.ev.k % 8) = false ∧ (s.core 0).lockq = [(8 * s.ev.n + s.ev.k % 8, .ctx 0 0)] ∧ s.hart? (.ctx 0 0) = some { h0 with wait := some (.lock s.ev.site s.ev.n (s.ev.k % 8)) } ∧ h0.phase = .active) ∧
    (∀ n ∈ [3, 4], ∃ s : State, meshNeighbour 0 1 = some 1 ∧ (s.core 0).meshOut.toList.getD 1 [] = [5] ∧ ((s.core 1).meshIn.toList.getD 3 []).length = n) := by
  refine ⟨⟨ev0 { hart := .ctx 0 0 } (at0 { h0 with sfc := 0xFFFF, accesses := [{ kind := 0, addr := 0, pc := 0, status := 1 }] } {}), _, _, rfl, rfl, rfl, rfl⟩, fun b => ?_,
    ⟨ev0 { n := 1 } (world.modCore 0 fun k => { k with wbuf := [buf0, buf0] }), rfl, rfl, by decide +kernel⟩,
    ⟨ev0 { n := 31, k := 7 } (world.modCore 0 fun k => { k with locks := [(255, .ctx 0 1)] }), by decide +kernel⟩,
    ⟨ev0 { n := 31, k := 7 } ((at0 { h0 with wait := some (.lock 0 31 7) } {}).modCore 0 fun k => { k with lockq := [(255, .ctx 0 0)] }), rfl, rfl, rfl, rfl⟩, fun n hn => ?_⟩
  · cases b
    · exact ⟨(at0 h0 {}).modCore 0 fun k => { k with wbuf := [buf0] }, h0, rfl, rfl, rfl, by decide, by decide +kernel, by decide +kernel, rfl, rfl, rfl, rfl, rfl⟩
    · exact ⟨((at0 h0 {}).modCore 0 fun k => { k with wbuf := [buf0] }).putMeta 0x20000 0 0x8000000000000000, h0, rfl, rfl, rfl, by decide, by decide +kernel, by decide +kernel, rfl, rfl, rfl, rfl, rfl⟩
  · exact ⟨(world.modCore 0 fun k => { k with meshOut := k.meshOut.setIfInBounds 1 [5] }).modCore 1 fun k => { k with meshIn := k.meshIn.setIfInBounds 3 (List.replicate n 9) },
      by decide, rfl, List.length_replicate⟩
/-- The SSU free and busy; an order with one place left and full; a companion with no kick pending; the gather engine free and busy. -/
theorem witness_CoreEvents_engines :
    (world.core 0).ssu = [] ∧ (world.core 0).kickLd = none ∧ (world.core 0).kickSt = none ∧ world.running (.loader 0) = false ∧ world.running (.storer 0) = false ∧
    (∃ s : State, s.ev.engine = .ssu ∧ (s.core 0).ssu ≠ []) ∧
    (∀ n ∈ [7, 8], ∃ s : State, s.ev.engine = .operandQueue ∧ (s.core 0).cmdOq = [cmdX 0x1A3] ∧ ((s.quad (quadOfCore 0)).order (posOfCore 0)).length = n) ∧
    ∀ l : List (CoreKey × GatCmd), ∃ (s : State) (m : GatCmd), s.ev.engine = .gather ∧ (s.core 0).cmdGe = [m] ∧ (s.die (dieOfCore 0)).gather = l :=
  ⟨rfl, rfl, rfl, rfl, rfl, ⟨ev0 { engine := .ssu } (world.modCore 0 fun k => { k with ssu := [{ hart := .ctx 0 1, op := 0x18D, slot := {}, pc := 0 }] }), rfl, List.cons_ne_nil _ _⟩,
   fun n _ => ⟨ev0 { engine := .operandQueue } ((world.modCore 0 fun k => { k with cmdOq := [cmdX 0x1A3] }).modQuad 0 fun y => { y with oq := y.oq.setIfInBounds 0 (List.replicate n (cmdX 0x1A3)) }),
     rfl, rfl, List.length_replicate⟩,
   fun l => ⟨ev0 { engine := .gather } ((world.modCore 0 fun k => { k with cmdGe := [{ hart := .ctx 0 0, scatter := false, addr0 := 7, cell := 1 }] }).modDie 0 fun d => { d with gather := l }), _, rfl, rfl, rfl⟩⟩
/-- A host's write of 64 bytes to the last line of a frame, with a window opened to any host of its owner and with none. -/
theorem witness_CoreEvents_host : ∀ p ∈ [((0xA000000000000000 : Word), 0), (0, 1)],
    let s := ev0 { site := 0, flag := true, k := 64, value := 0xFFC0 } (((State.reset.ctlPut 0 0x187FE0 p.1).ctlPut 0 0x187FE8 0x10000).ctlPut 0 0x187FF0 0xFF00000000000)
    s.ev.flag = true ∧ 0 < s.ev.k % 65 ∧ s.ev.value.toNat % 64 + s.ev.k % 65 ≤ 64 ∧ present s.ev.value.toNat = true ∧ homeOf s.ev.value.toNat = s.ev.site ∧
      s.granted s.ev.value.toNat = false ∧ s.windowStatus s.ev.site s.ev.m s.ev.n 0 s.ev.value.toNat 64 true = p.2 ∧ s.regionAt s.ev.site s.ev.value.toNat = none := by
  decide +kernel
/-- A thread to be pre-empted, with a result outstanding and without; with an image that can be written, and with one in a page without the right. -/
theorem witness_ContextEvents :
    (∀ l : List Pending, ∃ (s : State) (x : Hart), s.hart? s.ev.hart = some x ∧ s.ev.hart = .ctx 0 0 ∧ x.preempt = true ∧ x.phase = .active ∧ x.pendingTrap = none ∧
      x.outstanding = l ∧ x.preemptBy = [] ∧ x.wait = none ∧ (x.migratory && x.wait == some .request) = false ∧ s.ssuBusy s.ev.hart = false) ∧
    (∀ b, ∃ (s : State) (x : Hart), s.hart? s.ev.hart = some x ∧ x.preempt = true ∧ x.outstanding = [] ∧ s.ssuBusy s.ev.hart = false ∧ s.imageLost s.ev.hart true = b) ∧
    (∃ s : State, s.hart? s.ev.hart = some h0 ∧ s.ev.hart = .ctx s.ev.site 59 ∧ s.ev.n = 59 % 16 ∧ h0.phase = .active ∧ h0.outstanding = [] ∧ h0.below = [] ∧ s.ssuBusy s.ev.hart = false ∧
      (∀ p ∈ s.harts, p.1 ≠ s.ev.hart → isThread p.1 = true → s.coreOf p.1 ≠ some s.ev.site ∨ slotOf p.1 % 16 ≠ s.ev.n) ∧
      ∃ en, s.unitEntry (dieOfCore s.ev.site) h0.origin.space (s.imageVa s.ev.hart) = some en ∧ en.w = true) ∧
    (∀ b p l, ∃ (s : State) (x : Hart), s.hart? s.ev.hart = some x ∧ isThread s.ev.hart = true ∧ x.migratory = false ∧ x.depmask.getLsbD (s.ev.n % 16) = true ∧ x.trap.trapped = b ∧
      x.phase = p ∧ x.absent = l ∧ s.ev.n = 15) ∧
    (h0.depmask.getLsbD 15 = false) ∧ (∃ (s : State) (x : Hart), s.hart? s.ev.hart = some x ∧ x.migratory = true) ∧ (∃ (s : State) (x : Hart), s.hart? s.ev.hart = some x ∧ x.wait = some (.align 4)) := by
  refine ⟨fun l => ⟨at0 { h0 with preempt := true, outstanding := l } {}, _, rfl, rfl, rfl, rfl, rfl, rfl, rfl, rfl, rfl, rfl⟩, fun b => ?_,
    ⟨ev0 { hart := .ctx 7 59, site := 7, n := 11 } (issues (.ctx 7 59) h0 {} (world.modQuad 1 fun q => { q with tlb := (world.quad 0).tlb })), rfl, rfl, rfl, rfl, rfl, rfl, rfl, (by decide +kernel), _, rfl, rfl⟩,
    fun b p l => ⟨ev0 { hart := .ctx 0 0, n := 15 } (at0 { h0 with absent := l, depmask := 0x8000, trap := { trapped := b }, phase := p } {}), _, rfl, rfl, rfl, (by show (0x8000 : BitVec 16).getLsbD 15 = true; decide), rfl, rfl, rfl, rfl⟩, by decide,
    ⟨at0 { h0 with migratory := true } {}, _, rfl, rfl⟩, at0 { h0 with wait := some (.align 4) } {}, _, rfl, rfl⟩
  cases b
  · exact ⟨at0 { h0 with preempt := true } {}, _, rfl, rfl, rfl, rfl, by decide +kernel⟩
  · exact ⟨at0 { h0 with preempt := true } {} (world.modQuad 0 fun q => { q with tlb := q.tlb.map fun e => { e with w := false } }), _, rfl, rfl, rfl, rfl, by decide +kernel⟩
/-- A register frame to refill, from a good image and from a poisoned one; a frame of the stack whose last word the lease covers, and which none covers. -/
theorem witness_ContextEvents_frames :
    (∀ b, ∃ (s : State) (x : Hart), s.hart? s.ev.hart = some x ∧ s.coreOf s.ev.hart = some 0 ∧ s.ev.n < 64 ∧ x.absent.contains s.ev.n = true ∧ (s.core 0).gated.contains (slotOf s.ev.hart % 16) = false ∧
      s.cacheUse 0 + frameWeight s.ev.n ≤ 2048 ∧ s.ev.flag = false ∧ s.imageLost s.ev.hart false = false ∧ s.frameLost s.ev.hart x s.ev.n = b ∧ x.wait = some (.frame s.ev.n)) ∧
    (∀ b, ∃ (s : State) (x : Hart), s.hart? s.ev.hart = some x ∧ s.coreOf s.ev.hart = some 0 ∧ 64 ≤ s.ev.n ∧ x.wait = some (.frame s.ev.n) ∧
      (s.core 0).gated.contains (slotOf s.ev.hart % 16) = false ∧ s.cacheUse 0 < 2048 ∧ s.ev.flag = false ∧
      let words := ((List.range 4).map fun i => 32 * (s.ev.n - 64) + 8 * i).filter fun a => decide (a + 8 ≤ x.wbase.toNat) && (lookup? a x.below).isNone
      words.all (fun a => s.leased x a 8 true false) = b ∧ (b = true → ∃ pa, s.translate (s.quadOf s.ev.hart) false x.origin.space (32 * (s.ev.n - 64)) 0 = .ok pa ∧ (s.metaWord pa 0).getLsbD 60 = false ∧
        words.any (fun a => s.isPoisoned (pa / 32 * 32 + a % 32) 8) = false ∧ s.regionFor s.ev.hart (32 * (s.ev.n - 64)) = none ∧
        ∀ a ∈ words, s.homeStatus s.ev.hart (pa / 32 * 32 + a % 32) 8 false = 0)) := by
  constructor
  · intro b
    cases b
    · exact ⟨ev0 { n := 39 } (at0 { h0 with absent := [39], wait := some (.frame 39) } {}), _, rfl, rfl, by decide, rfl, rfl, by decide +kernel, rfl, by decide +kernel, by decide +kernel, rfl⟩
    · exact ⟨{ ev0 { n := 39 } (at0 { h0 with absent := [39], wait := some (.frame 39) } {}) with poisoned := (List.range 0x100).map fun i => (i, 1) }, _, rfl, rfl, by decide, rfl, rfl, by decide +kernel, rfl, by decide +kernel, by decide +kernel, rfl⟩
  · intro b
    cases b
    · exact ⟨ev0 { n := 64 + 0x7FF } { at0 { h0 with wait := some (.frame (64 + 0x7FF)) } {} with launches := [] }, _, rfl, rfl, by decide, rfl, rfl, by decide +kernel, rfl, by decide +kernel, fun h => by cases h⟩
    · exact ⟨ev0 { n := 64 + 0x7FF } (at0 { h0 with wait := some (.frame (64 + 0x7FF)) } {}), _, rfl, rfl, by decide, rfl, rfl, by decide +kernel, rfl, by decide +kernel, fun _ =>
        ⟨_, rfl, by decide +kernel, by decide +kernel, by decide +kernel, by decide +kernel⟩⟩
/-- A thread that asks to migrate: to a die of another partition, to a quad without a free context, and to a free one. -/
def migrates (s : State) : State := (at0 { h0 with migratory := true, wait := some .request } {} s).modDie 0 fun d => { d with inbox := [.migrate (.ctx 0 0) 1] }
theorem witness_ContextEvents_migration :
    (∃ (s : State) (x : Hart), s.hart? s.ev.hart = some x ∧ s.migrationOf s.ev.hart = some (0, 1) ∧ s.ev.flag = false ∧ s.foreignDie 0 x.origin.owner = true) ∧
    (∃ (s : State) (x : Hart), s.hart? s.ev.hart = some x ∧ s.migrationOf s.ev.hart = some (0, 1) ∧ s.ev.flag = false ∧ s.foreignDie 0 x.origin.owner = false ∧
      (s.modDie 0 fun y => { y with inbox := y.inbox.filter fun m => match m with
        | .migrate g _ => decide (g ≠ s.ev.hart)
        | _ => true }).freeAmong (quadCores 1) = some (4, 0)) :=
  ⟨⟨migrates (world.modDie 0 fun d => { d with partition := 5 }), _, rfl, by decide +kernel, rfl, by decide +kernel⟩,
   ⟨migrates world, _, rfl, by decide +kernel, rfl, by decide +kernel, by decide +kernel⟩⟩
/-- A line of memory with right parities (all zero), and one with an error, at each delivery; a slot of a line found wrong twice; a writer of a
grant; scans that pass and fail; kicks of both companions, with clean stores and a dirty one. -/
theorem witness_CodeEvents :
    (∀ again, ∃ (s : State) (x : Hart), s.hart? s.ev.hart = some x ∧ x.wait = some (.fetch 5 again) ∧ lineParityOk (lineNat (s.bytes (64 * 5) 64) ^^^ s.ev.wide) = true) ∧
    (∀ again, ∃ (s : State) (x : Hart), s.hart? s.ev.hart = some x ∧ x.wait = some (.fetch 5 again) ∧ lineParityOk (lineNat (s.bytes (64 * 5) 64) ^^^ s.ev.wide) = false ∧
      lineParityOk (lineNat (s.bytes (64 * 5) 64) ^^^ s.ev.again) = !again) ∧
    (∃ (s : State) (x : Hart), s.hart? (.ctx 0 0) = some x ∧ s.canIssue (.ctx 0 0) x = true ∧ x.pendingTrap = none ∧ (match s.fetchLine (.ctx 0 0) x.pc with
      | .bad => true
      | _ => false) = true ∧ x.inRegion = false) ∧
    (∃ s : State, s.ev.writer = some (.ctx 0 0) ∧ s.hart? (.ctx 0 0) = some h0 ∧ (s.die s.ev.site).scan = none) ∧
    (∀ w : Option HartId, ∃ s : State, (s.die s.ev.site).scan = some (w, 9, false) ∧
      scanLines ((s.modDie s.ev.site fun d => { d with scan := none }).codePage (frameAddr s.ev.site 9)) 1024 (frameAddr s.ev.site 9 % 2 ^ 56) = none) ∧
    (∃ s : State, (s.die s.ev.site).scan = some (some (.ctx 0 0), 9, true) ∧ s.hart? (.ctx 0 0) = some h0 ∧
      ∃ v, scanLines ((s.modDie s.ev.site fun d => { d with scan := none }).codePage (frameAddr s.ev.site 9)) 1024 (frameAddr s.ev.site 9 % 2 ^ 56) = some v) ∧
    (∃ s : State, s.ev.flag = false ∧ (s.core s.ev.site).kickLd = some { pc := 0x3FC4, arg := 1 } ∧ s.running (.loader s.ev.site) = false ∧ (s.core s.ev.site).ldDirty = false ∧
      pcOk 0x3FC4 = true ∧ (0x3FC4 : Word).toNat < 0x4000) ∧
    (∃ s : State, s.ev.flag = true ∧ (s.core s.ev.site).kickSt = some { pc := 0x4000, arg := 1 } ∧ s.running (.storer s.ev.site) = false ∧ (s.core s.ev.site).stDirty = false ∧
      0x4000 ≤ (0x4000 : Word).toNat) ∧
    (∃ (s : State) (v : Word), s.ev.flag = true ∧ (s.core s.ev.site).kickSt = some { pc := 4, arg := 1 } ∧ s.running (.storer s.ev.site) = false ∧ (s.core s.ev.site).stDirty = true ∧
      scanLines (fun i => lineNat (s.bytes (storeKey s.ev.site true (64 * i)) 64)) 256 0 = some v) := by
  refine ⟨fun a => ⟨ev0 { wide := 0 } (at0 { h0 with wait := some (.fetch 5 a) } {}), _, rfl, rfl, by cases a <;> decide +kernel⟩,
    fun a => ⟨ev0 { wide := 0x20000, again := if a then 0x20000 else 0 } (at0 { h0 with wait := some (.fetch 5 a) } {}), _, rfl, rfl, by cases a <;> decide +kernel, by cases a <;> decide +kernel⟩,
    ⟨at0 { h0 with badLine := some 0x10000 } {}, _, rfl, by decide +kernel, rfl, by decide +kernel, rfl⟩,
    ⟨ev0 { writer := some (.ctx 0 0) } (at0 h0 {}), rfl, rfl, rfl⟩,
    fun w => ⟨(at0 h0 {}).modDie 0 fun d => { d with scan := some (w, 9, false) }, rfl, ?_⟩,
    ⟨({ at0 h0 {} with mem := [(0x90000, 1)] }).modDie 0 fun d => { d with scan := some (some (.ctx 0 0), 9, true) }, rfl, rfl, (Option.isSome_iff_exists.1 (by decide +kernel))⟩,
    ⟨world.modCore 0 fun k => { k with kickLd := some { pc := 0x3FC4, arg := 1 } }, rfl, rfl, rfl, rfl, by decide, by decide⟩,
    ⟨ev0 { flag := true } (State.reset.modCore 0 fun k => { k with kickSt := some { pc := 0x4000, arg := 1 } }), rfl, rfl, rfl, rfl, by decide⟩, ?_⟩
  · show scanLines (world.codePage (frameAddr 0 9)) 1024 (frameAddr 0 9 % 2 ^ 56) = none
    decide +kernel
  · have h : (scanLines (fun i => lineNat (({ State.reset with mem := [(storeKey 0 true 0, 1)] } : State).bytes (storeKey 0 true (64 * i)) 64)) 256 0).isSome = true := by decide +kernel
    obtain ⟨v, hv⟩ := Option.isSome_iff_exists.1 h
    exact ⟨ev0 { flag := true } (({ State.reset with mem := [(storeKey 0 true 0, 1)] } : State).modCore 0 fun k => { k with kickSt := some { pc := 4, arg := 1 }, stDirty := true }), v, rfl, rfl, rfl, rfl, hv⟩

/-! ### Tables -/

/-- A store to the control block of a die of a machine. -/
def stores (off : Nat) (v : Word) (d : DieKey := 3) (s : State := {}) : State := ev0 { site := d, n := off, value := v, writer := some (.ctx 0 0) } s
theorem stores_p (off : Nat) (v : Word) (h : off % 8 = 0) : ∃ s, Puts s off v := ⟨stores off v, h, rfl, rfl⟩
theorem stores_x (h : off % 8 = 0) : Puts (stores off v d s) off v := ⟨h, rfl, rfl⟩
/-- The last entries of each table, at the last value of each field. -/
theorem witness_TableStores :
    (∃ s : State, s.ev.value = 0) ∧ (∃ s : State, s.ev.value = 0x400000 ∧ pcOk 0x400000 = true ∧ s.markAt s.ev.writer s.ev.site 0x400000 = true) ∧
    (∃ s, Puts s (0x4800 + 16 * 383) 0x7FFFFFFFFFFFFFE0) ∧ (∃ s, Puts s (0x4808 + 16 * 383) 0xFFFFFFE0) ∧
    (∃ s, Puts s (0x80000 + 0x80 * 383 + 0x10 * 7) (BitVec.ofNat 64 (1 * 2 ^ 36 + 8191 * 2 ^ 6)) ∧ 8191 + 1 ≤ 8192 ∧ s.ringIdle (coreAt s.ev.site 383) 7 = true ∧
      ∀ i, i < 8 → i ≠ 7 → (s.ring (coreAt s.ev.site 383) i).cap = 0) ∧
    (∃ s, Puts s (0x2000 + 8 * 383) (BitVec.ofNat 64 (31 + 32 * 2 ^ 8))) ∧ (∃ s, Puts s (0x2000 + 8 * 383) (BitVec.ofNat 64 (2 ^ 63 + 31 + 32 * 2 ^ 8))) ∧
    (∃ s : State, s.ev.value = BitVec.ofNat 64 (1023 + 1024 * 2 ^ 10)) ∧ (∃ s : State, s.ev.value = BitVec.ofNat 64 (2 ^ 63 + 1023 + 1024 * 2 ^ 10)) ∧
    (∃ s, Puts s (0x180000 + 0x20 * 1023) 0x80FFFFFFFFFFFFFF ∧ (0x80FFFFFFFFFFFFFF : Word).toNat / 2 ^ 56 % 8 = 0) ∧
    (∃ s, Puts s (0x180008 + 0x20 * 1023) 0x00FFFFFFFFFFFFFF) ∧ (∃ s, Puts s (0x180010 + 0x20 * 1023) 0xFFFFF00000000000) ∧
    (∃ s, Puts s (0x500000 + 0x80 * 383 + 0x10 * 7) 0x8000000000000001 ∧ counterBad false 0x8000000000000001 = false) ∧
    (∃ s, Puts s (0x500000 + 0x80 * 383 + 0x10 * 7 + 8) 0xFFFFFFFFFFFF) := by
  refine ⟨⟨stores 0x100 0, rfl⟩, ⟨stores 0x100 0x400000 0 (at0 h0 {} { world with mem := [(0x40003F, 0xFF)] }), rfl, by decide, by decide +kernel⟩, stores_p _ _ (by decide), stores_p _ _ (by decide),
    ⟨stores (0x80000 + 0x80 * 383 + 0x10 * 7) _, stores_x (by decide), by decide, by decide +kernel, fun i _ _ => ?_⟩,
    stores_p _ _ (by decide), stores_p _ _ (by decide), ⟨stores 0x130 _, rfl⟩, ⟨stores 0x130 _, rfl⟩, ⟨stores _ _, stores_x (by decide), by decide⟩, stores_p _ _ (by decide),
    stores_p _ _ (by decide), ⟨stores _ _, stores_x (by decide), by decide +kernel⟩, stores_p _ _ (by decide)⟩
  rename_i h _
  rcases i with _ | _ | _ | _ | _ | _ | _ | _ | i <;> first | rfl | omega
/-- A job with a live revision. -/
def withRev : State := { jobs := [(8 * (3 / 4) + 7, { revs := [{ num := 1, parent := 0, order := 0, owner := .ctx 0 0 }] })] }
/-- TENTRY with a misaligned PC, the last entries of the tables, a die that resets and one in reset, and an owner key without a next one and with one. -/
theorem witness_TableRefusalsAndKeys :
    (∃ s : State, s.ev.value = 6 ∧ (6 : Word) ≠ 0 ∧ pcOk 6 = false) ∧ (∀ v, ∃ s, Puts s (0x80008 + 0x80 * 383 + 0x10 * 7) v) ∧
    (∃ s, Puts s (0x380000 + 0x40 * 255) 0xF8000FFFFFFFFFFF ∧ (0xF8000FFFFFFFFFFF : Word).toNat / 2 ^ 44 % 2 ^ 15 = 0 ∧ (0xF8000FFFFFFFFFFF : Word).getLsbD 63 = true ∧ s.Inv) ∧
    (∃ s, Puts s (0x380000 + 0x40 * 255) 0 ∧ (0 : Word).toNat / 2 ^ 44 % 2 ^ 15 = 0 ∧ (0 : Word).getLsbD 63 = false ∧ s.Inv) ∧
    (∃ s, Puts s (jobOff 7) 0x7FFFFFFF ∧ 2 * (0x7FFFFFFF : Word).toNat ≤ (s.ctlGet s.ev.site (jobOff 7 + 0x18)).toNat % 2 ^ 32) ∧
    (∃ s, Puts s (jobOff 7) 0x7FFFFFFF ∧ (s.ctlGet s.ev.site (jobOff 7 + 0x18)).toNat % 2 ^ 32 < 2 * (0x7FFFFFFF : Word).toNat) ∧
    (∃ s, Puts s (jobOff 7 + 0x100 + 16 * 4095) 0 ∧ (s.job (8 * (s.ev.site / 4) + 7)).revs ≠ []) ∧ (∀ v, ∃ s, Puts s (0x1000 + 8 * 383) v) ∧
    (∃ s, Puts s 0x118 0xFFFFFFFFFC000000 ∧ (0xFFFFFFFFFC000000 : Word).toNat % 2 ^ 26 = 0) ∧ (∀ v, ∃ s, Puts s 0x188 v) ∧
    (∃ s : State, (s.die s.ev.site).reset = .up) ∧ (∃ s : State, (s.die s.ev.site).reset = .clearing) ∧
    (∃ s : State, lookupD {} s.ev.n (s.die s.ev.site).keys = { cur := some 5 }) ∧ (∃ s : State, lookup? s.ev.n (s.die s.ev.site).keys = some { cur := some 5, next := some 6 }) ∧
    (∃ (s : State) (x : Hart), s.hart? s.ev.hart = some x ∧ x.outstanding = [{ tag := 2 ^ 32 }]) := by
  refine ⟨⟨stores 0x100 6, rfl, by decide, by decide⟩, fun v => stores_p _ _ (by decide), ⟨stores _ _ 3 State.reset, stores_x (by decide), by decide, by decide, rfl, rfl⟩,
    ⟨stores _ _ 3 State.reset, stores_x (by decide), by decide, by decide, rfl, rfl⟩,
    ⟨stores (jobOff 7) _ 3 (State.ctlPut {} 3 (jobOff 7 + 0x18) 0xFFFFFFFE), stores_x (by decide), by decide +kernel⟩,
    ⟨stores (jobOff 7) _ 3 (State.ctlPut {} 3 (jobOff 7 + 0x18) 0xFFFFFFFD), stores_x (by decide), by decide +kernel⟩,
    ⟨stores (jobOff 7 + 0x100 + 16 * 4095) _ 3 withRev, stores_x (by decide), fun h => by simp [stores, ev0, withRev, State.job, lookupD] at h⟩,
    fun v => stores_p _ _ (by decide), ⟨stores _ _, stores_x (by decide), by decide⟩, fun v => stores_p _ _ (by decide), ⟨{}, rfl⟩,
    ⟨State.modDie {} 0 fun d => { d with reset := .clearing }, rfl⟩, ⟨State.modDie {} 0 fun d => { d with keys := [(0, { cur := some 5 })] }, rfl⟩,
    ⟨State.modDie {} 0 fun d => { d with keys := [(0, { cur := some 5, next := some 6 })] }, rfl⟩, ⟨resulting { tag := 2 ^ 32 }, _, rfl, rfl⟩⟩

/-! ### Tasks and launches -/

/-- Die 3 alone. -/
def onDie (x : Die) (s : State := {}) : State := { s with dies := [(3, x)], ev := { s.ev with site := 3 } }
/-- Die 3 with one message. -/
def gets (m : Msg) (x : Die := {}) (s : State := {}) : State := onDie { x with inbox := [m] } s
/-- It after the message is taken. -/
def got (m : Msg) (x : Die := {}) (s : State := {}) : State := (gets m x s).modDie 3 fun y => { y with inbox := [] ++ [] }
theorem gets_x {P : Msg → Prop} (h : P m) : (gets m x s).Takes (gets m x s).ev.site P m (got m x s) := ⟨[], [], rfl, nofun, h, rfl⟩
def task0 : Task := { launch := 1, elem := 0, entry := 0x400000 }
def acq0 : Acq := { task := task0, ctx := (coreAt 3 0, 59), hood := [(3, 5), (7, 2 ^ 23 - 1)] }
def key0 : HuskKey := { order := 0, arrival := 0, pkg := 0, die := 3 }
def key1 : HuskKey := { key0 with order := 1 }
def someAcq (q : Acq) : Die := { acqs := [(9, q)] }
/-- A position that is held, or husked, or both, and each of the messages of an acquisition with what its die knows. -/
theorem witness_Exclusion_positions :
    (∀ l : ElemLock, l.pos = 5 → (onDie { locks := [l] }).lockAt 3 5 = l) ∧
    (key0.older key1 = true ∧ key1.older key0 = false ∧ HuskKey.older { key0 with arrival := 2 ^ 40 - 1 } key0 = true) ∧
    (∀ i ∈ [0, 2 ^ 23 - 1], ((onDie {}).lockAt 3 i).held = none ∧ ((onDie {}).lockAt 3 i).husk = none) ∧
    (5 ∈ [4, 5] ∧ ((onDie { locks := [{ pos := 5, held := some (7, 9) }] }).lockAt 3 5).held ≠ none) := by
  refine ⟨fun l h => ?_, by decide, fun i _ => ⟨rfl, rfl⟩, by decide⟩
  obtain ⟨_, _, _, _⟩ := l
  cases h
  rfl
theorem witness_Exclusion_requests :
    (∀ n ∈ [8191, 8192], ∃ (s s1 : State), s.Takes s.ev.site (fun m => m.ofAcq = true) (.exclReq 7 9 [5] none 0) s1 ∧ (s1.die s.ev.site).grants.length = n) ∧
    (∃ (s s1 : State), s.Takes s.ev.site (fun m => m.ofAcq = true) (.exclReq 7 9 [5] none 0) s1 ∧ (s1.die s.ev.site).grants.length < 8192 ∧ (s1.setRun s.ev.site (7, 9) [5]).isSome = true) ∧
    (∃ (s s1 : State), s.Takes s.ev.site (fun m => m.ofAcq = true) (.exclReq 7 9 [5] none 0) s1 ∧ (s1.die s.ev.site).grants.length < 8192 ∧ s1.setRun s.ev.site (7, 9) [5] = none) ∧
    (∃ (s s1 : State), s.Takes s.ev.site (fun m => m.ofAcq = true) (.exclReq 7 9 [5] (some key0) 0) s1 ∧ (s1.die s.ev.site).grants.length < 8192 ∧
      (s1.huskRun s.ev.site (7, 9) key0 [5]).2 = ([5], none)) ∧
    (∃ (s s1 : State), s.Takes s.ev.site (fun m => m.ofAcq = true) (.exclReq 7 9 [4, 5] (some key1) 0) s1 ∧ (s1.die s.ev.site).grants.length < 8192 ∧
      (s1.huskRun s.ev.site (7, 9) key1 [4, 5]).2 = ([4], some 5)) := by
  refine ⟨fun n _ => ⟨gets _ { grants := List.replicate n { die := 7, incarn := 0, acq := 1, run := [1] } }, _, gets_x rfl, List.length_replicate⟩,
    ⟨gets _ {}, _, gets_x rfl, by decide, by decide +kernel⟩, ⟨gets _ { locks := [{ pos := 5, held := some (1, 1) }] }, _, gets_x rfl, by decide, by decide +kernel⟩,
    ⟨gets _ {}, _, gets_x rfl, by decide, by decide +kernel⟩,
    ⟨gets _ { locks := [{ pos := 5, held := some (1, 1), husk := some (2, 2, key0) }] }, _, gets_x rfl, by decide, by decide +kernel⟩⟩
theorem witness_Exclusion_replies :
    (∃ (s s1 : State), s.Takes s.ev.site (fun m => m.ofAcq = true) (.exclReply 7 9 [2 ^ 23 - 1] true [2 ^ 23 - 1]) s1 ∧ s1.acq? s.ev.site 9 = none) ∧
    (∃ (s s1 : State) (q : Acq), s.Takes s.ev.site (fun m => m.ofAcq = true) (.exclReply 7 9 [2 ^ 23 - 1] true [2 ^ 23 - 1]) s1 ∧ s1.acq? s.ev.site 9 = some q ∧ q.stuck = none ∧
      q.hood.length ≤ q.next + 1 ∧ ∀ p ∈ [2 ^ 23 - 1], (7, p) ∉ q.taken) ∧
    (∃ (s s1 : State) (q : Acq), s.Takes s.ev.site (fun m => m.ofAcq = true) (.exclReply 7 9 [] false []) s1 ∧ s1.acq? s.ev.site 9 = some q ∧ q.stuck = none ∧ q.husk = none) ∧
    (∃ (s s1 : State) (q : Acq) (w : DieKey × Nat), s.Takes s.ev.site (fun m => m.ofAcq = true) (.exclReply 7 9 [] false []) s1 ∧ s1.acq? s.ev.site 9 = some q ∧ q.stuck = some w) ∧
    (∃ (s s1 : State), s.Takes s.ev.site (fun m => m.ofAcq = true) (.exclPass 9 7 4) s1 ∧ s1.acq? s.ev.site 9 = none) ∧
    (∃ (s s1 : State) (q : Acq), s.Takes s.ev.site (fun m => m.ofAcq = true) (.exclPass 9 7 4) s1 ∧ s1.acq? s.ev.site 9 = some q ∧ (7, 4) ∈ q.marked) ∧
    (∃ (s s1 : State), s.Takes s.ev.site (fun m => m.ofAcq = true) (.exclRelease 7 9 [4]) s1) ∧
    (∃ (s s1 : State), s.Takes s.ev.site (fun m => m.ofAcq = true) (.huskYield 9 7 4) s1 ∧ s1.acq? s.ev.site 9 = none) ∧
    (∃ (s s1 : State) (q : Acq), s.Takes s.ev.site (fun m => m.ofAcq = true) (.huskYield 9 7 4) s1 ∧ s1.acq? s.ev.site 9 = some q ∧ q.husk = some key0 ∧ q.issued = false ∧ q.stuck = none ∧
      q.taken = [] ∧ q.marked = []) ∧
    (∃ (s : State) (q : Acq), s.acq? s.ev.site s.ev.n = some q ∧ s.firstRestart s.ev.site = some s.ev.n ∧ (9, q) ∈ (s.die s.ev.site).acqs ∧ s.restartable q = true) ∧
    (∃ (s : State) (q : Acq), s.acq? s.ev.site s.ev.n = some q ∧ s.firstRestart s.ev.site ≠ some s.ev.n) := by
  refine ⟨⟨gets _ {}, _, gets_x rfl, rfl⟩, ⟨gets _ (someAcq { acq0 with next := 1, taken := [(3, 5)] }), _, _, gets_x rfl, rfl, rfl, by decide, by decide⟩,
    ⟨gets _ (someAcq acq0), _, _, gets_x rfl, rfl, rfl, rfl⟩, ⟨gets _ (someAcq { acq0 with stuck := some (7, 1) }), _, _, _, gets_x rfl, rfl, rfl⟩,
    ⟨gets _ {}, _, gets_x rfl, rfl⟩, ⟨gets _ (someAcq { acq0 with marked := [(7, 4)] }), _, _, gets_x rfl, rfl, by decide⟩, ⟨gets _ {}, _, gets_x rfl⟩,
    ⟨gets _ {}, _, gets_x rfl, rfl⟩, ⟨gets _ (someAcq { acq0 with husk := some key0 }), _, _, gets_x rfl, rfl, rfl, rfl, rfl, rfl, rfl⟩,
    ⟨{ onDie (someAcq { acq0 with husk := some key0, stuck := some (7, 4) }) with ev := { site := 3, n := 9 } }, _, rfl, by decide +kernel, .head _, by decide +kernel⟩,
    ⟨{ onDie (someAcq acq0) with ev := { site := 3, n := 9 } }, _, rfl, by decide +kernel⟩⟩
/-- A launch of die 3 for its cores, with one element. -/
def launch0 : Launch :=
  { packet := { coreCount := 1536, kind := 1 }, die := 3, started := true, resident := [0], tasks := 1, blocks := [{ first := 0, count := 1, die := 3 }], entry := 0x400000 }
def withLaunch (y : Launch) : State := { launches := [(1, y)] }
theorem witness_Tasks_posts :
    (∃ s s1 : State, s.Takes s.ev.site (fun m => ∃ t, m = .post t) (.post task0) s1 ∧ (s1.die s.ev.site).readyUsed = 8191 ∧ (s1.die s.ev.site).spill = []) ∧
    (∃ s s1 : State, s.Takes s.ev.site (fun m => ∃ t, m = .post t) (.post task0) s1 ∧ 8192 ≤ (s1.die s.ev.site).readyUsed ∧ (s1.die s.ev.site).spill.length < 16777216) ∧
    (∃ s s1 : State, s.Takes s.ev.site (fun m => ∃ t, m = .post t) (.post task0) s1 ∧ 8192 ≤ (s1.die s.ev.site).readyUsed ∧ 16777216 ≤ (s1.die s.ev.site).spill.length) := by
  have h : ∀ n l, ((got (.post task0) { ready := List.replicate n task0, spill := l }).die 3).readyUsed = n := fun n l => List.length_replicate
  exact ⟨⟨gets _ { ready := List.replicate 8191 task0 }, _, gets_x ⟨_, rfl⟩, h 8191 [], rfl⟩,
    ⟨gets _ { ready := List.replicate 8192 task0 }, _, gets_x ⟨_, rfl⟩, Nat.le_of_eq (h 8192 []).symm, by decide⟩,
    ⟨gets _ { ready := List.replicate 8192 task0, spill := List.replicate 16777216 task0 }, _, gets_x ⟨_, rfl⟩, Nat.le_of_eq (h 8192 _).symm, Nat.le_of_eq (List.length_replicate (n := 16777216) (a := task0)).symm⟩⟩
/-- A launch whose neighbourhoods have a negative length. -/
def badHoods : Launch := { launch0 with radius := 3 }
theorem witness_Tasks_starts :
    (∃ s : State, (s.die s.ev.site).reset ≠ .up) ∧ (∃ s : State, s.firstRestart s.ev.site ≠ none) ∧ (∃ s : State, s.nextTask s.ev.site = none) ∧
    (∃ (s : State) (y : Launch) (ctx : CoreKey × Nat), (s.die s.ev.site).reset = .up ∧ s.firstRestart s.ev.site = none ∧ s.nextTask s.ev.site = some task0 ∧ s.launch? task0.launch = some y ∧
      s.reserve y s.ev.site = some ctx ∧ s.hoodOf s.ev.site y task0.elem = none) ∧
    (∀ l ∈ [none, some (7, 1)], ∃ (s : State) (y : Launch) (ctx : CoreKey × Nat), (s.die s.ev.site).reset = .up ∧ s.firstRestart s.ev.site = none ∧ s.nextTask s.ev.site = some task0 ∧
      s.launch? task0.launch = some y ∧ s.reserve y s.ev.site = some ctx ∧
      s.hoodOf s.ev.site y task0.elem = some ([0], 0, 0) ∧ y.positions [0] = [(s.ev.site, 0)] ∧ task0.retry < y.threshold ∧ lookup? (s.die s.ev.site).nextAcq (s.die s.ev.site).acqs = none ∧
      (s.lockAt s.ev.site 0).held = l ∧ (s.lockAt s.ev.site 0).husk = none) := by
  refine ⟨⟨onDie { reset := .clearing }, by decide⟩, ⟨onDie (someAcq { acq0 with husk := some key0, stuck := some (7, 4) }), by decide +kernel⟩, ⟨{}, rfl⟩, ?_, fun l hl => ?_⟩
  · obtain ⟨ctx, h⟩ := Option.isSome_iff_exists.1 (show ((onDie { ready := [task0] } { withLaunch badHoods with mem := [(0, 1)] }).reserve badHoods 3).isSome = true by decide +kernel)
    exact ⟨onDie { ready := [task0] } { withLaunch badHoods with mem := [(0, 1)] }, badHoods, ctx, rfl, by decide +kernel, by decide +kernel, rfl, h, by decide +kernel⟩
  · simp only [List.mem_cons, List.not_mem_nil, or_false] at hl
    have hp : launch0.positions [0] = [(3, 0)] := by simp [Launch.positions, launch0, elementAt]
    rcases hl with rfl | rfl
    · obtain ⟨ctx, h⟩ := Option.isSome_iff_exists.1 (show ((onDie { ready := [task0], locks := [{ pos := 0, held := none }] } (withLaunch launch0)).reserve launch0 3).isSome = true by decide +kernel)
      exact ⟨onDie { ready := [task0], locks := [{ pos := 0, held := none }] } (withLaunch launch0), launch0, ctx, rfl, by decide +kernel, by decide +kernel, rfl, h, rfl, hp, by decide, rfl, rfl, rfl⟩
    · obtain ⟨ctx, h⟩ := Option.isSome_iff_exists.1 (show ((onDie { ready := [task0], locks := [{ pos := 0, held := some (7, 1) }] } (withLaunch launch0)).reserve launch0 3).isSome = true by decide +kernel)
      exact ⟨onDie { ready := [task0], locks := [{ pos := 0, held := some (7, 1) }] } (withLaunch launch0), launch0, ctx, rfl, by decide +kernel, by decide +kernel, rfl, h, rfl, hp, by decide, rfl, rfl, rfl⟩
theorem witness_Tasks_issue :
    (∃ (s : State) (q : Acq) (y : Launch), s.acq? s.ev.site s.ev.n = some q ∧ s.launch? q.task.launch = some y ∧ q.complete = false) ∧
    (∃ (s : State) (q : Acq) (y : Launch), s.acq? s.ev.site s.ev.n = some q ∧ s.launch? q.task.launch = some y ∧ q.complete = true) ∧
    (∀ b p f cause, ∃ (s s1 : State) (q : Acq) (y : Launch), s.Takes s.ev.site (fun m => ∃ a f c i, m = .taskEnd a f c i) (.taskEnd 9 f cause 0) s1 ∧ s1.acq? s.ev.site 9 = some q ∧
      s1.launch? q.task.launch = some y ∧ y.repost = b ∧ q.task.reposted = p ∧ q.taken = []) ∧
    (∃ s : State, ∀ p ∈ (s.die s.ev.site).acqs, p.2.releasing = false) :=
  ⟨⟨{ onDie (someAcq acq0) (withLaunch launch0) with ev := { site := 3, n := 9 } }, _, _, rfl, rfl, by decide⟩,
   ⟨{ onDie (someAcq { acq0 with next := 2, taken := acq0.hood }) (withLaunch launch0) with ev := { site := 3, n := 9 } }, _, _, rfl, rfl, by decide +kernel⟩,
   fun b p f cause => ⟨gets _ (someAcq { acq0 with task := { task0 with reposted := p } }) (withLaunch { launch0 with repost := b }), _, _, _, gets_x ⟨9, f, cause, 0, rfl⟩, rfl, rfl, rfl, rfl, rfl⟩,
   onDie (someAcq acq0), by decide⟩
/-- An element to post again: with a place in the ready queue, with none but in the spill, and with none. -/
def ended (n m : Nat) : State := onDie { someAcq { acq0 with releasing := true } with ready := List.replicate n task0, spill := List.replicate m task0 }
theorem witness_Tasks_repost : ∀ n m, ∃ (s : State) (q : Acq), (s.die s.ev.site).acqs.find? (fun p => p.2.releasing) = some (9, q) ∧
    (let x : Die := { s.die s.ev.site with acqs := eraseKey 9 (s.die s.ev.site).acqs }
     x.readyUsed = n ∧ x.spill.length = m ∧ (m = 0 → ∀ r ∈ x.spill, r.prio ≠ q.task.prio)) := by
  refine fun n m => ⟨ended n m, _, rfl, List.length_replicate, List.length_replicate, fun h r hr => ?_⟩
  subst h
  exact absurd hr (by simp [ended, onDie, State.die, lookupD])
/-- A packet for all 1536 cores. -/
def packet0 : LaunchPacket := { kind := 1, firstCore := 0, coreCount := 1536, record := 0x40000, mailbox := 0x50000 }
theorem witness_LaunchStart_queue :
    (∀ n ∈ [15, 16], ∃ s : State, (s.die s.ev.site).launchq.length = n ∧ (s.die s.ev.site).reset = .up ∧
      (s.die s.ev.site).keyAccepts s.ev.packet.owner.toNat (s.ev.wide.extractLsb' 0 128) = true) ∧
    (∃ s : State, (s.die s.ev.site).keyAccepts s.ev.packet.owner.toNat (s.ev.wide.extractLsb' 0 128) = false) ∧ (∃ s : State, (s.die s.ev.site).reset ≠ .up) ∧
    (∀ p ∈ [{ packet0 with reserved := 1 }, { packet0 with kind := 2 }, { packet0 with descriptor := 0x20 }, { packet0 with coreCount := 0 }, { packet0 with firstCore := 1 }],
      ∃ s : State, (s.die s.ev.site).reset = .up ∧ (s.die s.ev.site).starting = none ∧ (s.die s.ev.site).launchq = [(p, none)] ∧
        (p.reserved ≠ 0 ∨ p.kind ≠ 1 ∨ p.descriptor.toNat % 64 ≠ 0 ∨ p.coreCount = 0 ∨ 1536 < p.firstCore.toNat + p.coreCount.toNat)) ∧
    (∃ (s : State), (s.die s.ev.site).reset = .up ∧ (s.die s.ev.site).starting = none ∧ (s.die s.ev.site).launchq = [({ packet0 with kind := 2 }, none)] ∧
      ((s.modDie s.ev.site fun x => { x with launchq := [] }).makeLaunch s.ev.site { packet0 with kind := 2 } none).badStatus ≠ 0) ∧
    (∃ (s : State), (s.die s.ev.site).reset = .up ∧ (s.die s.ev.site).starting = none ∧ (s.die s.ev.site).launchq = [(packet0, none)] ∧
      (let y := (s.modDie s.ev.site fun x => { x with launchq := [] }).makeLaunch s.ev.site packet0 none
       y.badStatus = 0 ∧ y.leases = [] ∧ ∀ b ∈ y.blocks, b.die / 4 = s.ev.site / 4)) := by
  refine ⟨fun n hn => ⟨onDie { launchq := List.replicate n ({}, none), keys := [(0, { cur := some 0 })] }, List.length_replicate, rfl, by
      simp only [List.mem_cons, List.not_mem_nil, or_false] at hn
      rcases hn with rfl | rfl <;> decide +kernel⟩,
    ⟨onDie {}, by decide +kernel⟩, ⟨onDie { reset := .clearing }, by decide⟩,
    fun p hp => ⟨onDie { launchq := [(p, none)] }, rfl, rfl, rfl, ?_⟩, ⟨onDie { launchq := [({ packet0 with kind := 2 }, none)] }, rfl, rfl, rfl, by decide +kernel⟩,
    ⟨onDie { launchq := [(packet0, none)] }, rfl, rfl, rfl, by decide +kernel⟩⟩
  simp only [List.mem_cons, List.not_mem_nil, or_false] at hp
  rcases hp with rfl | rfl | rfl | rfl | rfl <;> decide
/-- A launch whose first threads can start, whose cores are full, and that has started all; with no lease, and with a page that no table maps. -/
def starts (y : Launch) : State := onDie { starting := some 1 } (withLaunch y)
theorem witness_LaunchStart_leases :
    (∃ (s : State) (y : Launch), (s.die s.ev.site).reset = .up ∧ (s.die s.ev.site).starting = some 1 ∧ s.launch? 1 = some y ∧ y.started = true ∧ y.held = false ∧
      ∃ i ∈ y.toStart, (s.freeSlot (y.firstCoreAt i)).isSome = true) ∧
    (∃ (s : State) (y : Launch), (s.die s.ev.site).reset = .up ∧ (s.die s.ev.site).starting = some 1 ∧ s.launch? 1 = some y ∧ y.started = true ∧ y.toStart = []) ∧
    (∀ b, ∃ (s u : State) (y : Launch), (s.die s.ev.site).reset = .up ∧ (s.die s.ev.site).starting = some 1 ∧ s.launch? 1 = some y ∧ y.started = false ∧ s.pinLeases s.ev.site 1 y = (u, b)) ∧
    (∀ b, ∃ (s s1 u : State) (y : Launch), s.Takes s.ev.site (fun m => ∃ l, m = .descriptor l) (.descriptor 1) s1 ∧ s1.launch? 1 = some y ∧ s1.pinLeases s.ev.site 1 y = (u, b)) := by
  refine ⟨⟨starts { launch0 with toStart := [1535] }, _, rfl, rfl, rfl, rfl, rfl, 1535, .head _, by decide +kernel⟩, ⟨starts launch0, _, rfl, rfl, rfl, rfl, rfl⟩, fun b => ?_, fun b => ?_⟩
  · cases b
    · exact ⟨starts { launch0 with started := false, leases := [{ base := 0, len := 1, r := true, w := true }] }, _, _, rfl, rfl, rfl, rfl, Prod.ext rfl (by decide +kernel)⟩
    · exact ⟨starts { launch0 with started := false }, _, _, rfl, rfl, rfl, rfl, Prod.ext rfl (by decide +kernel)⟩
  · cases b
    · exact ⟨gets _ {} (withLaunch { launch0 with leases := [{ base := 0, len := 1, r := true, w := true }] }), _, _, _, gets_x ⟨1, rfl⟩, rfl, Prod.ext rfl (by decide +kernel)⟩
    · exact ⟨gets _ {} (withLaunch launch0), _, _, _, gets_x ⟨1, rfl⟩, rfl, Prod.ext rfl (by decide +kernel)⟩
/-- The last core of a launch, whose image is in memory. -/
theorem witness_ThreadsAndSlots_threads : ∃ (s : State) (y : Launch), s.launch? s.ev.site = some y ∧ y.started = true ∧ y.held = false ∧
    (∀ p ∈ s.launches, p.1 < s.ev.site → p.2.toStart = []) ∧ y.toStart.find? (fun i => (s.freeSlot (y.firstCoreAt i)).isSome) = some 1535 ∧ s.freeSlot (y.firstCoreAt 1535) = some 0 ∧
    ∀ k, k < 4 → s.isPoisoned (s.unitPa y.die y.space (y.packet.image.toNat + 0x4000 * (if y.packet.sharedImage then 0 else 1535) + 64 * k)) 64 = false :=
  ⟨ev0 { site := 1 } (withLaunch { launch0 with toStart := [1535] }), _, rfl, rfl, rfl, by decide, by decide +kernel, by decide +kernel, by decide +kernel⟩
/-- Slot 255 of die 3: its words 0 and 7, the period and the epoch. -/
def slot255 (w0 w7 T epoch : Word) (shift : Int) (s : State := {}) : State :=
  ev0 { site := 3, n := 255, shift := shift } ((((s.ctlPut 3 (slotOff 255) w0).ctlPut 3 (slotOff 255 + 56) w7).ctlPut 3 0x160 T).ctlPut 3 0x168 epoch)
def busy255 (y : Launch := { launch0 with slotNo := some 255 }) : State := withLaunch y
theorem witness_ThreadsAndSlots_slots :
    let on : Word := 0x8000000000000000
    (∃ s : State, (s.ctlGet s.ev.site (slotOff 255)).getLsbD 63 = false) ∧
    (∃ s : State, (s.ctlGet 3 0x160).toNat ≤ (s.ctlGet 3 (slotOff 255 + 56)).toNat % 2 ^ 32) ∧ (∃ s : State, (s.die 3).fired 255 5 = true) ∧
    (∀ p ∈ [(on, false, false), (on ||| (1#64 <<< 61), false, true)], ∃ s : State, s.ev.n % 256 = 255 ∧ (s.ctlGet 3 (slotOff 255)) = p.1 ∧
      (s.ctlGet 3 (slotOff 255 + 56)).toNat % 2 ^ 32 < (s.ctlGet 3 0x160).toNat ∧ (s.die 3).fired 255 s.ev.shift = false ∧ (s.die 3).reset = .up ∧
      s.ev.shift = -1 ∧ 0 ≤ Int.ofNat ((s.ctlGet 3 0x168).toNat + (s.ctlGet 3 (slotOff 255 + 56)).toNat % 2 ^ 32) + s.ev.shift * Int.ofNat (s.ctlGet 3 0x160).toNat ∧
      s.slotBusy 3 255 = p.2.1 ∧ s.slotPending 3 255 = p.2.2 ∧ (s.die 3).launchq.length < 16 ∧ s.slotLaunch 3 255 = none) ∧
    (∀ m : Bool, ∃ s : State, (s.ctlGet 3 (slotOff 255)).getLsbD 63 = true ∧ (s.ctlGet 3 (slotOff 255)).getLsbD 62 = m ∧ s.slotLaunch 3 255 = none ∧ s.slotBusy 3 255 = true ∧
      s.slotPending 3 255 = false) ∧
    (∃ s : State, s.slotBusy 3 255 = false ∧ 16 ≤ (s.die 3).launchq.length) ∧
    (∀ b h, ∃ (s : State) (y : Launch), s.slotLaunch s.ev.site s.ev.n = some (1, y) ∧ s.launch? 1 = some y ∧ y.budget = b ∧ y.held = h ∧ y.started = true) := by
  refine ⟨⟨slot255 0 0 10 0 0, by decide +kernel⟩, ⟨slot255 0 10 10 0 0, by decide +kernel⟩, ⟨State.modDie {} 3 fun d => { d with nextDue := [(255, 6)] }, by decide +kernel⟩, fun p hp => ?_, fun m => ?_,
    ⟨State.modDie {} 3 fun d => { d with launchq := List.replicate 16 ({}, none) }, by decide +kernel, by decide +kernel⟩,
    fun b h => ⟨slot255 0 0 10 0 0 (busy255 { launch0 with slotNo := some 255, budget := b, held := h }), _, rfl, rfl, rfl, rfl, rfl⟩⟩
  · simp only [List.mem_cons, List.not_mem_nil, or_false] at hp
    rcases hp with rfl | rfl
    · exact ⟨slot255 0x8000000000000000 9 10 1 (-1), rfl, by decide +kernel, by decide +kernel, by decide +kernel, rfl, rfl, by decide +kernel, by decide +kernel, by decide +kernel, by decide, by decide +kernel⟩
    · exact ⟨slot255 0xA000000000000000 9 10 1 (-1), rfl, by decide +kernel, by decide +kernel, by decide +kernel, rfl, rfl, by decide +kernel, by decide +kernel, by decide +kernel, by decide, by decide +kernel⟩
  · exact ⟨slot255 (if m then 0xC000000000000000 else 0x8000000000000000) 9 10 1 0 (State.modDie {} 3 fun d => { d with launchq := [({}, some 255)] }),
      by cases m <;> decide +kernel, by cases m <;> decide +kernel, by cases m <;> decide +kernel, by cases m <;> decide +kernel, by cases m <;> decide +kernel⟩
/-- A shift of the time that is taken, and one that is not. -/
theorem witness_ThreadsAndSlots_time : (-999999 : Int).natAbs < 1000000 ∧ 1000000 ≤ (-1000000 : Int).natAbs := by decide
/-- A launch that is over and one that is not; its record and mailbox in pages that its space maps and its owner may write. -/
theorem witness_LaunchCompletion : (∀ b, ∃ (s : State) (y : Launch), s.launch? s.ev.site = some y ∧ (s.die y.die).reset = .up ∧ y.over = b) ∧
    ∃ (s : State) (y : Launch) (ea eb : TlbEntry), s.launch? s.ev.site = some y ∧ (s.die y.die).reset = .up ∧ y.over = true ∧ y.leases = [] ∧
      s.unitEntry y.die y.space y.packet.record.toNat = some ea ∧ s.unitEntry y.die y.space y.packet.mailbox.toNat = some eb ∧
      (let a := ea.pa (y.packet.record.toNat % 2 ^ 57)
       let b := eb.pa (y.packet.mailbox.toNat % 2 ^ 57)
       let open1 := fun (c n : Nat) => s.granted c = false ∧ s.ownerStatus y.die y.packet.owner.toNat c n true = 0
       let apart := fun (c n : Nat) => a + 64 ≤ c ∨ c + n ≤ a
       open1 a 64 ∧ open1 b 8 ∧ apart b 8 ∧ apart (s.metaAddr b) 32) := by
  refine ⟨fun b => ⟨ev0 { site := 1 } (withLaunch { launch0 with tasks := if b then 0 else 1 }), _, rfl, rfl, by cases b <;> decide +kernel⟩, ?_⟩
  exact ⟨ev0 { site := 1 } { world with launches := [(1, { launch0 with tasks := 0, die := 0, space := 3, packet := packet0 })] }, _, _, _, rfl, rfl, by decide +kernel, rfl, rfl, rfl, by decide +kernel⟩
/-! ### Messages -/

def access0 : Access := { kind := 0, addr := 0x20000, pc := 0x400000, status := 1 }
/-- An empty ring of a capacity, with free slots. -/
def rg (cap free : Nat) : Ring := { cap := cap, base := 0, filled := 0, free := free, head := 0, tail := 0 }
/-- Ring 7 of core 0 of die 0. -/
def ring7 (g : Ring) (m : Msg) (k : Core := {}) : State :=
  (({ dies := [(0, { inbox := [m] })], cores := [(0, k)] } : State)).setRing 0 7 g
def enq0 (r n : Nat) (ack : Option (Nat × Word)) : Msg := .enqueue (.ctx 0 0) 0 r (List.replicate n 7) ack 0 access0 0
/-- A message of eight slots with room and without, behind another of its ring and not; with 15 that wait; to a ring that does not exist, too small a
ring, and a die of another owner. -/
theorem witness_EnqueueEvents :
    (∀ f ∈ [7, 8], ∀ n ≤ 15, ∃ s : State, (s.die s.ev.site).inbox = [enq0 7 504 none] ∧ ringSlots (List.replicate 504 (7 : Byte)).length = 8 ∧ (s.ring 0 7).cap = 8 ∧ (s.ring 0 7).free = f ∧
      (s.core 0).waiting = List.replicate n { ring := 6, slots := 1, bytes := [] } ∧ (s.core 0).waiting.length < 16 ∧
      (∀ w ∈ (s.core 0).waiting, w.ring ≠ 7) ∧ (s.modDie s.ev.site fun x => { x with inbox := [] }).barred (dieOfCore 0) s.ev.site 0 = false) ∧
    (∃ s : State, (s.die s.ev.site).inbox = [enq0 7 504 none] ∧ ∃ w ∈ (s.core 0).waiting, w.ring = 7) ∧
    (∀ ack, ∃ s : State, (s.die s.ev.site).inbox = [enq0 8 0 ack]) ∧
    (∀ ack, ∃ s : State, (s.die s.ev.site).inbox = [enq0 7 505 ack] ∧ ringSlots (List.replicate 505 (7 : Byte)).length = 9 ∧ (s.ring 0 7).cap = 8) ∧
    (∀ ack, ∃ s : State, (s.die s.ev.site).inbox = [.enqueue (.ctx 0 0) 384 7 [] ack 0 access0 0] ∧ s.ev.site = 1 ∧ (s.modDie s.ev.site fun x => { x with inbox := [] }).barred (dieOfCore 0) s.ev.site 0 = true ∧
      (s.core 384).waiting.length < 16) ∧
    (∀ f ∈ [4, 5], ∃ s : State, (s.core s.ev.site).waiting.find? (fun w => w.ring == s.ev.n) = some { ring := 7, slots := 5, bytes := [] } ∧ (s.ring s.ev.site s.ev.n).free = f) ∧
    (∃ (s : State) (x : Hart), s.hart? s.ev.hart = some x ∧ x.wait = some .enqueue) ∧ (∃ s : State, ∀ l ∈ (s.core s.ev.site).landing, l.own = true) ∧
    (∀ ack credit, ∃ (s : State) (l : Landing), (s.core s.ev.site).landing = [l] ∧ l.own = false ∧ l.ack = ack ∧ l.credit = credit) ∧
    (∃ (s : State) (l : Landing), (s.core s.ev.site).landing = [l] ∧ l.own = true ∧ l.missing = true) ∧
    (∃ s s1 : State, s.Takes s.ev.site (fun m => ∃ c, m = .credit c) (.credit 1535) s1) := by
  refine ⟨fun f hf n hn => ⟨ring7 (rg 8 f) (enq0 7 504 none) { waiting := List.replicate n { ring := 6, slots := 1, bytes := [] } }, rfl, by rw [List.length_replicate]; decide, ?_, ?_, rfl, ?_,
      fun w hw => ?_, by simp [State.barred, ring7, State.setRing, dieOfCore]⟩,
    ⟨ring7 (rg 8 8) (enq0 7 504 none) { waiting := [{ ring := 7, slots := 1, bytes := [] }] }, rfl, _, .head _, rfl⟩, fun ack => ⟨ring7 (rg 0 0) (enq0 8 0 ack), rfl⟩,
    fun ack => ⟨ring7 (rg 8 8) (enq0 7 505 ack), rfl, by rw [List.length_replicate]; decide, by show ((ring7 (rg 8 8) (enq0 7 0 none)).ring 0 7).cap = 8; decide +kernel⟩,
    fun ack => ⟨ev0 { site := 1 } { dies := [(1, { inbox := [.enqueue (.ctx 0 0) 384 7 [] ack 0 access0 0], partition := 5 })] }, rfl, rfl, ?_, Nat.zero_lt_succ 15⟩,
    fun f hf => ⟨ev0 { n := 7 } (ring7 (rg 8 f) (enq0 7 0 none) { waiting := [{ ring := 6, slots := 1, bytes := [] }, { ring := 7, slots := 5, bytes := [] }] }), rfl, ?_⟩,
    ⟨at0 { h0 with wait := some .enqueue } {}, _, rfl, rfl⟩, ⟨{}, fun l h => by cases h⟩,
    fun a c => ⟨{ cores := [(0, { landing := [{ ring := 7, slots := 1, bytes := [], ack := a, credit := c }] })] }, _, rfl, rfl, rfl, rfl⟩,
    ⟨{ cores := [(0, { landing := [{ ring := 7, slots := 1, bytes := [], own := true, missing := true }] })] }, _, rfl, rfl, rfl⟩, ⟨gets _, _, gets_x ⟨_, rfl⟩⟩⟩
  · show ((ring7 (rg 8 f) (enq0 7 0 none)).ring 0 7).cap = 8
    simp only [List.mem_cons, List.not_mem_nil, or_false] at hf
    rcases hf with rfl | rfl <;> decide +kernel
  · show ((ring7 (rg 8 f) (enq0 7 0 none)).ring 0 7).free = f
    simp only [List.mem_cons, List.not_mem_nil, or_false] at hf
    rcases hf with rfl | rfl <;> decide +kernel
  · show (List.replicate n _).length < 16
    rw [List.length_replicate]
    omega
  · rw [List.eq_of_mem_replicate (show w ∈ List.replicate n _ from hw)]
    decide
  · show (({ dies := [(1, { partition := 5 })] } : State).barred 0 1 0) = true
    decide +kernel
  · simp only [List.mem_cons, List.not_mem_nil, or_false] at hf
    rcases hf with rfl | rfl <;> decide +kernel
/-- Cell 255 of core 1535, empty, full, and of another generation; a barrier instance with its count and without. -/
theorem witness_FillsAndBarriers :
    (∀ full gen put, ∃ s s1 : State, s.Takes s.ev.site (fun m => ∃ v w f o, m = .fill v w f o) (.fill (mkHandle 1535 255 0xFFFF) 7 put 0) s1 ∧
      (mkHandle 1535 255 0xFFFF).toNat / 2 ^ 40 = 3 ∧ handleCore (mkHandle 1535 255 0xFFFF) = 1535 ∧ handleCell (mkHandle 1535 255 0xFFFF) = 255 ∧
      handleGen (mkHandle 1535 255 0xFFFF) = 0xFFFF ∧ s.ev.site = 3 ∧ ((s.core 1535).future 255).valid = true ∧ ((s.core 1535).future 255).full = full ∧
      ((s.core 1535).future 255).gen = gen ∧ s1.shut 3 0 0 = false ∧ ((s.core 1535).future 255).owner = some (.ctx 0 0) ∧ s.hart? (.ctx 0 0) = some { h0 with wait := some (.future 255) }) ∧
    (∀ b, ∃ (s : State) (a : Access) (x : Hart), s.hart? (.ctx 0 0) = some x ∧ (decide (x.since = a.born)) = b) ∧ (∃ s : State, s.hart? (.ctx 0 0) = none) ∧
    (∀ n ∈ [0, 1], ∀ k ∈ [8, 9], ∃ (s : State) (b : Barrier), (s.die (barrierRoot s.ev.n s.ev.k)).barriers.find? (fun b => b.same s.ev.site s.ev.n s.ev.k s.ev.m) = some b ∧ b.count = 1 ∧ b.total = n ∧
      b.arrived = [.ctx 0 0] ∧ b.serial = 9 ∧ s.hart? (.ctx 0 0) = some { h0 with wait := some (.barrier k) }) := by
  refine ⟨fun full gen put => ⟨gets _ {} (State.setHart { cores := [(1535, { futures := [(255, { full := full, gen := gen, valid := true, owner := some (.ctx 0 0) })] })] } (.ctx 0 0) _), _,
      gets_x ⟨_, _, _, _, rfl⟩, by decide, by decide, by decide, by decide, rfl, rfl, rfl, rfl, rfl, rfl, rfl⟩,
    fun b => ⟨at0 { h0 with since := if b then 0 else 1 } {}, access0, _, rfl, by cases b <;> rfl⟩, ⟨{}, rfl⟩,
    fun n _ k _ => ⟨ev0 { site := 1, n := 4, k := 0, m := 255 } (State.setHart
      { dies := [(0, { barriers := [{ launch := 1, scope := 4, inst := 0, id := 255, count := 1, arrived := [.ctx 0 0], total := n, serial := 9 }] })] } (.ctx 0 0) _), _, rfl, rfl, rfl, rfl, rfl, rfl⟩⟩
/-- A die is open to its own senders; die 1 of owner 5 is barred to others. -/
theorem witness_barred : (∀ (s : State) d who, s.barred d d who = false) ∧ dieOfCore 0 = 0 ∧ (({} : State).modDie 1 fun x => { x with partition := 5 }).barred 0 1 0 = true :=
  ⟨fun s d who => by simp [State.barred], rfl, by decide +kernel⟩
/-- An active message for tag 255 of die 0. -/
def am0 : Msg := .active (.ctx 0 0) 0x400000 255 false 0x400000 [7] none 0 access0 0
/-- Die 0 with the tag valid or not, enabled, its launch running. -/
def tagged (w : Word) (x : Die) : State :=
  ({ dies := [(0, { x with tagen := BitVec.allOnes 256 })], launches := [(1, { launch0 with packet := { packet0 with identity := 1 } })] } : State).ctlPut 0 (tagOff 255) w |>.ctlPut 0 (tagOff 255 + 16) 1
theorem witness_ActiveMessages :
    (∃ s : State, (s.die s.ev.site).inbox = [am0] ∧ s.tagValid s.ev.site 255 = false) ∧
    (∃ s : State, (s.die s.ev.site).inbox = [am0] ∧ s.tagValid s.ev.site 255 = true ∧ (s.die s.ev.site).tagQueue 255 = [] ∧ ((s.modDie s.ev.site fun x => { x with inbox := [] }).sendCredit s.ev.site 0).barred 0 s.ev.site 0 = false ∧
      ((s.modDie s.ev.site fun x => { x with inbox := [] }).sendCredit s.ev.site 0).mayEnter s.ev.site 255 (s.tagPrio s.ev.site 255) = true) ∧
    (∃ s : State, (s.die s.ev.site).inbox = [am0] ∧ s.tagValid s.ev.site 255 = true ∧ ((s.die s.ev.site).tagQueue 255).length = 7 ∧
      ((s.modDie s.ev.site fun x => { x with inbox := [] }).sendCredit s.ev.site 0).barred 0 s.ev.site 0 = false) ∧
    (∃ s : State, s.ev.site = 1 ∧ ((s.modDie s.ev.site fun x => { x with inbox := [] }).sendCredit s.ev.site 0).barred 0 s.ev.site 0 = true ∧ (s.die s.ev.site).inbox = [am0] ∧ (s.die 1).tagQueue 255 = []) ∧
    (∃ s : State, s.nextTag s.ev.site = none) ∧ (∃ (s : State), s.nextTag s.ev.site = some (255, { msg := am0, prio := 0 })) ∧
    (∃ (s : State) (y : Launch), s.tagLaunch s.ev.site 255 = some (1, y) ∧ s.freeHandler s.ev.site = some 0 ∧ s.launch? 1 = some y ∧
      s.isPoisoned (s.unitPa s.ev.site y.space (s.imageVa (.handler s.ev.site 0)) + 0xE8) 16 = false) := by
  refine ⟨⟨tagged 0 { inbox := [am0] }, rfl, by decide +kernel⟩, ⟨tagged 0x8000000000000000 { inbox := [am0] }, rfl, by decide +kernel, rfl, by decide +kernel, by decide +kernel⟩,
    ⟨tagged 0x8000000000000000 { inbox := [am0], tagq := [(255, List.replicate 7 { msg := am0, prio := 0 })] }, rfl, by decide +kernel, rfl, by decide +kernel⟩,
    ⟨ev0 { site := 1 } { dies := [(1, { inbox := [am0], partition := 5 })] }, rfl, by decide +kernel, rfl, rfl⟩, ⟨{}, by decide +kernel⟩,
    ⟨tagged 0x8000000000000000 { tagq := [(255, [{ msg := am0, prio := 0 }])] }, by decide +kernel⟩, ⟨tagged 0x8000000000000000 {}, _, by decide +kernel, by decide +kernel, rfl, by decide +kernel⟩⟩
/-- A gather command in die 0's engine: without its block and a translation, with a block of no elements, with a block that is malformed, and
of a launch without a lease. -/
def gat0 : GatCmd := { hart := .ctx 0 0, scatter := false, addr0 := 0x20000, cell := mkHandle 0 0 0, space := 3, launch := some 1 }
def gathers (g : GatCmd) (s : State := {}) : State := { s with dies := [(0, { gather := [(0, g)] })] }
theorem witness_GatherEngine :
    (∃ s : State, (s.die s.ev.site).gather = []) ∧
    (∃ (s : State) (g : GatCmd), (s.die s.ev.site).gather = [(0, g)] ∧ ∃ u, (gatherRun 0 g).run s = (.ok (), u) ∧ ∃ g1, (u.die s.ev.site).gather = [(0, g1)]) ∧
    (∃ (s : State) (g : GatCmd), (s.die s.ev.site).gather = [(0, g)] ∧ ∃ u, (gatherRun 0 g).run s = (.error .wait, u)) ∧
    (∃ (s : State) (g : GatCmd), (s.die s.ev.site).gather = [(0, g)] ∧ ∃ u, (gatherRun 0 g).run s = (.error (.fail 1), u)) ∧
    (∃ (s : State) (g : GatCmd), (s.die s.ev.site).gather = [(0, g)] ∧ ∃ u x, (gatherRun 0 g).run s = (.error .lease, u) ∧ u.hart? g.hart = some x ∧ x.phase ≠ .ending) := by
  refine ⟨⟨{}, rfl⟩, ⟨gathers { gat0 with block := [0, 0, 0, 0, 0, 0, 0] }, _, rfl, _, rfl, _, rfl⟩, ⟨gathers gat0 { world with quads := [] }, _, rfl, _, rfl⟩,
    ⟨gathers gat0 { world with mem := [(0x20000, 1)] }, _, rfl, _, rfl⟩, ⟨gathers gat0 (State.setHart {} (.ctx 0 0) h0), _, rfl, _, h0, rfl, rfl, by decide⟩⟩

/-! ### Revisions, remote atomics and home events -/

theorem witness_MergeElements : ∃ a p c k : Nat, k = 3 ∧ c ≠ a ∧ p ≠ a ∧ a < 2 ^ (8 * 2 ^ k) ∧ p + 1 = 2 ^ (8 * 2 ^ k) ∧ c < 2 ^ (8 * 2 ^ k) :=
  ⟨0, 2 ^ 64 - 1, 1, 3, rfl, by decide, by decide, by decide, by decide, by decide⟩
def rev1 : Revision := { num := 1, parent := 0, order := 0, owner := .ctx 0 0, registered := [0] }
/-- Job 7 of package 0 with a quota. -/
def jobQuota (y : Job) (q : Word) : State := ({ jobs := [(7, y)] } : State).ctlPut 0 (jobOff 7) q
def h7 (x : Hart := h0) : Hart := { x with origin := { x.origin with job := some 7 } }
theorem witness_RevisionEvents_forks :
    (∃ s s1 : State, s.Takes s.ev.site (fun m => ∃ j r p h t, m = .forkReg j r p h t) (.forkReg 7 1 0 (.ctx 0 0) 1) s1 ∧ rev1 ∈ (s.job 7).revs ∧ s.hart? (.ctx 0 0) = some h0) ∧
    (∃ (s s1 : State) (h : HartId), s.Takes s.ev.site (fun m => ∃ j r p h t, m = .forkReg j r p h t) (.forkReg 7 1 0 h 1) s1 ∧ dieOfHart h = s.ev.site) ∧
    (∀ q ∈ [(1 : Word), 2], ∃ (s : State) (x : Hart), s.hart? s.ev.hart = some x ∧ x.wait = some (.firstWrite 5) ∧ x.origin.job = some 7 ∧
      (s.firstWrite 7 x.revid 5 (lookupD 5 5 ((s.job 7).vas))).isSome = (q == 2)) := by
  refine ⟨⟨gets _ {} (State.setHart { jobs := [(7, { revs := [rev1] })] } (.ctx 0 0) h0), _, gets_x ⟨_, _, _, _, _, rfl⟩, by decide, rfl⟩,
    ⟨gets (.forkReg 7 1 0 (.ctx (coreAt 3 0) 0) 1) {}, _, .ctx (coreAt 3 0) 0, gets_x ⟨_, _, _, _, _, rfl⟩, by decide⟩, fun q hq => ?_⟩
  simp only [List.mem_cons, List.not_mem_nil, or_false] at hq
  rcases hq with rfl | rfl
  · exact ⟨ev0 { hart := .ctx 0 0 } ((jobQuota { revs := [rev1], useCount := 1 } 1).setHart (.ctx 0 0) { h7 with wait := some (.firstWrite 5), revid := 1 }), _, rfl, rfl, rfl, by decide +kernel⟩
  · exact ⟨ev0 { hart := .ctx 0 0 } ((jobQuota { revs := [rev1], useCount := 1 } 2).setHart (.ctx 0 0) { h7 with wait := some (.firstWrite 5), revid := 1 }), _, rfl, rfl, rfl, by decide +kernel⟩
theorem witness_RevisionEvents_copies :
    (∃ s : State, s.firstNeeds 7 1 5 ≠ 0 ∧ s.quota 7 + 1 = (s.job 7).useCount + s.firstNeeds 7 1 5) ∧
    (∃ (s : State) (x : Revision), s.firstNeeds 7 1 5 ≠ 0 ∧ (s.job 7).useCount + s.firstNeeds 7 1 5 = s.quota 7 ∧ x ∈ (s.job 7).revs ∧ x.num = 1 ∧ lookup? 5 x.copies = none ∧
      ∀ z ∈ lackers (s.job 7) 1 5, z.num ≠ 1) ∧
    (∃ (s : State) (z : Revision), s.firstNeeds 7 0 5 ≠ 0 ∧ (s.job 7).useCount + s.firstNeeds 7 0 5 = s.quota 7 ∧ z ∈ lackers (s.job 7) 0 5) := by
  refine ⟨⟨jobQuota { revs := [rev1], useCount := 1 } 1, by decide +kernel, by decide +kernel⟩,
    ⟨jobQuota { revs := [rev1], useCount := 1 } 2, rev1, by decide +kernel, by decide +kernel, ?_, rfl, rfl, ?_⟩,
    ⟨jobQuota { revs := [rev1], useCount := 1 } 2, rev1, by decide +kernel, by decide +kernel, by decide +kernel⟩⟩
  · decide +kernel
  · decide +kernel
/-- A join that is under way, of a child with a copy that may be merged, or that waits for a buffered store, or is all merged. -/
def joins (r : Revision) (k : Core := {}) : State :=
  ev0 { hart := .ctx 0 0, n := 5 } (State.setHart { jobs := [(7, { revs := [r] })], cores := [(0, k)] } (.ctx 0 0) { h7 with wait := some (.revision 1) })
def copied : Revision := { rev1 with phase := 1, copies := [(5, List.replicate 64 0)] }
/-- A thread that is ending, whose child with one copy is all merged. -/
def endsIn : State := ev0 { hart := .ctx 0 0, n := 5 } (State.setHart { jobs := [(7, { revs := [{ copied with merged := [5] }] })] } (.ctx 0 0) { h7 with phase := .ending })
theorem witness_RevisionEvents_joins :
    (∃ s : State, s.joining s.ev.hart = none) ∧ (∃ (s : State) (r : Revision), s.joining s.ev.hart = some (7, r) ∧ s.mayMerge (7 / 8) r s.ev.n = true) ∧
    (∃ (s : State) (r : Revision), s.joining s.ev.hart = some (7, r) ∧ s.mayMerge (7 / 8) r s.ev.n = false) ∧
    (∃ (s : State) (r : Revision) (x : Hart), s.joining s.ev.hart = some (7, r) ∧ s.hart? s.ev.hart = some x ∧ x.phase ≠ .ending ∧ (∀ c ∈ r.copies, c.1 ∈ r.merged) ∧
      ∀ c ∈ s.cores, pkgOfCore c.1 = 7 / 8 → ∀ b ∈ c.2.wbuf, b.rev ≠ r.num) ∧
    (∃ (s : State) (r : Revision), s.joining s.ev.hart = some (7, r) ∧ (s.hart s.ev.hart).phase = .ending ∧ (∀ c ∈ r.copies, c.1 ∈ r.merged) ∧
      ∀ c ∈ s.cores, pkgOfCore c.1 = 7 / 8 → ∀ b ∈ c.2.wbuf, b.rev ≠ r.num) := by
  refine ⟨⟨{}, rfl⟩, ⟨joins copied, copied, rfl, by decide +kernel⟩, ⟨joins copied { wbuf := [{ buf0 with rev := 1 }] }, copied, rfl, by decide +kernel⟩,
    ⟨joins { copied with merged := [5] }, { copied with merged := [5] }, _, rfl, rfl, by decide, by decide, by decide⟩,
    ⟨endsIn, { copied with merged := [5] }, rfl, rfl, by decide, by decide⟩⟩
/-- A region whose elements merge as a maximum, in job 7; a child of the root, and a child of revision 2. -/
def regioned (rs : List Revision) : State := (State.ctlPut { jobs := [(7, { revs := rs })] } 0 (jobOff 7 + 0x100) (BitVec.ofNat 64 (2 ^ 63 + 8 * 2 + 2 * 3))).ctlPut 0 (jobOff 7 + 0x108) 1
theorem witness_RevisionEvents_lines :
    (∃ (s : State) (x : Revision) (c : List Byte), s.regionCode (homeOf (64 * 5)) 7 (64 * lookupD 0 5 (s.job 7).vas) = some 22 ∧ lookup? 5 x.copies = some c ∧ 22 / 8 ≠ 9 ∧ x.parent = 0) ∧
    (∃ (s : State) (x y : Revision) (c : List Byte), s.regionCode (homeOf (64 * 5)) 7 (64 * lookupD 0 5 (s.job 7).vas) = some 22 ∧ lookup? 5 x.copies = some c ∧ x.parent ≠ 0 ∧
      (s.job 7).rev? x.parent = some y ∧ y.parent ≠ x.parent ∧ (∀ z ∈ (s.job 7).revs, z.num = x.parent → z = y) ∧ (s.view 7 x.parent 5).length = 64) :=
  ⟨⟨regioned [], copied, _, by decide +kernel, rfl, by decide, rfl⟩,
   ⟨regioned [{ rev1 with num := 2 }], { copied with parent := 2 }, { rev1 with num := 2 }, _, by decide +kernel, rfl, by decide, rfl, by decide, by decide +kernel, by decide +kernel⟩⟩
/-- A remote 64-bit add of a context of another die, of which a result is owed. -/
def req0 : AtomicReq :=
  { hart := .ctx 0 0, tag := 9, op := 0, ty := 4, pa := 0x20000, operand := 1, newVal := 0, isCas := false, token := 5, incarn := 0, retry := false, dreg := 1, va := 0x20000 }
/-- Die 0 with one request. -/
def asks (r : AtomicReq) (x : Die := {}) (s : State := {}) : State := { s with dies := [(0, { x with inbox := [.atomic 3 r] })] }
theorem witness_RemoteAtomics_homes :
    (∃ s : State, (s.die s.ev.site).inbox = [.atomic 3 { req0 with pa := 2 ^ 46 + 0x20000 }] ∧ ({ req0 with pa := 2 ^ 46 + 0x20000 } : AtomicReq).home ≠ s.ev.site) ∧
    (∀ st ∈ [0, 5], ∃ s : State, (s.die s.ev.site).inbox = [.atomic 3 req0] ∧ req0.home = s.ev.site ∧ (s.metaWord req0.pa 0).getLsbD 60 = false ∧ (s.die s.ev.site).blockFor req0.hart = true ∧
      req0.retry = false ∧ ((s.modDie s.ev.site fun x => { x with inbox := [] }).performAtomic s.ev.site req0).2 = (0, st, 0)) ∧
    (∃ s : State, (s.die s.ev.site).inbox = [.atomic 3 { req0 with retry := true }] ∧ (s.die s.ev.site).incarn.toNat = 0 ∧ (s.metaWord req0.pa 0).getLsbD 60 = false ∧
      (s.die s.ev.site).blockFor req0.hart = true ∧
      ((s.die s.ev.site).blockOf req0.hart >>= fun b => b.records.find? (fun (t : Nat × Nat × Word) => t.1 == req0.token && t.2.1 == req0.incarn)) = none) ∧
    (∃ s : State, (s.die s.ev.site).inbox = [.atomic 3 { req0 with retry := true, incarn := 1 }] ∧ (s.metaWord req0.pa 0).getLsbD 60 = false ∧
      (s.die s.ev.site).blockFor req0.hart = true ∧ (s.die s.ev.site).incarn.toNat ≠ 1) ∧
    (∃ s : State, (s.die s.ev.site).inbox = [.atomic 3 { req0 with retry := true }] ∧ (s.metaWord req0.pa 0).getLsbD 60 = false ∧
      (s.die s.ev.site).blockFor req0.hart = true ∧ (s.die s.ev.site).incarn.toNat = 0 ∧
      ((s.die s.ev.site).blockOf req0.hart >>= fun b => b.records.find? (fun (t : Nat × Nat × Word) => t.1 == req0.token && t.2.1 == req0.incarn)) = some (req0.token, req0.incarn, 7)) ∧
    (∃ s : State, s.granted req0.pa = false ∧ s.ownerStatus (dieOfHart req0.hart) req0.owner req0.pa (sizeOf8 req0.ty) true = 0 ∧
      s.isPoisoned req0.pa (sizeOf8 req0.ty) = false ∧ req0.job = none) ∧
    (∃ s : State, s.granted req0.pa = true ∧ (1 : Nat) ≠ 0) ∧
    (∃ (s : State) (r : AtomicReq), r.window = true ∧ s.winPoisoned 0 r.va.toNat (sizeOf8 r.ty) = false ∧ (s.winStoreBy (dieOfHart r.hart) r.owner r.va.toNat (sizeOf8 r.ty) 1).2 = 0) := by
  refine ⟨⟨asks { req0 with pa := 2 ^ 46 + 0x20000 }, rfl, by decide⟩, fun st hst => ?_,
    ⟨asks { req0 with retry := true }, rfl, rfl, by decide +kernel, by decide +kernel, by decide +kernel⟩,
    ⟨asks { req0 with retry := true, incarn := 1 }, rfl, by decide +kernel, by decide +kernel, by decide⟩,
    ⟨asks { req0 with retry := true } { tokens := [{ source := .ctx 0 0, records := [(5, 0, 7)] }] }, rfl, by decide +kernel, by decide +kernel, rfl, by decide +kernel⟩,
    ⟨{}, by decide +kernel, by decide +kernel, by decide +kernel, rfl⟩, ⟨State.putMeta {} req0.pa 0 0x8000000000000000, by decide +kernel, by decide⟩,
    ⟨{}, { req0 with va := 0x300000000007FFF8 }, by decide, by decide +kernel, by decide +kernel⟩⟩
  simp only [List.mem_cons, List.not_mem_nil, or_false] at hst
  rcases hst with rfl | rfl
  · exact ⟨asks req0, rfl, rfl, by decide +kernel, by decide +kernel, rfl, by decide +kernel⟩
  · exact ⟨{ asks req0 with poisoned := [(0x800, 1)] }, rfl, rfl, by decide +kernel, by decide +kernel, rfl, by decide +kernel⟩
theorem witness_RemoteAtomics_answers :
    (∃ (s : State) (x : Hart) (p : Pending), (s.die s.ev.site).inbox = [.atomicReply req0 7 0 0] ∧ s.hart? req0.hart = some x ∧ x.outstanding = [p] ∧ p.tag = req0.tag ∧
      p.returned = false ∧ p.writes = [.x 1 0, .x 15 0] ∧ oneTarget p.writes = false ∧ req0.acq = none) ∧
    (∃ (s : State) (r : AtomicReq), s.askedBy s.ev.hart = some r ∧ r.route = some 11 ∧ 11 ∈ (s.die (dieOfHart s.ev.hart)).downLinks) ∧
    (∃ (s : State) (r : AtomicReq), s.askedBy s.ev.hart = some r ∧ r.home ∈ (s.die (dieOfHart s.ev.hart)).downDies) ∧
    (∃ (s : State) (r : AtomicReq), s.askedBy s.ev.hart = some r ∧ ¬ ((∃ l, r.route = some l ∧ l ∈ (s.die (dieOfHart s.ev.hart)).downLinks) ∨ r.home ∈ (s.die (dieOfHart s.ev.hart)).downDies)) ∧
    (∃ s : State, s.askedBy s.ev.hart = none) ∧ (∃ s : State, (s.die s.ev.site).tokens[s.ev.n]? = some { source := .ctx 0 0 }) := by
  refine ⟨⟨State.setHart { dies := [(0, { inbox := [.atomicReply req0 7 0 0] })] } (.ctx 0 0) { h0 with outstanding := [{ tag := 9, returned := false, writes := [.x 1 0, .x 15 0] }] }, _, _, rfl, rfl, rfl, rfl, rfl, rfl, rfl, rfl⟩,
    ⟨{ dies := [(0, { asked := [{ req0 with route := some 11 }], downLinks := [11] })], ev := { hart := .ctx 0 0 } }, _, rfl, rfl, by decide⟩,
    ⟨{ dies := [(0, { asked := [req0], downDies := [0] })], ev := { hart := .ctx 0 0 } }, _, rfl, by decide⟩,
    ⟨{ dies := [(0, { asked := [req0], downLinks := [11], downDies := [1] })], ev := { hart := .ctx 0 0 } }, _, rfl, fun h => h.elim (fun ⟨_, h, _⟩ => by cases h) (by decide)⟩,
    ⟨{}, rfl⟩, ⟨{ dies := [(0, { tokens := [{ source := .ctx 0 0 }] })] }, rfl⟩⟩
/-- A miss of space 3, page 2^41 − 1: one of the same page, one of another's TLB, a service core that waits and one that does not run, and a full queue. -/
def miss0 (h : HartId := .ctx 0 0) : Msg := .miss h false 3 (2 ^ 41 - 1) 0 0 0 0
def missOf (q : Nat) : Miss := { die := 3, quad := q, loadPipe := false, space := 3, page := 2 ^ 41 - 1, kind := 0, slot := 0, lcore := 0, waiters := [.ctx 0 1] }
theorem witness_TranslationMiss :
    let sameMiss := fun (m : Miss) => m.quad = 0 ∧ m.loadPipe = false ∧ m.space = 3 ∧ m.page = 2 ^ 41 - 1
    let taken := fun (s s1 : State) => s.Takes s.ev.site (fun m => ∃ a b c e f g i j, m = .miss a b c e f g i j) miss0 s1
    (∃ s s1 : State, taken s s1 ∧ ∃ m ∈ (s.die s.ev.site).misses, sameMiss m) ∧
    (∃ (s s1 : State) (x : Hart), taken s s1 ∧ (∀ m ∈ (s.die s.ev.site).misses, ¬sameMiss m) ∧ ((s.die s.ev.site).missq.toList.getD (missCore 3 (2 ^ 41 - 1)) []).length < 32 ∧
      s.hart? (.tsc s.ev.site (missCore 3 (2 ^ 41 - 1))) = some x ∧ x.wait = some .request ∧ x.phase = .active) ∧
    (∃ s s1 : State, taken s s1 ∧ (∀ m ∈ (s.die s.ev.site).misses, ¬sameMiss m) ∧ ((s.die s.ev.site).missq.toList.getD (missCore 3 (2 ^ 41 - 1)) []).length < 32 ∧
      s.running (.tsc s.ev.site (missCore 3 (2 ^ 41 - 1))) = false ∧ (s.die s.ev.site).images.contains (.tsc s.ev.site (missCore 3 (2 ^ 41 - 1))) = true) ∧
    (∃ (s s1 : State) (x : Hart), taken s s1 ∧ (∀ m ∈ (s.die s.ev.site).misses, ¬sameMiss m) ∧
      32 ≤ ((s.die s.ev.site).missq.toList.getD (missCore 3 (2 ^ 41 - 1)) []).length ∧ s.hart? (.ctx 0 0) = some x ∧ x.wait = some (.tlb false 3 (2 ^ 41 - 1))) := by
  refine ⟨⟨gets miss0 { misses := [missOf 0] }, _, gets_x ⟨_, _, _, _, _, _, _, _, rfl⟩, missOf 0, .head _, rfl, rfl, rfl, rfl⟩,
    ⟨gets miss0 { misses := [missOf 1] } (State.setHart {} (.tsc 3 (missCore 3 (2 ^ 41 - 1))) { h0 with wait := some .request }), _, _, gets_x ⟨_, _, _, _, _, _, _, _, rfl⟩, by decide +kernel,
      (by show ((Vector.replicate 8 ([] : List Miss)).toList.getD (missCore 3 (2 ^ 41 - 1)) []).length < 32; decide), rfl, rfl, rfl⟩,
    ⟨gets miss0 { images := [.tsc 3 (missCore 3 (2 ^ 41 - 1))] }, _, gets_x ⟨_, _, _, _, _, _, _, _, rfl⟩, by decide,
      (by show ((Vector.replicate 8 ([] : List Miss)).toList.getD (missCore 3 (2 ^ 41 - 1)) []).length < 32; decide), rfl, by decide +kernel⟩,
    ⟨gets miss0 { missq := Vector.replicate 8 (List.replicate 32 (missOf 0)) } (State.setHart {} (.ctx 0 0) { h0 with wait := some (.tlb false 3 (2 ^ 41 - 1)) }), _, _, gets_x ⟨_, _, _, _, _, _, _, _, rfl⟩,
      by decide, by decide, rfl, rfl⟩⟩
/-- Frame 5 of die 0 moves to die 0, whose pool has a frame or none; its metadata lies far from both. -/
def moves (room : Word) : State :=
  ev0 { n := 5 } ((({ dies := [(0, { moving := [(5, 0)] })] } : State).ctlPut 0 0x158 room).ctlPut 0 0x140 0x100000000)
theorem witness_HomeEvents :
    (∃ s s1 : State, s.Takes s.ev.site (fun m => (∃ a, m = .probe a) ∨ ∃ a b, m = .probeReply a b) (.probe 7) s1) ∧
    (∃ (s s1 : State) (r : AtomicReq), 1023 ≠ s.ev.site ∧ 65535 < 2 ^ 16 ∧ (s.die s.ev.site).heldAtomics = [r] ∧ r.home = 1023 ∧
      s.Takes s.ev.site (fun m => (∃ a, m = .probe a) ∨ ∃ a b, m = .probeReply a b) (.probeReply 1023 65535) s1) ∧
    (∃ s : State, (s.die s.ev.site).moving.find? (fun m => m.1 == s.ev.n) = none) ∧
    (∀ n ∈ [0, 6], ∃ s : State, (s.die s.ev.site).moving.find? (fun m => m.1 == s.ev.n) = some (s.ev.n, 0) ∧ (∀ c ∈ s.cores, ∀ b ∈ c.2.wbuf, ∀ k ∈ b.cells, k.1 / 2 ^ 16 ≠ s.ev.n) ∧
      (s.ctlGet 0 0x158).toNat % 2 ^ 56 / 2 ^ 16 = n ∧
      (let old := s.ev.n * 2 ^ 16
       let leaf := (s.metaWord old 1).toNat % 2 ^ 56
       let out := fun (a b n : Nat) => a < b ∨ b + n ≤ a
       let clear := fun (a : Nat) => out a (s.metaAddr (n * 2 ^ 16)) 32 ∧ out a (s.metaAddr old) 16 ∧ out a old 8
       clear (n * 2 ^ 16 + 65535) ∧ out (n * 2 ^ 16 + 65535) leaf 8 ∧ clear leaf ∧ clear (leaf + 7) ∧ out leaf (n * 2 ^ 16) 65536 ∧ out (leaf + 7) (n * 2 ^ 16) 65536 ∨ n = 0)) ∧
    (∃ (s : State) (b : BufStore) (r : Hart), s.ev.flag = false ∧ s.coreOf s.ev.hart = some 0 ∧ (s.core 0).wbuf = [b] ∧ b.hart = s.ev.hart ∧ (∃ k ∈ b.cells, isCxl k.1 = true) ∧ s.ev.n = 0 ∧ b.silent = false ∧
      b.gone = false ∧ s.hart? s.ev.hart = some r ∧ r.phase ≠ .ending) ∧
    (∀ k ∈ [2, 1], ∃ s : State, s.ev.flag = false ∧ (s.ctlGet s.ev.site 0x188).toNat % 2 ^ 40 + k = scrubLines) ∧ (∃ s : State, s.ev.flag = true) ∧
    (∀ b, ∃ s : State, (s.die s.ev.site).scrubLate = b) ∧
    (∃ s s1 : State, s.Takes s.ev.site (fun m => ∃ a b l e f, m = .ctxReq a b l e f) (.ctxReq (.ctx 0 0) 1 true (coreAt 3 383) 59) s1 ∧
      (s1.ctxRequest (.ctx 0 0) 1 true (coreAt 3 383) 59).2 = some 1) ∧
    (∃ s s1 : State, s.Takes s.ev.site (fun m => ∃ a b l e f, m = .ctxReq a b l e f) (.ctxReq (.ctx 0 0) 1 false (coreAt 3 383) 59) s1 ∧
      (s1.ctxRequest (.ctx 0 0) 1 false (coreAt 3 383) 59).2 = none) := by
  refine ⟨⟨gets _, _, gets_x (.inl ⟨_, rfl⟩)⟩, ⟨gets _ { heldAtomics := [{ req0 with pa := 1023 * 2 ^ 46 }] }, _, _, by decide, by decide, rfl, by decide, gets_x (.inr ⟨_, _, rfl⟩)⟩, ⟨{}, rfl⟩, fun n hn => ?_,
    ⟨ev0 { hart := .ctx 0 0 } (State.setHart { cores := [(0, { wbuf := [{ buf0 with cells := [(2 ^ 45, 7)] }] })] } (.ctx 0 0) h0), _, _, rfl, rfl, rfl, rfl, ⟨_, List.mem_singleton.2 rfl, by decide⟩, rfl, rfl, rfl, rfl, by decide⟩,
    fun k hk => ?_, ⟨ev0 { flag := true } {}, rfl⟩, fun b => ⟨{ dies := [(0, { scrubLate := b })] }, rfl⟩, ⟨gets _, _, gets_x ⟨_, _, _, _, _, rfl⟩, rfl⟩,
    ⟨gets _ {} (State.setHart {} (.ctx (coreAt 3 383) 59) h0), _, gets_x ⟨_, _, _, _, _, rfl⟩, rfl⟩⟩
  · simp only [List.mem_cons, List.not_mem_nil, or_false] at hn
    rcases hn with rfl | rfl
    · exact ⟨moves 0, by decide +kernel, by decide +kernel, by decide +kernel, by decide +kernel⟩
    · exact ⟨moves 0x60000, by decide +kernel, by decide +kernel, by decide +kernel, by decide +kernel⟩
  · simp only [List.mem_cons, List.not_mem_nil, or_false] at hk
    rcases hk with rfl | rfl
    · exact ⟨State.ctlPut {} 0 0x188 (BitVec.ofNat 64 (scrubLines - 2)), rfl, by decide +kernel⟩
    · exact ⟨State.ctlPut {} 0 0x188 (BitVec.ofNat 64 (scrubLines - 1)), rfl, by decide +kernel⟩

/-! ### The fabric, dies and power -/

def pk0 (m : Msg := .credit 0) : Packet := { src := 7, dst := 3, vn := 0, msg := m }
/-- Core 383 of die 3 with a packet in its last send queue; the link queue of its route empty, and full. -/
def sending (p : Packet) (n : Nat) : State :=
  { dies := [(3, { links := Vector.replicate 60 (List.replicate n (pk0)) })], cores := [(coreAt 3 383, { sendq := Vector.replicate 5 [p] })], ev := { site := coreAt 3 383, n := 4 } }
/-- An active message for tag 0 of die 3, whose queue and side buffer are full. -/
def held0 : Packet := pk0 (.active (.ctx 0 0) 0 0 false 0 [] none 0 access0 0)
def tagFull (s : State) : State :=
  (s.modDie 3 fun x => { x with tagq := [(0, List.replicate 8 { msg := held0.msg, prio := 0 })], inbox := [held0.msg] }).ctlPut 3 (tagOff 0) 0x8000000000000000
theorem witness_Packets_sent :
    (∃ s : State, (s.core s.ev.site).sendq.toList.getD (s.ev.n % 5) [] = [held0] ∧ s.tagHeld held0 = true ∧ [held0].find? (fun p => !s.tagHeld p) = none) ∧
    (∀ b, ∃ (s : State) (p : Packet), ((s.core s.ev.site).sendq.toList.getD (s.ev.n % 5) []).find? (fun p => !s.tagHeld p) = some p ∧ p.acked = b ∧
      (p.dst ≠ dieOfCore s.ev.site ∧ (s.pkg (p.dst / 4)).off = false ∧ (∀ q ∈ (s.die (dieOfCore s.ev.site)).outq, q.1 ≠ (s.die (dieOfCore s.ev.site)).route (dieOfCore s.ev.site) p * 5 + p.vn) ∧
       (s.die (dieOfCore s.ev.site)).hasRoom ((s.die (dieOfCore s.ev.site)).route (dieOfCore s.ev.site) p * 5 + p.vn) p = true)) ∧
    (∃ (s : State) (p : Packet), ((s.core s.ev.site).sendq.toList.getD (s.ev.n % 5) []).find? (fun p => !s.tagHeld p) = some p ∧ p.dst ≠ dieOfCore s.ev.site ∧
      (s.pkg (p.dst / 4)).off = false ∧ (s.die (dieOfCore s.ev.site)).hasRoom ((s.die (dieOfCore s.ev.site)).route (dieOfCore s.ev.site) p * 5 + p.vn) p = false) ∧
    (∃ (s : State) (p : Packet), ((s.core s.ev.site).sendq.toList.getD (s.ev.n % 5) []).find? (fun p => !s.tagHeld p) = some p ∧ p.dst ≠ dieOfCore s.ev.site ∧ (s.pkg (p.dst / 4)).off = true) := by
  refine ⟨⟨tagFull (sending held0 0), rfl, by decide +kernel, by decide +kernel⟩,
    fun b => ⟨sending { pk0 with src := 3, dst := 7, acked := b } 63, { pk0 with src := 3, dst := 7, acked := b }, rfl, rfl, by cases b <;> decide +kernel⟩,
    ⟨sending { pk0 with src := 3, dst := 7 } 64, { pk0 with src := 3, dst := 7 }, rfl, by decide +kernel, by decide +kernel, by decide +kernel⟩,
    ⟨{ sending { pk0 with src := 3, dst := 7 } 0 with pkgs := [(1, { off := true })] }, { pk0 with src := 3, dst := 7 }, rfl, by decide +kernel, by decide +kernel⟩⟩
/-- The last link queue of die 3 with a packet, its link up or down, its destination up or in reset. -/
def linked (x : Die) (y : Die := {}) (p : Packet := { pk0 with dst := 7 }) : State := { dies := [(3, { x with links := x.links.setIfInBounds 59 [p] }), (7, y)], ev := { site := 3, n := 11, k := 4 } }
theorem witness_Packets_links :
    (∀ q ∈ [(ResetPhase.up, false), (.draining, false), (.up, true)], ∃ (s : State) (p : Packet), s.ev.n % 12 ∉ (s.die s.ev.site).downLinks ∧
      ((s.die s.ev.site).linkQueue (s.ev.n % 12 * 5 + s.ev.k % 5)).find? (fun p => !s.tagHeld p) = some p ∧ p.dst = 7 ∧ s.ev.site = 3 ∧
      (s.die p.dst).reset = q.1 ∧ (s.pkg (p.dst / 4)).off = q.2) ∧
    (∃ s : State, s.ev.n % 12 ∈ (s.die s.ev.site).downLinks) ∧ (∃ s : State, ((s.die s.ev.site).linkQueue (s.ev.n % 12 * 5 + s.ev.k % 5)).find? (fun p => !s.tagHeld p) = none) := by
  refine ⟨fun q hq => ?_, ⟨linked { downLinks := [11] }, by decide⟩, ⟨{}, rfl⟩⟩
  simp only [List.mem_cons, List.not_mem_nil, or_false] at hq
  rcases hq with rfl | rfl | rfl
  · exact ⟨linked {}, { pk0 with dst := 7 }, by decide, by decide +kernel, rfl, rfl, by decide +kernel, by decide +kernel⟩
  · exact ⟨linked {} { reset := .draining }, { pk0 with dst := 7 }, by decide, by decide +kernel, rfl, rfl, by decide +kernel, by decide +kernel⟩
  · exact ⟨{ linked {} with pkgs := [(1, { off := true })] }, { pk0 with dst := 7 }, by decide, by decide +kernel, rfl, rfl, by decide +kernel, by decide +kernel⟩
/-- Packets at the ports of die 3: with a wrong key, with a right one, with one from an older incarnation, and acknowledged ones, new and seen. -/
def ported (p : Packet) (x : Die := {}) : State := onDie { x with ports := [(true, p)], keys := [(0, { cur := some 5, next := some 6 })] }
theorem witness_Packets_arrival :
    (∃ (s : State) (p : Packet), (s.die s.ev.site).ports = [(true, p)] ∧ ((s.modDie s.ev.site fun x => { x with ports := [] }).die s.ev.site).keyOk p = false) ∧
    (∀ a, ∃ (s : State) (p : Packet), (s.die s.ev.site).ports = [(true, p)] ∧ ((s.modDie s.ev.site fun x => { x with ports := [] }).die s.ev.site).keyOk p = true ∧ p.acked = a ∧
      ((s.modDie s.ev.site fun x => { x with ports := [] }).checkIncarn s.ev.site p.src p.incarn).2 = true ∧
      ((p.src, p.vn, p.seq) ∉ (((s.modDie s.ev.site fun x => { x with ports := [] }).checkIncarn s.ev.site p.src p.incarn).1.die s.ev.site).performed)) ∧
    (∃ (s : State) (p : Packet), (s.die s.ev.site).ports = [(true, p)] ∧ ((s.modDie s.ev.site fun x => { x with ports := [] }).die s.ev.site).keyOk p = true ∧ p.acked = true ∧
      ((s.modDie s.ev.site fun x => { x with ports := [] }).checkIncarn s.ev.site p.src p.incarn).2 = true ∧
      ((p.src, p.vn, p.seq) ∈ (((s.modDie s.ev.site fun x => { x with ports := [] }).checkIncarn s.ev.site p.src p.incarn).1.die s.ev.site).performed)) ∧
    (∃ (s : State) (p : Packet), (s.die s.ev.site).ports = [(true, p)] ∧ ((s.modDie s.ev.site fun x => { x with ports := [] }).die s.ev.site).keyOk p = true ∧
      ((s.modDie s.ev.site fun x => { x with ports := [] }).checkIncarn s.ev.site p.src p.incarn).2 = false) ∧
    (∀ i ∈ [0, 1, 32767, 32768, 65535], (State.setIncarnRecord {} 3 1023 0).incarnRecord 3 1023 = some 0 ∧ i < 2 ^ 16) := by
  have h : (State.setIncarnRecord {} 3 1023 0).incarnRecord 3 1023 = some 0 := by decide +kernel
  refine ⟨⟨ported { pk0 with key := 7 }, _, rfl, by decide +kernel⟩, fun a => ⟨ported { pk0 with key := 6, acked := a }, _, rfl, ?_, rfl, ?_, ?_⟩,
    ⟨{ (ported { pk0 with key := 5 } { performed := [(7, 0, 0)] }).setIncarnRecord 3 7 0 with ev := { site := 3 } }, _, rfl, by decide +kernel, rfl, by decide +kernel, by decide +kernel⟩,
    ⟨{ (ported { pk0 with key := 5 }).setIncarnRecord 3 7 1 with ev := { site := 3 } }, _, rfl, by decide +kernel, by decide +kernel⟩, fun i hi => ⟨h, ?_⟩⟩
  · cases a <;> decide +kernel
  · cases a <;> decide +kernel
  · cases a <;> decide +kernel
  · simp only [List.mem_cons, List.not_mem_nil, or_false] at hi
    omega
theorem witness_Packets_answers :
    (∃ s : State, (s.die s.ev.site).inbox = [.packetAck 7 0 9]) ∧
    (∀ n k, ∃ (s : State) (x : Hart), (s.die s.ev.site).inbox = [.markerAck (.ctx 0 0) 1] ∧ s.hart? (.ctx 0 0) = some x ∧ x.phase ≠ .ending ∧ x.wait = some .flush ∧ x.flush = n ∧ x.flushNo = k) ∧
    (∃ s : State, (s.die s.ev.site).inbox = [.ctxReply (.ctx 0 0) 1 0]) ∧
    (∀ n, ∃ (s : State) (r : Revision) (y : Hart), (s.die s.ev.site).inbox = [.forkAck (.ctx 0 0) 1 7 1] ∧ (s.job 7).rev? 1 = some r ∧ r.acks = n ∧ r.child = some (.ctx 0 1) ∧
      s.hart? (.ctx 0 1) = some y ∧ y.wait = some .request) ∧
    (∃ (s : State) (p : Packet), (s.die s.ev.site).kept[s.ev.n]? = some p ∧ ∀ a b c f g, p.msg ≠ .marker a b c f g) ∧
    (∃ (s : State) (p : Packet), (s.die s.ev.site).kept[s.ev.n]? = some p ∧ p.msg = .marker 3 (.ctx 0 0) 1 9 0 ∧ ∃ q ∈ (s.die s.ev.site).kept, q.acked = true ∧ q.dst = p.dst) ∧
    (∃ (s : State) (p : Packet), (s.die s.ev.site).kept[s.ev.n]? = some p ∧ p.msg = .marker 3 (.ctx 0 0) 1 9 0 ∧ ∀ q ∈ (s.die s.ev.site).kept, q.acked = true → q.dst ≠ p.dst) ∧
    (∃ (s : State) (m : Msg), (s.die s.ev.site).inbox = [] ++ m :: [.marker 7 (.ctx 0 0) 1 9 0] ∧ needsHome m = true) ∧
    (∃ s : State, (s.die s.ev.site).inbox = [.marker 7 (.ctx 0 0) 1 9 0] ∧ (s.die s.ev.site).markers = []) ∧
    (∃ s : State, (s.die s.ev.site).inbox = [.marker 7 (.ctx 0 0) 1 9 0] ∧ (s.die s.ev.site).markers = [(7, .ctx 0 0, 1, 2 * 9 - 1)]) :=
  let marked : Packet := { pk0 (.marker 3 (.ctx 0 0) 1 9 0) with acked := false }
  ⟨⟨gets _, rfl⟩, fun n k => ⟨gets _ {} (State.setHart {} (.ctx 0 0) { h0 with wait := some .flush, flush := n, flushNo := k }), _, rfl, rfl, fun h => (by cases h), rfl, rfl, rfl⟩, ⟨gets _, rfl⟩,
   fun n => ⟨gets _ {} (State.setHart { jobs := [(7, { revs := [{ rev1 with acks := n, child := some (.ctx 0 1) }] })] } (.ctx 0 1) { h0 with wait := some .request }), _, _, rfl, rfl, rfl, rfl, rfl, rfl⟩,
   ⟨onDie { kept := [pk0] }, _, rfl, nofun⟩, ⟨onDie { kept := [marked, pk0] }, _, rfl, rfl, pk0, .tail _ (.head _), rfl, rfl⟩,
   ⟨onDie { kept := [marked, { pk0 with dst := 5 }] }, _, rfl, rfl, by decide +kernel⟩,
   ⟨onDie { inbox := [held0.msg, .marker 7 (.ctx 0 0) 1 9 0] }, _, rfl, rfl⟩, ⟨gets _ {}, rfl, rfl⟩, ⟨gets _ { markers := [(7, .ctx 0 0, 1, 17)] }, rfl, rfl⟩⟩
theorem witness_LinksAndDies :
    (∃ s : State, (s.die s.ev.site).linkQueue (s.ev.n % 12 * 5 + s.ev.k % 5) = []) ∧
    (∃ (s : State), (s.die s.ev.site).linkQueue (s.ev.n % 12 * 5 + s.ev.k % 5) ≠ [] ∧
      flitsOf ((s.die s.ev.site).pond.map (·.2)) + flitsOf ((s.die s.ev.site).linkQueue (s.ev.n % 12 * 5 + s.ev.k % 5)) ≤ 2 ^ 20 ∧
      ∀ q ∈ (s.die s.ev.site).outq, q.1 ≠ s.ev.n % 12 * 5 + s.ev.k % 5) ∧
    (∃ (s : State), (s.die s.ev.site).linkQueue (s.ev.n % 12 * 5 + s.ev.k % 5) ≠ [] ∧
      2 ^ 20 < flitsOf ((s.die s.ev.site).pond.map (·.2)) + flitsOf ((s.die s.ev.site).linkQueue (s.ev.n % 12 * 5 + s.ev.k % 5))) ∧
    (∀ n ∈ [63, 64], ∃ (s : State) (p : Packet), (s.die s.ev.site).pond.find? (fun q => q.1 == s.ev.n % 12 * 5 + s.ev.k % 5) = some (s.ev.n % 12 * 5 + s.ev.k % 5, p) ∧
      flitsOf ((s.die s.ev.site).linkQueue (s.ev.n % 12 * 5 + s.ev.k % 5)) + p.flits = n + 1) ∧
    (∀ l, ∃ s : State, (s.die s.ev.site).downLinks = l) ∧
    (∃ s s1 : State, s.Takes s.ev.site (fun m => ∃ t, m = .downNotice t) (.downNotice 1023) s1) ∧
    (∃ s s1 : State, s.Takes s.ev.site (fun m => ∃ t, m = .upNotice t) (.upNotice 1023) s1) := by
  have big : ∀ n, ∃ s : State, (s.die s.ev.site).linkQueue (s.ev.n % 12 * 5 + s.ev.k % 5) ≠ [] ∧
      n < flitsOf ((s.die s.ev.site).pond.map (·.2)) + flitsOf ((s.die s.ev.site).linkQueue (s.ev.n % 12 * 5 + s.ev.k % 5)) := by
    refine fun n => ⟨linked { pond := List.replicate n (0, pk0) }, ?_, ?_⟩
    · show [({ pk0 with dst := 7 } : Packet)] ≠ []
      exact nofun
    · show n < flitsOf ((List.replicate n ((0 : Nat), pk0)).map (·.2)) + flitsOf [{ pk0 with dst := 7 }]
      have e : flitsOf ((List.replicate n ((0 : Nat), pk0)).map (·.2)) = n := by
        simp [flitsOf, List.map_replicate, Packet.flits, pk0]
      have o : flitsOf [{ pk0 with dst := 7 }] = 1 := by decide
      omega
  refine ⟨⟨onDie {}, rfl⟩, ⟨linked {}, by decide, by decide +kernel, by decide +kernel⟩, big _, fun n hn => ?_,
    fun l => ⟨onDie { downLinks := l }, rfl⟩, ⟨gets _, _, gets_x ⟨_, rfl⟩⟩, ⟨gets _, _, gets_x ⟨_, rfl⟩⟩⟩
  · simp only [List.mem_cons, List.not_mem_nil, or_false] at hn
    rcases hn with rfl | rfl
    · exact ⟨onDie { pond := [(0, pk0)], links := Vector.replicate 60 (List.replicate 63 (pk0)) }, pk0, by decide +kernel, by decide +kernel⟩
    · exact ⟨onDie { pond := [(0, pk0)], links := Vector.replicate 60 (List.replicate 64 (pk0)) }, pk0, by decide +kernel, by decide +kernel⟩
theorem witness_ResetAndPower :
    (∀ r, ∃ s : State, (s.die s.ev.site).reset = r ∧ s.ev.image.signed = true) ∧ (∃ s : State, s.ev.image.signed = false) ∧ (∀ b, ∃ s : State, (s.pkg s.ev.site).throttled = b ∧ s.Inv) := by
  refine ⟨fun r => ⟨{ onDie { reset := r } with ev := { site := 3, image := { signed := true } } }, rfl, rfl⟩, ⟨ev0 { image := { signed := false } } {}, rfl⟩,
    fun b => ⟨{ pkgs := [(0, { throttled := b })] }, rfl, rfl, rfl⟩⟩
/-- Two packets that reach die 3 of owner 5 over a die-to-die link with a wrong key: one from a die of another partition and one from its own. -/
theorem witness_Packets_partition : ∀ p ∈ [(0, false), (5, true)],
    let s : State := { dies := [(3, { ports := [(false, { pk0 with src := 2, dst := 3, key := 7 })], partition := 5, keys := [(0, { cur := some 5, next := some 6 })] }), (2, { partition := p.1 })], ev := { site := 3 } }
    (s.die 3).keyOk { pk0 with src := 2, dst := 3, key := 7 } = false ∧ ((s.die 2).partition == (s.die 3).partition) = p.2 := by decide +kernel

/-! ### Words of the spec's encodings (03 R43), the first ones those that its own programs give -/

theorem test_decode_mov_imm : decodeSlot 0x0E0200008000000000100000#96 = .ok .movImm { d := 1, ty := 4, imm := 0x100000 } ∧ slotMarker 0x0E0200008000000000100000#96 = false := by decide +kernel
theorem test_decode_shl_imm : decodeSlot 0x8A842001000000000000003C#96 = .ok .shlImm { d := 2, a := 2, ty := 8, imm := 60 } ∧ slotMarker 0x8A842001000000000000003C#96 = true := by decide +kernel
theorem test_decode_add : decodeSlot 0x800420810000000000000000#96 = .ok .add { d := 2, a := 2, b := 1, ty := 8 } ∧ slotMarker 0x800420810000000000000000#96 = true := by decide +kernel
theorem test_decode_ld : decodeSlot 0x200620008400000000000000#96 = .ok .ld { d := 3, a := 2, ty := 4, path := 2 } ∧ slotMarker 0x200620008400000000000000#96 = false := by decide +kernel
theorem test_decode_bins : decodeSlot 0x8DC24001000000000000033C#96 = .ok .binsImm { d := 1, a := 4, ty := 8, imm := 0x33c } ∧ slotMarker 0x8DC24001000000000000033C#96 = true := by decide +kernel
theorem test_decode_loop_imm : decodeSlot 0x1A4200000000000002000040#96 = .ok .loopImm { d := 1, imm := 0x2000040 } ∧ slotMarker 0x1A4200000000000002000040#96 = false := by decide +kernel
theorem test_decode_loop : decodeSlot 0x1A8020000000000000000041#96 = .ok .loopReg { a := 2, imm := 65 } ∧ slotMarker 0x1A8020000000000000000041#96 = false := by decide +kernel
theorem test_decode_sub_imm : decodeSlot 0x884420008000000000000001#96 = .ok .subImm { d := 2, a := 2, ty := 4, imm := 1 } ∧ slotMarker 0x884420008000000000000001#96 = true := by decide +kernel
theorem test_decode_bne : decodeSlot 0x184020808000000000000002#96 = .ok .bne { d := 0, a := 2, b := 1, ty := 4, imm := 2 } ∧ slotMarker 0x184020808000000000000002#96 = false := by decide +kernel
theorem test_decode_done : decodeSlot 0x3081F0000000000000000000#96 = .ok .done { a := 31 } ∧ slotMarker 0x3081F0000000000000000000#96 = false := by decide +kernel
theorem test_decode_ecrd : decodeSlot 0xA98E00000000000000000002#96 = .ok .ecrd { d := 7, imm := 2 } ∧ slotMarker 0xA98E00000000000000000002#96 = true := by decide +kernel
theorem test_decode_post : decodeSlot 0x304010000000000000000080#96 = .ok .post { a := 1, imm := 128 } ∧ slotMarker 0x304010000000000000000080#96 = false := by decide +kernel
theorem test_decode_recv : decodeSlot 0xB35800000001000000000002#96 = .ok .recv { d := 12, misc := 1, imm := 2 } ∧ slotMarker 0xB35800000001000000000002#96 = true := by decide +kernel
theorem test_decode_amsg : decodeSlot 0x320002800009000000000000#96 = .ok .amsg { b := 5, misc := 9 } ∧ slotMarker 0x320002800009000000000000#96 = false := by decide +kernel
theorem test_decode_send : decodeSlot 0x3300A4800001000000000000#96 = .ok .send { a := 10, b := 9, misc := 1 } ∧ slotMarker 0x3300A4800001000000000000#96 = false := by decide +kernel
theorem test_decode_tagset : decodeSlot 0x3480B0000001000000000000#96 = .ok .tagset { a := 11, misc := 1 } ∧ slotMarker 0x3480B0000001000000000000#96 = false := by decide +kernel
theorem test_decode_ldacq : decodeSlot 0xA34A60008604000000000000#96 = .ok .ldacq { d := 5, a := 6, ty := 4, path := 3, misc := 4 } ∧ slotMarker 0xA34A60008604000000000000#96 = true := by decide +kernel
theorem test_decode_qcfg : decodeSlot 0x640000000026000000000000#96 = .ok .qcfg { misc := 38 } ∧ slotMarker 0x640000000026000000000000#96 = false := by decide +kernel
theorem test_decode_qmux : decodeSlot 0x614E53080000000000000000#96 = .ok .qmux { d := 7, a := 5, b := 6, c := 2 } ∧ slotMarker 0x614E53080000000000000000#96 = false := by decide +kernel
theorem test_decode_qand : decodeSlot 0x6058A5800000000000000000#96 = .ok .qand { d := 12, a := 10, b := 11 } ∧ slotMarker 0x6058A5800000000000000000#96 = false := by decide +kernel
theorem test_decode_fork : decodeSlot 0xB59A0000000D000000000244#96 = .ok .fork { d := 13, misc := 13, imm := 0x244 } ∧ slotMarker 0xB59A0000000D000000000244#96 = true := by decide +kernel
theorem test_decode_fdiv : decodeSlot 0x10C221812040000000000000#96 = .ok .fdiv { d := 1, a := 2, b := 3, ty := 9, rm := 1 } ∧ slotMarker 0x10C221812040000000000000#96 = false := by decide +kernel
theorem test_decode_tlbw : decodeSlot 0x288040000000000000000000#96 = .ok .tlbw { a := 4 } ∧ slotMarker 0x288040000000000000000000#96 = false := by decide +kernel
theorem test_decode_bar : decodeSlot 0x31C000000803000000000180#96 = .ok .bar { path := 4, misc := 3, imm := 0x180 } ∧ slotMarker 0x31C000000803000000000180#96 = false := by decide +kernel
theorem test_decode_gath : decodeSlot 0x350C20000000000000000000#96 = .ok .gath { d := 6, a := 2 } ∧ slotMarker 0x350C20000000000000000000#96 = false := by decide +kernel
theorem test_decode_rngput : decodeSlot 0x384050000000000000000001#96 = .ok .rngput { a := 5, imm := 1 } ∧ slotMarker 0x384050000000000000000001#96 = false := by decide +kernel
theorem test_decode_vext : decodeSlot 0x524820004000000000000005#96 = .ok .vext { d := 4, a := 2, ty := 2, imm := 5 } ∧ slotMarker 0x524820004000000000000005#96 = false := by decide +kernel
theorem test_decode_kfirst : decodeSlot 0x598810000000000000000000#96 = .ok .kfirst { d := 4, a := 1 } ∧ slotMarker 0x598810000000000000000000#96 = false := by decide +kernel
theorem test_decode_qld : decodeSlot 0x638220000000000000000008#96 = .ok .qld { d := 1, a := 2, imm := 8 } ∧ slotMarker 0x638220000000000000000008#96 = false := by decide +kernel
theorem test_decode_mbmac : decodeSlot 0x68821110200000000000000F#96 = .ok .mbmac { d := 1, a := 1, b := 2, c := 4, ty := 1, misc := 0, imm := 15 } ∧ slotMarker 0x68821110200000000000000F#96 = false := by decide +kernel
theorem test_decode_mwait : decodeSlot 0x6B8E00000000000000000000#96 = .ok .mwait { d := 7 } ∧ slotMarker 0x6B8E00000000000000000000#96 = false := by decide +kernel

/-! ### The statements about the whole machine -/

/-- Every instruction has a well-formed slot: here one of each format, with fields at their largest values. -/
theorem witness_RoundTrip :
    Slot.wellFormed .add { d := 31, a := 31, b := 31, ty := 8 } = true ∧ Slot.wellFormed .bne { a := 31, b := 31, ty := 8, imm := 0xFFFFFFFFFFC4 } = true ∧
    Slot.wellFormed .trap { imm := 0xFFFF } = true ∧ decodeSlot 0x800420810000000000000000#96 = .ok .add { d := 2, a := 2, b := 1, ty := 8 } := by decide +kernel
theorem witness_StepKeepsCanonicalForm : State.reset.Inv ∧ step State.reset = .next State.reset ∧ ∃ t, step { State.reset with agenda := [.event .cxlLinkDown { n := 1 }] } = .next t :=
  ⟨⟨rfl, rfl⟩, rfl, _, rfl⟩
/-- A line of template 1 with its two first slots, every slot marked, with the parities of R36. -/
def lineOf (w1 w2 : BitVec 96) : BitVec 512 :=
  let hi := 2 ^ 23 + 31 * 2 ^ 27 + (if parityOf w1 then 2 ^ 18 else 0) + (if parityOf w2 then 2 ^ 19 else 0)
  BitVec.ofNat 512 (w1.toNat + w2.toNat * 2 ^ 96 + (hi + (if onesCount 32 hi % 2 = 1 then 2 ^ 17 else 0)) * 2 ^ 480)
/-- Two adds that do not meet; an add and one that reads the mesh port to the east, where no word has come; an add and a slot that is no instruction. -/
def pairLine : BitVec 512 := lineOf (packSlot false 0x000 { d := 1, a := 2, b := 3, ty := 8 }) (packSlot false 0x000 { d := 4, a := 5, b := 6, ty := 8 })
def waitLine : BitVec 512 := lineOf (packSlot false 0x000 { d := 1, a := 2, b := 3, ty := 8 }) (packSlot false 0x000 { d := 4, a := 25, b := 6, ty := 8 })
def badPair : BitVec 512 := lineOf (packSlot false 0x000 { d := 1, a := 2, b := 3, ty := 8 }) (packSlot false 0x1FF {})
/-- The thread of `world`, whose next line is `l`. -/
def nextLine (l : BitVec 512) (fresh : Bool := true) (c : Choice := .issue (.ctx 0 0)) : State :=
  ({ world with quads := [(0, { tlb := [{ vpn := 0, space := 3, frame := 0, big := true, x := true, w := true, r := true }], icache := [{ line := 0x10000, data := l }] })]
                agenda := [c] } : State).setHart (.ctx 0 0) { h0 with fresh := fresh }
theorem witness_StepRunsTheInstruction_choices :
    (∃ (s : State) (c : Choice), s.agenda = [c] ∧ c = .event .scrub {}) ∧ (∃ (s : State) (c : Choice), s.agenda = [] ∧ s.nextChoice exec = some c ∧ c = .issue (.ctx 0 0)) :=
  ⟨⟨{ agenda := [.event .scrub {}] }, _, rfl, rfl⟩, ⟨{ nextLine pairLine with agenda := [] }, _, rfl, by decide +kernel, rfl⟩⟩
/-- What a step of a hart needs: it may issue, and its line is there and marked. -/
def canRun (l : BitVec 512) (fresh : Bool) : Bool :=
  let s := { nextLine l fresh with agenda := [] }
  match s.hart? (.ctx 0 0) with
  | some x => s.canIssue (.ctx 0 0) x && x.pendingTrap.isNone && (match s.fetchLine (.ctx 0 0) x.pc with
    | .line m => m == l && m != 0 && pcOk x.pc && markedIn m x.pc
    | _ => false)
  | none => false
theorem witness_StepRunsTheInstruction_issue :
    canRun pairLine true = true ∧ canRun pairLine false = true ∧ canRun (oneLine (packSlot true 0x000 { d := 1, a := 2, b := 3, ty := 8 })) true = true ∧
    canRun (oneLine (packSlot false 0x1FF {})) true = true ∧ canRun badPair true = true ∧ decodeSlot (packSlot false 0x1FF {}) = .bad 1 ∧ canRun waitLine true = true ∧
    pairFirst (templateOf pairLine) 0 = true ∧ pairFirst (templateOf waitLine) 0 = true ∧ endingLoops h0 h0.pc = [] := by
  refine ⟨by decide +kernel, by decide +kernel, by decide +kernel, by decide +kernel, by decide +kernel, by decide +kernel, by decide +kernel, by decide +kernel, by decide +kernel, ?_⟩
  exact ending_none h0 (by decide +kernel)
/-- The pair issues, by either choice; the pair whose second waits leaves both results unwritten and the PC where it was. -/
theorem witness_StepRunsTheInstruction_pairs :
    (∀ old : Bool, (match step (nextLine pairLine true (if old then .issueOld (.ctx 0 0) else .issue (.ctx 0 0))) with
      | .next t => (t.hart (.ctx 0 0)).outstanding.map (·.writes) == [[.x 1 0x500], [.x 4 0xB00]] && (t.hart (.ctx 0 0)).pc == 0x400002
      | _ => false) = true) ∧
    (match step (nextLine waitLine) with
      | .next t => (t.hart (.ctx 0 0)).outstanding.isEmpty && (t.hart (.ctx 0 0)).pc == 0x400000 && (t.hart (.ctx 0 0)).stalled
      | _ => false) = true := by
  constructor
  · intro old
    cases old <;> decide +kernel
  · decide +kernel
/-- The registers at the ends of each range, with their frames in the cache; rings 0 and 1 with and without slots; mesh ports with and without a neighbour. -/
theorem witness_RegisterAccess :
    (∃ (s : State) (x : Hart), s.hart? s.ir.hart = some x ∧ (∀ n ∈ [0, 15, 16, 23], x.absent.contains (n / 4) = false) ∧ s.coreOf s.ir.hart = some 0) ∧
    (meshNeighbour 0 0 = none ∧ meshNeighbour 0 1 ≠ none) ∧ (∀ w, ∃ s : State, (s.core 0).meshIn.toList.getD 1 [] = w) ∧
    (∀ n ∈ [3, 4], ∃ s : State, ((s.core 0).meshOut.toList.getD 1 []).length = n ∧ ∀ p ∈ s.harts, s.coreOf p.1 = some 0 → p.2.outstanding = []) ∧ (State.ring {} 0 0).cap = 0 ∧
    (∀ f ∈ [0, 1], ∀ r ∈ [0, 1], ∃ s : State, (s.ring 0 r).cap = 4 ∧ (s.ring 0 r).filled = f ∧ s.ringRoom 0 r 1 = (f == 1)) := by
  refine ⟨⟨at0 h0 {}, _, rfl, by decide, rfl⟩, by decide, fun w => ⟨{ cores := [(0, { meshIn := (Vector.replicate 4 []).setIfInBounds 1 w })] }, rfl⟩,
    fun n _ => ⟨{ cores := [(0, { meshOut := (Vector.replicate 4 []).setIfInBounds 1 (List.replicate n 9) })] }, List.length_replicate, fun p h => by cases h⟩, by decide +kernel, fun f hf r hr => ?_⟩
  simp only [List.mem_cons, List.not_mem_nil, or_false] at hf hr
  rcases hf with rfl | rfl <;> rcases hr with rfl | rfl
  · exact ⟨State.setRing {} 0 0 (rg 4 0), by decide +kernel⟩
  · exact ⟨State.setRing {} 0 1 (rg 4 0), by decide +kernel⟩
  · exact ⟨State.setRing {} 0 0 { rg 4 1 with filled := 1 }, by decide +kernel⟩
  · exact ⟨State.setRing {} 0 1 { rg 4 1 with filled := 1 }, by decide +kernel⟩
/-- A thread whose core has a ring 1. -/
def ringed1 : State := (at0 h0 {}).setRing 0 1 (rg 4 4)
theorem witness_RetirementFrame : (∃ s t : State, Passes s t) ∧ (∃ b : BufStore, ∃ a, ∀ c ∈ b.cells, c.1 ≠ a) ∧
    ∀ d ∈ [(0 : BitVec 5), 15, 16, 23, 29, 30, 31], ∃ ws s2, destReg d 7 (ringed1 : State) = .ok (ws, s2) := by
  refine ⟨⟨at0 h0 {}, passes_x (by decide +kernel)⟩, ⟨buf0, 0, by decide⟩, fun d hd => ?_⟩
  simp only [List.mem_cons, List.not_mem_nil, or_false] at hd
  rcases hd with rfl | rfl | rfl | rfl | rfl | rfl | rfl <;> exact ⟨_, _, rfl⟩
/-! ### WellFormed: one term that each check refuses -/

/-- R44, R45, R48, R49: an unused field that is not zero, a reserved loop counter, a type no integer instruction has, a displacement to slot 6,
a miscellany bit, a bit of a field source that must be zero, a path code that does not exist. -/
theorem test_wellFormed_refuses :
    Slot.wellFormed .xret { d := 1 } = false ∧ Slot.wellFormed .loopReg { d := 3, imm := 0x41 } = false ∧ Slot.wellFormed .add { ty := 9 } = false ∧
    Slot.wellFormed .bne { ty := 4, imm := 6 } = false ∧ Slot.wellFormed .add { ty := 8, misc := 1 } = false ∧ Slot.wellFormed .binsImm { ty := 8, imm := 0x40 } = false ∧
    Slot.wellFormed .ld { ty := 4, path := 5 } = false := by decide +kernel
/-- An instruction is the one that its opcode names, and an event has no slot. -/
theorem test_wellFormed_names : Slot.wellFormed .add { ty := 8 } = true ∧ Slot.wellFormed .scrub {} = false ∧ encode false .scrub {} = none := by decide +kernel
/-- R16, R20: slot 64 of a core, the handler context 16, core 1536 of package 255, firmware hart 8, quad 98304. -/
theorem test_hartId_refuses :
    (HartId.ctx 0 64).inPod = false ∧ (HartId.handler 0 16).inPod = false ∧ (HartId.loader (256 * 1536)).inPod = false ∧ (HartId.tsc 0 8).inPod = false ∧
    (HartId.gather 1024).inPod = false ∧ (HartId.expander 98304).inPod = false ∧ (HartId.storer (256 * 1536 - 1)).inPod = true := by decide +kernel
/-- An event's arguments: an instruction is no event, and its hart and its writer are in the pod. -/
theorem test_eventArg_refuses :
    EventArg.wellFormed .add {} = false ∧ EventArg.wellFormed .scrub { hart := .ctx 0 64 } = false ∧ EventArg.wellFormed .scrub { writer := some (.handler 0 16) } = false ∧
    EventArg.wellFormed .scrub {} = true := by decide +kernel

/-! ### Single steps, each with the result that the spec's worked example gives -/

/-- A thread's registers by a list. -/
def regs (l : List Word) (x : Hart := h0) : Hart := { x with regs := { x := windowOf fun i => l.getD i 0 } }
/-- What an instruction leaves, where it goes on. -/
def after (i : Instr) (s : State) (p : State → Hart → Bool) : Bool := match exec i s with
  | .next t => p t (t.hart (.ctx 0 0))
  | _ => false
/-- The one result that it owes is this. -/
def owes (w : RegWrite) (fl : Flags5 := 0) (_ : State) (x : Hart) : Bool := match x.outstanding with
  | [p] => p.writes == [w] && p.flags == fl
  | _ => false
/-- 06, "Hardware loops": x1 with x4 = 2 in bits 63:60. -/
theorem test_bins : after .binsImm (at0 (regs [0, 0x100000, 0, 0, 2]) { d := 1, a := 4, ty := 8, imm := 0x33C }) (owes (.x 1 0x2000000000100000)) = true := by decide +kernel
/-- 06, "Hardware loops": pass 1 of the element address. -/
theorem test_madd : after .madd (at0 (regs [0, 0x2000000000100000, 0, 0, 0, 0, 24]) { d := 5, a := 2, b := 6, c := 1, ty := 8 }) (owes (.x 5 0x2000000000100000)) = true := by decide +kernel
/-- R94: −7 / 2 is −3, and the remainder −1. -/
theorem test_div : after .div (at0 (regs [0, -7, 2]) { d := 3, a := 1, b := 2, ty := 4 }) (owes (.x 3 (-3))) = true := by decide +kernel
theorem test_rem : after .rem (at0 (regs [0, -7, 2]) { d := 3, a := 1, b := 2, ty := 4 }) (owes (.x 3 (-1))) = true := by decide +kernel
/-- 03: a shift by 60 of 2. -/
theorem test_shl : after .shlImm (at0 (regs [0, 0, 2]) { d := 2, a := 2, ty := 8, imm := 60 }) (owes (.x 2 0x2000000000000000)) = true := by decide +kernel
/-- 07: 2^24 + 1 in binary32 ties to even and raises NX (flag bit 0). -/
theorem test_fadd : after .fadd (at0 (regs [0, 0x4B800000, 0x3F800000]) { d := 3, a := 1, b := 2, ty := 10 }) (owes (.x 3 0x4B800000) 1) = true := by decide +kernel
/-- 07: three bits are set under the mask 7. -/
theorem test_kpop : after .kpop (at0 { h0 with vused := true, regs := { h0.regs with k := (Vector.replicate 8 0).setIfInBounds 1 7 } } { d := 4, a := 1 }) (owes (.x 4 3)) = true := by decide +kernel
/-- The words of the register stack from 0x200000 that a call has left below the window, all zero. -/
def spilled (n : Nat) : List (Nat × Word) := (List.range n).map fun i => (0x200000 + 8 * i, 0)
/-- A stack segment of one page. -/
def onStack (x : Hart) : Hart := { x with wbase := 0x200000, rsbase := 0x200000, rslim := 0x201000 }
/-- 05: `call f, 8` in slot 2 of the line at 0x400000; `f` is slot 4. -/
theorem test_call : after .call (at0 { onStack (regs [0, 0, 0, 0, 0, 0, 0, 0, 5, 7]) with pc := 0x400002 } { misc := 2, imm := 4 }) (fun _ x =>
    x.wbase == 0x200040 && x.xreg 0 == 5 && x.xreg 1 == 7 && x.xreg 13 == 0 && x.xreg 14 == 0x200000 && x.xreg 15 == 0x400003 && x.pc == 0x400004) = true := by decide +kernel
/-- 05: its `ret`. -/
theorem test_ret : after .ret (at0 { onStack (regs [12, 7, 0, 0, 0, 0, 0, 0, 0, 0, 0, 0, 0, 0, 0x200000, 0x400003]) with wbase := 0x200040, below := spilled 8 } {}) (fun _ x =>
    x.wbase == 0x200000 && x.xreg 0 == 0 && x.xreg 8 == 12 && x.xreg 9 == 7 && x.xreg 15 == 0 && x.pc == 0x400003) = true := by decide +kernel
/-- 09: `trap 5` in slot 1, with TENTRY 0x800000. -/
theorem test_trap : after .trap (at0 { onStack (regs [0, 0, 0, 0, 0, 0, 0, 0, 0, 0, 0, 0, 40]) with pc := 0x400001 } { imm := 5 } (world.ctlPut 0 0x100 0x800000)) (fun _ x =>
    x.wbase == 0x200060 && x.xreg 0 == 40 && x.xreg 1 == 0 && x.trap.xcause == 0x8000000E && x.trap.xpc == 0x400002 && x.trap.xval == 5 && x.trap.mode && !x.trap.pmode && x.trap.trapped &&
      x.pc == 0x800000) = true := by decide +kernel
/-- 09: `sysr x4, XVAL`. -/
theorem test_sysr : after .sysr (at0 { h0 with trap := { xval := 5, mode := true } } { d := 4, imm := 2 }) (owes (.x 4 5)) = true := by decide +kernel
/-- 09: `xret` with x0 = 45. -/
theorem test_xret : after .xret (at0 { onStack (regs [45]) with wbase := 0x200060, below := spilled 12, pc := 0x800002, trap := { xcause := 0x8000000E, xpc := 0x400002, mode := true, trapped := true } } {}) (fun _ x =>
    x.wbase == 0x200000 && x.xreg 12 == 45 && x.xreg 0 == 0 && !x.trap.mode && !x.trap.trapped && x.pc == 0x400002) = true := by decide +kernel
/-- 09: with TENTRY 0 a `trap` ends the thread. -/
theorem test_trap_ends : after .trap (at0 { onStack h0 with pc := 0x400001 } { imm := 5 }) (fun t x => (t.hart? (.ctx 0 0)).isNone || x.phase == .ending) = true := by decide +kernel
/-- 07: the sum of 2^24, 1, 1 and −2^24 in tree order is 1, with NX. -/
theorem test_vredsum : after .vredsum (at0 { h0 with vused := true, regs := { h0.regs with v := (Vector.replicate 32 0).setIfInBounds 1 0xCB8000003F8000003F8000004B800000 } }
    { d := 2, a := 1, b := 31, ty := 10 }) (fun _ x => match x.outstanding with
      | [p] => p.writes == [.vec 2 0x3F800000 (BitVec.allOnes 1024)] && p.flags == 1
      | _ => false) = true := by decide +kernel
end Sys2Proof.Tests
end

section
/-! PROOFS. The integer instructions of 06_scalar_instructions: each arm of the two tables is one of the shared shapes, so the lemma of
that shape says what it answers (R92, R93, R97). -/

namespace Sys2Proof.Machine

/-! ### The arms of the tables -/

/-- R93: both forms of a two-operand instruction are the shared shapes, at the opcodes and the function of its row. -/
theorem exec_twoOperand (s : State) : ∀ row ∈ twoOperand,
    exec row.2.1 s = aluRR row.1 row.2.2.2 s ∧ exec row.2.2.1 s = aluRI (0x20 + row.1) row.2.2.2 s := by
  unfold twoOperand
  repeat refine List.forall_mem_cons.mpr ⟨⟨rfl, rfl⟩, ?_⟩
  exact List.forall_mem_nil _

/-- R93, R96: a one-source instruction is the shared shape at the opcode and the function of its row. -/
theorem exec_oneOperand (s : State) : ∀ row ∈ oneOperand, exec row.2.1 s = aluR row.1 row.2.2 s := by
  unfold oneOperand
  repeat refine List.forall_mem_cons.mpr ⟨rfl, ?_⟩
  exact List.forall_mem_nil _

/-! R97: `sel` and `madd` in both forms. -/

theorem exec_sel (s : State) : exec .sel s = aluRRR 0x014 (fun _ a b c => if a ≠ 0 then b else c) s := rfl
theorem exec_madd (s : State) : exec .madd s = aluRRR 0x015 (fun _ a b c => a * b + c) s := rfl
theorem exec_selImm (s : State) :
    exec .selImm s = aluRI 0x034 (fun _ a _ => if a ≠ 0 then immHigh s.ir.slot else immLow s.ir.slot) s := rfl
theorem exec_maddImm (s : State) : exec .maddImm s = aluRI 0x035 (fun _ a _ => a * immHigh s.ir.slot + immLow s.ir.slot) s := rfl

theorem oneCycle_oneOperand : ∀ row ∈ oneOperand, oneCycle row.1 = true := by decide

/-! ### The integer forms -/

/-- Settles O1: each clause is the lemma of the shape that its arm has. -/
theorem integerForms : Obligations.IntegerForms := by
  unfold Obligations.IntegerForms
  refine ⟨?registerForms, fun s x hr => ⟨?immediateForms, ?selMaddImm, ?movImm⟩, ?oneSource, ?selMadd⟩
  case registerForms =>
    intro row hrow s s2 t x a b hr hn ha ht
    rw [(exec_twoOperand s row hrow).1]
    exact aluRR_next hr hn ha ht
  case immediateForms =>
    intro row hrow s1 t a hn ha ht
    rw [(exec_twoOperand s row hrow).2]
    exact aluRI_next hr hn ha ht
  case selMaddImm =>
    intro s1 t a hn ha
    rw [exec_selImm, exec_maddImm]
    exact ⟨fun ht => aluRI_next hr hn ha ht, fun ht => aluRI_next hr hn ha ht⟩
  case movImm => exact fun t hn ht => execMovImm_next hr hn ht
  case oneSource =>
    intro row hrow s s1 t x a hr hn ha ht
    rw [exec_oneOperand s row hrow]
    rw [← oneCycle_oneOperand row hrow] at ht
    exact aluR_next hr hn ha ht
  case selMadd =>
    intro s s3 t x a b c hr hn ha
    rw [exec_sel, exec_madd]
    exact ⟨fun ht => aluRRR_next hr hn ha ht, fun ht => aluRRR_next hr hn ha ht⟩

end Sys2Proof.Machine
end

section
/-! PROOFS. Bit fields (R98) and division (R94) of 06_scalar_instructions: the bits of `bextOf` and `binsOf`, and the quotient and the
remainder with the two cases that have no true result. -/

namespace Sys2Proof.Machine

/-! ### Bit fields, R98 -/

/-- `sext` is the signed value of the low bits as a bit vector. -/
theorem sext_eq_toInt (n : Nat) {w : Nat} (hw : 1 ≤ w) : sext n w = (BitVec.ofNat w n).toInt := by
  obtain ⟨k, rfl⟩ := Nat.exists_eq_add_of_le' hw
  have h : 2 ^ (k + 1) = 2 * 2 ^ k := Nat.pow_succ'
  simp only [sext, BitVec.toInt_eq_toNat_cond, BitVec.toNat_ofNat, Nat.add_sub_cancel]
  split <;> split <;> omega

/-- `BitField` cuts n bits out of a word. -/
theorem bitField_eq_extract (a : Word) (p n : Nat) : bitField a p n = (a.extractLsb' p n).toNat := by
  rw [bitField, BitVec.extractLsb'_toNat, Nat.shiftRight_eq_div_pow]

/-- For `.n64` the field is extended with zeros. -/
theorem getLsbD_bextOf_unsigned {ty i : Nat} (hty : ty ≠ 4) (a : Word) (p n : Nat) (hi : i < 64) :
    (bextOf ty a p n).getLsbD i = (decide (i < n) && a.getLsbD (p + i)) := by
  rw [bextOf, if_neg hty, bitField_eq_extract, BitVec.ofNat_toNat, BitVec.getLsbD_setWidth, BitVec.getLsbD_extractLsb',
    decide_eq_true hi, Bool.true_and]

/-- For `.i64` the field is extended with its highest bit. -/
theorem getLsbD_bextOf_signed {i : Nat} (a : Word) (p : Nat) {n : Nat} (hn : 1 ≤ n) (hi : i < 64) :
    (bextOf 4 a p n).getLsbD i = a.getLsbD (p + min i (n - 1)) := by
  have hfield : bextOf 4 a p n = (a.extractLsb' p n).signExtend 64 := by
    rw [bextOf, if_pos rfl, sext_eq_toInt _ hn, bitField_eq_extract, BitVec.ofNat_toNat, BitVec.setWidth_eq]; rfl
  rw [hfield, BitVec.getLsbD_signExtend, BitVec.msb_eq_getLsbD_last, BitVec.getLsbD_extractLsb', BitVec.getLsbD_extractLsb',
    decide_eq_true hi, Bool.true_and]
  by_cases h : i < n
  · rw [if_pos h, decide_eq_true h, Bool.true_and, show min i (n - 1) = i by omega]
  · rw [if_neg h, decide_eq_true (show n - 1 < n by omega), Bool.true_and, show min i (n - 1) = n - 1 by omega]

/-- The mask of a field has the ones that the field covers. -/
theorem getLsbD_fieldMask (p n i : Nat) (hi : i < 64) :
    (BitVec.ofNat 64 ((2 ^ n - 1) * 2 ^ p)).getLsbD i = decide (p ≤ i ∧ i < p + n) := by
  rw [BitVec.getLsbD_ofNat, Nat.testBit_mul_two_pow, Nat.testBit_two_pow_sub_one, decide_eq_true hi, Bool.true_and, ← Bool.decide_and]
  exact decide_eq_decide.mpr (by omega)

/-- `bins` puts a into the field and keeps d outside it. -/
theorem getLsbD_binsOf (d a : Word) (p n : Nat) {i : Nat} (hi : i < 64) :
    (binsOf d a p n).getLsbD i = if p ≤ i ∧ i < p + n then a.getLsbD (i - p) else d.getLsbD i := by
  simp only [binsOf, BitVec.getLsbD_or, BitVec.getLsbD_and, BitVec.getLsbD_not, BitVec.getLsbD_shiftLeft, getLsbD_fieldMask p n i hi]
  by_cases h : p ≤ i ∧ i < p + n
  · rw [if_pos h, decide_eq_true h, decide_eq_true hi, decide_eq_false (show ¬ i < p by omega)]
    simp only [Bool.not_true, Bool.not_false, Bool.and_true, Bool.true_and, Bool.and_false, Bool.false_or]
  · rw [if_neg h, decide_eq_false h, decide_eq_true hi]
    simp only [Bool.not_false, Bool.true_and, Bool.and_true, Bool.and_false, Bool.or_false]

/-! ### `Wrap`, R57, R79 -/

/-- `Wrap` looks at a value modulo 2^w only. -/
theorem wrap_congr {ty : Nat} {x y : Int} (h : x % (2 ^ typeWidth ty : Nat) = y % (2 ^ typeWidth ty : Nat)) : wrap ty x = wrap ty y := by
  simp only [wrap, h]

theorem wrap_emod (ty : Nat) (x : Int) : wrap ty x % (2 ^ typeWidth ty : Nat) = x % (2 ^ typeWidth ty : Nat) := by
  unfold wrap
  dsimp only
  split
  · exact (Int.sub_emod_right ..).trans (Int.emod_emod ..)
  · exact Int.emod_emod ..

/-- A result that is wrapped already is written as it is. -/
theorem putInt_wrap (ty : Nat) (x : Int) : putInt ty (wrap ty x) = putInt ty x := by
  rw [putInt, wrap_congr (wrap_emod ty x), putInt]

theorem typeWidth_pos_of_signed {ty : Nat} (hs : isSignedType ty = true) : 1 ≤ typeWidth ty := by
  obtain ⟨h1, h4⟩ : 1 ≤ ty ∧ ty ≤ 4 := by
    simpa only [isSignedType, Bool.and_eq_true, decide_eq_true_eq] using hs
  obtain rfl | rfl | rfl | rfl : ty = 1 ∨ ty = 2 ∨ ty = 3 ∨ ty = 4 := by omega
  all_goals decide

/-- In a signed type the negative of the minimum wraps to the minimum. -/
theorem putInt_neg_min {ty : Nat} (hs : isSignedType ty = true) :
    putInt ty (2 ^ (typeWidth ty - 1)) = putInt ty (-(2 ^ (typeWidth ty - 1))) := by
  obtain ⟨k, hk⟩ := Nat.exists_eq_add_of_le' (typeWidth_pos_of_signed hs)
  have hpow : ((2 ^ (k + 1) : Nat) : Int) = 2 ^ k * 2 := by rw [Int.natCast_pow, Int.pow_succ]; rfl
  have hsub : -(2 ^ k : Int) = 2 ^ k - 2 ^ k * 2 := by omega
  rw [putInt, putInt, wrap_congr]
  rw [hk, Nat.add_sub_cancel, hpow, hsub, Int.sub_emod_right]

/-! ### Division, R94 -/

/-- The written quotient: truncated toward zero, all ones for the divisor 0, and the minimum of the type divided by −1 is itself. -/
theorem putInt_intDiv (ty : Nat) (a b : Int) : putInt ty (intDiv ty a b) = putInt ty
    (if b = 0 then (if isSignedType ty = true then -1 else 2 ^ typeWidth ty - 1)
      else if isSignedType ty = true ∧ a = -(2 ^ (typeWidth ty - 1)) ∧ b = -1 then a else a.tdiv b) := by
  by_cases hb : b = 0
  · rw [if_pos hb, intDiv, if_pos hb]
    by_cases hs : isSignedType ty = true
    · rw [if_pos hs, if_pos hs]
    · rw [if_neg hs, if_neg hs, intMax, if_neg hs, Int.natCast_pow]; rfl
  · rw [if_neg hb, intDiv, if_neg hb, putInt_wrap]
    split
    case isTrue hcorner =>
      obtain ⟨hs, rfl, rfl⟩ := hcorner
      rw [Int.tdiv_neg, Int.tdiv_one, Int.neg_neg, putInt_neg_min hs]
    case isFalse => rfl

/-- The remainder to the truncated quotient; where the minimum is divided by −1 it is 0 with no case of its own. -/
theorem intRem_eq (ty : Nat) (a b : Int) : intRem a b =
    if b = 0 then a else if isSignedType ty = true ∧ a = -(2 ^ (typeWidth ty - 1)) ∧ b = -1 then 0 else a - b * a.tdiv b := by
  by_cases hb : b = 0
  · rw [intRem, if_pos hb, if_pos hb]
  · rw [intRem, if_neg hb, if_neg hb]
    split
    case isTrue hcorner =>
      obtain ⟨-, -, rfl⟩ := hcorner
      rw [Int.tdiv_neg, Int.tdiv_one]; omega
    case isFalse => rfl

/-- A remainder other than 0 has the sign of the dividend. -/
theorem intRem_sign (a b : Int) : intRem a b = 0 ∨ (intRem a b).sign = a.sign := by
  rw [intRem, ← Int.tmod_def]
  by_cases hb : b = 0
  · exact .inr (by rw [if_pos hb])
  · rw [if_neg hb]
    by_cases hd : b ∣ a
    · exact .inl (Int.tmod_eq_zero_of_dvd hd)
    · exact .inr (by rw [Int.sign_tmod, if_neg hd])

theorem exec_div (s : State) : exec .div s = aluRR 0x004 intDiv s := rfl
theorem exec_rem (s : State) : exec .rem s = aluRR 0x005 (fun _ a b => intRem a b) s := rfl

/-- Settles O2: the bits of the two field operations, then the division by the equations of its quotient and remainder. -/
theorem bitFieldsAndDivision : Obligations.BitFieldsAndDivision := by
  unfold Obligations.BitFieldsAndDivision
  refine ⟨⟨?fieldBits, fun s x hr => ⟨?bext, ?bins, ?bextImm, ?binsImm⟩⟩, ?division⟩
  case fieldBits =>
    exact fun d a p n i _ hn _ hi =>
      ⟨getLsbD_bextOf_unsigned (by decide) a p n hi, getLsbD_bextOf_signed a p hn hi, getLsbD_binsOf d a p n hi⟩
  case bext => exact fun s2 t a b hn ha ht => execBext_next hr hn ha ht
  case bins => exact fun s3 t a b d hn ha ht => execBins_next hr hn ha ht
  case bextImm => exact fun s1 t a hn ha ht => execBextImm_next hr hn ha ht
  case binsImm => exact fun s2 t a d hn ha ht => execBinsImm_next hr hn ha ht
  case division =>
    intro s s2 t x a b hr hn ha _
    dsimp only
    rw [← putInt_intDiv, ← intRem_eq, exec_div, exec_rem]
    exact ⟨fun ht => aluRR_next hr hn ha ht, fun ht => aluRR_next hr hn ha ht, intRem_sign _ _⟩

end Sys2Proof.Machine
end

section
/-! PROOFS. `xret` (R157) of 09_traps_contexts: its checks, its wait, the two ends with NESTED, and the hart it leaves. -/

namespace Sys2Proof.Machine

/-! ### The meaning of `xret` run as far as each check -/

/-- What an instruction answers depends only on what its meaning does in the state it starts from. -/
theorem runM_congr {op : Nat} {m m' : M Unit} {s : State} (h : m s.go = m' s.go) : runM op m s = runM op m' s := by
  simp only [runM, h]

/-- A meaning that ends its thread leaves the state as it was before, with the thread ended. -/
theorem runM_endThread {op : Nat} {m : M Unit} {s : State} {cause inner : Nat} (hth : isThread s.ir.hart = true)
    (h : m s.go = .error (.endThread cause inner)) : runM op m s = .next (s.go.endThread s.ir.hart cause inner) := by
  have hth' : isThread s.go.ir.hart = true := hth
  simp only [runM, h, if_pos hth']
  rfl

/-- Results still to be written hold back an instruction that waits for them. -/
theorem drained_stalls {s : State} {x : Hart} (hx : s.hart? s.ir.hart = some x) (h2 : s.ir.second = false) (ho : x.outstanding ≠ []) :
    ∃ g, drained s = .error (.stall g) := by
  have hb : x.outstanding.isEmpty = false := by simpa only [List.isEmpty_eq_false_iff] using ho
  rw [drained, bind_ok (hartM_ok hx), bind_ok (getI_ok s), h2, if_neg (by decide), hb]
  exact ⟨id, rfl⟩

theorem execXret_user {s : State} {x : Hart} (hr : Ready s x .xret) (hm : x.trap.mode = false) :
    execXret s = .next (s.go.takeTrap s.ir.hart { cause := 0x02, xval := 0, pc := x.pc, second := s.ir.second, unit := 0 }) := by
  refine runM_traps hr.found ?_ (by decide)
  rw [bind_ok (useClass_ok hr.go), bind_ok (hartM_ok (s := s.go) hr.found), hm, if_pos (by decide)]
  exact bind_error (trapM_error ..)

theorem execXret_untrapped {s : State} {x : Hart} (hr : Ready s x .xret) (hm : x.trap.mode = true) (ht : x.trap.trapped = false) :
    execXret s = .next (s.go.takeTrap s.ir.hart { cause := 0x01, xval := 0, pc := x.pc, second := s.ir.second, unit := 0 }) := by
  refine runM_traps hr.found ?_ (by decide)
  rw [bind_ok (useClass_ok hr.go), bind_ok (hartM_ok (s := s.go) hr.found), hm, ht, if_neg (by decide)]
  dsimp only
  rw [if_pos (by decide)]
  exact bind_error (trapM_error ..)

/-- Past its two checks `xret` is the wait for the thread's results and the return. -/
theorem execXret_trapped {s : State} {x : Hart} (hr : Ready s x .xret) (hm : x.trap.mode = true) (ht : x.trap.trapped = true) :
    execXret s = runM 0x06E (do drained; countIssue; trapReturnM) s := by
  refine runM_congr ?_
  rw [bind_ok (useClass_ok hr.go), bind_ok (hartM_ok (s := s.go) hr.found), hm, ht, if_neg (by decide)]
  dsimp only
  rw [if_neg (by decide)]

theorem execXret_stalls {s : State} {x : Hart} (hr : Ready s x .xret) (hm : x.trap.mode = true) (ht : x.trap.trapped = true)
    (h2 : s.ir.second = false) (ho : x.outstanding ≠ []) : ∃ t, execXret s = .next t ∧ t.ir.result = .stalled := by
  rw [execXret_trapped hr hm ht]
  refine runM_stall ?_
  obtain ⟨g, hg⟩ := drained_stalls (s := s.go) hr.found h2 ho
  exact ⟨g, bind_error hg⟩

/-- A drained thread whose return cannot be done ends, and its issue is not counted. -/
theorem execXret_ends {s : State} {x : Hart} {cause inner : Nat} (hr : Ready s x .xret) (hm : x.trap.mode = true)
    (ht : x.trap.trapped = true) (hd : Drained s x) (hth : isThread s.ir.hart = true)
    (h : trapReturnM s.go.counted = .error (.endThread cause inner)) :
    execXret s = .next (s.go.endThread s.ir.hart cause inner) := by
  rw [execXret_trapped hr hm ht]
  refine runM_endThread hth ?_
  rw [bind_ok (drained_of (s := s.go) hr.found hd), bind_ok (countIssue_ok s.go), h]

/-! ### The return that fails -/

theorem trapReturnM_badTarget {s : State} {x : Hart} (hx : s.hart? s.ir.hart = some x) (hp : pcOk x.trap.xpc = false) :
    trapReturnM s = .error (.endThread 0x22 0x03) := by
  rw [trapReturnM, bind_ok (hartM_ok hx), bind_ok (getI_ok s), hp, if_pos (by decide)]
  exact bind_error (throw_error ..)

theorem trapReturnM_underflow {s : State} {x : Hart} (hx : s.hart? s.ir.hart = some x) (hp : pcOk x.trap.xpc = true)
    (hb : x.wbase.toNat < x.rsbase.toNat + 96) : trapReturnM s = .error (.endThread 0x22 0x06) := by
  rw [trapReturnM, bind_ok (hartM_ok hx), bind_ok (getI_ok s), hp, if_neg (by decide)]
  dsimp only
  rw [if_pos hb]
  exact bind_error (throw_error ..)

/-! ### The window slid back, and the thread restored -/

theorem toList_windowOf_getD (f : Nat → Word) {i : Nat} (hi : i < 16) : (windowOf f).toList.getD i 0 = f i := by
  rw [windowOf, Vector.toList_ofFn, List.getD_eq_getElem?_getD, List.getElem?_ofFn, dif_pos hi, Option.getD_some]

/-- R83: a slide downward moves the window's registers up by m and brings the words of the stack in below them. -/
theorem Hart.xreg_slidDown (x : Hart) (m : Nat) (vs : List Word) {i : Nat} (hi : i < 16) :
    (x.slidDown m vs).xreg i = if m ≤ i then x.xreg (i - m) else vs.getD i 0 := by
  rw [Hart.slidDown, Hart.xreg, toList_windowOf_getD _ hi]

/-- Deposits that land change registers only: whatever a register write leaves alone, they leave alone. -/
theorem foldl_setX_frame {β : Type} (f : Hart → β) (hf : ∀ z i v, f (z.setX i v) = f z) (l : List (Nat × Word × Option HartId)) :
    ∀ x : Hart, f (l.foldl (fun z p => z.setX p.1 p.2.1) x) = f x := by
  induction l with
  | nil => exact fun _ => rfl
  | cons p r ih => exact fun x => (ih _).trans (hf ..)

@[simp] theorem Hart.restored_pc (x : Hart) : x.restored.pc = x.trap.xpc := foldl_setX_frame Hart.pc (fun _ _ _ => rfl) _ _
@[simp] theorem Hart.restored_trap (x : Hart) : x.restored.trap = { x.trap with mode := x.trap.pmode, trapped := false } :=
  foldl_setX_frame Hart.trap (fun _ _ _ => rfl) _ _
@[simp] theorem Hart.restored_wbase (x : Hart) : x.restored.wbase = x.wbase := foldl_setX_frame Hart.wbase (fun _ _ _ => rfl) _ _
/-- A thread for which no deposit waits keeps its registers. -/
theorem Hart.xreg_restored {x : Hart} (h : x.deposits = []) (i : Nat) : x.restored.xreg i = x.xreg i := by
  rw [Hart.restored, h]; rfl

/-- R157: after `xret` the supervisor's x0 to x3 are x12 to x15, and the twelve words of the stack are x0 to x11. -/
theorem Hart.xreg_slidDown_restored {x : Hart} (h : x.deposits = []) (vs : List Word) :
    (∀ i, i < 4 → (x.slidDown 12 vs).restored.xreg (i + 12) = x.xreg i) ∧
      ∀ i, i < 12 → (x.slidDown 12 vs).restored.xreg i = vs.getD i 0 := by
  have hd : (x.slidDown 12 vs).deposits = [] := h
  constructor <;> intro i hi <;> rw [Hart.xreg_restored hd, Hart.xreg_slidDown _ _ _ (by omega)]
  · rw [if_pos (by omega), Nat.add_sub_cancel]
  · rw [if_neg (by omega)]

/-- Settles O8: each clause is the lemma of the check, the wait, the return or the end that it speaks of. -/
theorem trapReturn : Obligations.TrapReturn := by
  unfold Obligations.TrapReturn
  intro s x hr
  refine ⟨?user, ?untrapped, ?returns, ?waits, ?ends⟩
  case user => exact execXret_user hr
  case untrapped => exact execXret_untrapped hr
  case returns =>
    intro vs hm ht hd hw hp hb hs
    exact ⟨execXret_next hr hm ht hd hw hp hb hs, Hart.restored_pc _, Hart.restored_trap _, Hart.restored_wbase _,
      fun hnone => Hart.xreg_slidDown_restored hnone vs⟩
  case waits => exact execXret_stalls hr
  case ends =>
    intro hm ht hd hth
    have hx : s.go.counted.hart? s.go.counted.ir.hart = some x := by simpa using hr.found
    exact ⟨fun hp => execXret_ends hr hm ht hd hth (trapReturnM_badTarget hx hp),
      fun hp hb => execXret_ends hr hm ht hd hth (trapReturnM_underflow hx hp hb)⟩

end Sys2Proof.Machine
end
